-- ==== Sys2Proof/Word.lean ====
section
/-! DEFINITION. The word types of the block (00_scope.md R8, R9): u8, u16, u32, u64. A word whose width W depends on
the codec (uW, W at most 64) is held in a u64 with its bits from W upward 0 (log entry 15). -/

namespace Sys2Proof

/-- u8: one channel byte. -/
abbrev Byte := BitVec 8

/-- u16: an instance id as it travels in a command header (30_encoding.md R101). -/
abbrev U16 := BitVec 16

/-- u32: the bit-width accumulator (42_bitwidth.md R250). -/
abbrev U32 := BitVec 32

/-- u64: operand words, offsets, counters, and the container of a uW word. -/
abbrev U64 := BitVec 64

end Sys2Proof
end

