-- ==== Sys2Proof/Syntax.lean ====
section
/-! DEFINITION. The instructions: one constructor per row of the opcode table (30_encoding.md R103, R112 to R114,
R122), with the operands of R102, R103 and R105. The fifteen commands come first, the eleven flag-byte units after. -/

namespace Sys2Proof

/-- The opcodes of the fifteen commands (30_encoding.md R103, R108). -/
inductive Opcode where
  | init | writeOne | write | readOne | read | skip | commit | reset | flush | resume
  | createReader | createWriter | getChannelCount | getItemCount | construct
deriving DecidableEq, Repr, Inhabited

/-- A flag-byte variant (40_flagbyte.md R150): which decode table and which value nibbles a flag byte has. -/
inductive Variant where
  | fb32 | fb64 | fb64lsb
deriving DecidableEq, Repr, Inhabited

/-- An item operand as the host sends it (30_encoding.md R102): one word for a numeric item; for a byte-string item the
LEN word and the packed words, kept raw, because padding bytes that are not 0 are an argument fault, not a decode fault. -/
inductive Operand where
  | num (w : U64)
  | str (len : U64) (words : List U64)
deriving DecidableEq, Repr

/-- How the addressed instance shapes the operands of a command (30_encoding.md R108): ChannelCount = 2 or 1, and
byte-string or numeric items. -/
structure Shape where
  twoChannels : Bool
  strings : Bool
deriving DecidableEq, Repr, Inhabited

/-- The shape of every numeric base, and the one taken where the header names no instance (log entry 24). -/
def Shape.numeric : Shape := { twoChannels := false, strings := false }

/-- The instructions of the block. `inst` is the instance id of the header (30_encoding.md R101). -/
inductive Instr where
  /-- INIT, 44_pipeline.md R293. -/
  | init (inst : U16) (ch0 : U64) (ch1 : Option U64)
  /-- WRITE_ONE, R294. -/
  | writeOne (inst : U16) (item : Operand)
  /-- WRITE, R295: the buffer has BUFLEN operands. -/
  | write (inst : U16) (buflen offset count : U64) (buf : List Operand)
  /-- READ_ONE, R296. -/
  | readOne (inst : U16)
  /-- READ, R297. -/
  | read (inst : U16) (buflen offset count : U64)
  /-- SKIP, R298. -/
  | skip (inst : U16) (count : U64)
  /-- COMMIT, R299. -/
  | commit (inst : U16)
  /-- RESET, R300. -/
  | reset (inst : U16)
  /-- FLUSH, R301. -/
  | flush (inst : U16)
  /-- RESUME, R302. -/
  | resume (inst : U16) (ch0 : U64) (ch1 : Option U64) (rows : U64)
  /-- CREATE_READER, R303. -/
  | createReader (inst : U16)
  /-- CREATE_WRITER, R304. -/
  | createWriter (inst : U16)
  /-- GET_CHANNEL_COUNT, R305. -/
  | getChannelCount (inst : U16)
  /-- GET_ITEM_COUNT, R306. -/
  | getItemCount (inst : U16)
  /-- CONSTRUCT, R308: the descriptor word, and the ITEMCOUNT word when DESC.IC = 1. -/
  | construct (desc : U64) (itemCount : Option U64)
  /-- FB32.RLE, 40_flagbyte.md R182: F[7:5] and F[4:0]. -/
  | fb32Rle (code : BitVec 3) (low5 : BitVec 5)
  /-- FB32.SINGLE, R181: F[7:4]. -/
  | fb32Single (hi : BitVec 4)
  /-- FB32.PAIR, R180: F[7:4] and F[3:0]. -/
  | fb32Pair (hi lo : BitVec 4)
  /-- FB32.RSVD, R183. -/
  | fb32Rsvd (hi lo : BitVec 4)
  /-- FB64.RLE, R186: F[3:0]. -/
  | fb64Rle (runm1 : BitVec 4)
  /-- FB64.SINGLE, R185. -/
  | fb64Single (hi : BitVec 4)
  /-- FB64.PAIR, R184. -/
  | fb64Pair (hi lo : BitVec 4)
  /-- FB64LSB.RLE, R189: F[7:4] and F[3:0]. -/
  | fb64lsbRle (code low4 : BitVec 4)
  /-- FB64LSB.SINGLE, R188. -/
  | fb64lsbSingle (hi : BitVec 4)
  /-- FB64LSB.PAIR, R187. -/
  | fb64lsbPair (hi lo : BitVec 4)
  /-- FB64LSB.RSVD, R190. -/
  | fb64lsbRsvd (hi lo : BitVec 4)
deriving DecidableEq, Repr

/-- The pseudo-instruction `WRITE inst, [v0, …]` (30_encoding.md R110). -/
def Instr.pseudoWrite (inst : U16) (items : List Operand) : Instr :=
  .write inst (BitVec.ofNat 64 items.length) 0 (BitVec.ofNat 64 items.length) items

/-- The pseudo-instruction `READ inst, n` (30_encoding.md R110). -/
def Instr.pseudoRead (inst : U16) (n : U64) : Instr := .read inst n 0 n

/-- The pseudo-instruction `DISCARD inst, n` (30_encoding.md R110). -/
def Instr.pseudoDiscard (inst : U16) (n : U64) : Instr := .skip inst n

end Sys2Proof
end

