-- ==== Sys2Proof/WellFormed.lean ====
section
/-! DEFINITION. Which instructions the encodings of 30_encoding.md can express: operand counts, the ranges of the
flag-byte nibbles, and the operand forms of the addressed instance's shape. -/

namespace Sys2Proof

/-- A byte-string operand has ceil(LEN/8) packed words (30_encoding.md R102). -/
def Operand.wellFormed : Operand → Bool
  | .num _ => true
  | .str len words => words.length == (len.toNat + 7) / 8

/-- The operand has the form of the shape's items. -/
def Operand.fits (sh : Shape) : Operand → Bool
  | .num _ => !sh.strings
  | .str _ _ => sh.strings

/-- The classes of the opcode table's rows, and the operand counts of R102, R103 and R105. -/
def Instr.wellFormed : Instr → Bool
  | .init _ _ _ => true
  | .writeOne _ item => item.wellFormed
  | .write _ buflen _ _ buf => buf.length == buflen.toNat && buf.all Operand.wellFormed
  | .readOne _ => true
  | .read _ _ _ _ => true
  | .skip _ _ => true
  | .commit _ => true
  | .reset _ => true
  | .flush _ => true
  | .resume _ _ _ _ => true
  | .createReader _ => true
  | .createWriter _ => true
  | .getChannelCount _ => true
  | .getItemCount _ => true
  | .construct desc itemCount => itemCount.isSome == desc.getLsbD 7
  | .fb32Rle code _ => decide (5 ≤ code.toNat)
  | .fb32Single hi => decide (hi.toNat / 2 ≤ 4)
  | .fb32Pair hi lo => decide (hi.toNat / 2 ≤ 4) && decide (lo.toNat / 2 ≤ 4)
  | .fb32Rsvd hi lo => decide (hi.toNat / 2 ≤ 4) && decide (10 ≤ lo.toNat) && decide (lo.toNat ≤ 14)
  | .fb64Rle _ => true
  | .fb64Single hi => hi != 0xF#4
  | .fb64Pair hi lo => hi != 0xF#4 && lo != 0xF#4
  | .fb64lsbRle code _ => decide (9 ≤ code.toNat)
  | .fb64lsbSingle hi => decide (hi.toNat ≤ 8)
  | .fb64lsbPair hi lo => decide (hi.toNat ≤ 8) && decide (lo.toNat ≤ 8)
  | .fb64lsbRsvd hi lo => decide (hi.toNat ≤ 8) && decide (9 ≤ lo.toNat) && decide (lo.toNat ≤ 14)

/-- The instruction's operands have the forms that the addressed instance's shape gives them (30_encoding.md R103,
R108): one or two channel ids, numeric or byte-string items. -/
def Instr.fits (sh : Shape) : Instr → Bool
  | .init _ _ ch1 => ch1.isSome == sh.twoChannels
  | .writeOne _ item => item.fits sh
  | .write _ _ _ _ buf => buf.all (Operand.fits sh)
  | .readOne _ => true
  | .read _ _ _ _ => true
  | .skip _ _ => true
  | .commit _ => true
  | .reset _ => true
  | .flush _ => true
  | .resume _ _ ch1 _ => ch1.isSome == sh.twoChannels
  | .createReader _ => true
  | .createWriter _ => true
  | .getChannelCount _ => true
  | .getItemCount _ => true
  | .construct _ _ => true
  | .fb32Rle _ _ => true
  | .fb32Single _ => true
  | .fb32Pair _ _ => true
  | .fb32Rsvd _ _ => true
  | .fb64Rle _ => true
  | .fb64Single _ => true
  | .fb64Pair _ _ => true
  | .fb64lsbRle _ _ => true
  | .fb64lsbSingle _ => true
  | .fb64lsbPair _ _ => true
  | .fb64lsbRsvd _ _ => true

end Sys2Proof
end

