-- ==== Sys2Proof/Decode.lean ====
section
/-! DEFINITION. Bytes to instructions and back (30_encoding.md). A command is a u64 header and u64 operand words, each
least significant byte first (R101, R102); a flag-byte unit's instruction word is its flag byte (R112 to R114), its
data bytes stay in the channel and are read by the unit's meaning. -/

namespace Sys2Proof

/-! ## Byte order -/

/-- `LE_k(u)`, the k low bytes of u, least significant first (00_scope.md R10). -/
def leBytes : Nat → Nat → List Byte
  | 0, _ => []
  | k + 1, u => BitVec.ofNat 8 u :: leBytes k (u / 256)

/-- `unLE(L)` (00_scope.md R10). -/
def unLE : List Byte → Nat
  | [] => 0
  | b :: bs => b.toNat + 256 * unLE bs

/-- The eight bytes of a u64 word as it is sent (30_encoding.md R101, R102). -/
def wordBytes (w : U64) : List Byte := leBytes 8 w.toNat

/-- The bytes of a word list, in order. -/
def wordsBytes (ws : List U64) : List Byte := ws.flatMap wordBytes

/-- Bytes read as u64 words; `none` when they are no whole number of words. -/
def wordsOf : List Byte → Option (List U64)
  | [] => some []
  | b0 :: b1 :: b2 :: b3 :: b4 :: b5 :: b6 :: b7 :: rest =>
    (wordsOf rest).map (BitVec.ofNat 64 (unLE [b0, b1, b2, b3, b4, b5, b6, b7]) :: ·)
  | _ => none

/-! ## Opcodes and the header word -/

/-- The opcode byte (30_encoding.md R103). -/
def Opcode.code : Opcode → Byte
  | .init => 0x01#8
  | .writeOne => 0x02#8
  | .write => 0x03#8
  | .readOne => 0x04#8
  | .read => 0x05#8
  | .skip => 0x06#8
  | .commit => 0x07#8
  | .reset => 0x08#8
  | .flush => 0x09#8
  | .resume => 0x0A#8
  | .createReader => 0x0B#8
  | .createWriter => 0x0C#8
  | .getChannelCount => 0x0D#8
  | .getItemCount => 0x0E#8
  | .construct => 0x0F#8

/-- The opcode of a byte; 0x00 and 0x10 to 0xFF are reserved (30_encoding.md R104, R108). -/
def Opcode.ofByte (b : Byte) : Option Opcode :=
  match b.toNat with
  | 0x01 => some .init
  | 0x02 => some .writeOne
  | 0x03 => some .write
  | 0x04 => some .readOne
  | 0x05 => some .read
  | 0x06 => some .skip
  | 0x07 => some .commit
  | 0x08 => some .reset
  | 0x09 => some .flush
  | 0x0A => some .resume
  | 0x0B => some .createReader
  | 0x0C => some .createWriter
  | 0x0D => some .getChannelCount
  | 0x0E => some .getItemCount
  | 0x0F => some .construct
  | _ => none

/-- The fields of a command header word (30_encoding.md R101). -/
structure Header where
  opcode : Byte
  rsv0 : Byte
  inst : U16
  rsv1 : U32
deriving DecidableEq, Repr

/-- Header bits 7:0, 15:8, 31:16 and 63:32. -/
def headerOf (w : U64) : Header :=
  { opcode := w.extractLsb' 0 8, rsv0 := w.extractLsb' 8 8, inst := w.extractLsb' 16 16, rsv1 := w.extractLsb' 32 32 }

/-- The header word of an opcode and an instance id, the reserved fields 0. -/
def headerWord (op : Opcode) (inst : U16) : U64 :=
  BitVec.ofNat 64 (op.code.toNat + inst.toNat * 2 ^ 16)

/-! ## Rejections -/

/-- Why bytes are no instruction. The first three are the header faults of 30_encoding.md R104; the last four say that
the host's bytes are not one whole command (log entry 6). -/
inductive DecodeError where
  | reservedOpcode (opcode : Byte)
  | reservedField
  | instOnConstruct
  | noHeader
  | partialWord
  | missingOperand
  | trailingWords
deriving DecidableEq, Repr

/-- The rejections that R104 makes the fault IllegalCommand. -/
def DecodeError.isIllegal : DecodeError → Bool
  | .reservedOpcode _ => true
  | .reservedField => true
  | .instOnConstruct => true
  | .noHeader => false
  | .partialWord => false
  | .missingOperand => false
  | .trailingWords => false

/-! ## Operand words -/

/-- The first n words and the rest; `none` when there are fewer. -/
def takeWords : Nat → List U64 → Option (List U64 × List U64)
  | 0, ws => some ([], ws)
  | _ + 1, [] => none
  | n + 1, w :: ws => (takeWords n ws).map fun r => (w :: r.1, r.2)

/-- One item operand in the shape's form (30_encoding.md R102). -/
def decodeOperand (sh : Shape) : List U64 → Option (Operand × List U64)
  | [] => none
  | w :: ws =>
    if sh.strings then (takeWords ((w.toNat + 7) / 8) ws).map fun r => (.str w r.1, r.2)
    else some (.num w, ws)

/-- n item operands. -/
def decodeOperands (sh : Shape) : Nat → List U64 → Option (List Operand × List U64)
  | 0, ws => some ([], ws)
  | n + 1, ws =>
    match decodeOperand sh ws with
    | none => none
    | some (o, rest) => (decodeOperands sh n rest).map fun r => (o :: r.1, r.2)

/-- CH0, and CH1 when ChannelCount = 2 (30_encoding.md R103). -/
def decodeChannels (sh : Shape) : List U64 → Option (U64 × Option U64 × List U64)
  | [] => none
  | c0 :: ws =>
    if sh.twoChannels then
      match ws with
      | [] => none
      | c1 :: rest => some (c0, some c1, rest)
    else some (c0, none, ws)

/-- The operands of a command after its header (30_encoding.md R103), with the words left over. -/
def decodeBody (sh : Shape) (op : Opcode) (inst : U16) (ws : List U64) : Option (Instr × List U64) :=
  match op with
  | .init => (decodeChannels sh ws).map fun r => (.init inst r.1 r.2.1, r.2.2)
  | .writeOne => (decodeOperand sh ws).map fun r => (.writeOne inst r.1, r.2)
  | .write =>
    match ws with
    | l :: o :: n :: rest => (decodeOperands sh l.toNat rest).map fun r => (.write inst l o n r.1, r.2)
    | _ => none
  | .readOne => some (.readOne inst, ws)
  | .read =>
    match ws with
    | l :: o :: n :: rest => some (.read inst l o n, rest)
    | _ => none
  | .skip =>
    match ws with
    | n :: rest => some (.skip inst n, rest)
    | [] => none
  | .commit => some (.commit inst, ws)
  | .reset => some (.reset inst, ws)
  | .flush => some (.flush inst, ws)
  | .resume =>
    match decodeChannels sh ws with
    | some (c0, c1, n :: rest) => some (.resume inst c0 c1 n, rest)
    | _ => none
  | .createReader => some (.createReader inst, ws)
  | .createWriter => some (.createWriter inst, ws)
  | .getChannelCount => some (.getChannelCount inst, ws)
  | .getItemCount => some (.getItemCount inst, ws)
  | .construct =>
    match ws with
    | [] => none
    | d :: rest =>
      if d.getLsbD 7 then
        match rest with
        | [] => none
        | n :: rest' => some (.construct d (some n), rest')
      else some (.construct d none, rest)

/-- The header checks of 30_encoding.md R104 that need no state: the opcode, RSV0, RSV1, and INST = 0 on CONSTRUCT. -/
def decodeHeader (w : U64) : Except DecodeError (Opcode × U16) :=
  let h := headerOf w
  match Opcode.ofByte h.opcode with
  | none => .error (.reservedOpcode h.opcode)
  | some op =>
    if h.rsv0 ≠ 0 ∨ h.rsv1 ≠ 0 then .error .reservedField
    else if op = .construct ∧ h.inst ≠ 0 then .error .instOnConstruct
    else .ok (op, h.inst)

/-- A command from its words, with the words left over. -/
def decodeWords (sh : Shape) : List U64 → Except DecodeError (Instr × List U64)
  | [] => .error .noHeader
  | w :: ws =>
    match decodeHeader w with
    | .error e => .error e
    | .ok (op, inst) =>
      match decodeBody sh op inst ws with
      | none => .error .missingOperand
      | some r => .ok r

/-! ## Flag bytes -/

/-- F[7:4], the high nibble (00_scope.md R8, 20_memory.md R73). -/
def hiNib (f : Byte) : BitVec 4 := f.extractLsb' 4 4

/-- F[3:0], the low nibble. -/
def loNib (f : Byte) : BitVec 4 := f.extractLsb' 0 4

/-- The kinds of flag byte (30_encoding.md R111, R116). -/
inductive FlagKind where
  | rle | single | pair | reserved
deriving DecidableEq, Repr

/-- Classification of a flag byte, in the priority order of 30_encoding.md R112, R113 and R114. -/
def flagKind (v : Variant) (f : Byte) : FlagKind :=
  match v with
  | .fb32 =>
    if 5 ≤ (f.extractLsb' 5 3).toNat then .rle
    else if (loNib f).toNat = 15 then .single
    else if (loNib f).toNat / 2 ≤ 4 then .pair
    else .reserved
  | .fb64 =>
    if (hiNib f).toNat = 15 then .rle
    else if (loNib f).toNat = 15 then .single
    else .pair
  | .fb64lsb =>
    if 9 ≤ (hiNib f).toNat then .rle
    else if (loNib f).toNat = 15 then .single
    else if (loNib f).toNat ≤ 8 then .pair
    else .reserved

/-- The unit a flag byte announces. FB64 has no reserved flag byte (R113), so its fourth class is never met. -/
def decodeUnit (v : Variant) (f : Byte) : Instr :=
  match v, flagKind v f with
  | .fb32, .rle => .fb32Rle (f.extractLsb' 5 3) (f.extractLsb' 0 5)
  | .fb32, .single => .fb32Single (hiNib f)
  | .fb32, .pair => .fb32Pair (hiNib f) (loNib f)
  | .fb32, .reserved => .fb32Rsvd (hiNib f) (loNib f)
  | .fb64, .rle => .fb64Rle (loNib f)
  | .fb64, .single => .fb64Single (hiNib f)
  | .fb64, .pair => .fb64Pair (hiNib f) (loNib f)
  | .fb64, .reserved => .fb64Pair (hiNib f) (loNib f)
  | .fb64lsb, .rle => .fb64lsbRle (hiNib f) (loNib f)
  | .fb64lsb, .single => .fb64lsbSingle (hiNib f)
  | .fb64lsb, .pair => .fb64lsbPair (hiNib f) (loNib f)
  | .fb64lsb, .reserved => .fb64lsbRsvd (hiNib f) (loNib f)

/-! ## The decoder -/

/-- Where the bytes come from, which of the two encodings of 30_encoding.md R100 they are in: a command of the host, for
an instance of that shape, or a unit at a reader's fetch pointer, of that variant. -/
inductive Port where
  | command (sh : Shape)
  | unit (v : Variant)
deriving DecidableEq, Repr

/-- The instruction at the head of a byte list, and the bytes left over. -/
def decode (p : Port) (bs : List Byte) : Except DecodeError (Instr × List Byte) :=
  match p with
  | .command sh =>
    match wordsOf bs with
    | none => .error .partialWord
    | some ws =>
      match decodeWords sh ws with
      | .error e => .error e
      | .ok (i, rest) => .ok (i, bs.drop (bs.length - 8 * rest.length))
  | .unit v =>
    match bs with
    | [] => .error .noHeader
    | f :: rest => .ok (decodeUnit v f, rest)

/-- A command packet holds one whole command and nothing else (30_encoding.md R108: the length is known). -/
def decodePacket (sh : Shape) (bs : List Byte) : Except DecodeError Instr :=
  match decode (.command sh) bs with
  | .error e => .error e
  | .ok (i, []) => .ok i
  | .ok (_, _ :: _) => .error .trailingWords

/-! ## The encoder -/

/-- The words of an item operand (30_encoding.md R102). -/
def Operand.words : Operand → List U64
  | .num w => [w]
  | .str len ws => len :: ws

/-- The flag byte of two nibbles. -/
def flagByte (hi lo : BitVec 4) : Byte := hi ++ lo

/-- The words of a command, header first. -/
def encodeWords : Instr → List U64
  | .init inst c0 c1 => headerWord .init inst :: c0 :: c1.toList
  | .writeOne inst item => headerWord .writeOne inst :: item.words
  | .write inst l o n buf => headerWord .write inst :: l :: o :: n :: buf.flatMap Operand.words
  | .readOne inst => [headerWord .readOne inst]
  | .read inst l o n => [headerWord .read inst, l, o, n]
  | .skip inst n => [headerWord .skip inst, n]
  | .commit inst => [headerWord .commit inst]
  | .reset inst => [headerWord .reset inst]
  | .flush inst => [headerWord .flush inst]
  | .resume inst c0 c1 n => headerWord .resume inst :: c0 :: (c1.toList ++ [n])
  | .createReader inst => [headerWord .createReader inst]
  | .createWriter inst => [headerWord .createWriter inst]
  | .getChannelCount inst => [headerWord .getChannelCount inst]
  | .getItemCount inst => [headerWord .getItemCount inst]
  | .construct d n => headerWord .construct 0 :: d :: n.toList
  | .fb32Rle _ _ => []
  | .fb32Single _ => []
  | .fb32Pair _ _ => []
  | .fb32Rsvd _ _ => []
  | .fb64Rle _ => []
  | .fb64Single _ => []
  | .fb64Pair _ _ => []
  | .fb64lsbRle _ _ => []
  | .fb64lsbSingle _ => []
  | .fb64lsbPair _ _ => []
  | .fb64lsbRsvd _ _ => []

/-- The variant and the flag byte of a unit; `none` for a command. -/
def Instr.flag? : Instr → Option (Variant × Byte)
  | .init _ _ _ => none
  | .writeOne _ _ => none
  | .write _ _ _ _ _ => none
  | .readOne _ => none
  | .read _ _ _ _ => none
  | .skip _ _ => none
  | .commit _ => none
  | .reset _ => none
  | .flush _ => none
  | .resume _ _ _ _ => none
  | .createReader _ => none
  | .createWriter _ => none
  | .getChannelCount _ => none
  | .getItemCount _ => none
  | .construct _ _ => none
  | .fb32Rle code low5 => some (.fb32, code ++ low5)
  | .fb32Single hi => some (.fb32, flagByte hi 0xF#4)
  | .fb32Pair hi lo => some (.fb32, flagByte hi lo)
  | .fb32Rsvd hi lo => some (.fb32, flagByte hi lo)
  | .fb64Rle runm1 => some (.fb64, flagByte 0xF#4 runm1)
  | .fb64Single hi => some (.fb64, flagByte hi 0xF#4)
  | .fb64Pair hi lo => some (.fb64, flagByte hi lo)
  | .fb64lsbRle code low4 => some (.fb64lsb, flagByte code low4)
  | .fb64lsbSingle hi => some (.fb64lsb, flagByte hi 0xF#4)
  | .fb64lsbPair hi lo => some (.fb64lsb, flagByte hi lo)
  | .fb64lsbRsvd hi lo => some (.fb64lsb, flagByte hi lo)

/-- The bytes of an instruction: a command's words as they are sent, a unit's flag byte. -/
def encode (i : Instr) : List Byte :=
  match i.flag? with
  | some (_, f) => [f]
  | none => wordsBytes (encodeWords i)

/-- The port an instruction is read at: a unit's own variant; the given shape for a command. -/
def Instr.port (sh : Shape) (i : Instr) : Port :=
  match i.flag? with
  | some (v, _) => .unit v
  | none => .command sh

/-! ## One table word -/

/-- The bytes of a table word: its `nbits / 8` bytes, then zero bytes up to the longest command without items (four
words). -/
def tableBytes (nbits w : Nat) : List Byte :=
  let body := leBytes (nbits / 8) w
  let want := if body.length ≤ 32 then 32 - body.length else (8 - body.length % 8) % 8
  body ++ List.replicate want 0

/-- The instruction the decoder reads from a table word. A byte alone does not say in which of the four formats it
stands (30_encoding.md R122): it is read as the first row of the table it matches, a command if it is a defined opcode,
else an FB32 flag byte (log entry 5). -/
def decodeTableWord (nbits w : Nat) : Option Instr :=
  match decode (.command .numeric) (tableBytes nbits w) with
  | .ok (i, _) => some i
  | .error _ => if nbits = 8 then some (decodeUnit .fb32 (BitVec.ofNat 8 w)) else none

end Sys2Proof
end

