-- ==== Sys2Proof/Machine/Regs.lean ====
section
/-! DEFINITION. The registers of a codec instance (10_state.md R22 to R44) and their reset values (R49,
70_reset_and_hazards.md R383). -/

namespace Sys2Proof.Machine

/-! ## Configuration registers, R22 to R30 -/

/-- CFG.BASE (R23). -/
inductive Base where
  | fb32 | fb64 | fb64lsb | bw1 | bw2 | bw4 | bw8 | bw16 | bool | vari | vard
deriving DecidableEq, Repr, Inhabited

/-- A transform of CFG.XFORMS (R26). -/
inductive Xform where
  | dd | xor | dfcm
deriving DecidableEq, Repr, Inhabited

/-- CFG.ROLE (R27). -/
inductive Role where
  | reader | writer
deriving DecidableEq, Repr, Inhabited

/-- CFG.VARKIND (R29). -/
inductive VarKind where
  | bytes | utf8 | substream
deriving DecidableEq, Repr, Inhabited

/-- The configuration registers, written once at construction (R22). -/
structure Cfg where
  base : Base
  xforms : List Xform
  role : Role
  itemCount : Option U64
  varKind : VarKind
deriving DecidableEq, Repr, Inhabited

/-- CFG.W (R24); 0 for VARI and VARD, which have no word width. -/
def Base.width : Base → Nat
  | .fb32 => 32
  | .fb64 => 64
  | .fb64lsb => 64
  | .bw1 => 1
  | .bw2 => 2
  | .bw4 => 4
  | .bw8 => 8
  | .bw16 => 16
  | .bool => 1
  | .vari => 0
  | .vard => 0

/-- CFG.OPW (R25); 0 for VARI and VARD, whose items are byte strings. -/
def Base.opWidth : Base → Nat
  | .fb32 => 32
  | .fb64 => 64
  | .fb64lsb => 64
  | .bw1 => 8
  | .bw2 => 8
  | .bw4 => 8
  | .bw8 => 8
  | .bw16 => 16
  | .bool => 1
  | .vari => 0
  | .vard => 0

/-- Byte-string items (43_varlen.md R270) rather than numeric ones. -/
def Base.strings : Base → Bool
  | .vari => true
  | .vard => true
  | .fb32 => false
  | .fb64 => false
  | .fb64lsb => false
  | .bw1 => false
  | .bw2 => false
  | .bw4 => false
  | .bw8 => false
  | .bw16 => false
  | .bool => false

/-- ChannelCount (R30). -/
def Base.channelCount (b : Base) : Nat := if b = .vard then 2 else 1

/-- The bases that accept transforms (R26, 92_eei_decisions.md D16). -/
def Base.takesXforms (b : Base) : Bool := !b.strings && b != .bool

/-- The operand shape of an instance of this base (30_encoding.md R108). -/
def Base.shape (b : Base) : Shape := { twoChannels := decide (b.channelCount = 2), strings := b.strings }

/-- The flag-byte variant of a numeric flag-byte base. -/
def Base.variant? : Base → Option Variant
  | .fb32 => some .fb32
  | .fb64 => some .fb64
  | .fb64lsb => some .fb64lsb
  | .bw1 => none
  | .bw2 => none
  | .bw4 => none
  | .bw8 => none
  | .bw16 => none
  | .bool => none
  | .vari => none
  | .vard => none

/-! ## Channel slots, R30 -/

/-- Slot 0, the data channel, and slot 1, the length channel that only VARD has (R30). -/
inductive Slot where
  | data | lens
deriving DecidableEq, Repr, Inhabited

/-- The slot number, as STATUS.FAULT.SLOT records it (R32). -/
def Slot.number : Slot → Byte
  | .data => 0
  | .lens => 1

/-- One value per slot. -/
structure PerSlot (α : Type) where
  data : α
  lens : α
deriving DecidableEq, Repr, Inhabited

def PerSlot.get {α : Type} (p : PerSlot α) : Slot → α
  | .data => p.data
  | .lens => p.lens

def PerSlot.set {α : Type} (p : PerSlot α) (sl : Slot) (x : α) : PerSlot α :=
  match sl with
  | .data => { p with data := x }
  | .lens => { p with lens := x }

/-- The slots s < ChannelCount of a base, in order. -/
def Base.slots (b : Base) : List Slot := if b.channelCount = 2 then [.data, .lens] else [.data]

/-! ## Status registers, R31 to R34 -/

/-- STATUS.LIFE (R31). -/
inductive Life where
  | uninit | empty | writing | committed | reading | faulted
deriving DecidableEq, Repr, Inhabited

/-- STATUS.FAULT (R32). -/
structure FaultRec where
  code : Byte
  opcode : Byte
  slot : Byte
  offset : U64
deriving DecidableEq, Repr, Inhabited

/-- "Reset value: all fields 0 except SLOT = 0xFF" (R32). -/
def FaultRec.reset : FaultRec := { code := 0, opcode := 0, slot := 0xFF#8, offset := 0 }

/-- BIND[s] and SEEN[s] of a bound slot (R34). -/
structure Binding where
  chan : U64
  seen : U64
deriving DecidableEq, Repr, Inhabited

/-! ## Working registers, R35 to R44 -/

/-- Flag-byte writer registers FBW_ZRUN, FBW_PV, FBW_PEND (R36). -/
structure FbwRegs where
  zrun : Nat
  pv : Bool
  pend : U64
deriving DecidableEq, Repr, Inhabited

def FbwRegs.reset : FbwRegs := { zrun := 0, pv := false, pend := 0 }

/-- Delta-Delta registers: DD_PREV, DD_FILL and DD_FRAME of a writer stage (R41), DD_PREV, DD_FP and DD_MIN of a reader
stage (R42). A stage has one role and uses its role's registers; the others keep their reset value. -/
structure DdRegs where
  prev : U64
  fill : Nat
  frame : List U64
  fp : Nat
  min : U64
deriving DecidableEq, Repr, Inhabited

/-- DD_FRAME[0..15], all 0 (R41). -/
def ddFrameReset : List U64 := List.replicate 16 0

def DdRegs.reset : DdRegs := { prev := 0, fill := 0, frame := ddFrameReset, fp := 0, min := 0 }

/-- DFCM_TABLE, DFCM_HASH, DFCM_LAST (R43). The table lists its entries that are not 0, with rising indices (log entry
16). -/
structure DfcmRegs where
  table : List (Nat × U64)
  hash : Nat
  last : U64
deriving DecidableEq, Repr, Inhabited

def DfcmRegs.reset : DfcmRegs := { table := [], hash := 0, last := 0 }

/-- The registers of one transform stage; every stage has its own (R51). -/
inductive StageRegs where
  | dd (r : DdRegs)
  | xor (prev : U64)
  | dfcm (r : DfcmRegs)
deriving DecidableEq, Repr, Inhabited

/-- Every transform register is 0 at stream start (41_transforms.md R212). -/
def StageRegs.reset : Xform → StageRegs
  | .dd => .dd DdRegs.reset
  | .xor => .xor 0
  | .dfcm => .dfcm DfcmRegs.reset

/-- Which transform a stage's registers belong to. -/
def StageRegs.kind : StageRegs → Xform
  | .dd _ => .dd
  | .xor _ => .xor
  | .dfcm _ => .dfcm

/-- The working registers of an instance (R35 to R44). `cur` is RD_CUR, `carry` and `carryVal` are RD_CARRY and
RD_CARRYVAL, `xf` holds the registers of T1 to Tk in order. -/
structure Work where
  stage : PerSlot (List Byte)
  fbw : FbwRegs
  cur : PerSlot U64
  carry : Int
  carryVal : U64
  bwAcc : U32
  bwNbits : Nat
  bwRidx : U64
  xf : List StageRegs
deriving DecidableEq, Repr, Inhabited

/-- Every working register at its reset value (R49, 70_reset_and_hazards.md R383). -/
def Work.reset (cfg : Cfg) : Work :=
  { stage := { data := [], lens := [] }
    fbw := FbwRegs.reset
    cur := { data := 0, lens := 0 }
    carry := 0
    carryVal := 0
    bwAcc := 0
    bwNbits := 0
    bwRidx := 0
    xf := cfg.xforms.map StageRegs.reset }

end Sys2Proof.Machine
end

