-- ==== Sys2Proof/Config.lean ====
section
/-! DEFINITION. What an implementation fixes (00_scope.md R7), and the one value the spec leaves unspecified. -/

namespace Sys2Proof

/-- The implementation parameters of 00_scope.md R7. They stand in State and no step changes them, so that a statement
about every state holds for every value of them (log entry 1). -/
structure Params where
  stageBytes : Nat
  dfcmBits : Nat
  maxInstances : Nat
  maxChannels : Nat
  channelMax : Nat
deriving DecidableEq, Repr

/-- The ranges that 00_scope.md R7 gives the parameters. -/
def Params.legal (p : Params) : Bool :=
  decide (1 ≤ p.stageBytes) && decide (1 ≤ p.dfcmBits) && decide (p.dfcmBits ≤ 16) &&
  decide (1 ≤ p.maxInstances) && decide (p.maxInstances ≤ 65535) &&
  decide (1 ≤ p.maxChannels) && decide (p.channelMax < 2 ^ 64)

/-- The parameters of the machine after reset. DFCM_TABLE_BITS is the spec's default (R7). The others are OPEN in the
spec. DESIGN CHOICE, unsafe if a statement rests on them: none does (log entry 1). -/
def Params.reset : Params :=
  { stageBytes := 4096, dfcmBits := 8, maxInstances := 65535, maxChannels := 65536, channelMax := 2 ^ 64 - 1 }

/-- A FREE VALUE: the working registers of an instance after a fault found during execution, "so their values are not
specified" (60_exceptions.md R360, 70_reset_and_hazards.md R383, 93_implementation_defined.md I21). The argument is a
counter of State that advances at each use. Nothing constrains the value (log entry 2). -/
opaque Config.unspecifiedWork : Nat → Machine.Work

end Sys2Proof
end

