-- ==== Sys2Proof/Machine/State.lean ====
section
/-! DEFINITION. The state of the block (10_state.md R21) as plain data, its reset (70_reset_and_hazards.md R380), and the
reasons a step can stop. The faults of 60_exceptions.md are NOT such stops: the spec describes their entry (R359), so
they are next states (Machine/Ops.lean). -/

namespace Sys2Proof.Machine

/-- Why the machine stops with a fault. -/
inductive Fault where
  /-- Raised by a working command, or by a unit, whose instance has a slot bound to no existing channel. The access would
  be to a channel that does not exist (20_memory.md R70). No run from reset reaches it, because INIT and RESUME bind
  existing channels only and channels are never destroyed. Safe (log entry 14). -/
  | noChannel
deriving DecidableEq, Repr

/-- Why a step has no meaning. -/
inductive Refusal where
  /-- An instruction without a meaning yet. Raised by exec's arms only. Safe. -/
  | notModelled (mnemonic : String)
  /-- Raised by the step: the host's packet is not one whole command (30_encoding.md R108 fixes its length). Safe (log
  entry 6). -/
  | badPacket (e : DecodeError)
  /-- Raised by INIT, RESUME, WRITE_ONE, WRITE and CONSTRUCT: the operands do not have the form that R102, R103 and R105
  give this instance; the decoder never yields such an instruction for it. Safe (log entry 6). -/
  | operandForm
  /-- Raised by a flag-byte unit, or by a unit step, when no reader of its variant is decoding. Safe (log entry 5). -/
  | noUnitReader
  /-- Raised by the step: a host act that the spec rules out, such as creating a channel that exists. Safe (log entry 18). -/
  | hostAct
deriving DecidableEq, Repr

/-- One channel: its id, its content Chan[c] and its generation GEN[c] (10_state.md R21). -/
structure Channel where
  id : U64
  bytes : List Byte
  gen : U64
deriving DecidableEq, Repr

/-- The channels that exist, in rising order of their ids. Byte j of a channel is entry j of its list (20_memory.md R70);
a channel id that is not listed names no channel, an offset at or past the length names no byte (log entry 13). -/
structure Memory where
  chans : List Channel
deriving DecidableEq, Repr

/-- The canonical form: ids strictly rising, so that equal channel contents are equal data. -/
abbrev Memory.wf (m : Memory) : Prop := (m.chans.map (fun c => c.id.toNat)).Pairwise (· < ·)

/-- The state of one codec instance (10_state.md R21). -/
structure Instance where
  cfg : Cfg
  life : Life
  fault : FaultRec
  items : U64
  bind : PerSlot (Option Binding)
  work : Work
deriving DecidableEq, Repr

/-- An act of the host (10_state.md R20): a command, sent as one packet of bytes (44_pipeline.md R290); a channel it
creates (70_reset_and_hazards.md R380); a channel content it changes (20_memory.md R87). -/
inductive HostAct where
  | command (packet : List Byte)
  | createChannel (id : U64) (content : List Byte)
  | writeChannel (id : U64) (content : List Byte)
deriving DecidableEq, Repr

/-- What a command returns to the host: the status word and the result words (30_encoding.md R107). -/
structure Result where
  status : U64
  words : List U64
deriving DecidableEq, Repr

/-- The word step of a flag-byte reader that is in progress (40_flagbyte.md R168): the reader, the slot it decodes, the
opcode of the command it decodes for, and the word last returned to the stage above (`none`: none yet, or end of
stream). The model's own field (log entry 5). -/
structure UnitPort where
  inst : U16
  slot : Slot
  op : Opcode
  word : Option U64
deriving DecidableEq, Repr

/-- The state. `insts` lists the created instances; id i is entry i - 1 (ids start at 1 and are never freed, R370). -/
structure State where
  params : Params
  mem : Memory
  insts : List Instance
  input : List HostAct
  results : List Result
  unitPort : Option UnitPort
  freeCount : Nat
deriving DecidableEq, Repr

/-- Right after reset: no instance has been constructed and no channel created (70_reset_and_hazards.md R380). -/
def State.reset : State :=
  { params := Params.reset
    mem := { chans := [] }
    insts := []
    input := []
    results := []
    unitPort := none
    freeCount := 0 }

/-- The outcome of a step of this machine. -/
abbrev Outcome := Host.Outcome State Fault Refusal

end Sys2Proof.Machine
end

