-- ==== Sys2Proof/Machine/Bytes.lean ====
section
/-! DEFINITION. uW words (00_scope.md R9) and the byte-count primitives (R11). -/

namespace Sys2Proof.Machine

/-- A value reduced modulo 2^W, in its 64-bit container (R9). -/
def trunc (w : Nat) (x : U64) : U64 := (x.setWidth w).setWidth 64

/-- `a - b` modulo 2^W (R9, 41_transforms.md R210). -/
def subW (w : Nat) (a b : U64) : U64 := trunc w (a - b)

/-- `a + b` modulo 2^W. -/
def addW (w : Nat) (a b : U64) : U64 := trunc w (a + b)

/-- `sW(v)`, the two's-complement signed reading (R9). -/
def signedW (w : Nat) (x : U64) : Int := (x.setWidth w).toInt

/-- `lsbytes(v)`: the least k with v < 2^(8k), for v below 2^64 (R11). -/
def lsBytes (v : Nat) : Nat := ((List.range 8).find? fun k => decide (v < 2 ^ (8 * k))).getD 8

/-- The greatest t ≤ n with v mod 2^(8t) = 0. -/
def tzBytesUpTo (v : Nat) : Nat → Nat
  | 0 => 0
  | n + 1 => if v % 2 ^ (8 * (n + 1)) = 0 then n + 1 else tzBytesUpTo v n

/-- `tzbytes(v)` for a word of B bytes (R11). -/
def tzBytes (b v : Nat) : Nat := tzBytesUpTo v b

/-- `msbytes(v) = B - tzbytes(v)` (R11). -/
def msBytes (b v : Nat) : Nat := b - tzBytes b v

end Sys2Proof.Machine
end

