-- ==== Sys2Proof/Machine/Flags.lean ====
section
/-! DEFINITION. The block's only condition indications (10_state.md R47): the command status (30_encoding.md R107) and
the fault codes (60_exceptions.md R351). There are no arithmetic flags. -/

namespace Sys2Proof.Machine

/-- The faults of 60_exceptions.md R351. -/
inductive FaultCode where
  | invalidArgument | corruptStream | protocolViolation | channelHazard | illegalCommand | resumeShort | resourceExhausted
deriving DecidableEq, Repr

/-- The code of a fault (R351). -/
def FaultCode.code : FaultCode → Byte
  | .invalidArgument => 1
  | .corruptStream => 2
  | .protocolViolation => 3
  | .channelHazard => 4
  | .illegalCommand => 5
  | .resumeShort => 6
  | .resourceExhausted => 7

/-- A fault that no instance records (R351, R359). -/
def FaultCode.unrecorded : FaultCode → Bool
  | .illegalCommand => true
  | .resourceExhausted => true
  | .invalidArgument => false
  | .corruptStream => false
  | .protocolViolation => false
  | .channelHazard => false
  | .resumeShort => false

/-- The STATUS field of a result, with the fault code when it is FAULT (30_encoding.md R107). -/
inductive Status where
  | ok
  | eos
  | fault (code : Byte)
deriving DecidableEq, Repr

/-- The status word: bits 1:0 the status, bits 15:8 the fault code, every other bit 0 (R107). -/
def Status.word : Status → U64
  | .ok => 0
  | .eos => 1
  | .fault code => 2 ||| (code.setWidth 64 <<< 8)

/-- OK when the whole count was done, EOS when the stream ended before it (44_pipeline.md R297, R298). -/
def Status.ofCount (done : Bool) : Status := if done then .ok else .eos

end Sys2Proof.Machine
end

