-- ==== Sys2Proof/Machine/Ops.lean ====
section
/-! DEFINITION. The named operations over channels and instances, taking a fault (60_exceptions.md R359), and the checks
every command begins with (44_pipeline.md R290). There is no return from a fault (60_exceptions.md R363). -/

namespace Sys2Proof.Machine

/-! ## Channels, 20_memory.md -/

/-- The channel of an id; `none` when the id names no channel. -/
def Memory.get (m : Memory) (id : U64) : Option Channel := m.chans.find? fun c => c.id == id

/-- One byte of a channel; `none` past its length (20_memory.md R72). -/
def Memory.readByte (m : Memory) (id : U64) (off : Nat) : Option Byte := (m.get id).bind fun c => c.bytes[off]?

/-- `ChanLen(c)` (00_scope.md R10); 0 when the id names no channel. -/
def Memory.len (m : Memory) (id : U64) : Nat := ((m.get id).map fun c => c.bytes.length).getD 0

/-- `GEN[c]`; 0 when the id names no channel. -/
def Memory.gen (m : Memory) (id : U64) : U64 := ((m.get id).map fun c => c.gen).getD 0

/-- The content and generation of an existing channel replaced. -/
def Memory.put (m : Memory) (id : U64) (bytes : List Byte) (gen : U64) : Memory :=
  { chans := m.chans.map fun c => if c.id = id then { c with bytes := bytes, gen := gen } else c }

/-- A channel placed at its id's position in the rising order. -/
def insertChannel (c : Channel) : List Channel → List Channel
  | [] => [c]
  | d :: ds => if c.id.toNat < d.id.toNat then c :: d :: ds else d :: insertChannel c ds

/-- A new channel with the host's content; "GEN of a new channel is 0" (70_reset_and_hazards.md R380). -/
def Memory.create (m : Memory) (id : U64) (content : List Byte) : Memory :=
  { chans := insertChannel { id := id, bytes := content, gen := 0 } m.chans }

/-- One modification of a channel: the new content, and GEN + 1 (20_memory.md R86). -/
def Memory.modify (m : Memory) (id : U64) (bytes : List Byte) : Memory := m.put id bytes (m.gen id + 1)

/-! ## Instances -/

/-- The instance of an id; 0 is never used (60_exceptions.md R370). -/
def State.inst? (s : State) (id : U16) : Option Instance := if id = 0 then none else s.insts[id.toNat - 1]?

/-- An instance's registers replaced. -/
def State.setInst (s : State) (id : U16) (x : Instance) : State := { s with insts := s.insts.set (id.toNat - 1) x }

/-- A result returned to the host (30_encoding.md R107). -/
def State.reply (s : State) (st : Status) (ws : List U64) : State :=
  { s with results := { status := st.word, words := ws } :: s.results }

/-- The channel bound to a slot of an instance. -/
def State.boundChan (s : State) (x : Instance) (sl : Slot) : Option Channel :=
  (x.bind.get sl).bind fun b => s.mem.get b.chan

/-- The content of the channel bound to each slot; empty where none is. -/
def State.chanBytes (s : State) (x : Instance) : PerSlot (List Byte) :=
  { data := ((s.boundChan x .data).map Channel.bytes).getD []
    lens := ((s.boundChan x .lens).map Channel.bytes).getD [] }

/-- Every slot of the instance is bound to an existing channel. -/
def State.bound (s : State) (x : Instance) : Bool := x.cfg.base.slots.all fun sl => (s.boundChan x sl).isSome

/-- A new instance of a configuration, every register at its reset value (44_pipeline.md R303, R308;
70_reset_and_hazards.md R383). -/
def Instance.fresh (cfg : Cfg) : Instance :=
  { cfg := cfg
    life := .uninit
    fault := FaultRec.reset
    items := 0
    bind := { data := none, lens := none }
    work := Work.reset cfg }

/-- The least free instance id. Ids are given out in order and never freed (60_exceptions.md R362, R370), so it is one
more than the number of instances; `none` when all MAX_INSTANCES are in use. -/
def State.freeId (s : State) : Option Nat :=
  if s.insts.length < s.params.maxInstances then some (s.insts.length + 1) else none

/-- A new instance under the id `State.freeId` gave. -/
def State.addInst (s : State) (x : Instance) : State := { s with insts := s.insts ++ [x] }

/-! ## Faults, 60_exceptions.md -/

/-- Taking a fault (R359): nothing is recorded for IllegalCommand, ResourceExhausted and any fault of CONSTRUCT;
otherwise the fault record is written and the instance becomes FAULTED. The result is FAULT with the code, no words. -/
def State.faultEntry (s : State) (id : U16) (op : Opcode) (code : FaultCode) (slot : Byte) (offset : U64) : State :=
  if code.unrecorded || op = .construct then s.reply (.fault code.code) []
  else
    match s.inst? id with
    | none => s.reply (.fault code.code) []
    | some x =>
      let record : FaultRec := { code := code.code, opcode := op.code, slot := slot, offset := offset }
      (s.setInst id { x with fault := record, life := .faulted }).reply (.fault code.code) []

/-- A fault with SLOT = 0xFF and OFFSET = 0, "0xFF when none", "0 when none" (R359). -/
def State.plainFault (s : State) (id : U16) (op : Opcode) (code : FaultCode) : State :=
  s.faultEntry id op code 0xFF#8 0

/-- A fault found during execution: the working registers of the instance take an unspecified value (R360), then fault
entry. -/
def State.executionFault (s : State) (id : U16) (x : Instance) (op : Opcode) (code : FaultCode) (slot : Byte)
    (offset : U64) : State :=
  let s' := { s with freeCount := s.freeCount + 1 }
  (s'.setInst id { x with work := Config.unspecifiedWork s.freeCount }).faultEntry id op code slot offset

/-! ## The checks of 44_pipeline.md R290 -/

/-- The validity table of 44_pipeline.md R307: roles and LIFE values in which a command is valid. CONSTRUCT has no row:
it is addressed to no instance. -/
def validIn (op : Opcode) (role : Role) (life : Life) : Bool :=
  match op with
  | .init => life != .faulted
  | .writeOne => role == .writer && (life == .empty || life == .writing)
  | .write => role == .writer && (life == .empty || life == .writing)
  | .readOne => role == .reader && life == .reading
  | .read => role == .reader && life == .reading
  | .skip => role == .reader && life == .reading
  | .commit => role == .writer && (life == .empty || life == .writing || life == .committed)
  | .reset =>
    (role == .writer && (life == .empty || life == .writing || life == .committed)) ||
      (role == .reader && life == .reading)
  | .flush => role == .writer && (life == .empty || life == .writing || life == .committed)
  | .resume => role == .writer && (life == .uninit || life == .committed)
  | .createReader => role == .writer && life != .faulted
  | .createWriter => role == .reader && life != .faulted
  | .getChannelCount => true
  | .getItemCount => true
  | .construct => true

/-- The two commands that an instance in FAULTED still executes (60_exceptions.md R361). -/
def survivesFault (op : Opcode) : Bool := op == .getChannelCount || op == .getItemCount

/-- Steps 1 to 3 of 44_pipeline.md R290 for a command addressed to an instance: an id that names no instance is
IllegalCommand (60_exceptions.md R352); an instance in FAULTED refuses with its recorded code (R361); a role or LIFE
outside the table of R307 is ProtocolViolation (R353). Then the command's own body. -/
def State.dispatch (s : State) (op : Opcode) (id : U16) (body : Instance → Outcome) : Outcome :=
  match s.inst? id with
  | none => .next (s.plainFault id op .illegalCommand)
  | some x =>
    if x.life = .faulted ∧ survivesFault op = false then .next (s.reply (.fault x.fault.code) [])
    else if validIn op x.cfg.role x.life = false then .next (s.plainFault id op .protocolViolation)
    else body x

/-- A command that works on the bound channels. Where a slot has none, the machine stops (log entry 14). -/
def State.onChannels (s : State) (x : Instance) (body : Outcome) : Outcome :=
  if s.bound x then body else .fault .noChannel

/-- Slot s was changed since the instance last accessed or synchronised with it (20_memory.md R86). -/
def State.stale (s : State) (x : Instance) (sl : Slot) : Bool :=
  match x.bind.get sl with
  | none => true
  | some b => s.mem.gen b.chan != b.seen

/-- Step 5 of R290: ChannelHazard at the least stale slot (20_memory.md R86, 60_exceptions.md R355). -/
def State.hazardCheck (s : State) (op : Opcode) (id : U16) (x : Instance) (body : Outcome) : Outcome :=
  match x.cfg.base.slots.find? (s.stale x) with
  | some sl => .next (s.faultEntry id op .channelHazard sl.number 0)
  | none => body

/-! ## Staging, 20_memory.md R76, R77 -/

/-- What one slot's output path works on: the channel's content and generation, SEEN and STAGE of the slot. -/
structure Lane where
  bytes : List Byte
  gen : U64
  seen : U64
  stage : List Byte
deriving DecidableEq, Repr

/-- `FlushStage(s)` (R77). -/
def Lane.flush (l : Lane) : Lane :=
  if l.stage = [] then l
  else { bytes := l.bytes ++ l.stage, gen := l.gen + 1, seen := l.gen + 1, stage := [] }

/-- `Emit(s, b)` (R76). -/
def Lane.emit (stageBytes : Nat) (l : Lane) (b : Byte) : Lane :=
  let l' := { l with stage := l.stage ++ [b] }
  if l'.stage.length = stageBytes then l'.flush else l'

/-- `Emit` of each byte in order. -/
def Lane.emitAll (stageBytes : Nat) (l : Lane) (bs : List Byte) : Lane := bs.foldl (Lane.emit stageBytes) l

/-- `ChanTruncate(c, 0)`, one modification, and SEEN synchronised (44_pipeline.md R300). -/
def Lane.clear (l : Lane) : Lane := { l with bytes := [], gen := l.gen + 1, seen := l.gen + 1 }

/-- SEEN synchronised with the channel (20_memory.md R86). -/
def Lane.sync (l : Lane) : Lane := { l with seen := l.gen }

/-- The channel content replaced where it differs (44_pipeline.md R302). -/
def Lane.replace (bs : List Byte) (l : Lane) : Lane :=
  if l.bytes = bs then l else { l with bytes := bs, gen := l.gen + 1, seen := l.gen + 1 }

/-- A slot's output path of an instance; `none` when the slot is bound to no channel. -/
def State.lane (s : State) (x : Instance) (sl : Slot) : Option Lane :=
  match x.bind.get sl with
  | none => none
  | some b =>
    (s.mem.get b.chan).map fun c => { bytes := c.bytes, gen := c.gen, seen := b.seen, stage := x.work.stage.get sl }

/-- One slot's output path changed: the channel in memory; SEEN and STAGE in the instance. -/
def State.onLane (s : State) (x : Instance) (sl : Slot) (f : Lane → Lane) : State × Instance :=
  match x.bind.get sl, s.lane x sl with
  | some b, some l =>
    let l' := f l
    ({ s with mem := s.mem.put b.chan l'.bytes l'.gen },
      { x with
        bind := x.bind.set sl (some { b with seen := l'.seen })
        work := { x.work with stage := x.work.stage.set sl l'.stage } })
  | _, _ => (s, x)

/-- The output paths of a list of slots changed in order, each by its own function. -/
def State.onSlots (s : State) (x : Instance) (f : Slot → Lane → Lane) : List Slot → State × Instance
  | [] => (s, x)
  | sl :: rest =>
    let r := s.onLane x sl (f sl)
    State.onSlots r.1 r.2 f rest

/-- The output paths of every slot of an instance changed, and the instance put back. -/
def State.onLanes (s : State) (id : U16) (x : Instance) (f : Slot → Lane → Lane) : State :=
  let r := s.onSlots x f x.cfg.base.slots
  r.1.setInst id r.2

/-- Some slot's channel grew past CHANNEL_MAX between two states (20_memory.md R71, log entry 12). -/
def overflows (before after : State) (x : Instance) : Bool :=
  x.cfg.base.slots.any fun sl =>
    match x.bind.get sl with
    | none => false
    | some b =>
      decide (before.params.channelMax < after.mem.len b.chan) && decide (before.mem.len b.chan < after.mem.len b.chan)

end Sys2Proof.Machine
end

