-- ==== Sys2Proof/Machine/FlagByte.lean ====
section
/-! DEFINITION. The flag-byte integer codecs FB32, FB64 and FB64LSB (40_flagbyte.md): value nibbles, run-length bytes,
unit builders, the writer, the unit bodies and the reader with its carry. -/

namespace Sys2Proof.Machine

/-! ## Variant constants, R150 -/

/-- B = W/8. -/
def Variant.byteWidth : Variant → Nat
  | .fb32 => 4
  | .fb64 => 8
  | .fb64lsb => 8

/-- MAX, the largest run of one RLE unit. -/
def Variant.maxRun : Variant → Nat
  | .fb32 => 98
  | .fb64 => 16
  | .fb64lsb => 114

/-- RLE_MIN, the shortest run the encoder collapses. -/
def Variant.rleMin : Variant → Nat
  | .fb32 => 3
  | .fb64 => 1
  | .fb64lsb => 3

/-! ## Value nibbles, R151 to R155 -/

/-- The byte count of a value nibble (30_encoding.md R115). -/
def nibBytes : Variant → BitVec 4 → Nat
  | .fb32, n => n.toNat / 2
  | .fb64, n => n.toNat % 8 + 1
  | .fb64lsb, n => n.toNat

/-- The nibble selects the most significant bytes (30_encoding.md R112, R113); never for FB64LSB (R114). -/
def nibLeading : Variant → BitVec 4 → Bool
  | .fb32, n => n.getLsbD 0
  | .fb64, n => n.getLsbD 3
  | .fb64lsb, _ => false

/-- `val_32`, `val_64` and `val_L` (R151, R153, R155): the value of a nibble and its data bytes. A leading value of k
bytes is shifted up by B - k bytes within the word. -/
def nibValue (v : Variant) (n : BitVec 4) (l : List Byte) : U64 :=
  let k := nibBytes v n
  if k = 0 then 0
  else if nibLeading v n then
    trunc (8 * Variant.byteWidth v) (BitVec.ofNat 64 (unLE l * 2 ^ (8 * (Variant.byteWidth v - k))))
  else BitVec.ofNat 64 (unLE l)

/-- `nib_32` (R152). -/
def nib32 (x : U64) : BitVec 4 × List Byte :=
  let v := x.toNat
  if v = 0 then (0x0#4, [])
  else
    let l := lsBytes v
    let m := msBytes 4 v
    let t := tzBytes 4 v
    if m < l then (BitVec.ofNat 4 (2 * m + 1), leBytes m (v / 2 ^ (8 * t)))
    else (BitVec.ofNat 4 (2 * l), leBytes l v)

/-- `nib_64` (R154). -/
def nib64 (x : U64) : BitVec 4 × List Byte :=
  let v := x.toNat
  let l := Nat.max 1 (lsBytes v)
  let m := Nat.max 1 (msBytes 8 v)
  let t := tzBytes 8 v
  if m < l then (BitVec.ofNat 4 (8 + (m - 1)), leBytes m (v / 2 ^ (8 * t)))
  else (BitVec.ofNat 4 (l - 1), leBytes l v)

/-- `nib_L` (R155). -/
def nibLsb (x : U64) : BitVec 4 × List Byte :=
  (BitVec.ofNat 4 (lsBytes x.toNat), leBytes (lsBytes x.toNat) x.toNat)

/-- The value-nibble encoder of a variant (R159: "nib = nib_32, nib_64 or nib_L for the variant"). -/
def nibOf : Variant → U64 → BitVec 4 × List Byte
  | .fb32, x => nib32 x
  | .fb64, x => nib64 x
  | .fb64lsb, x => nibLsb x

/-! ## Run-length bytes, R156 to R158 -/

/-- `rle_32`, `rle_64`, `rle_L`. -/
def rleByte : Variant → Nat → Byte
  | .fb32, r => BitVec.ofNat 8 ((5 + (r - 3) / 32) * 32 + (r - 3) % 32)
  | .fb64, r => BitVec.ofNat 8 (0xF0 + (r - 1))
  | .fb64lsb, r => BitVec.ofNat 8 ((9 + (r - 3) / 16) * 16 + (r - 3) % 16)

/-- `run_32`, `run_64`, `run_L`. -/
def runLength : Variant → Byte → Nat
  | .fb32, f => ((f.extractLsb' 5 3).toNat - 5) * 32 + (f.extractLsb' 0 5).toNat + 3
  | .fb64, f => (loNib f).toNat + 1
  | .fb64lsb, f => ((hiNib f).toNat - 9) * 16 + (loNib f).toNat + 3

/-! ## Unit builders, R159 to R161 -/

/-- `PAIR(a, b)` (R159). -/
def pairUnit (v : Variant) (a b : U64) : List Byte :=
  flagByte (nibOf v a).1 (nibOf v b).1 :: ((nibOf v a).2 ++ (nibOf v b).2)

/-- `SINGLE(a)` (R160). -/
def singleUnit (v : Variant) (a : U64) : List Byte := flagByte (nibOf v a).1 0xF#4 :: (nibOf v a).2

/-- `RLE(r)` (R161). -/
def rleUnit (v : Variant) (r : Nat) : List Byte := [rleByte v r]

/-! ## Writer, R162 to R165 -/

/-- `FBWriteWord` (R162, R163, R164): the registers after one word, and the bytes emitted. -/
def fbWriteWord (v : Variant) (r : FbwRegs) (x : U64) : FbwRegs × List Byte :=
  if r.pv then ({ r with pv := false, pend := 0 }, pairUnit v r.pend x)
  else if x = 0 then
    if r.zrun + 1 = Variant.maxRun v then ({ r with zrun := 0 }, rleUnit v (Variant.maxRun v))
    else ({ r with zrun := r.zrun + 1 }, [])
  else if Variant.rleMin v ≤ r.zrun then ({ zrun := 0, pv := true, pend := x }, rleUnit v r.zrun)
  else if r.zrun = 2 then ({ zrun := 0, pv := true, pend := x }, pairUnit v 0 0)
  else if r.zrun = 1 then ({ r with zrun := 0 }, pairUnit v 0 x)
  else ({ zrun := 0, pv := true, pend := x }, [])

/-- The words of a list written in order. -/
def fbWriteWords (v : Variant) (r : FbwRegs) : List U64 → FbwRegs × List Byte
  | [] => (r, [])
  | x :: xs =>
    let a := fbWriteWord v r x
    let b := fbWriteWords v a.1 xs
    (b.1, a.2 ++ b.2)

/-- The units of a zero run at the commit flush (R165). -/
def zeroRunTail (v : Variant) (z : Nat) : List Byte :=
  if Variant.rleMin v ≤ z then rleUnit v z
  else if z = 2 then pairUnit v 0 0
  else if z = 1 then singleUnit v 0
  else []

/-- The commit flush of the flag-byte stage (R165). -/
def fbFlush (v : Variant) (r : FbwRegs) : FbwRegs × List Byte :=
  let first := if r.pv then singleUnit v r.pend else []
  let pend := if r.pv then 0 else r.pend
  ({ zrun := 0, pv := false, pend := pend }, first ++ zeroRunTail v r.zrun)

/-! ## Units, R167 and R180 to R190 -/

/-- What a unit yields. -/
inductive UnitWords where
  /-- ZEROS(r) -/
  | zeros (r : Nat)
  /-- ONE(v1) -/
  | one (v1 : U64)
  /-- TWO(v1, v2) -/
  | two (v1 v2 : U64)
deriving DecidableEq, Repr

/-- The outcome of executing a unit at an offset: its length and its words, or CorruptStream at the offset. -/
inductive UnitResult where
  | corrupt
  | words (len : Nat) (ws : UnitWords)
deriving DecidableEq, Repr

/-- `MemRead(c:off, n)` (20_memory.md R72). -/
def readBytes (ch : List Byte) (off n : Nat) : List Byte := (ch.drop off).take n

/-- The RLE case of R167. -/
def rleBody (run : Nat) : UnitResult := .words 1 (.zeros run)

/-- The SINGLE case of R167. -/
def singleBody (v : Variant) (hi : BitVec 4) (ch : List Byte) (off : Nat) : UnitResult :=
  let k1 := nibBytes v hi
  if ch.length < off + 1 + k1 then .corrupt
  else .words (1 + k1) (.one (nibValue v hi (readBytes ch (off + 1) k1)))

/-- The PAIR case of R167. -/
def pairBody (v : Variant) (hi lo : BitVec 4) (ch : List Byte) (off : Nat) : UnitResult :=
  let k1 := nibBytes v hi
  let k2 := nibBytes v lo
  if ch.length < off + 1 + k1 + k2 then .corrupt
  else
    .words (1 + k1 + k2)
      (.two (nibValue v hi (readBytes ch (off + 1) k1)) (nibValue v lo (readBytes ch (off + 1 + k1) k2)))

/-- The reserved case of R167: CorruptStream, RD_CUR not advanced (R183, R190). -/
def reservedBody : UnitResult := .corrupt

/-- The unit of a flag byte, by the classes of 30_encoding.md R112 to R114. -/
def unitBody (v : Variant) (f : Byte) (ch : List Byte) (off : Nat) : UnitResult :=
  match flagKind v f with
  | .rle => rleBody (runLength v f)
  | .single => singleBody v (hiNib f) ch off
  | .pair => pairBody v (hiNib f) (loNib f) ch off
  | .reserved => reservedBody

/-- `DecodeUnit(s)` (R167) without its register effect; `none` is EOS. -/
def decodeUnitAt (v : Variant) (ch : List Byte) (off : Nat) : Option UnitResult :=
  match ch[off]? with
  | none => none
  | some f => some (unitBody v f ch off)

/-! ## Reader, R168 -/

/-- A word, an item, end of stream, or CorruptStream with its slot and offset. -/
inductive Got (α : Type) where
  | value (x : α)
  | eos
  | corrupt (slot : Slot) (offset : U64)
deriving DecidableEq, Repr

/-- RD_CUR[s] advanced past a unit of the length, and the carry of its words (R168). -/
def applyUnit (w : Work) (sl : Slot) (len : Nat) : UnitWords → U64 × Work
  | .one v1 => (v1, { w with cur := w.cur.set sl (BitVec.ofNat 64 ((w.cur.get sl).toNat + len)) })
  | .two v1 v2 =>
    (v1, { w with cur := w.cur.set sl (BitVec.ofNat 64 ((w.cur.get sl).toNat + len)), carry := 1, carryVal := v2 })
  | .zeros r =>
    (0, { w with cur := w.cur.set sl (BitVec.ofNat 64 ((w.cur.get sl).toNat + len)), carry := -((r : Int) - 1) })

/-- `FBReadWord(s)` (R168). -/
def fbReadWord (v : Variant) (sl : Slot) (ch : List Byte) (w : Work) : Got U64 × Work :=
  if w.carry = 1 then (.value w.carryVal, { w with carry := 0, carryVal := 0 })
  else if w.carry < 0 then (.value 0, { w with carry := w.carry + 1 })
  else
    match decodeUnitAt v ch (w.cur.get sl).toNat with
    | none => (.eos, w)
    | some .corrupt => (.corrupt sl (w.cur.get sl), w)
    | some (.words len ws) => (.value (applyUnit w sl len ws).1, (applyUnit w sl len ws).2)

end Sys2Proof.Machine
end

