-- ==== Sys2Proof/Machine/BitWidth.lean ====
section
/-! DEFINITION. The bit-width fixed packing codecs BW1, BW2, BW4, BW8, BW16 and BOOL (42_bitwidth.md). b is the item
width of the base, CFG.W. -/

namespace Sys2Proof.Machine

/-- The bit-width writer registers BW_ACC and BW_NBITS (10_state.md R38). -/
structure BwRegs where
  acc : U32
  nbits : Nat
deriving DecidableEq, Repr

/-- The writer word step (R251, R252, R253). -/
def bwWriteWord (b : Nat) (r : BwRegs) (x : U64) : BwRegs × List Byte :=
  let acc := r.acc ||| ((x.setWidth b).setWidth 32 <<< r.nbits)
  if r.nbits + b = 32 then ({ acc := 0, nbits := 0 }, leBytes 4 acc.toNat)
  else ({ acc := acc, nbits := r.nbits + b }, [])

/-- The words of a list written in order. -/
def bwWriteWords (b : Nat) (r : BwRegs) : List U64 → BwRegs × List Byte
  | [] => (r, [])
  | x :: xs =>
    let a := bwWriteWord b r x
    let c := bwWriteWords b a.1 xs
    (c.1, a.2 ++ c.2)

/-- The commit flush of the base (R254): ceil(BW_NBITS / 8) bytes of the accumulator. -/
def bwFlush (r : BwRegs) : BwRegs × List Byte :=
  if 0 < r.nbits then ({ acc := 0, nbits := 0 }, leBytes ((r.nbits + 7) / 8) r.acc.toNat) else (r, [])

/-- `bit(q) = (Chan[c][floor(q/8)] >> (q mod 8)) AND 1` (R256). -/
def streamBit (ch : List Byte) (q : Nat) : Nat := ((ch.getD (q / 8) 0).toNat / 2 ^ (q % 8)) % 2

/-- The t low bits of the stream from bit q, as a number (R256). -/
def streamBits (ch : List Byte) (q : Nat) : Nat → Nat
  | 0 => 0
  | t + 1 => streamBit ch q + 2 * streamBits ch (q + 1) t

/-- Item i of a b-bit stream (R256). -/
def streamItem (b : Nat) (ch : List Byte) (i : Nat) : U64 := BitVec.ofNat 64 (streamBits ch (i * b) b)

/-- `BWReadWord()` (R257). -/
def bwReadWord (b : Nat) (ch : List Byte) (w : Work) : Got U64 × Work :=
  if 8 * ch.length < (w.bwRidx.toNat + 1) * b then (.eos, w)
  else (.value (streamItem b ch w.bwRidx.toNat), { w with bwRidx := w.bwRidx + 1 })

end Sys2Proof.Machine
end

