-- ==== Sys2Proof/Machine/Operands.lean ====
section
/-! DEFINITION. The operand forms (30_encoding.md R102, R103, R105) and the items they carry: item operands and their
argument checks (44_pipeline.md R294), result items, channel operands, the buffer triple (R106), the construction
descriptor (R105, 44_pipeline.md R308). -/

namespace Sys2Proof.Machine

/-! ## Items -/

/-- One logical value at the top of a pipeline: a word, or a byte string (00_scope.md R14). -/
inductive Item where
  | num (x : U64)
  | str (bytes : List Byte)
deriving DecidableEq, Repr

/-- An item operand: of the wrong form for the base, an invalid argument, or an item. -/
inductive ItemCheck where
  | wrongForm
  | invalid
  | item (x : Item)
deriving DecidableEq, Repr

/-- The argument check of one item operand (R294, 10_state.md R25): a numeric item below 2^OPW, which for BOOL is 0 or 1
(42_bitwidth.md R261); a byte string whose unused bytes in the last word are 0 (30_encoding.md R102). -/
def checkOperand (b : Base) : Operand → ItemCheck
  | .num x =>
    if b.strings then .wrongForm
    else if x.toNat < 2 ^ b.opWidth then .item (.num x)
    else .invalid
  | .str len words =>
    if b.strings = false then .wrongForm
    else if words.length ≠ (len.toNat + 7) / 8 then .wrongForm
    else if ((wordsBytes words).drop len.toNat).all (· == 0) then .item (.str ((wordsBytes words).take len.toNat))
    else .invalid

/-- The checks of a list of item operands: a wrong form anywhere before an invalid argument, that before the items. -/
def checkOperands (b : Base) : List Operand → Option (Option (List Item))
  | [] => some (some [])
  | o :: os =>
    match checkOperand b o, checkOperands b os with
    | .wrongForm, _ => none
    | _, none => none
    | .invalid, some _ => some none
    | .item _, some none => some none
    | .item x, some (some xs) => some (some (x :: xs))

/-- The packed words of a byte string, the unused bytes of the last one 0 (30_encoding.md R102). -/
def packWords (s : List Byte) : List U64 :=
  (List.range ((s.length + 7) / 8)).map fun i => BitVec.ofNat 64 (unLE ((s.drop (8 * i)).take 8))

/-- An item in the operand form, as READ_ONE and READ return it (R107, 43_varlen.md R271). -/
def Item.words : Item → List U64
  | .num x => [x]
  | .str s => BitVec.ofNat 64 s.length :: packWords s

/-- An item that an operand of the base can carry. -/
def Item.fits (b : Base) : Item → Bool
  | .num x => !b.strings && decide (x.toNat < 2 ^ b.opWidth)
  | .str s => b.strings && decide (s.length < 2 ^ 64)

/-- The operand that carries an item. -/
def Item.operand : Item → Operand
  | .num x => .num x
  | .str s => .str (BitVec.ofNat 64 s.length) (packWords s)

/-! ## Buffers -/

/-- OFFSET + COUNT ≤ BUFLEN, computed without wrap-around (44_pipeline.md R295, R297). -/
def inBuffer (buflen offset count : U64) : Bool := decide (offset.toNat + count.toNat ≤ buflen.toNat)

/-- The buffer positions OFFSET .. OFFSET + COUNT - 1 (30_encoding.md R106). -/
def bufferSlice (buf : List Operand) (offset count : U64) : List Operand :=
  (buf.drop offset.toNat).take count.toNat

/-! ## Channel operands -/

/-- CH0 and CH1 have the form ChannelCount gives them (30_encoding.md R103). -/
def channelsForm (b : Base) (ch1 : Option U64) : Bool := ch1.isSome == decide (b.channelCount = 2)

/-- A channel operand that names no channel, or CH0 = CH1 (44_pipeline.md R293). -/
def channelsInvalid (m : Memory) (ch0 : U64) (ch1 : Option U64) : Bool :=
  (m.get ch0).isNone ||
    match ch1 with
    | none => false
    | some c1 => (m.get c1).isNone || c1 == ch0

/-- BIND and SEEN of the channel operands: `BIND[s] <- CHs; SEEN[s] <- GEN[CHs]` (R293). -/
def bindChannels (m : Memory) (ch0 : U64) (ch1 : Option U64) : PerSlot (Option Binding) :=
  { data := some { chan := ch0, seen := m.gen ch0 }
    lens := ch1.map fun c1 => { chan := c1, seen := m.gen c1 } }

/-! ## The construction descriptor, R105 -/

/-- CFG.BASE of its 4-bit code; 0xB to 0xF are reserved (10_state.md R23). -/
def Base.ofCode (c : BitVec 4) : Option Base :=
  match c.toNat with
  | 0 => some .fb32
  | 1 => some .fb64
  | 2 => some .fb64lsb
  | 3 => some .bw1
  | 4 => some .bw2
  | 5 => some .bw4
  | 6 => some .bw8
  | 7 => some .bw16
  | 8 => some .bool
  | 9 => some .vari
  | 10 => some .vard
  | _ => none

/-- CFG.VARKIND of its code; 3 is reserved. -/
def VarKind.ofCode (c : BitVec 2) : Option VarKind :=
  match c.toNat with
  | 0 => some .bytes
  | 1 => some .utf8
  | 2 => some .substream
  | _ => none

/-- A transform of its code; 0 is reserved. -/
def Xform.ofCode (c : BitVec 2) : Option Xform :=
  match c.toNat with
  | 1 => some .dd
  | 2 => some .xor
  | 3 => some .dfcm
  | _ => none

/-- DESC.K, bits 11:8. -/
def descK (desc : U64) : Nat := (desc.extractLsb' 8 4).toNat

/-- T1 to TK: T(j+1) at bits 12+2j+1 : 12+2j. `j` is the next transform, the second argument how many are left. -/
def descXforms (desc : U64) (j : Nat) : Nat → Option (List Xform)
  | 0 => some []
  | n + 1 =>
    match Xform.ofCode (desc.extractLsb' (12 + 2 * j) 2), descXforms desc (j + 1) n with
    | some t, some ts => some (t :: ts)
    | _, _ => none

/-- The configuration a descriptor names; `none` is InvalidArgument (44_pipeline.md R308): a reserved BASE, KIND or
transform code, KIND ≠ 0 with a numeric base, K > 0 with BOOL, VARI or VARD, a non-zero reserved bit. -/
def parseDesc (desc : U64) (itemCount : Option U64) : Option Cfg :=
  match Base.ofCode (desc.extractLsb' 0 4), VarKind.ofCode (desc.extractLsb' 5 2), descXforms desc 0 (descK desc) with
  | some base, some kind, some xforms =>
    if kind ≠ .bytes ∧ base.strings = false then none
    else if xforms ≠ [] ∧ base.takesXforms = false then none
    else if desc >>> (12 + 2 * descK desc) ≠ 0 then none
    else
      some
        { base := base, xforms := xforms, role := if desc.getLsbD 4 then .writer else .reader
          itemCount := itemCount, varKind := kind }
  | _, _, _ => none

end Sys2Proof.Machine
end

