-- ==== Sys2Proof/Machine/Transform.lean ====
section
/-! DEFINITION. The stateful transforms DD, XOR and DFCM (41_transforms.md): writer word steps, commit flushes, reader
word steps. W is CFG.W, H is DFCM_TABLE_BITS. A stage sees only its own registers (10_state.md R51), so a list of words
may pass a stage whole before the next stage sees the first (log entry 17). -/

namespace Sys2Proof.Machine

/-! ## Delta-Delta writer, R215 to R217 -/

/-- The first differences of the items, the context `p` before the first (R216). -/
def differences (w : Nat) (p : U64) : List U64 → List U64
  | [] => []
  | x :: xs => subW w x p :: differences w x xs

/-- The element of least signed value (R216: ties are of equal values). -/
def leastSigned (w : Nat) (d : U64) : List U64 → U64
  | [] => d
  | e :: es => leastSigned w (if signedW w e < signedW w d then e else d) es

/-- The words of a frame: the least difference, then each difference less it (R216). -/
def frameWords (w : Nat) (p : U64) (xs : List U64) : List U64 :=
  match differences w p xs with
  | [] => []
  | d :: ds => leastSigned w d ds :: (d :: ds).map fun e => subW w e (leastSigned w d ds)

/-- `DDEmitFrame(m)` (R216). -/
def ddEmitFrame (w : Nat) (r : DdRegs) (m : Nat) : DdRegs × List U64 :=
  let xs := r.frame.take m
  ({ r with prev := xs.getLastD r.prev, fill := 0, frame := ddFrameReset }, frameWords w r.prev xs)

/-- The DD writer word step (R215). -/
def ddWrite (w : Nat) (r : DdRegs) (x : U64) : DdRegs × List U64 :=
  let r' := { r with frame := r.frame.set r.fill x, fill := r.fill + 1 }
  if r'.fill = 16 then ddEmitFrame w r' 16 else (r', [])

/-- The DD commit flush (R217). -/
def ddFlush (w : Nat) (r : DdRegs) : DdRegs × List U64 :=
  if 0 < r.fill then ddEmitFrame w r r.fill else (r, [])

/-! ## DFCM, R232 -/

/-- `DFCM_TABLE[i]`. -/
def tableGet : List (Nat × U64) → Nat → U64
  | [], _ => 0
  | (j, y) :: rest, i => if i = j then y else tableGet rest i

/-- `DFCM_TABLE[i] <- x`, keeping the indices rising and no entry 0. -/
def tableSet : List (Nat × U64) → Nat → U64 → List (Nat × U64)
  | [], i, x => if x = 0 then [] else [(i, x)]
  | (j, y) :: rest, i, x =>
    if i = j then (if x = 0 then rest else (i, x) :: rest)
    else if i < j then (if x = 0 then (j, y) :: rest else (i, x) :: (j, y) :: rest)
    else (j, y) :: tableSet rest i x

/-- The next DFCM_HASH: two bits of history shift, the low H bits of the delta folded in (R232). -/
def dfcmHash (h hash : Nat) (d : U64) : Nat := ((hash * 4) ^^^ (d.toNat % 2 ^ h)) % 2 ^ h

/-- `DFCMUpdate(x)` (R232). -/
def dfcmUpdate (w h : Nat) (r : DfcmRegs) (x : U64) : DfcmRegs :=
  { table := tableSet r.table r.hash x, hash := dfcmHash h r.hash (subW w x r.last), last := x }

/-! ## One stage -/

/-- The writer word step of a stage: the registers after it, and the words it pushes (R215, R222, R233). -/
def stageWrite (w h : Nat) (st : StageRegs) (x : U64) : StageRegs × List U64 :=
  match st with
  | .dd r => (.dd (ddWrite w r x).1, (ddWrite w r x).2)
  | .xor prev => (.xor x, [x ^^^ prev])
  | .dfcm r => (.dfcm (dfcmUpdate w h r x), [x ^^^ tableGet r.table r.hash])

/-- The words of a list through one stage, in order. -/
def stageWrites (w h : Nat) (st : StageRegs) : List U64 → StageRegs × List U64
  | [] => (st, [])
  | x :: xs =>
    let a := stageWrite w h st x
    let b := stageWrites w h a.1 xs
    (b.1, a.2 ++ b.2)

/-- The commit flush of a stage (R217; XOR and DFCM hold no word: R222, R235). -/
def stageFlush (w : Nat) (st : StageRegs) : StageRegs × List U64 :=
  match st with
  | .dd r => (.dd (ddFlush w r).1, (ddFlush w r).2)
  | .xor prev => (.xor prev, [])
  | .dfcm r => (.dfcm r, [])

/-! ## The stack, 44_pipeline.md R291, R299 -/

/-- `PushStage(1, ·)` of each word of a list: the stages after it, and the words that reach the base. -/
def pushWords (w h : Nat) : List StageRegs → List U64 → List StageRegs × List U64
  | [], ws => ([], ws)
  | st :: rest, ws =>
    let a := stageWrites w h st ws
    let b := pushWords w h rest a.2
    (a.1 :: b.1, b.2)

/-- The commit flush of the stages from the top (44_pipeline.md R299): each stage first takes the words flushed into it
from above, then flushes its own; the words that reach the base. -/
def flushStages (w h : Nat) : List StageRegs → List U64 → List StageRegs × List U64
  | [], ws => ([], ws)
  | st :: rest, ws =>
    let a := stageWrites w h st ws
    let f := stageFlush w a.1
    let b := flushStages w h rest (a.2 ++ f.2)
    (f.1 :: b.1, b.2)

/-! ## Reader word steps, R219, R223, R234 -/

/-- The registers of a DD reader stage after the delta `e` (R219). -/
def ddAccept (w : Nat) (r : DdRegs) (e : U64) : U64 × DdRegs :=
  let x := addW w (addW w r.prev e) r.min
  (x, { r with prev := x, fp := if r.fp + 1 = 16 then 0 else r.fp + 1 })

/-- The reader word step of a stage, over the word step `pull` of the stage below it, whose state is `k`: XOR (R223),
DFCM (R234) and DD (R219). DD pulls a frame minimum where a frame begins; a minimum with no delta after it is
CorruptStream at the place `lone` gives. End of stream changes no register of the stage. -/
def stageRead {κ : Type} (w h : Nat) (pull : κ → Got U64 × κ) (lone : κ → U64) (st : StageRegs) (k : κ) :
    Got U64 × StageRegs × κ :=
  match st with
  | .xor prev =>
    match pull k with
    | (.value e, k') => (.value (e ^^^ prev), .xor (e ^^^ prev), k')
    | (.eos, k') => (.eos, st, k')
    | (.corrupt sl off, k') => (.corrupt sl off, st, k')
  | .dfcm r =>
    match pull k with
    | (.value e, k') =>
      (.value (e ^^^ tableGet r.table r.hash), .dfcm (dfcmUpdate w h r (e ^^^ tableGet r.table r.hash)), k')
    | (.eos, k') => (.eos, st, k')
    | (.corrupt sl off, k') => (.corrupt sl off, st, k')
  | .dd r =>
    if r.fp = 0 then
      match pull k with
      | (.value m, k') =>
        match pull k' with
        | (.value e, k'') =>
          (.value (ddAccept w { r with min := m } e).1, .dd (ddAccept w { r with min := m } e).2, k'')
        | (.eos, k'') => (.corrupt .data (lone k''), .dd { r with min := m }, k'')
        | (.corrupt sl off, k'') => (.corrupt sl off, .dd { r with min := m }, k'')
      | (.eos, k') => (.eos, st, k')
      | (.corrupt sl off, k') => (.corrupt sl off, st, k')
    else
      match pull k with
      | (.value e, k') => (.value (ddAccept w r e).1, .dd (ddAccept w r e).2, k')
      | (.eos, k') => (.eos, st, k')
      | (.corrupt sl off, k') => (.corrupt sl off, st, k')

/-- `PullStage(i)` (44_pipeline.md R292): one word through the stages of a stack above a base whose word step is `base`.
`depth` is how many stages the stack has. A lone frame minimum is recorded at RD_CUR[0] (R219, log entry 10). -/
def pullStage (w h : Nat) (base : Work → Got U64 × Work) :
    Nat → List StageRegs × Work → Got U64 × List StageRegs × Work
  | depth + 1, (st :: rest, k) =>
    let r := stageRead w h (pullStage w h base depth) (fun x => x.2.cur.get .data) st (rest, k)
    (r.1, r.2.1 :: r.2.2.1, r.2.2.2)
  | _, (sts, k) => ((base k).1, sts, (base k).2)

end Sys2Proof.Machine
end

