-- ==== Sys2Proof/Machine/VarLen.lean ====
section
/-! DEFINITION. The variable-length prefix item codec: VARI, one channel, and VARD, payload and length channels
(43_varlen.md). CFG.VARKIND changes nothing here (R270). -/

namespace Sys2Proof.Machine

/-- The VARI writer item step (R272): one FB64 SINGLE unit of the length, then the bytes. -/
def variBytes (s : List Byte) : List Byte := singleUnit .fb64 (BitVec.ofNat 64 s.length) ++ s

/-- `VARIReadItem()` (R273). -/
def variReadItem (ch : List Byte) (w : Work) : Got (List Byte) × Work :=
  let off := (w.cur.get .data).toNat
  match ch[off]? with
  | none => (.eos, w)
  | some f =>
    if hiNib f = 0xF#4 ∨ loNib f ≠ 0xF#4 then (.corrupt .data (w.cur.get .data), w)
    else
      let k := nibBytes .fb64 (hiNib f)
      if ch.length < off + 1 + k then (.corrupt .data (w.cur.get .data), w)
      else
        let n := (nibValue .fb64 (hiNib f) (readBytes ch (off + 1) k)).toNat
        let p := off + 1 + k
        if ch.length < p + n then (.corrupt .data (w.cur.get .data), w)
        else (.value (readBytes ch p n), { w with cur := w.cur.set .data (BitVec.ofNat 64 (p + n)) })

/-- The VARD writer item step (R277): the payload bytes on slot 0, the length word on slot 1. -/
def vardWriteItem (r : FbwRegs) (s : List Byte) : FbwRegs × PerSlot (List Byte) :=
  let a := fbWriteWord .fb64lsb r (BitVec.ofNat 64 s.length)
  (a.1, { data := s, lens := a.2 })

/-- `VARDReadItem()` (R279). -/
def vardReadItem (chs : PerSlot (List Byte)) (w : Work) : Got (List Byte) × Work :=
  match fbReadWord .fb64lsb .lens chs.lens w with
  | (.eos, w') => (.eos, w')
  | (.corrupt sl off, w') => (.corrupt sl off, w')
  | (.value n, w') =>
    let p := (w'.cur.get .data).toNat
    if chs.data.length < p + n.toNat then (.corrupt .data (w'.cur.get .data), w')
    else
      (.value (readBytes chs.data p n.toNat), { w' with cur := w'.cur.set .data (BitVec.ofNat 64 (p + n.toNat)) })

end Sys2Proof.Machine
end

