-- ==== Sys2Proof/Machine/Pipeline.lean ====
section
/-! DEFINITION. The write path and the read path of a pipeline (44_pipeline.md R291, R292), the commit flush (R299), and
the emitted byte lists U and E of R336. These work on the registers of one instance; the commands of
Machine/Commands.lean apply them to the state. -/

namespace Sys2Proof.Machine

/-! ## Emitted bytes -/

/-- The bytes passed to `Emit(s, ·)`, per slot, in order. -/
abbrev Emitted := PerSlot (List Byte)

def Emitted.none : Emitted := { data := [], lens := [] }

def Emitted.append (a b : Emitted) : Emitted := { data := a.data ++ b.data, lens := a.lens ++ b.lens }

/-! ## Write path, R291 -/

/-- `BaseWrite(w)` of each word of a list, for a numeric base (R291). -/
def baseWrite (b : Base) (k : Work) (ws : List U64) : Work × List Byte :=
  match b.variant? with
  | some v =>
    let r := fbWriteWords v k.fbw ws
    ({ k with fbw := r.1 }, r.2)
  | none =>
    let r := bwWriteWords b.width { acc := k.bwAcc, nbits := k.bwNbits } ws
    ({ k with bwAcc := r.1.acc, bwNbits := r.1.nbits }, r.2)

/-- `WriteItem(x)` without its count (R291): the registers after it, and the bytes emitted. -/
def writeItem (p : Params) (cfg : Cfg) (k : Work) (x : Item) : Work × Emitted :=
  match x with
  | .num v =>
    let t := pushWords cfg.base.width p.dfcmBits k.xf [trunc cfg.base.width v]
    let r := baseWrite cfg.base { k with xf := t.1 } t.2
    (r.1, { data := r.2, lens := [] })
  | .str s =>
    if cfg.base = .vard then
      let r := vardWriteItem k.fbw s
      ({ k with fbw := r.1 }, r.2)
    else (k, { data := variBytes s, lens := [] })

/-- The items of a list written in order. -/
def writeItems (p : Params) (cfg : Cfg) (k : Work) : List Item → Work × Emitted
  | [] => (k, Emitted.none)
  | x :: xs =>
    let a := writeItem p cfg k x
    let b := writeItems p cfg a.1 xs
    (b.1, a.2.append b.2)

/-! ## Commit flush, R299 -/

/-- The commit flush of the base (R299): R165 for a flag-byte base, and on slot 1 for VARD (43_varlen.md R278); R254 for a
bit-width base; nothing for VARI (R275). -/
def baseFlush (b : Base) (k : Work) : Work × Emitted :=
  match b.variant? with
  | some v =>
    let r := fbFlush v k.fbw
    ({ k with fbw := r.1 }, { data := r.2, lens := [] })
  | none =>
    if b = .vard then
      let r := fbFlush .fb64lsb k.fbw
      ({ k with fbw := r.1 }, { data := [], lens := r.2 })
    else if b = .vari then (k, Emitted.none)
    else
      let r := bwFlush { acc := k.bwAcc, nbits := k.bwNbits }
      ({ k with bwAcc := r.1.acc, bwNbits := r.1.nbits }, { data := r.2, lens := [] })

/-- The words flushed out of the transform stages, written to the base (R299); none on VARI and VARD, which have no
stages. -/
def stagesFlush (p : Params) (cfg : Cfg) (k : Work) : Work × Emitted :=
  if cfg.base.strings then (k, Emitted.none)
  else
    let t := flushStages cfg.base.width p.dfcmBits k.xf []
    let r := baseWrite cfg.base { k with xf := t.1 } t.2
    (r.1, { data := r.2, lens := [] })

/-- The commit flush of the stages from the top, then of the base (R299); FlushStage is not part of it. -/
def commitFlush (p : Params) (cfg : Cfg) (k : Work) : Work × Emitted :=
  let a := stagesFlush p cfg k
  let b := baseFlush cfg.base a.1
  (b.1, a.2.append b.2)

/-! ## U and E, R336 -/

/-- `U_s(xs)`: the bytes emitted from reset for the items, with no commit flush (R336). -/
def emittedU (p : Params) (cfg : Cfg) (xs : List Item) : Emitted := (writeItems p cfg (Work.reset cfg) xs).2

/-- `E_s(xs)`: the bytes emitted from reset for the items and one commit flush, which is the content of slot s's channel
after INIT on empty channels, WRITE of xs and COMMIT (R336). -/
def emittedE (p : Params) (cfg : Cfg) (xs : List Item) : Emitted :=
  (emittedU p cfg xs).append (commitFlush p cfg (writeItems p cfg (Work.reset cfg) xs).1).2

/-! ## Read path, R292 -/

/-- `BaseRead()` of a numeric base (R292). -/
def baseRead (b : Base) (ch : List Byte) (k : Work) : Got U64 × Work :=
  match b.variant? with
  | some v => fbReadWord v .data ch k
  | none => bwReadWord b.width ch k

/-- `PullStage(1)` of a numeric pipeline. -/
def pullWord (p : Params) (b : Base) (ch : List Byte) (k : Work) : Got U64 × Work :=
  let r := pullStage b.width p.dfcmBits (baseRead b ch) k.xf.length (k.xf, k)
  (r.1, { r.2.2 with xf := r.2.1 })

/-- A byte string as an item. -/
def Got.str : Got (List Byte) → Got Item
  | .value s => .value (.str s)
  | .eos => .eos
  | .corrupt sl off => .corrupt sl off

/-- A word as an item, zero-extended (R292). -/
def Got.num : Got U64 → Got Item
  | .value x => .value (.num x)
  | .eos => .eos
  | .corrupt sl off => .corrupt sl off

/-- `PullStage(1)`: one item of any base (R292). -/
def pullItem (p : Params) (b : Base) (chs : PerSlot (List Byte)) (k : Work) : Got Item × Work :=
  if b = .vari then ((variReadItem chs.data k).1.str, (variReadItem chs.data k).2)
  else if b = .vard then ((vardReadItem chs k).1.str, (vardReadItem chs k).2)
  else ((pullWord p b chs.data k).1.num, (pullWord p b chs.data k).2)

/-- The registers a reader works on: STATUS.ITEMS and the working registers. -/
structure Reading where
  items : U64
  work : Work
deriving DecidableEq, Repr

/-- `ReadItem()` (R292): end of stream at CFG.ITEMCOUNT, else one item pulled and counted. -/
def readItem (p : Params) (cfg : Cfg) (chs : PerSlot (List Byte)) (r : Reading) : Got Item × Reading :=
  if cfg.itemCount = some r.items then (.eos, r)
  else
    match pullItem p cfg.base chs r.work with
    | (.value x, k) => (.value x, { items := r.items + 1, work := k })
    | (.eos, k) => (.eos, { r with work := k })
    | (.corrupt sl off, k) => (.corrupt sl off, { r with work := k })

/-- How a run of reads ended: the count was reached, the stream ended, or CorruptStream. -/
inductive ReadEnd where
  | done
  | eos
  | corrupt (slot : Slot) (offset : U64)
deriving DecidableEq, Repr

/-- Up to n items (44_pipeline.md R297): how it ended, the items, the registers. -/
def readItems (p : Params) (cfg : Cfg) (chs : PerSlot (List Byte)) : Nat → Reading → ReadEnd × List Item × Reading
  | 0, r => (.done, [], r)
  | n + 1, r =>
    match readItem p cfg chs r with
    | (.value x, r') =>
      let t := readItems p cfg chs n r'
      (t.1, x :: t.2.1, t.2.2)
    | (.eos, r') => (.eos, [], r')
    | (.corrupt sl off, r') => (.corrupt sl off, [], r')

end Sys2Proof.Machine
end

