-- ==== Sys2Proof/Machine/Commands.lean ====
section
/-! DEFINITION. The fifteen commands (44_pipeline.md R293 to R306, R308), one meaning each. The order of checks is that
of R290 and 60_exceptions.md R358. -/

namespace Sys2Proof.Machine

/-! ## Shared bodies -/

/-- ITEMS + n ≤ CFG.ITEMCOUNT, where there is a bound (R294, R295). -/
def withinCount (cfg : Cfg) (items : U64) (n : Nat) : Bool :=
  match cfg.itemCount with
  | none => true
  | some c => decide (items.toNat + n ≤ c.toNat)

/-- The state after the items are written and the emitted bytes staged (R291, 20_memory.md R76). -/
def State.written (s : State) (id : U16) (x : Instance) (items : List Item) : State :=
  let r := writeItems s.params x.cfg x.work items
  let x' := { x with
    work := r.1
    items := x.items + BitVec.ofNat 64 items.length
    life := if items = [] then x.life else .writing }
  s.onLanes id x' fun sl l => l.emitAll s.params.stageBytes (r.2.get sl)

/-- WRITE_ONE and WRITE after their operand checks (R294, R295): the ITEMCOUNT and CHANNEL_MAX checks, the channel check,
the items written in order. -/
def State.writeBody (s : State) (op : Opcode) (id : U16) (x : Instance) (items : List Item) : Outcome :=
  if withinCount x.cfg x.items items.length = false then .next (s.plainFault id op .invalidArgument)
  else
    let s' := s.written id x items
    if overflows s s' x then .next (s.plainFault id op .invalidArgument)
    else s.hazardCheck op id x (.next (s'.reply .ok []))

/-- WRITE_ONE and WRITE on the operands of the items they move. -/
def State.writeOperands (s : State) (op : Opcode) (id : U16) (x : Instance) (os : List Operand) : Outcome :=
  match checkOperands x.cfg.base os with
  | none => .refused .operandForm
  | some none => .next (s.plainFault id op .invalidArgument)
  | some (some items) => s.onChannels x (s.writeBody op id x items)

/-- READ_ONE, READ and SKIP after their argument checks (R296 to R298): the channel check, then up to n items; `answer`
makes the result of how it ended and of the items. -/
def State.readBody (s : State) (op : Opcode) (id : U16) (x : Instance) (n : Nat)
    (answer : Bool → List Item → Status × List U64) : Outcome :=
  s.onChannels x <| s.hazardCheck op id x <|
    match readItems s.params x.cfg (s.chanBytes x) n { items := x.items, work := x.work } with
    | (.corrupt sl off, _, r) =>
      .next (s.executionFault id { x with items := r.items } op .corruptStream sl.number off)
    | (.eos, xs, r) =>
      .next ((s.setInst id { x with items := r.items, work := r.work }).reply (answer false xs).1 (answer false xs).2)
    | (.done, xs, r) =>
      .next ((s.setInst id { x with items := r.items, work := r.work }).reply (answer true xs).1 (answer true xs).2)

/-- The result of READ_ONE (R296): the item, or EOS and no words. -/
def answerReadOne (done : Bool) (xs : List Item) : Status × List U64 :=
  (Status.ofCount done, xs.flatMap Item.words)

/-- The result of READ (R297): the count and the items. -/
def answerRead (done : Bool) (xs : List Item) : Status × List U64 :=
  (Status.ofCount done, BitVec.ofNat 64 xs.length :: xs.flatMap Item.words)

/-- The result of SKIP (R298): the count. -/
def answerSkip (done : Bool) (xs : List Item) : Status × List U64 :=
  (Status.ofCount done, [BitVec.ofNat 64 xs.length])

/-- CREATE_READER and CREATE_WRITER (R303, R304): a new UNINIT instance of the same configuration in the role given. -/
def State.createBody (s : State) (op : Opcode) (id : U16) (x : Instance) (role : Role) : Outcome :=
  match s.freeId with
  | none => .next (s.plainFault id op .resourceExhausted)
  | some n => .next ((s.addInst (Instance.fresh { x.cfg with role := role })).reply .ok [BitVec.ofNat 64 n])

/-! ## INIT, RESET, FLUSH, COMMIT -/

/-- Every working register at its reset value and ITEMS 0 (R293, R300). -/
def Instance.rewound (x : Instance) : Instance := { x with work := Work.reset x.cfg, items := 0 }

/-- The LIFE that INIT gives (R293). -/
def initLife : Role → Life
  | .writer => .empty
  | .reader => .reading

/-- Some channel operand names a channel that is not empty; an id that names no channel does not (log entry 7). -/
def channelsNonEmpty (m : Memory) (ch0 : U64) (ch1 : Option U64) : Bool :=
  m.len ch0 != 0 ||
    match ch1 with
    | none => false
    | some c1 => m.len c1 != 0

/-- INIT (R293). A writer's ProtocolViolation on a channel that is not empty comes before the InvalidArgument checks
(60_exceptions.md R353, R358). -/
def execInit (inst : U16) (ch0 : U64) (ch1 : Option U64) (s : State) : Outcome :=
  s.dispatch .init inst fun x =>
    if channelsForm x.cfg.base ch1 = false then .refused .operandForm
    else if x.cfg.role = .writer ∧ channelsNonEmpty s.mem ch0 ch1 = true then
      .next (s.plainFault inst .init .protocolViolation)
    else if channelsInvalid s.mem ch0 ch1 then .next (s.plainFault inst .init .invalidArgument)
    else
      let x' := { x.rewound with bind := bindChannels s.mem ch0 ch1, life := initLife x.cfg.role }
      .next ((s.setInst inst x').reply .ok [])

/-- RESET (R300): a writer's channels are truncated and it is EMPTY; a reader is rewound to offset 0. -/
def execReset (inst : U16) (s : State) : Outcome :=
  s.dispatch .reset inst fun x =>
    s.onChannels x <|
      match x.cfg.role with
      | .writer => .next ((s.onLanes inst { x.rewound with life := .empty } fun _ l => l.clear).reply .ok [])
      | .reader => .next ((s.onLanes inst x.rewound fun _ l => l.sync).reply .ok [])

/-- FLUSH (R301): FlushStage on every slot. A flush past CHANNEL_MAX is InvalidArgument (20_memory.md R71, log entry 11). -/
def execFlush (inst : U16) (s : State) : Outcome :=
  s.dispatch .flush inst fun x =>
    s.onChannels x <|
      let s' := s.onLanes inst x fun _ l => l.flush
      if overflows s s' x then .next (s.plainFault inst .flush .invalidArgument)
      else s.hazardCheck .flush inst x (.next (s'.reply .ok []))

/-- The state after COMMIT's flush (R299): stages from the top, the base, then FlushStage on every slot. -/
def State.committed (s : State) (id : U16) (x : Instance) : State :=
  let r := commitFlush s.params x.cfg x.work
  s.onLanes id { x with work := r.1, life := .committed } fun sl l =>
    (l.emitAll s.params.stageBytes (r.2.get sl)).flush

/-- COMMIT (R299); in COMMITTED it changes nothing. -/
def execCommit (inst : U16) (s : State) : Outcome :=
  s.dispatch .commit inst fun x =>
    s.onChannels x <|
      let s' := if x.life = .committed then s else s.committed inst x
      if overflows s s' x then .next (s.plainFault inst .commit .invalidArgument)
      else s.hazardCheck .commit inst x (.next (s'.reply .ok []))

/-! ## Writing and reading -/

/-- WRITE_ONE (R294). -/
def execWriteOne (inst : U16) (item : Operand) (s : State) : Outcome :=
  s.dispatch .writeOne inst fun x => s.writeOperands .writeOne inst x [item]

/-- WRITE (R295): the items outside OFFSET .. OFFSET + COUNT - 1 are not examined. -/
def execWrite (inst : U16) (buflen offset count : U64) (buf : List Operand) (s : State) : Outcome :=
  s.dispatch .write inst fun x =>
    if buf.length ≠ buflen.toNat then .refused .operandForm
    else if inBuffer buflen offset count = false then .next (s.plainFault inst .write .invalidArgument)
    else s.writeOperands .write inst x (bufferSlice buf offset count)

/-- READ_ONE (R296). -/
def execReadOne (inst : U16) (s : State) : Outcome :=
  s.dispatch .readOne inst fun x => s.readBody .readOne inst x 1 answerReadOne

/-- READ (R297). -/
def execRead (inst : U16) (buflen offset count : U64) (s : State) : Outcome :=
  s.dispatch .read inst fun x =>
    if inBuffer buflen offset count = false then .next (s.plainFault inst .read .invalidArgument)
    else s.readBody .read inst x count.toNat answerRead

/-- SKIP (R298). -/
def execSkip (inst : U16) (count : U64) (s : State) : Outcome :=
  s.dispatch .skip inst fun x => s.readBody .skip inst x count.toNat answerSkip

/-! ## RESUME -/

/-- The instance while RESUME decodes (R302): BIND and SEEN written, the rest as before. -/
def Instance.rebound (x : Instance) (m : Memory) (ch0 : U64) (ch1 : Option U64) : Instance :=
  { x with bind := bindChannels m ch0 ch1 }

/-- The decoding of RESUME (R302): a scratch reader of this configuration with ITEMCOUNT = NONE, from reset, on the same
channels, asked for n items. -/
def State.resumeDecode (s : State) (x : Instance) (n : Nat) : ReadEnd × List Item × Reading :=
  readItems s.params { x.cfg with itemCount := none } (s.chanBytes x) n { items := 0, work := Work.reset x.cfg }

/-- The state after RESUME re-encodes the items it decoded (R302): the writer registers of such a writer, STAGE empty, each
channel replaced by U_s where it differs. -/
def State.resumed (s : State) (id : U16) (x : Instance) (items : List Item) : State :=
  let r := writeItems s.params x.cfg (Work.reset x.cfg) items
  s.onLanes id { x with work := r.1, items := BitVec.ofNat 64 items.length, life := .writing } fun sl l =>
    l.replace (r.2.get sl)

/-- RESUME (R302). A re-encoding past CHANNEL_MAX is InvalidArgument (20_memory.md R71, log entry 11). -/
def execResume (inst : U16) (ch0 : U64) (ch1 : Option U64) (rows : U64) (s : State) : Outcome :=
  s.dispatch .resume inst fun x =>
    if channelsForm x.cfg.base ch1 = false then .refused .operandForm
    else if channelsInvalid s.mem ch0 ch1 then .next (s.plainFault inst .resume .invalidArgument)
    else if withinCount x.cfg 0 rows.toNat = false then .next (s.plainFault inst .resume .invalidArgument)
    else
      let x' := x.rebound s.mem ch0 ch1
      match s.resumeDecode x' rows.toNat with
      | (.corrupt sl off, _, _) => .next (s.executionFault inst x' .resume .corruptStream sl.number off)
      | (.eos, _, _) => .next (s.executionFault inst x' .resume .resumeShort 0xFF#8 0)
      | (.done, items, _) =>
        let s' := s.resumed inst x' items
        if overflows s s' x' then .next (s.plainFault inst .resume .invalidArgument)
        else .next (s'.reply .ok [])

/-! ## Creation and queries -/

/-- CREATE_READER (R303). -/
def execCreateReader (inst : U16) (s : State) : Outcome :=
  s.dispatch .createReader inst fun x => s.createBody .createReader inst x .reader

/-- CREATE_WRITER (R304). -/
def execCreateWriter (inst : U16) (s : State) : Outcome :=
  s.dispatch .createWriter inst fun x => s.createBody .createWriter inst x .writer

/-- GET_CHANNEL_COUNT (R305). -/
def execGetChannelCount (inst : U16) (s : State) : Outcome :=
  s.dispatch .getChannelCount inst fun x => .next (s.reply .ok [BitVec.ofNat 64 x.cfg.base.channelCount])

/-- The two words of GET_ITEM_COUNT (R306). -/
def itemCountWords : Option U64 → List U64
  | none => [0, 0]
  | some c => [1, c]

/-- GET_ITEM_COUNT (R306). -/
def execGetItemCount (inst : U16) (s : State) : Outcome :=
  s.dispatch .getItemCount inst fun x => .next (s.reply .ok (itemCountWords x.cfg.itemCount))

/-- CONSTRUCT (R308). Its faults are reported in the result only (60_exceptions.md R359). -/
def execConstruct (desc : U64) (itemCount : Option U64) (s : State) : Outcome :=
  if itemCount.isSome ≠ desc.getLsbD 7 then .refused .operandForm
  else
    match parseDesc desc itemCount with
    | none => .next (s.plainFault 0 .construct .invalidArgument)
    | some cfg =>
      match s.freeId with
      | none => .next (s.plainFault 0 .construct .resourceExhausted)
      | some n => .next ((s.addInst (Instance.fresh cfg)).reply .ok [BitVec.ofNat 64 n])

end Sys2Proof.Machine
end

