-- ==== Sys2Proof/Machine/Units.lean ====
section
/-! DEFINITION. The eleven flag-byte units (40_flagbyte.md R180 to R190), one meaning each. A unit is executed by the
reader whose word step is in progress (R167, R168): inside READ_ONE, READ, SKIP and RESUME by `fbReadWord`, which runs the
same bodies; as a step of its own at `State.unitPort` (log entry 5). -/

namespace Sys2Proof.Machine

/-- The variant a slot of an instance decodes: the base's own on slot 0; FB64LSB on slot 1 of VARD (10_state.md R44). -/
def slotVariant (b : Base) : Slot → Option Variant
  | .data => b.variant?
  | .lens => if b = .vard then some .fb64lsb else none

/-- The reader at the unit port, when it is a reader in READING that decodes the variant. -/
def State.unitReader (s : State) (v : Variant) : Option (UnitPort × Instance) :=
  match s.unitPort with
  | none => none
  | some p =>
    match s.inst? p.inst with
    | none => none
    | some x =>
      if x.cfg.role = .reader ∧ x.life = .reading ∧ slotVariant x.cfg.base p.slot = some v then some (p, x) else none

/-- One unit executed by the reader at the port (R167, R168): its body at RD_CUR[s] of the bound channel; the registers of
`applyUnit` and the word returned, or CorruptStream, which ends the command the reader decodes for. -/
def State.runUnit (s : State) (v : Variant) (body : List Byte → Nat → UnitResult) : Outcome :=
  match s.unitReader v with
  | none => .refused .noUnitReader
  | some (p, x) =>
    match s.boundChan x p.slot with
    | none => .fault .noChannel
    | some c =>
      match body c.bytes (x.work.cur.get p.slot).toNat with
      | .corrupt =>
        let s' := { s with unitPort := none }
        .next (s'.executionFault p.inst x p.op .corruptStream p.slot.number (x.work.cur.get p.slot))
      | .words len ws =>
        let r := applyUnit x.work p.slot len ws
        .next { s.setInst p.inst { x with work := r.2 } with unitPort := some { p with word := some r.1 } }

/-- FB32.RLE (R182). -/
def execFb32Rle (code : BitVec 3) (low5 : BitVec 5) (s : State) : Outcome :=
  s.runUnit .fb32 fun _ _ => rleBody (runLength .fb32 (code ++ low5))

/-- FB32.SINGLE (R181). -/
def execFb32Single (hi : BitVec 4) (s : State) : Outcome := s.runUnit .fb32 (singleBody .fb32 hi)

/-- FB32.PAIR (R180). -/
def execFb32Pair (hi lo : BitVec 4) (s : State) : Outcome := s.runUnit .fb32 (pairBody .fb32 hi lo)

/-- FB32.RSVD (R183): always CorruptStream. -/
def execFb32Rsvd (_hi _lo : BitVec 4) (s : State) : Outcome := s.runUnit .fb32 fun _ _ => reservedBody

/-- FB64.RLE (R186). -/
def execFb64Rle (runm1 : BitVec 4) (s : State) : Outcome :=
  s.runUnit .fb64 fun _ _ => rleBody (runLength .fb64 (flagByte 0xF#4 runm1))

/-- FB64.SINGLE (R185). -/
def execFb64Single (hi : BitVec 4) (s : State) : Outcome := s.runUnit .fb64 (singleBody .fb64 hi)

/-- FB64.PAIR (R184). -/
def execFb64Pair (hi lo : BitVec 4) (s : State) : Outcome := s.runUnit .fb64 (pairBody .fb64 hi lo)

/-- FB64LSB.RLE (R189). -/
def execFb64lsbRle (code low4 : BitVec 4) (s : State) : Outcome :=
  s.runUnit .fb64lsb fun _ _ => rleBody (runLength .fb64lsb (flagByte code low4))

/-- FB64LSB.SINGLE (R188). -/
def execFb64lsbSingle (hi : BitVec 4) (s : State) : Outcome := s.runUnit .fb64lsb (singleBody .fb64lsb hi)

/-- FB64LSB.PAIR (R187). -/
def execFb64lsbPair (hi lo : BitVec 4) (s : State) : Outcome := s.runUnit .fb64lsb (pairBody .fb64lsb hi lo)

/-- FB64LSB.RSVD (R190): always CorruptStream. -/
def execFb64lsbRsvd (_hi _lo : BitVec 4) (s : State) : Outcome := s.runUnit .fb64lsb fun _ _ => reservedBody

/-! ## The word step at the port -/

/-- A word returned from the carry at the port (R168), or end of stream, which changes no register (R169). -/
def State.unitWord (s : State) (p : UnitPort) (x : Instance) (r : Got U64 × Work) : Outcome :=
  match r with
  | (.value y, k) => .next { s.setInst p.inst { x with work := k } with unitPort := some { p with word := some y } }
  | (.eos, _) => .next { s with unitPort := some { p with word := none } }
  | (.corrupt sl off, _) =>
    .next (State.executionFault { s with unitPort := none } p.inst x p.op .corruptStream sl.number off)

/-- The flag byte the reader at the port fetches next: only with the carry empty and RD_CUR before the end (R168). -/
def nextFlag (x : Instance) (sl : Slot) (ch : List Byte) : Option Byte :=
  if x.work.carry = 1 ∨ x.work.carry < 0 then none else ch[(x.work.cur.get sl).toNat]?

end Sys2Proof.Machine
end

