-- ==== Sys2Proof/Machine/Dispatch.lean ====
section
/-! DEFINITION. One arm per instruction: its meaning. -/

namespace Sys2Proof.Machine

def exec (i : Instr) (s : State) : Host.Outcome State Fault Refusal :=
  match i with
  | .init inst ch0 ch1 => Sys2Proof.Machine.execInit inst ch0 ch1 s
  | .writeOne inst item => Sys2Proof.Machine.execWriteOne inst item s
  | .write inst buflen offset count buf => Sys2Proof.Machine.execWrite inst buflen offset count buf s
  | .readOne inst => Sys2Proof.Machine.execReadOne inst s
  | .read inst buflen offset count => Sys2Proof.Machine.execRead inst buflen offset count s
  | .skip inst count => Sys2Proof.Machine.execSkip inst count s
  | .commit inst => Sys2Proof.Machine.execCommit inst s
  | .reset inst => Sys2Proof.Machine.execReset inst s
  | .flush inst => Sys2Proof.Machine.execFlush inst s
  | .resume inst ch0 ch1 rows => Sys2Proof.Machine.execResume inst ch0 ch1 rows s
  | .createReader inst => Sys2Proof.Machine.execCreateReader inst s
  | .createWriter inst => Sys2Proof.Machine.execCreateWriter inst s
  | .getChannelCount inst => Sys2Proof.Machine.execGetChannelCount inst s
  | .getItemCount inst => Sys2Proof.Machine.execGetItemCount inst s
  | .construct desc itemCount => Sys2Proof.Machine.execConstruct desc itemCount s
  | .fb32Rle code low5 => Sys2Proof.Machine.execFb32Rle code low5 s
  | .fb32Single hi => Sys2Proof.Machine.execFb32Single hi s
  | .fb32Pair hi lo => Sys2Proof.Machine.execFb32Pair hi lo s
  | .fb32Rsvd hi lo => Sys2Proof.Machine.execFb32Rsvd hi lo s
  | .fb64Rle runm1 => Sys2Proof.Machine.execFb64Rle runm1 s
  | .fb64Single hi => Sys2Proof.Machine.execFb64Single hi s
  | .fb64Pair hi lo => Sys2Proof.Machine.execFb64Pair hi lo s
  | .fb64lsbRle code low4 => Sys2Proof.Machine.execFb64lsbRle code low4 s
  | .fb64lsbSingle hi => Sys2Proof.Machine.execFb64lsbSingle hi s
  | .fb64lsbPair hi lo => Sys2Proof.Machine.execFb64lsbPair hi lo s
  | .fb64lsbRsvd hi lo => Sys2Proof.Machine.execFb64lsbRsvd hi lo s

end Sys2Proof.Machine
end

