-- ==== Sys2Proof/Machine/Fetch.lean ====
section
/-! DEFINITION. How the next instruction is found: the host's next act (log entry 3), or, with a reader at the unit port,
the flag byte at its fetch pointer (10_state.md R46, log entry 5). -/

namespace Sys2Proof.Machine

/-! ## Commands -/

/-- The header of a packet: its opcode and INST; `none` where it has no legal header or is no whole number of words (log
entry 6). -/
def packetHeader (packet : List Byte) : Option (Opcode × U16) :=
  match wordsOf packet with
  | some (w :: _) =>
    match decodeHeader w with
    | .ok h => some h
    | .error _ => none
  | _ => none

/-- The shape of the operands of a packet: that of the instance its header names; numeric where it names none (log entry
24). -/
def State.packetShape (s : State) (packet : List Byte) : Shape :=
  match packetHeader packet with
  | none => .numeric
  | some (_, inst) => ((s.inst? inst).map fun x => x.cfg.base.shape).getD .numeric

/-- The header is legal but its INST names no created instance, and the command is not CONSTRUCT (30_encoding.md R104). -/
def State.packetUnaddressed (s : State) (packet : List Byte) : Bool :=
  match packetHeader packet with
  | none => false
  | some (op, inst) => op != .construct && (s.inst? inst).isNone

/-- What a packet is: an instruction, an IllegalCommand, or not one whole command. -/
inductive Fetched where
  | instr (i : Instr)
  | illegal
  | bad (e : DecodeError)
deriving DecidableEq, Repr

/-- A packet decoded in the shape of the instance it names (30_encoding.md R104, R108). A packet that is no whole number of
words, or holds no word, is refused whatever its header is (log entry 6); after an illegal header any whole words are taken
with it (log entry 24). -/
def State.fetchPacket (s : State) (packet : List Byte) : Fetched :=
  match decodePacket (s.packetShape packet) packet with
  | .ok i => .instr i
  | .error e => if e.isIllegal || s.packetUnaddressed packet then .illegal else .bad e

/-- IllegalCommand: "reported in the result only and changes no state" (60_exceptions.md R352). -/
def State.illegalCommand (s : State) : State := s.reply (.fault FaultCode.illegalCommand.code) []

/-! ## Host acts on channels -/

/-- The host creates a channel (70_reset_and_hazards.md R380): a new id, at most MAX_CHANNELS channels, at most CHANNEL_MAX
bytes; refused otherwise (log entry 18). -/
def State.hostCreate (s : State) (id : U64) (content : List Byte) : Outcome :=
  if (s.mem.get id).isSome ∨ s.params.maxChannels ≤ s.mem.chans.length ∨ s.params.channelMax < content.length then
    .refused .hostAct
  else .next { s with mem := s.mem.create id content }

/-- The host changes a channel's content: one modification (20_memory.md R87); refused where no such channel exists or the
content is too long (log entry 18). -/
def State.hostWrite (s : State) (id : U64) (content : List Byte) : Outcome :=
  if (s.mem.get id).isNone ∨ s.params.channelMax < content.length then .refused .hostAct
  else .next { s with mem := s.mem.modify id content }

/-! ## Units -/

/-- What the reader at the unit port does next (40_flagbyte.md R168). -/
inductive UnitFetch where
  /-- no reader of a flag-byte variant stands there -/
  | noReader
  /-- its slot is bound to no existing channel -/
  | noChannel
  /-- it returns a carried word, or end of stream -/
  | carried (p : UnitPort) (x : Instance) (r : Got U64 × Work)
  /-- it executes the unit at the head of these channel bytes -/
  | unit (v : Variant) (bytes : List Byte)
deriving DecidableEq, Repr

/-- The word step at the port: the carry first, then end of stream, then the unit at RD_CUR (R168). -/
def State.unitFetch (s : State) (p : UnitPort) : UnitFetch :=
  match (s.inst? p.inst).bind fun x => slotVariant x.cfg.base p.slot with
  | none => .noReader
  | some v =>
    match s.unitReader v with
    | none => .noReader
    | some (_, x) =>
      match s.boundChan x p.slot with
      | none => .noChannel
      | some c =>
        match nextFlag x p.slot c.bytes with
        | none => .carried p x (fbReadWord v p.slot c.bytes x.work)
        | some _ => .unit v (c.bytes.drop (x.work.cur.get p.slot).toNat)

/-! ## Placing an instruction for the host -/

/-- The least channel id that names no channel. -/
def Memory.freshId (m : Memory) : U64 :=
  BitVec.ofNat 64
    (((List.range (m.chans.length + 1)).find? fun i => (m.get (BitVec.ofNat 64 i)).isNone).getD 0)

/-- A new FB32 reader in READING, bound to a new channel of the content, at the unit port of a READ_ONE. -/
def State.withUnitReader (s : State) (content : List Byte) : State :=
  let id := s.mem.freshId
  let cfg : Cfg := { base := .fb32, xforms := [], role := .reader, itemCount := none, varKind := .bytes }
  let x := { Instance.fresh cfg with life := .reading, bind := { data := some { chan := id, seen := 0 }, lens := none } }
  let port : UnitPort := { inst := BitVec.ofNat 16 (s.insts.length + 1), slot := .data, op := .readOne, word := none }
  { s.addInst x with mem := s.mem.create id content, unitPort := some port }

end Sys2Proof.Machine
end

