-- ==== Sys2Proof/Machine/Step.lean ====
section
/-! DEFINITION. One step of the block: the host's next act, one command being one atomic step (44_pipeline.md R290); or
the word step at the unit port. -/

namespace Sys2Proof.Machine

/-- A command packet taken from the host. -/
def stepPacket (s : State) (packet : List Byte) : Host.Outcome State Fault Refusal :=
  match s.fetchPacket packet with
  | .instr i => exec i s
  | .illegal => .next s.illegalCommand
  | .bad e => .refused (.badPacket e)

/-- One act of the host, taken from the front of `input`. -/
def stepAct (s : State) : HostAct → Host.Outcome State Fault Refusal
  | .command packet => stepPacket s packet
  | .createChannel id content => s.hostCreate id content
  | .writeChannel id content => s.hostWrite id content

/-- The word step of the reader at the unit port. -/
def stepUnit (s : State) (p : UnitPort) : Host.Outcome State Fault Refusal :=
  match s.unitFetch p with
  | .noReader => .refused .noUnitReader
  | .noChannel => .fault .noChannel
  | .carried q x r => s.unitWord q x r
  | .unit v bytes =>
    match decode (.unit v) bytes with
    | .ok (i, _) => exec i s
    | .error e => .refused (.badPacket e)

/-- One step. With no act pending nothing happens (60_exceptions.md R365). -/
def step (s : State) : Host.Outcome State Fault Refusal :=
  match s.unitPort with
  | some p => stepUnit s p
  | none =>
    match s.input with
    | [] => .next s
    | act :: rest => stepAct { s with input := rest } act

/-- The state with an instruction placed where the next step fetches it: a command as the next packet of the host; a flag
byte at the fetch pointer of a new FB32 reader at the unit port (log entry 5). -/
def State.withFetchWord (s : State) (nbits w : Nat) : State :=
  let bs := tableBytes nbits w
  match decode (.command .numeric) bs with
  | .ok (_, rest) => { s with input := .command (bs.take (bs.length - rest.length)) :: s.input, unitPort := none }
  | .error _ => s.withUnitReader bs

end Sys2Proof.Machine
end

