-- ==== Sys2Proof/Safety.lean ====
section
/-! DEFINITION. The terms statements are made in: the invariant of every run, what a command leaves untouched, the closed
form of staging, the whole-sequence form of the encoder, and reading a stream to its end. -/

namespace Sys2Proof.Machine

/-! ## The invariant -/

/-- The variant of an instance's flag-byte registers: the base's own; FB64LSB on VARD (10_state.md R36, R44). -/
def flagVariant (b : Base) : Option Variant := if b = .vard then some .fb64lsb else b.variant?

/-- The ranges of FBW_ZRUN, FBW_PV and FBW_PEND, and "FBW_ZRUN = 0 whenever FBW_PV = 1" (10_state.md R36). -/
def fbwOk (v : Variant) (r : FbwRegs) : Bool :=
  decide (r.zrun < Variant.maxRun v) && (!r.pv || (r.zrun == 0 && r.pend != 0))

/-- RD_CARRY in -(MAX-1) .. +1 (10_state.md R37). -/
def carryOk (v : Variant) (c : Int) : Bool := decide (1 - (Variant.maxRun v : Int) ≤ c) && decide (c ≤ 1)

/-- BW_NBITS below 32 and a multiple of b (10_state.md R38). -/
def bwOk (b : Base) (n : Nat) : Bool := decide (n < 32) && decide (n % b.width = 0)

/-- The table lists indices below 2^H, rising, with no entry 0. -/
def tableOk (h : Nat) (t : List (Nat × U64)) : Bool :=
  t.all (fun e => decide (e.1 < 2 ^ h) && e.2 != 0) && decide ((t.map Prod.fst).Pairwise (· < ·))

/-- The ranges of a stage's registers (10_state.md R41, R42, R43). -/
def stageOk (h : Nat) : StageRegs → Bool
  | .dd r => decide (r.fill < 16) && r.frame.length == 16 && decide (r.fp < 16)
  | .xor _ => true
  | .dfcm r => decide (r.hash < 2 ^ h) && tableOk h r.table

/-- The ranges of the working registers (10_state.md R35 to R43), for the instance's base and stack. -/
def Work.ok (p : Params) (cfg : Cfg) (k : Work) : Bool :=
  decide (k.stage.data.length < p.stageBytes) && decide (k.stage.lens.length < p.stageBytes) &&
  (match flagVariant cfg.base with
    | some v => fbwOk v k.fbw && carryOk v k.carry
    | none => true) &&
  (cfg.base.strings || cfg.base.variant?.isSome || bwOk cfg.base k.bwNbits) &&
  k.xf.map StageRegs.kind == cfg.xforms && k.xf.all (stageOk p.dfcmBits)

/-- A configuration that CONSTRUCT accepts (10_state.md R26, 44_pipeline.md R308). -/
def Cfg.ok (c : Cfg) : Bool :=
  (c.xforms == [] || c.base.takesXforms) && decide (c.xforms.length ≤ 15) && (c.base.strings || c.varKind == .bytes)

/-- The LIFE values an instance of each role can have (10_state.md R31). -/
def lifeOk : Role → Life → Bool
  | .writer, l => l != .reading
  | .reader, l => l == .uninit || l == .reading || l == .faulted

/-- The slots of an instance are bound to existing channels, the two of VARD to different ones (10_state.md R34,
44_pipeline.md R293). -/
def bindingOk (s : State) (x : Instance) : Bool :=
  s.bound x &&
    match x.bind.data, x.bind.lens with
    | some a, some b => a.chan != b.chan
    | _, _ => true

/-- What holds of every created instance: a legal configuration and LIFE; the fault record is the reset record exactly
when the instance is not FAULTED (10_state.md R32); in UNINIT every register has its reset value (R49); once initialised
its slots are bound and its working registers in range. Nothing is said of the working registers in FAULTED
(60_exceptions.md R360). -/
def Instance.ok (s : State) (x : Instance) : Bool :=
  x.cfg.ok && lifeOk x.cfg.role x.life &&
  match x.life with
  | .faulted => x.fault.code != 0
  | .uninit => x == Instance.fresh x.cfg
  | _ => x.fault == FaultRec.reset && bindingOk s x && x.work.ok s.params x.cfg

/-- The commands that a reader decodes for (60_exceptions.md R351: CorruptStream). -/
def readingOp (op : Opcode) : Bool := op == .readOne || op == .read || op == .skip

/-- The invariant of every run: legal parameters; the memory in canonical form, every channel at most CHANNEL_MAX long
(20_memory.md R71); at most MAX_INSTANCES instances (60_exceptions.md R370), each in order. -/
def State.Inv (s : State) : Bool :=
  s.params.legal && decide s.mem.wf && s.mem.chans.all (fun c => decide (c.bytes.length ≤ s.params.channelMax)) &&
  decide (s.insts.length ≤ s.params.maxInstances) && s.insts.all (Instance.ok s) &&
  match s.unitPort with
  | none => true
  | some p => readingOp p.op

/-! ## Register widths -/

/-- The words of a stage's registers are uW words (10_state.md R40 to R43). -/
def stageWide (w : Nat) : StageRegs → Prop
  | .dd r => r.prev.toNat < 2 ^ w ∧ (∀ x ∈ r.frame, x.toNat < 2 ^ w) ∧ r.min.toNat < 2 ^ w
  | .xor prev => prev.toNat < 2 ^ w
  | .dfcm r => (∀ e ∈ r.table, e.2.toNat < 2 ^ w) ∧ r.last.toNat < 2 ^ w

/-- The widths of the working registers (10_state.md R36 to R43): FBW_PEND, RD_CARRYVAL and the words of the stages are uW
words, and BW_ACC holds nothing above its BW_NBITS bits (42_bitwidth.md R254: "The unused high bits of the last byte are 0"). -/
def Work.wide (b : Base) (k : Work) : Prop :=
  (b.strings = false → k.fbw.pend.toNat < 2 ^ b.width ∧ k.carryVal.toNat < 2 ^ b.width ∧
    ∀ st ∈ k.xf, stageWide b.width st) ∧
  k.bwAcc.toNat < 2 ^ k.bwNbits

/-- Every register of every instance that is not FAULTED has its width. -/
def WidthsKept (s : State) : Prop := ∀ x ∈ s.insts, x.life ≠ .faulted → x.work.wide x.cfg.base

/-! ## Reset values -/

/-- Every register of a stage is 0 (10_state.md R40 to R43). -/
def stageZero : StageRegs → Prop
  | .dd r => r.prev = 0 ∧ r.fill = 0 ∧ r.frame = List.replicate 16 0 ∧ r.fp = 0 ∧ r.min = 0
  | .xor prev => prev = 0
  | .dfcm r => (∀ i, tableGet r.table i = 0) ∧ r.hash = 0 ∧ r.last = 0

/-- The working registers have the reset values of 70_reset_and_hazards.md R383, and there is one stage per transform. -/
def AllReset (cfg : Cfg) (k : Work) : Prop :=
  k.stage.data = [] ∧ k.stage.lens = [] ∧
  k.fbw.zrun = 0 ∧ k.fbw.pv = false ∧ k.fbw.pend = 0 ∧
  k.cur.data = 0 ∧ k.cur.lens = 0 ∧ k.carry = 0 ∧ k.carryVal = 0 ∧
  k.bwAcc = 0 ∧ k.bwNbits = 0 ∧ k.bwRidx = 0 ∧
  k.xf.map StageRegs.kind = cfg.xforms ∧ ∀ st ∈ k.xf, stageZero st

/-- An instance as it starts to exist (70_reset_and_hazards.md R383, "at construction"). -/
def FreshOf (cfg : Cfg) (y : Instance) : Prop :=
  y.cfg = cfg ∧ y.life = .uninit ∧
  y.fault.code = 0 ∧ y.fault.opcode = 0 ∧ y.fault.slot = 0xFF#8 ∧ y.fault.offset = 0 ∧
  y.items = 0 ∧ y.bind.data = none ∧ y.bind.lens = none ∧ AllReset cfg y.work

/-! ## What a command leaves untouched -/

/-- The channels bound to an instance's slots. -/
def Instance.chans (x : Instance) : List U64 :=
  x.cfg.base.slots.filterMap fun sl => (x.bind.get sl).map Binding.chan

/-- Everything but one instance, the results and the channels `cs` is as before: parameters, the host's pending acts, the
unit port, the free-value counter, every other instance, which channels exist, every byte and the generation of every other
channel. -/
def Untouched (s t : State) (inst : U16) (cs : List U64) : Prop :=
  t.params = s.params ∧ t.input = s.input ∧ t.unitPort = s.unitPort ∧ t.freeCount = s.freeCount ∧
  (∀ j, j ≠ inst → t.inst? j = s.inst? j) ∧
  (∀ c, (t.mem.get c).isSome = (s.mem.get c).isSome) ∧
  ∀ c, c ∉ cs → t.mem.gen c = s.mem.gen c ∧ ∀ off, t.mem.readByte c off = s.mem.readByte c off

/-- The newest result is this one; the older ones are as before. -/
def Answered (s t : State) (status : U64) (words : List U64) : Prop :=
  t.results = { status := status, words := words } :: s.results

/-- The state with one more result, and nothing else changed. -/
def Replied (s t : State) (status : U64) (words : List U64) : Prop :=
  t = { s with results := { status := status, words := words } :: s.results }

/-- A fault found before execution is taken by an instance (60_exceptions.md R359, R360): the result is FAULT with the code;
the instance is FAULTED with the record; every other register of it, and everything else, is as before. -/
def TookFault (s t : State) (inst : U16) (x : Instance) (op : Opcode) (code : FaultCode) (slot : Byte) (offset : U64) :
    Prop :=
  Untouched s t inst [] ∧ Answered s t (2 + 256 * code.code.setWidth 64) [] ∧
  t.inst? inst = some
    { x with life := .faulted, fault := { code := code.code, opcode := op.code, slot := slot, offset := offset } }

/-- A fault found during execution is taken by an instance (60_exceptions.md R359, R360): every channel and every other
instance is as before; of the instance itself, CFG is as before, LIFE and the record are written, and nothing is said of the
rest. -/
def TookExecutionFault (s t : State) (inst : U16) (x : Instance) (op : Opcode) (code : FaultCode) (slot : Byte)
    (offset : U64) : Prop :=
  t.params = s.params ∧ t.input = s.input ∧ t.mem = s.mem ∧ (∀ j, j ≠ inst → t.inst? j = s.inst? j) ∧
  Answered s t (2 + 256 * code.code.setWidth 64) [] ∧
  ∃ y, t.inst? inst = some y ∧ y.cfg = x.cfg ∧ y.life = .faulted ∧
    y.fault = { code := code.code, opcode := op.code, slot := slot, offset := offset }

/-- No slot of the instance is stale (20_memory.md R86): SEEN equals GEN. -/
def Synced (s : State) (x : Instance) : Prop :=
  ∀ sl ∈ x.cfg.base.slots, ∀ b, x.bind.get sl = some b → s.mem.gen b.chan = b.seen

/-- Slot `sl` is the least slot whose channel was changed by another agent (60_exceptions.md R355). -/
def LeastStale (s : State) (x : Instance) (sl : Slot) : Prop :=
  sl ∈ x.cfg.base.slots ∧ (∃ b, x.bind.get sl = some b ∧ s.mem.gen b.chan ≠ b.seen) ∧
  (sl = .lens → ∀ b, x.bind.get .data = some b → s.mem.gen b.chan = b.seen)

/-- Every slot of the instance satisfies a condition on its output path. -/
def EachLane (s : State) (x : Instance) (f : Slot → Lane → Prop) : Prop :=
  ∀ sl ∈ x.cfg.base.slots, ∀ l, s.lane x sl = some l → f sl l

/-- Each slot's output path (channel content, GEN, SEEN, STAGE) became a function of what it was, on the same channel; the
binding of a slot the base does not have is as before. -/
def LanesBecome (s t : State) (x y : Instance) (f : Slot → Lane → Lane) : Prop :=
  (∀ sl ∈ x.cfg.base.slots, ∀ l, s.lane x sl = some l →
    t.lane y sl = some (f sl l) ∧ (y.bind.get sl).map Binding.chan = (x.bind.get sl).map Binding.chan) ∧
  ∀ sl, sl ∉ x.cfg.base.slots → y.bind.get sl = x.bind.get sl

/-- The STAGE of a slot the base does not have is as before. -/
def SparesUnusedStage (x y : Instance) : Prop :=
  ∀ sl, sl ∉ x.cfg.base.slots → y.work.stage.get sl = x.work.stage.get sl

/-- Every working register but STAGE is as in `k`. -/
def WorkIs (y : Instance) (k : Work) : Prop := { y.work with stage := k.stage } = k

/-! ## Commands -/

/-- The opcode and the instance of a command; `none` for a unit. CONSTRUCT names instance 0. -/
def Instr.command? : Instr → Option (Opcode × U16)
  | .init inst _ _ => some (.init, inst)
  | .writeOne inst _ => some (.writeOne, inst)
  | .write inst _ _ _ _ => some (.write, inst)
  | .readOne inst => some (.readOne, inst)
  | .read inst _ _ _ => some (.read, inst)
  | .skip inst _ => some (.skip, inst)
  | .commit inst => some (.commit, inst)
  | .reset inst => some (.reset, inst)
  | .flush inst => some (.flush, inst)
  | .resume inst _ _ _ => some (.resume, inst)
  | .createReader inst => some (.createReader, inst)
  | .createWriter inst => some (.createWriter, inst)
  | .getChannelCount inst => some (.getChannelCount, inst)
  | .getItemCount inst => some (.getItemCount, inst)
  | .construct _ _ => some (.construct, 0)
  | .fb32Rle _ _ => none
  | .fb32Single _ => none
  | .fb32Pair _ _ => none
  | .fb32Rsvd _ _ => none
  | .fb64Rle _ => none
  | .fb64Single _ => none
  | .fb64Pair _ _ => none
  | .fb64lsbRle _ _ => none
  | .fb64lsbSingle _ => none
  | .fb64lsbPair _ _ => none
  | .fb64lsbRsvd _ _ => none

/-- The rows of 44_pipeline.md R307 for an instance that is not FAULTED: command, role, LIFE in which it is valid. -/
def validRows : List (Opcode × Role × List Life) :=
  [(.init, .reader, [.uninit, .empty, .writing, .committed, .reading]),
   (.init, .writer, [.uninit, .empty, .writing, .committed, .reading]),
   (.writeOne, .writer, [.empty, .writing]), (.write, .writer, [.empty, .writing]),
   (.readOne, .reader, [.reading]), (.read, .reader, [.reading]), (.skip, .reader, [.reading]),
   (.commit, .writer, [.empty, .writing, .committed]),
   (.reset, .writer, [.empty, .writing, .committed]), (.reset, .reader, [.reading]),
   (.flush, .writer, [.empty, .writing, .committed]),
   (.resume, .writer, [.uninit, .committed]),
   (.createReader, .writer, [.uninit, .empty, .writing, .committed, .reading]),
   (.createWriter, .reader, [.uninit, .empty, .writing, .committed, .reading]),
   (.getChannelCount, .reader, [.uninit, .empty, .writing, .committed, .reading]),
   (.getChannelCount, .writer, [.uninit, .empty, .writing, .committed, .reading]),
   (.getItemCount, .reader, [.uninit, .empty, .writing, .committed, .reading]),
   (.getItemCount, .writer, [.uninit, .empty, .writing, .committed, .reading])]

/-- A command whose role and LIFE the table lists. -/
def listedRow (op : Opcode) (role : Role) (life : Life) : Prop :=
  ∃ row ∈ validRows, row.1 = op ∧ row.2.1 = role ∧ life ∈ row.2.2

/-- A WRITE_ONE of one item, or a WRITE whose buffer positions OFFSET .. OFFSET + COUNT - 1 hold the items; the other
positions hold anything (30_encoding.md R106). -/
def WriteCommand (inst : U16) (items : List Item) (i : Instr) : Prop :=
  (∃ item, items = [item] ∧ i = .writeOne inst item.operand) ∨
  ∃ buflen offset count buf, i = .write inst buflen offset count buf ∧ buf.length = buflen.toNat ∧
    offset.toNat + count.toNat ≤ buflen.toNat ∧
    (buf.drop offset.toNat).take count.toNat = items.map Item.operand

/-- An item operand of the base's form, whose value is an invalid argument (44_pipeline.md R294): a number of more than OPW
bits, or a byte string with a byte that is not 0 after its LEN bytes. -/
def BadOperand (b : Base) : Operand → Prop
  | .num w => b.strings = false ∧ 2 ^ b.opWidth ≤ w.toNat
  | .str len words => b.strings = true ∧ words.length = (len.toNat + 7) / 8 ∧
      ∃ j, len.toNat ≤ j ∧ ∃ y, (wordsBytes words)[j]? = some y ∧ y ≠ 0

/-- STATUS.ITEMS + n stays within CFG.ITEMCOUNT, where there is a bound (44_pipeline.md R294, R295). -/
def RoomFor (x : Instance) (n : Nat) : Prop := ∀ c, x.cfg.itemCount = some c → x.items.toNat + n ≤ c.toNat

/-- Legal channel operands of INIT and RESUME (44_pipeline.md R293): one or two as ChannelCount says, each names a channel,
and they differ. -/
def ChannelOperands (s : State) (x : Instance) (ch0 : U64) (ch1 : Option U64) : Prop :=
  (ch1.isSome = true ↔ x.cfg.base.channelCount = 2) ∧ (s.mem.get ch0).isSome = true ∧
  ∀ c1, ch1 = some c1 → (s.mem.get c1).isSome = true ∧ c1 ≠ ch0

/-- The channels that a command's operands name. -/
def operandChans : Instr → List U64
  | .init _ a b => a :: b.toList
  | .resume _ a b _ => a :: b.toList
  | _ => []

/-- Two states agree on what a command of an instance works on: the parameters, the free-value counter, the instance and some
channels. -/
def AgreeOn (s t : State) (inst : U16) (cs : List U64) : Prop :=
  t.params = s.params ∧ t.freeCount = s.freeCount ∧ t.inst? inst = s.inst? inst ∧ ∀ c ∈ cs, t.mem.get c = s.mem.get c

/-- The content of the channels that operands name, per slot. -/
def contents (s : State) (ch0 : U64) (ch1 : Option U64) : PerSlot (List Byte) :=
  { data := ((s.mem.get ch0).map Channel.bytes).getD []
    lens := ((ch1.bind s.mem.get).map Channel.bytes).getD [] }

/-- A channel's content became `bs`, one modification if that changed it (44_pipeline.md R302). -/
def ContentBecomes (s t : State) (c : U64) (bs : List Byte) : Prop :=
  ∃ ch, s.mem.get c = some ch ∧
    t.mem.get c = some { id := c, bytes := bs, gen := if ch.bytes = bs then ch.gen else ch.gen + 1 }

/-- The commands of a list, one after the other; a fault or refusal stops the run. -/
def runAll : List Instr → State → Outcome
  | [], s => .next s
  | i :: is, s =>
    match exec i s with
    | .next t => runAll is t
    | .fault r => .fault r
    | .refused r => .refused r

/-- The status of the newest result; 2 (FAULT) where there is none. -/
def State.lastStatus (s : State) : U64 :=
  match s.results with
  | [] => 2
  | r :: _ => r.status

/-- The command answers OK. -/
def RunsOk (i : Instr) (s t : State) : Prop := exec i s = .next t ∧ t.lastStatus = 0

/-- A header word that is an IllegalCommand (30_encoding.md R104): a reserved opcode, a reserved field that is not 0, INST not
0 on CONSTRUCT, or an INST that names no created instance. -/
def IllegalHeader (s : State) (w : U64) : Prop :=
  (w.extractLsb' 0 8).toNat = 0 ∨ 0x10 ≤ (w.extractLsb' 0 8).toNat ∨
  w.extractLsb' 8 8 ≠ 0 ∨ w.extractLsb' 32 32 ≠ 0 ∨
  (w.extractLsb' 0 8 = 0x0F#8 ∧ w.extractLsb' 16 16 ≠ 0) ∨
  (w.extractLsb' 0 8 ≠ 0x0F#8 ∧ s.inst? (w.extractLsb' 16 16) = none)

/-! ## The construction descriptor, 30_encoding.md R105 -/

/-- The code of a base (10_state.md R23). -/
def Base.code : Base → Nat
  | .fb32 => 0
  | .fb64 => 1
  | .fb64lsb => 2
  | .bw1 => 3
  | .bw2 => 4
  | .bw4 => 5
  | .bw8 => 6
  | .bw16 => 7
  | .bool => 8
  | .vari => 9
  | .vard => 10

/-- The code of a KIND. -/
def VarKind.code : VarKind → Nat
  | .bytes => 0
  | .utf8 => 1
  | .substream => 2

/-- The code of a transform. -/
def Xform.code : Xform → Nat
  | .dd => 1
  | .xor => 2
  | .dfcm => 3

/-- The transform codes, T1 lowest, two bits each. -/
def xformCodes : List Xform → Nat
  | [] => 0
  | t :: ts => t.code + 4 * xformCodes ts

/-- The descriptor word of a configuration. -/
def Cfg.desc (c : Cfg) : U64 :=
  BitVec.ofNat 64
    (c.base.code + (if c.role = .writer then 0x10 else 0) + c.varKind.code * 0x20 +
      (if c.itemCount.isSome then 0x80 else 0) + c.xforms.length * 0x100 + xformCodes c.xforms * 0x1000)

/-! ## Units -/

/-- The value of a unit's data bytes by 30_encoding.md R117: k bytes, least significant first; a leading value is shifted up
by B - k bytes. -/
def dataValue (b k : Nat) (leading : Bool) (l : List Byte) : U64 :=
  BitVec.ofNat 64 (if leading then unLE l * 2 ^ (8 * (b - k)) else unLE l)

/-- The data bytes of a value: n bytes from an offset. -/
def bytesAt (c : Channel) (off n : Nat) : List Byte := (List.range n).map fun i => c.bytes.getD (off + i) 0

/-- What executing a unit leaves (40_flagbyte.md R168): the word returned at the port, the reader's working registers;
everything else as before. -/
def UnitRan (s t : State) (p : UnitPort) (x : Instance) (word : U64) (k : Work) : Prop :=
  t.params = s.params ∧ t.mem = s.mem ∧ t.input = s.input ∧ t.results = s.results ∧ t.freeCount = s.freeCount ∧
  (∀ j, j ≠ p.inst → t.inst? j = s.inst? j) ∧
  t.unitPort = some { p with word := some word } ∧ t.inst? p.inst = some { x with work := k }

/-- The reader `x` of the variant `v` stands at the unit port, its slot bound to the channel `c`. -/
def AtPort (s : State) (p : UnitPort) (x : Instance) (v : Variant) (c : Channel) : Prop :=
  s.unitPort = some p ∧ s.inst? p.inst = some x ∧ x.cfg.role = .reader ∧ x.life = .reading ∧
  slotVariant x.cfg.base p.slot = some v ∧ s.boundChan x p.slot = some c

/-- RD_CUR[s] advanced by n. -/
def Work.advance (k : Work) (sl : Slot) (n : Nat) : Work := { k with cur := k.cur.set sl (k.cur.get sl + BitVec.ofNat 64 n) }

/-! ## Staging in closed form -/

/-- How many bytes of STAGE and of n further bytes reach the channel: whole buffers of STAGE_BYTES (20_memory.md R76). -/
def flushedLen (stageBytes : Nat) (l : Lane) (n : Nat) : Nat := (l.stage.length + n) / stageBytes * stageBytes

/-- The output path after the bytes are emitted (20_memory.md R76, R77): whole buffers are in the channel, one modification
each, the rest is staged. -/
def Lane.staged (stageBytes : Nat) (l : Lane) (bs : List Byte) : Lane :=
  let k := flushedLen stageBytes l bs.length
  let g := l.gen + BitVec.ofNat 64 ((l.stage.length + bs.length) / stageBytes)
  { bytes := l.bytes ++ (l.stage ++ bs).take k
    gen := g
    seen := if k = 0 then l.seen else g
    stage := (l.stage ++ bs).drop k }

/-- The output path after the bytes are emitted and the stage flushed (20_memory.md R76, R77): every byte is in the channel, one
modification for each buffer, the last one perhaps not full. -/
def Lane.drained (stageBytes : Nat) (l : Lane) (bs : List Byte) : Lane :=
  let g := l.gen + BitVec.ofNat 64 ((l.stage.length + bs.length + (stageBytes - 1)) / stageBytes)
  { bytes := l.bytes ++ (l.stage ++ bs), gen := g, seen := if l.stage ++ bs = [] then l.seen else g, stage := [] }

/-! ## The encoder as a function of the whole sequence, 40_flagbyte.md R166 -/

/-- How many zero words a list begins with. -/
def leadingZeros : List U64 → Nat
  | [] => 0
  | x :: xs => if x = 0 then leadingZeros xs + 1 else 0

/-- `Enc(xs)` (R166), with fuel: a call drops at least one word, so |xs| calls are enough. -/
def encSeq (v : Variant) : Nat → List U64 → List Byte
  | 0, _ => []
  | _ + 1, [] => []
  | n + 1, x :: xs =>
    let r := leadingZeros (x :: xs)
    if Variant.rleMin v ≤ r then
      rleUnit v (Nat.min r (Variant.maxRun v)) ++ encSeq v n ((x :: xs).drop (Nat.min r (Variant.maxRun v)))
    else
      match xs with
      | [] => singleUnit v x
      | y :: ys => pairUnit v x y ++ encSeq v n ys

/-- The bytes a flag-byte writer emits from reset for the words and one commit flush. -/
def fbEncode (v : Variant) (xs : List U64) : List Byte :=
  (fbWriteWords v FbwRegs.reset xs).2 ++ (fbFlush v (fbWriteWords v FbwRegs.reset xs).1).2

/-! ## Reading to the end -/

/-- Up to n words pulled: the words, and the first answer that is no word (`none` when there were n words). -/
def pullMany {κ : Type} (pull : κ → Got U64 × κ) : Nat → κ → List U64 × Option (Got U64) × κ
  | 0, k => ([], none, k)
  | n + 1, k =>
    match pull k with
    | (.value x, k') =>
      let r := pullMany pull n k'
      (x :: r.1, r.2.1, r.2.2)
    | (g, k') => ([], some g, k')

/-- A word list as the stage below: its words in order, then end of stream. -/
def pullList : List U64 → Got U64 × List U64
  | [] => (.eos, [])
  | x :: xs => (.value x, xs)

/-- A transform stage read over a word list. -/
def stageOverList (w h : Nat) (k : StageRegs × List U64) : Got U64 × StageRegs × List U64 :=
  stageRead w h pullList (fun _ => 0) k.1 k.2

/-- The words a stage pushes from reset for the items and one commit flush. -/
def stageEncode (w h : Nat) (t : Xform) (xs : List U64) : List U64 :=
  (stageWrites w h (StageRegs.reset t) xs).2 ++ (stageFlush w (stageWrites w h (StageRegs.reset t) xs).1).2

/-- The bytes a bit-width writer of width b emits from reset for the words and one commit flush. -/
def bwEncode (b : Nat) (xs : List U64) : List Byte :=
  (bwWriteWords b { acc := 0, nbits := 0 } xs).2 ++ (bwFlush (bwWriteWords b { acc := 0, nbits := 0 } xs).1).2

/-- An item that the configuration's words hold exactly: below 2^W, or a byte string. -/
def Item.exact (b : Base) : Item → Bool
  | .num x => !b.strings && decide (x.toNat < 2 ^ b.width)
  | .str s => b.strings && decide (s.length < 2 ^ 64)

/-- The bytes a numeric base emits from reset for the words and one commit flush. -/
def baseEncode (b : Base) (ws : List U64) : List Byte :=
  match b.variant? with
  | some v => fbEncode v ws
  | none => bwEncode b.width ws

/-- The words of a list of numeric items, each reduced to W bits (44_pipeline.md R291). -/
def itemWords (b : Base) (xs : List Item) : List U64 :=
  xs.filterMap fun
    | .num x => some (trunc b.width x)
    | .str _ => none

/-- The words that reach the base: each stage's whole output, its commit flush included, is the next one's input. -/
def stackEncode (w h : Nat) (ts : List Xform) (ws : List U64) : List U64 :=
  ts.foldl (fun acc t => stageEncode w h t acc) ws

end Sys2Proof.Machine
end

