-- ==== Sys2Proof/Certificates/Slice0/Obligations.lean ====
section
/-! DEFINITION. The statements for the provers. Each says which rules of spec/ it formalises; a statement that rests on a
choice of the model names the log entry. The parameters of 00_scope.md R7 are fields of the state, so no statement rests on a
value of them. -/

section

open Sys2Proof Sys2Proof.Machine

/-! ## Fetch and decode -/

/-- 44_pipeline.md R290: the host's next command, decoded in the shape of the instance it names, is executed. How the host's
bytes reach the block is the model's choice (log entry 3). -/
def Obligations.StepRunsTheDecodedCommand : Prop :=
  ∀ (s : State) (packet : List Byte) (rest : List HostAct) (i : Instr),
    s.unitPort = none → s.input = .command packet :: rest →
    decodePacket (s.packetShape packet) packet = .ok i →
    step s = exec i { s with input := rest }

/-- 40_flagbyte.md R167, R168: with the carry empty, the reader at the port executes the unit whose flag byte stands at
RD_CUR. The port itself is the model's choice (log entry 5). -/
def Obligations.StepRunsTheDecodedUnit : Prop :=
  ∀ (s : State) (p : UnitPort) (x : Instance) (v : Variant) (c : Channel) (f : Byte),
    AtPort s p x v c → x.work.carry = 0 → c.bytes[(x.work.cur.get p.slot).toNat]? = some f →
    step s = exec (decodeUnit v f) s

/-- 30_encoding.md R104, 60_exceptions.md R352: a header with a reserved opcode, a reserved field that is not 0, an INST on
CONSTRUCT, or an INST that names no instance: IllegalCommand in the result, no other change. That the whole packet is taken,
whatever words follow the header, is the model's choice (log entry 24), and so is how the host's bytes reach the block (log
entry 3). -/
def Obligations.IllegalHeadersChangeNothing : Prop :=
  ∀ (s : State) (w : U64) (ws : List U64) (rest : List HostAct),
    s.unitPort = none → s.input = .command (wordsBytes (w :: ws)) :: rest → IllegalHeader s w →
    step s = .next { s with input := rest, results := { status := 0x0502, words := [] } :: s.results }

/-- 30_encoding.md R101 to R105, R111 to R114: the encoding of every well-formed instruction decodes to it, every operand at
every value, with nothing left over. -/
def Obligations.DecodingInvertsEncoding : Prop :=
  ∀ (sh : Shape) (i : Instr), i.wellFormed = true → i.fits sh = true → decode (i.port sh) (encode i) = .ok (i, [])

/-- 30_encoding.md R101 to R108: a packet that decodes is the encoding of a well-formed command of the shape: no bit of it is
ignored. -/
def Obligations.DecodedPacketsEncodeBack : Prop :=
  ∀ (sh : Shape) (bs : List Byte) (i : Instr), decodePacket sh bs = .ok i →
    i.wellFormed = true ∧ i.fits sh = true ∧ (Instr.command? i).isSome = true ∧ encode i = bs

/-- 30_encoding.md R112, R113, R114: the class of every flag byte, its run length, the byte count and the selection of every
value nibble; and the unit read from a flag byte is well formed and encodes back to that byte. -/
def Obligations.FlagBytesFollowTheTables : Prop :=
  (∀ f : Byte,
    decodeUnit .fb32 f =
      (if 0xA0 ≤ f.toNat then .fb32Rle (f.extractLsb' 5 3) (f.extractLsb' 0 5)
       else if f.toNat % 16 = 15 then .fb32Single (f.extractLsb' 4 4)
       else if f.toNat % 16 ≤ 9 then .fb32Pair (f.extractLsb' 4 4) (f.extractLsb' 0 4)
       else .fb32Rsvd (f.extractLsb' 4 4) (f.extractLsb' 0 4)) ∧
    decodeUnit .fb64 f =
      (if 0xF0 ≤ f.toNat then .fb64Rle (f.extractLsb' 0 4)
       else if f.toNat % 16 = 15 then .fb64Single (f.extractLsb' 4 4)
       else .fb64Pair (f.extractLsb' 4 4) (f.extractLsb' 0 4)) ∧
    decodeUnit .fb64lsb f =
      (if 0x90 ≤ f.toNat then .fb64lsbRle (f.extractLsb' 4 4) (f.extractLsb' 0 4)
       else if f.toNat % 16 = 15 then .fb64lsbSingle (f.extractLsb' 4 4)
       else if f.toNat % 16 ≤ 8 then .fb64lsbPair (f.extractLsb' 4 4) (f.extractLsb' 0 4)
       else .fb64lsbRsvd (f.extractLsb' 4 4) (f.extractLsb' 0 4)) ∧
    (0xA0 ≤ f.toNat → runLength .fb32 f = f.toNat - 0xA0 + 3) ∧
    (0xF0 ≤ f.toNat → runLength .fb64 f = f.toNat - 0xF0 + 1) ∧
    (0x90 ≤ f.toNat → runLength .fb64lsb f = f.toNat - 0x90 + 3)) ∧
  (∀ n : BitVec 4,
    nibBytes .fb32 n = n.toNat / 2 ∧ nibLeading .fb32 n = n.getLsbD 0 ∧
    nibBytes .fb64 n = n.toNat % 8 + 1 ∧ nibLeading .fb64 n = n.getLsbD 3 ∧
    nibBytes .fb64lsb n = n.toNat ∧ nibLeading .fb64lsb n = false) ∧
  ∀ (v : Variant) (f : Byte), (decodeUnit v f).wellFormed = true ∧ encode (decodeUnit v f) = [f] ∧
    (decodeUnit v f).flag? = some (v, f)

/-- 30_encoding.md R101 to R105, R112 to R114: a few words written out from the spec's encodings decode to the instructions
they stand for (95_test_vectors.md V81, V83). -/
def Obligations.WrittenOutWordsDecode : Prop :=
  decodePacket .numeric [0x01, 0, 1, 0, 0, 0, 0, 0, 2, 0, 0, 0, 0, 0, 0, 0] = .ok (.init 1 2 none) ∧
  decodePacket { twoChannels := true, strings := true }
      [0x0A, 0, 1, 0, 0, 0, 0, 0, 2, 0, 0, 0, 0, 0, 0, 0, 3, 0, 0, 0, 0, 0, 0, 0, 4, 0, 0, 0, 0, 0, 0, 0] =
    .ok (.resume 1 2 (some 3) 4) ∧
  decodePacket .numeric [0x0F, 0, 0, 0, 0, 0, 0, 0, 0x81, 0, 0, 0, 0, 0, 0, 0, 3, 0, 0, 0, 0, 0, 0, 0] =
    .ok (.construct 0x81 (some 3)) ∧
  decodeUnit .fb32 0x20#8 = .fb32Pair 2 0 ∧ decodeUnit .fb32 0xFF#8 = .fb32Rle 7 31 ∧
  decodeUnit .fb64 0xF2#8 = .fb64Rle 2 ∧ decodeUnit .fb64lsb 0x1F#8 = .fb64lsbSingle 1

/-- 30_encoding.md R105, 44_pipeline.md R308: the descriptor of every legal configuration names it, and no other descriptor
names a configuration. -/
def Obligations.DescriptorsNameTheirConfiguration : Prop :=
  (∀ c : Cfg, c.ok = true → parseDesc c.desc c.itemCount = some c ∧ c.desc.getLsbD 7 = c.itemCount.isSome) ∧
  ∀ (d : U64) (n : Option U64) (c : Cfg), n.isSome = d.getLsbD 7 → parseDesc d n = some c →
    c.ok = true ∧ c.itemCount = n ∧ c.desc = d

/-- 30_encoding.md R102, 44_pipeline.md R294: the operands that carry an item of the base are exactly the operand forms of its
items: a number below 2^OPW, or a byte string packed with unused bytes 0. -/
def Obligations.OperandsCarryExactlyTheItems : Prop :=
  ∀ (b : Base) (o : Operand) (x : Item), checkOperand b o = .item x ↔ o = x.operand ∧ x.fits b = true

/-! ## The flag-byte codec -/

/-- 40_flagbyte.md R151 to R158: the nibble and data bytes chosen for a word decode to it and are as many as the nibble says;
the nibble is a value nibble; the run-length byte of a run is an RLE flag byte of that run. -/
def Obligations.NibblesAndRunBytesGiveBack : Prop :=
  (∀ (v : Variant) (x : U64), x.toNat < 2 ^ (8 * Variant.byteWidth v) →
    nibValue v (nibOf v x).1 (nibOf v x).2 = x ∧ (nibOf v x).2.length = nibBytes v (nibOf v x).1 ∧
    nibBytes v (nibOf v x).1 ≤ Variant.byteWidth v ∧ (v = .fb64 → (nibOf v x).1 ≠ 0xF#4)) ∧
  ∀ (v : Variant) (r : Nat), Variant.rleMin v ≤ r → r ≤ Variant.maxRun v →
    flagKind v (rleByte v r) = .rle ∧ runLength v (rleByte v r) = r

/-- 40_flagbyte.md R152, R154, R155: the nibble chosen for a word needs no more data bytes than any nibble whose bytes decode to
it, and it is a trailing nibble when a trailing one needs as many ("choosing the fewer bytes, trailing on a tie"). -/
def Obligations.NibblesUseTheFewestBytes : Prop :=
  ∀ (v : Variant) (x : U64) (n : BitVec 4) (l : List Byte), x.toNat < 2 ^ (8 * Variant.byteWidth v) →
    nibBytes v n ≤ Variant.byteWidth v → l.length = nibBytes v n → nibValue v n l = x →
    (nibOf v x).2.length ≤ l.length ∧
    ((nibOf v x).2.length = l.length → nibLeading v n = false → nibLeading v (nibOf v x).1 = false)

/-- 40_flagbyte.md R166: the writer's bytes from reset through a word list and one commit flush are Enc of the list, and the
bytes before the flush are a prefix of Enc of every longer list. -/
def Obligations.EncoderIsTheWholeSequenceForm : Prop :=
  ∀ (v : Variant) (xs ys : List U64),
    fbEncode v xs = encSeq v xs.length xs ∧
    (fbWriteWords v FbwRegs.reset xs).2 <+: encSeq v (xs ++ ys).length (xs ++ ys)

/-- 40_flagbyte.md R173: for every variant and word list, decoding Enc(xs) with FBReadWord from reset returns exactly xs
followed by EOS. The stream must fit in a channel, which is shorter than 2^64 bytes (20_memory.md R71). -/
def Obligations.FlagByteRoundTrip : Prop :=
  ∀ (v : Variant) (sl : Slot) (xs : List U64) (k : Work),
    (∀ x ∈ xs, x.toNat < 2 ^ (8 * Variant.byteWidth v)) → (fbEncode v xs).length < 2 ^ 64 →
    k.cur.get sl = 0 → k.carry = 0 →
    (pullMany (fbReadWord v sl (fbEncode v xs)) (xs.length + 1) k).1 = xs ∧
    (pullMany (fbReadWord v sl (fbEncode v xs)) (xs.length + 1) k).2.1 = some .eos

/-! ## Units -/

/-- 40_flagbyte.md R182, R186, R189: FB32.RLE, FB64.RLE and FB64LSB.RLE complete: one byte is consumed, the word 0 is
returned, RD_CARRY becomes -(r - 1); nothing else changes. That a unit is executed on its own, as a step
at the unit port, is the model's choice (log entry 5). -/
def Obligations.RunUnitsComplete : Prop :=
  ∀ (s : State) (p : UnitPort) (x : Instance) (c : Channel),
    (∀ (code : BitVec 3) (low5 : BitVec 5), 5 ≤ code.toNat → AtPort s p x .fb32 c →
      ∃ t, exec (.fb32Rle code low5) s = .next t ∧
        UnitRan s t p x 0 { x.work.advance p.slot 1 with
          carry := -(((code.toNat : Int) - 5) * 32 + low5.toNat + 3 - 1) }) ∧
    (∀ runm1 : BitVec 4, AtPort s p x .fb64 c →
      ∃ t, exec (.fb64Rle runm1) s = .next t ∧
        UnitRan s t p x 0 { x.work.advance p.slot 1 with carry := -((runm1.toNat : Int) + 1 - 1) }) ∧
    ∀ code low4 : BitVec 4, 9 ≤ code.toNat → AtPort s p x .fb64lsb c →
      ∃ t, exec (.fb64lsbRle code low4) s = .next t ∧
        UnitRan s t p x 0 { x.work.advance p.slot 1 with
          carry := -(((code.toNat : Int) - 9) * 16 + low4.toNat + 3 - 1) }

/-- 40_flagbyte.md R181, R185, R188: FB32.SINGLE, FB64.SINGLE and FB64LSB.SINGLE complete when their data bytes are there:
1 + k1 bytes are consumed, the value is returned, the carry stays; nothing else changes. That a unit is executed on its own,
as a step at the unit port, is the model's choice (log entry 5). -/
def Obligations.SingleUnitsComplete : Prop :=
  ∀ (s : State) (p : UnitPort) (x : Instance) (c : Channel) (hi : BitVec 4) (off : Nat),
    off = (x.work.cur.get p.slot).toNat →
    (hi.toNat / 2 ≤ 4 → AtPort s p x .fb32 c → off + 1 + hi.toNat / 2 ≤ c.bytes.length →
      ∃ t, exec (.fb32Single hi) s = .next t ∧
        UnitRan s t p x (dataValue 4 (hi.toNat / 2) (hi.getLsbD 0) (bytesAt c (off + 1) (hi.toNat / 2)))
          (x.work.advance p.slot (1 + hi.toNat / 2))) ∧
    (hi ≠ 0xF#4 → AtPort s p x .fb64 c → off + 1 + (hi.toNat % 8 + 1) ≤ c.bytes.length →
      ∃ t, exec (.fb64Single hi) s = .next t ∧
        UnitRan s t p x (dataValue 8 (hi.toNat % 8 + 1) (hi.getLsbD 3) (bytesAt c (off + 1) (hi.toNat % 8 + 1)))
          (x.work.advance p.slot (1 + (hi.toNat % 8 + 1)))) ∧
    (hi.toNat ≤ 8 → AtPort s p x .fb64lsb c → off + 1 + hi.toNat ≤ c.bytes.length →
      ∃ t, exec (.fb64lsbSingle hi) s = .next t ∧
        UnitRan s t p x (dataValue 8 hi.toNat false (bytesAt c (off + 1) hi.toNat))
          (x.work.advance p.slot (1 + hi.toNat)))

/-- 40_flagbyte.md R180, R184, R187: FB32.PAIR, FB64.PAIR and FB64LSB.PAIR complete when their data bytes are there:
1 + k1 + k2 bytes are consumed, value 1 is returned, RD_CARRY becomes +1 and RD_CARRYVAL value 2; nothing else changes. That
a unit is executed on its own, as a step at the unit port, is the model's choice (log entry 5). -/
def Obligations.PairUnitsComplete : Prop :=
  ∀ (s : State) (p : UnitPort) (x : Instance) (c : Channel) (hi lo : BitVec 4) (off : Nat),
    off = (x.work.cur.get p.slot).toNat →
    (hi.toNat / 2 ≤ 4 → lo.toNat / 2 ≤ 4 → AtPort s p x .fb32 c →
      off + 1 + hi.toNat / 2 + lo.toNat / 2 ≤ c.bytes.length →
      ∃ t, exec (.fb32Pair hi lo) s = .next t ∧
        UnitRan s t p x (dataValue 4 (hi.toNat / 2) (hi.getLsbD 0) (bytesAt c (off + 1) (hi.toNat / 2)))
          { x.work.advance p.slot (1 + hi.toNat / 2 + lo.toNat / 2) with
            carry := 1
            carryVal := dataValue 4 (lo.toNat / 2) (lo.getLsbD 0)
              (bytesAt c (off + 1 + hi.toNat / 2) (lo.toNat / 2)) }) ∧
    (hi ≠ 0xF#4 → lo ≠ 0xF#4 → AtPort s p x .fb64 c →
      off + 1 + (hi.toNat % 8 + 1) + (lo.toNat % 8 + 1) ≤ c.bytes.length →
      ∃ t, exec (.fb64Pair hi lo) s = .next t ∧
        UnitRan s t p x (dataValue 8 (hi.toNat % 8 + 1) (hi.getLsbD 3) (bytesAt c (off + 1) (hi.toNat % 8 + 1)))
          { x.work.advance p.slot (1 + (hi.toNat % 8 + 1) + (lo.toNat % 8 + 1)) with
            carry := 1
            carryVal := dataValue 8 (lo.toNat % 8 + 1) (lo.getLsbD 3)
              (bytesAt c (off + 1 + (hi.toNat % 8 + 1)) (lo.toNat % 8 + 1)) }) ∧
    (hi.toNat ≤ 8 → lo.toNat ≤ 8 → AtPort s p x .fb64lsb c → off + 1 + hi.toNat + lo.toNat ≤ c.bytes.length →
      ∃ t, exec (.fb64lsbPair hi lo) s = .next t ∧
        UnitRan s t p x (dataValue 8 hi.toNat false (bytesAt c (off + 1) hi.toNat))
          { x.work.advance p.slot (1 + hi.toNat + lo.toNat) with
            carry := 1, carryVal := dataValue 8 lo.toNat false (bytesAt c (off + 1 + hi.toNat) lo.toNat) })

/-- 40_flagbyte.md R183, R190: FB32.RSVD and FB64LSB.RSVD take CorruptStream with the slot and the offset RD_CUR of the
unit, on every path; so do SINGLE and PAIR units whose data bytes run past the end of the channel (R180, R181, R184, R185,
R187, R188). The command that was reading ends with the fault. That a unit is executed on its own, as a step at the unit port,
which is empty afterwards, is the model's choice (log entry 5). -/
def Obligations.CorruptUnitsFault : Prop :=
  ∀ (s : State) (p : UnitPort) (x : Instance) (c : Channel) (hi lo : BitVec 4) (i : Instr) (off : Nat),
    off = (x.work.cur.get p.slot).toNat → readingOp p.op = true →
    ((hi.toNat / 2 ≤ 4 ∧ 10 ≤ lo.toNat ∧ lo.toNat ≤ 14 ∧ i = .fb32Rsvd hi lo ∧ AtPort s p x .fb32 c) ∨
     (hi.toNat ≤ 8 ∧ 9 ≤ lo.toNat ∧ lo.toNat ≤ 14 ∧ i = .fb64lsbRsvd hi lo ∧ AtPort s p x .fb64lsb c) ∨
     (hi.toNat / 2 ≤ 4 ∧ i = .fb32Single hi ∧ AtPort s p x .fb32 c ∧ c.bytes.length < off + 1 + hi.toNat / 2) ∨
     (hi ≠ 0xF#4 ∧ i = .fb64Single hi ∧ AtPort s p x .fb64 c ∧ c.bytes.length < off + 1 + (hi.toNat % 8 + 1)) ∨
     (hi.toNat ≤ 8 ∧ i = .fb64lsbSingle hi ∧ AtPort s p x .fb64lsb c ∧ c.bytes.length < off + 1 + hi.toNat) ∨
     (hi.toNat / 2 ≤ 4 ∧ lo.toNat / 2 ≤ 4 ∧ i = .fb32Pair hi lo ∧ AtPort s p x .fb32 c ∧
       c.bytes.length < off + 1 + hi.toNat / 2 + lo.toNat / 2) ∨
     (hi ≠ 0xF#4 ∧ lo ≠ 0xF#4 ∧ i = .fb64Pair hi lo ∧ AtPort s p x .fb64 c ∧
       c.bytes.length < off + 1 + (hi.toNat % 8 + 1) + (lo.toNat % 8 + 1)) ∨
     (hi.toNat ≤ 8 ∧ lo.toNat ≤ 8 ∧ i = .fb64lsbPair hi lo ∧ AtPort s p x .fb64lsb c ∧
       c.bytes.length < off + 1 + hi.toNat + lo.toNat)) →
    ∃ t, exec i s = .next t ∧ t.unitPort = none ∧
      TookExecutionFault s t p.inst x p.op .corruptStream p.slot.number (x.work.cur.get p.slot)

/-- 40_flagbyte.md R168: a carried word is returned before any unit is fetched: at RD_CARRY = +1 the value of RD_CARRYVAL, at
a negative RD_CARRY a zero. That one word step is a step of the machine, at the unit port, is the model's choice (log
entry 5). -/
def Obligations.CarriedWordsComeFirst : Prop :=
  ∀ (s : State) (p : UnitPort) (x : Instance) (v : Variant) (c : Channel), AtPort s p x v c →
    (x.work.carry = 1 →
      ∃ t, step s = .next t ∧ UnitRan s t p x x.work.carryVal { x.work with carry := 0, carryVal := 0 }) ∧
    (x.work.carry < 0 →
      ∃ t, step s = .next t ∧ UnitRan s t p x 0 { x.work with carry := x.work.carry + 1 })

/-- 40_flagbyte.md R167, R168: one step at the unit port does what one FBReadWord inside READ_ONE, READ, SKIP or RESUME does:
the same word and the same registers, end of stream with no register changed, or CorruptStream at the same place. The unit
port, where one word step is a step of the machine, is the model's choice (log entry 5). -/
def Obligations.UnitStepIsTheReaderWordStep : Prop :=
  ∀ (s : State) (p : UnitPort) (x : Instance) (v : Variant) (c : Channel), AtPort s p x v c → readingOp p.op = true →
    (∀ y k, fbReadWord v p.slot c.bytes x.work = (.value y, k) → ∃ t, step s = .next t ∧ UnitRan s t p x y k) ∧
    (∀ k, fbReadWord v p.slot c.bytes x.work = (.eos, k) →
      k = x.work ∧ step s = .next { s with unitPort := some { p with word := none } }) ∧
    ∀ sl off k, fbReadWord v p.slot c.bytes x.work = (.corrupt sl off, k) →
      ∃ t, step s = .next t ∧ t.unitPort = none ∧ TookExecutionFault s t p.inst x p.op .corruptStream sl.number off

/-- 40_flagbyte.md R169, R171: at a unit boundary, FBReadWord returns EOS exactly at the end of the channel, changing no
register, and CorruptStream exactly at a reserved flag byte or a unit whose data bytes run past the end, with the unit's slot
and offset. -/
def Obligations.ReaderEndsOnlyAtTheEnd : Prop :=
  ∀ (v : Variant) (sl : Slot) (ch : List Byte) (w : Work), w.carry ≤ 1 → (w.cur.get sl).toNat ≤ ch.length →
    (∀ k, fbReadWord v sl ch w = (.eos, k) ↔ w.carry = 0 ∧ (w.cur.get sl).toNat = ch.length ∧ k = w) ∧
    ((∃ s' off k, fbReadWord v sl ch w = (.corrupt s' off, k)) ↔
      w.carry = 0 ∧ ∃ f, ch[(w.cur.get sl).toNat]? = some f ∧
        (flagKind v f = .reserved ∨
         (flagKind v f = .single ∧ ch.length < (w.cur.get sl).toNat + 1 + nibBytes v (hiNib f)) ∨
         (flagKind v f = .pair ∧
           ch.length < (w.cur.get sl).toNat + 1 + nibBytes v (hiNib f) + nibBytes v (loNib f)))) ∧
    ∀ s' off k, fbReadWord v sl ch w = (.corrupt s' off, k) → s' = sl ∧ off = w.cur.get sl ∧ k = w

/-! ## Transforms -/

/-- 41_transforms.md R213: a reader stage that pulls the words a writer stage of its kind pushed, both from reset, the commit
flush performed, returns the words the writer stage received, and then EOS. -/
def Obligations.TransformRoundTrip : Prop :=
  ∀ (t : Xform) (w h : Nat) (xs : List U64), 1 ≤ w → w ≤ 64 → (∀ x ∈ xs, x.toNat < 2 ^ w) →
    (pullMany (stageOverList w h) (xs.length + 1) (StageRegs.reset t, stageEncode w h t xs)).1 = xs ∧
    (pullMany (stageOverList w h) (xs.length + 1) (StageRegs.reset t, stageEncode w h t xs)).2.1 = some .eos

/-- 41_transforms.md R214 to R217, R222, R232, R233, R235: a DD stage stores x at DD_FRAME[DD_FILL] and pushes nothing; the
16th item, and the commit flush of fewer, push the frame of the buffered items with DD_PREV before them, leaving the last item
in DD_PREV, DD_FILL 0 and DD_FRAME all 0 (DD_FP and DD_MIN stay); a flush with nothing buffered does nothing. A frame is the
difference of least signed value, then each difference less it; each adjusted delta, read unsigned, is the exact difference of
the signed values; a DD stream of n items is n words and one minimum per frame of 16. XOR pushes x XOR XOR_PREV and keeps x.
DFCM pushes x XOR DFCM_TABLE[DFCM_HASH], writes x there, folds the delta into DFCM_HASH and keeps x. XOR and DFCM flush no
word. A list passes a stage word by word. -/
def Obligations.TransformStagesPushTheirWords : Prop :=
  (∀ (w h : Nat) (r : DdRegs) (x : U64), r.frame.length = 16 →
    (r.fill < 15 → stageWrite w h (.dd r) x = (.dd { r with frame := r.frame.set r.fill x, fill := r.fill + 1 }, [])) ∧
    (r.fill = 15 → stageWrite w h (.dd r) x =
      (.dd { r with prev := x, fill := 0, frame := List.replicate 16 0 }, frameWords w r.prev (r.frame.take 15 ++ [x]))) ∧
    (r.fill = 0 → stageFlush w (.dd r) = (.dd r, [])) ∧
    (0 < r.fill → r.fill < 16 → stageFlush w (.dd r) =
      (.dd { r with prev := r.frame.getD (r.fill - 1) 0, fill := 0, frame := List.replicate 16 0 },
        frameWords w r.prev (r.frame.take r.fill)))) ∧
  (∀ (w : Nat) (p : U64) (xs : List U64), 1 ≤ w → w ≤ 64 → xs ≠ [] →
    ∃ (ds : List U64) (mn : U64), frameWords w p xs = mn :: ds.map (fun d => subW w d mn) ∧
      ds.length = xs.length ∧
      (∀ i, i < xs.length → ds[i]? = some (trunc w (xs.getD i 0 - (if i = 0 then p else xs.getD (i - 1) 0)))) ∧
      mn ∈ ds ∧
      ∀ d ∈ ds, signedW w mn ≤ signedW w d ∧ ((subW w d mn).toNat : Int) = signedW w d - signedW w mn) ∧
  (∀ (w h : Nat) (xs : List U64), (stageEncode w h .dd xs).length = xs.length + (xs.length + 15) / 16) ∧
  (∀ (w h : Nat) (prev x : U64), stageWrite w h (.xor prev) x = (.xor x, [x ^^^ prev])) ∧
  (∀ (w h : Nat) (r : DfcmRegs) (x : U64), tableOk h r.table = true →
    ∃ r' : DfcmRegs, stageWrite w h (.dfcm r) x = (.dfcm r', [x ^^^ tableGet r.table r.hash]) ∧
      (∀ j, tableGet r'.table j = if j = r.hash then x else tableGet r.table j) ∧
      r'.hash = ((r.hash <<< 2) ^^^ ((trunc w (x - r.last)).toNat % 2 ^ h)) % 2 ^ h ∧ r'.last = x) ∧
  (∀ (w : Nat) (st : StageRegs), st.kind ≠ .dd → stageFlush w st = (st, [])) ∧
  ∀ (w h : Nat) (st : StageRegs) (xs : List U64) (x : U64),
    stageWrites w h st (xs ++ [x]) =
      ((stageWrite w h (stageWrites w h st xs).1 x).1,
        (stageWrites w h st xs).2 ++ (stageWrite w h (stageWrites w h st xs).1 x).2)

/-! ## Bit widths and byte strings -/

/-- 42_bitwidth.md R251 to R254, R256 to R258: N words of b bits make ceil(N b / 8) bytes; item i of the stream is the low b
bits of word i; the padding items are 0; a reader from reset returns floor(8 L / b) items of the stream in order, then EOS. -/
def Obligations.BitWidthPacking : Prop :=
  ∀ b ∈ [1, 2, 4, 8, 16],
    (∀ xs : List U64,
      (bwEncode b xs).length = (xs.length * b + 7) / 8 ∧
      (∀ i (hi : i < xs.length), streamItem b (bwEncode b xs) i = trunc b xs[i]) ∧
      ∀ i, xs.length ≤ i → (i + 1) * b ≤ 8 * (bwEncode b xs).length → streamItem b (bwEncode b xs) i = 0) ∧
    ∀ (ch : List Byte) (k : Work), 8 * ch.length < 2 ^ 64 → k.bwRidx = 0 →
      (pullMany (bwReadWord b ch) (8 * ch.length / b + 1) k).1 =
        (List.range (8 * ch.length / b)).map (streamItem b ch) ∧
      (pullMany (bwReadWord b ch) (8 * ch.length / b + 1) k).2.1 = some .eos

/-- 30_encoding.md R120, R121, 43_varlen.md R272, R277, R278: a VARI channel is each item's length as an FB64 SINGLE unit and
its bytes; a VARD payload channel is the bytes of all items, its length channel the FB64LSB stream of their lengths. -/
def Obligations.VariableLengthStreams : Prop :=
  ∀ (p : Params) (cfg : Cfg) (items : List (List Byte)),
    (cfg.base = .vari →
      (emittedE p cfg (items.map .str)).data =
        items.flatMap fun s => singleUnit .fb64 (BitVec.ofNat 64 s.length) ++ s) ∧
    (cfg.base = .vard →
      (emittedE p cfg (items.map .str)).data = items.flatten ∧
      (emittedE p cfg (items.map .str)).lens = fbEncode .fb64lsb (items.map fun s => BitVec.ofNat 64 s.length))

/-! ## The pipeline -/

/-- 44_pipeline.md R291, R299: the stream of a numeric pipeline is its base's encoding of what its stages, each with its own
registers, make of the items, the first transform first, each stage flushed into the ones below it. -/
def Obligations.StreamIsTheCompositionOfItsStages : Prop :=
  ∀ (p : Params) (cfg : Cfg) (xs : List Item), cfg.base.strings = false → (∀ x ∈ xs, x.fits cfg.base = true) →
    (emittedE p cfg xs).data =
      baseEncode cfg.base (stackEncode cfg.base.width p.dfcmBits cfg.xforms (itemWords cfg.base xs)) ∧
    (emittedE p cfg xs).lens = []

/-- 44_pipeline.md R338: a reader of the same configuration over E(xs) returns xs and then EOS, on a flag-byte or
variable-length base, and on every base with ITEMCOUNT = |xs|. The streams must fit in channels. -/
def Obligations.PipelineRoundTrip : Prop :=
  ∀ (p : Params) (cfg : Cfg) (xs : List Item), p.legal = true → cfg.ok = true →
    (∀ x ∈ xs, x.exact cfg.base = true) → xs.length < 2 ^ 64 →
    8 * (emittedE p cfg xs).data.length < 2 ^ 64 → (emittedE p cfg xs).lens.length < 2 ^ 64 →
    ((cfg.base.strings = true ∨ cfg.base.variant?.isSome = true) →
      (readItems p { cfg with itemCount := none } (emittedE p cfg xs) (xs.length + 1)
        { items := 0, work := Work.reset cfg }).1 = .eos ∧
      (readItems p { cfg with itemCount := none } (emittedE p cfg xs) (xs.length + 1)
        { items := 0, work := Work.reset cfg }).2.1 = xs) ∧
    (readItems p { cfg with itemCount := some (BitVec.ofNat 64 xs.length) } (emittedE p cfg xs) (xs.length + 1)
      { items := 0, work := Work.reset cfg }).1 = .eos ∧
    (readItems p { cfg with itemCount := some (BitVec.ofNat 64 xs.length) } (emittedE p cfg xs) (xs.length + 1)
      { items := 0, work := Work.reset cfg }).2.1 = xs

/-- 44_pipeline.md R337: U(xs) is a prefix of U(xs ++ ys) and of E(xs ++ ys), on every slot. -/
def Obligations.EmittedBytesAreNeverRewritten : Prop :=
  ∀ (p : Params) (cfg : Cfg) (xs ys : List Item) (sl : Slot),
    (emittedU p cfg xs).get sl <+: (emittedU p cfg (xs ++ ys)).get sl ∧
    (emittedU p cfg xs).get sl <+: (emittedE p cfg (xs ++ ys)).get sl

/-- 20_memory.md R76, R77: emitting bytes moves every full buffer of STAGE_BYTES into the channel, one modification each, and
keeps the rest staged, in order; a FlushStage after it moves the rest. -/
def Obligations.StagingInClosedForm : Prop :=
  ∀ (stageBytes : Nat) (l : Lane) (bs : List Byte), l.stage.length < stageBytes →
    l.emitAll stageBytes bs = l.staged stageBytes bs ∧
    (l.emitAll stageBytes bs).flush = l.drained stageBytes bs

/-- 44_pipeline.md R336, R341: from the state that INIT on empty channels leaves, WRITE of xs and COMMIT leave E(xs) in each
channel; with a FLUSH between two WRITEs they leave E of both; and E is the same for every STAGE_BYTES. -/
def Obligations.CommittedChannelHoldsTheStream : Prop :=
  (∀ (s s1 s2 : State) (inst : U16) (x : Instance) (xs : List Item) (i : Instr),
    s.Inv = true → s.inst? inst = some x → x.cfg.role = .writer → x.life = .empty → x.work = Work.reset x.cfg →
    EachLane s x (fun _ l => l.bytes = []) → WriteCommand inst xs i → (∀ y ∈ xs, y.fits x.cfg.base = true) →
    RunsOk i s s1 → RunsOk (.commit inst) s1 s2 →
    ∀ sl ∈ x.cfg.base.slots, ∀ b, x.bind.get sl = some b →
      (s2.mem.get b.chan).map Channel.bytes = some ((emittedE s.params x.cfg xs).get sl)) ∧
  (∀ (s s1 s2 s3 s4 : State) (inst : U16) (x : Instance) (xs ys : List Item) (i j : Instr),
    s.Inv = true → s.inst? inst = some x → x.cfg.role = .writer → x.life = .empty → x.work = Work.reset x.cfg →
    EachLane s x (fun _ l => l.bytes = []) → WriteCommand inst xs i → WriteCommand inst ys j →
    (∀ y ∈ xs ++ ys, y.fits x.cfg.base = true) →
    RunsOk i s s1 → RunsOk (.flush inst) s1 s2 → RunsOk j s2 s3 → RunsOk (.commit inst) s3 s4 →
    ∀ sl ∈ x.cfg.base.slots, ∀ b, x.bind.get sl = some b →
      (s4.mem.get b.chan).map Channel.bytes = some ((emittedE s.params x.cfg (xs ++ ys)).get sl)) ∧
  ∀ (p q : Params) (cfg : Cfg) (xs : List Item), p.dfcmBits = q.dfcmBits → emittedE p cfg xs = emittedE q cfg xs

/-- 44_pipeline.md R340: writing xs, COMMIT, RESUME with |xs| rows, writing ys and COMMIT leaves the channels equal to
E(xs ++ ys). Channels are taken shorter than 2^61 bytes, so that BW_RIDX (a u64) can count their bits. -/
def Obligations.ResumeContinuesTheStream : Prop :=
  ∀ (s s1 s2 s3 s4 s5 : State) (inst : U16) (x : Instance) (b0 : Binding) (xs ys : List Item) (i j : Instr),
    s.Inv = true → s.params.channelMax < 2 ^ 61 → s.inst? inst = some x → x.cfg.role = .writer → x.life = .empty →
    x.work = Work.reset x.cfg → EachLane s x (fun _ l => l.bytes = []) → x.bind.data = some b0 →
    WriteCommand inst xs i → WriteCommand inst ys j → (∀ y ∈ xs ++ ys, y.fits x.cfg.base = true) →
    xs.length < 2 ^ 64 →
    RunsOk i s s1 → RunsOk (.commit inst) s1 s2 →
    RunsOk (.resume inst b0.chan (if x.cfg.base.channelCount = 2 then x.bind.lens.map Binding.chan else none)
      (BitVec.ofNat 64 xs.length)) s2 s3 →
    RunsOk j s3 s4 → RunsOk (.commit inst) s4 s5 →
    ∀ sl ∈ x.cfg.base.slots, ∀ b, x.bind.get sl = some b →
      (s5.mem.get b.chan).map Channel.bytes = some ((emittedE s.params x.cfg (xs ++ ys)).get sl)

/-- 44_pipeline.md R339: a WRITE of n items leaves the memory and every instance as n WRITE_ONE commands of the same items
do, each of them answered OK. -/
def Obligations.WriteIsManyWriteOnes : Prop :=
  ∀ (s t : State) (inst : U16) (x : Instance) (xs : List Item) (i : Instr),
    s.Inv = true → s.inst? inst = some x → WriteCommand inst xs i → (∀ y ∈ xs, y.fits x.cfg.base = true) →
    RunsOk i s t →
    ∃ t', runAll (xs.map fun y => Instr.writeOne inst y.operand) s = .next t' ∧
      t'.mem = t.mem ∧ t'.insts = t.insts ∧
      t'.results = List.replicate xs.length { status := 0, words := [] } ++ s.results

/-- 44_pipeline.md R298, R339: SKIP n, and n READ_ONE commands, leave the memory and every instance as a READ of n items
does, where the stream does not prove corrupt. READ answers a count m and m items; the first m READ_ONEs answer OK and the
words of the same items in the same order, the others EOS and no words; SKIP answers m. -/
def Obligations.SkipAndReadOnesAreARead : Prop :=
  ∀ (s t : State) (inst : U16) (buflen offset n : U64), s.Inv = true →
    offset.toNat + n.toNat ≤ buflen.toNat →
    exec (.read inst buflen offset n) s = .next t → (t.lastStatus = 0 ∨ t.lastStatus = 1) →
    ∃ t1 t2, exec (.skip inst n) s = .next t1 ∧ runAll (List.replicate n.toNat (.readOne inst)) s = .next t2 ∧
      t1.mem = t.mem ∧ t2.mem = t.mem ∧ t1.insts = t.insts ∧ t2.insts = t.insts ∧
      ∃ (m : Nat) (items : List (List U64)), m ≤ n.toNat ∧ items.length = m ∧ (t.lastStatus = 0 ↔ m = n.toNat) ∧
        t.results = { status := t.lastStatus, words := BitVec.ofNat 64 m :: items.flatten } :: s.results ∧
        t1.results = { status := t.lastStatus, words := [BitVec.ofNat 64 m] } :: s.results ∧
        t2.results =
          (items.map (fun ws => ({ status := 0, words := ws } : Result)) ++
            List.replicate (n.toNat - m) ({ status := 1, words := [] } : Result)).reverse ++ s.results

/-! ## Commands: where each completes, its result and its frame -/

/-- 44_pipeline.md R308, 70_reset_and_hazards.md R383: CONSTRUCT with a legal descriptor creates an instance under the least
free id, every register at its reset value, and answers the id; nothing else changes. A descriptor of no legal configuration
is InvalidArgument in the result only. -/
def Obligations.ConstructCreatesAnInstance : Prop :=
  (∀ (s : State) (cfg : Cfg), s.params.legal = true → cfg.ok = true → s.insts.length < s.params.maxInstances →
    ∃ (t : State) (id : U16) (y : Instance), exec (.construct cfg.desc cfg.itemCount) s = .next t ∧
      id ≠ 0 ∧ s.inst? id = none ∧ (∀ j : U16, j ≠ 0 → j < id → (s.inst? j).isSome = true) ∧
      t.inst? id = some y ∧ FreshOf cfg y ∧ Untouched s t id [] ∧ Answered s t 0 [id.setWidth 64]) ∧
  ∀ (s : State) (d : U64) (n : Option U64), n.isSome = d.getLsbD 7 →
    (¬∃ cfg : Cfg, cfg.ok = true ∧ cfg.desc = d ∧ cfg.itemCount = n) →
    ∃ t, exec (.construct d n) s = .next t ∧ Replied s t 0x0102 []

/-- 44_pipeline.md R303, R304: CREATE_READER on a writer and CREATE_WRITER on a reader, not FAULTED, create an UNINIT
instance of the same configuration in the other role under the least free id, and answer the id; nothing else changes. -/
def Obligations.CreateMakesTheCounterpart : Prop :=
  ∀ (s : State) (inst : U16) (x : Instance), s.params.legal = true → s.inst? inst = some x → x.life ≠ .faulted →
    s.insts.length < s.params.maxInstances →
    ∀ (i : Instr) (role : Role),
      ((i = .createReader inst ∧ x.cfg.role = .writer ∧ role = .reader) ∨
       (i = .createWriter inst ∧ x.cfg.role = .reader ∧ role = .writer)) →
      ∃ (t : State) (id : U16) (y : Instance), exec i s = .next t ∧
        id ≠ 0 ∧ s.inst? id = none ∧ (∀ j : U16, j ≠ 0 → j < id → (s.inst? j).isSome = true) ∧
        t.inst? id = some y ∧ FreshOf { x.cfg with role := role } y ∧ Untouched s t id [] ∧
        Answered s t 0 [id.setWidth 64]

/-- 44_pipeline.md R305, R306: GET_CHANNEL_COUNT and GET_ITEM_COUNT, in every role and LIFE, FAULTED too, answer
ChannelCount, and the declared bound; nothing else changes. -/
def Obligations.QueriesAnswer : Prop :=
  ∀ (s : State) (inst : U16) (x : Instance), s.inst? inst = some x →
    (∃ t, exec (.getChannelCount inst) s = .next t ∧ Replied s t 0 [if x.cfg.base = .vard then 2 else 1]) ∧
    ∃ t, exec (.getItemCount inst) s = .next t ∧
      Replied s t 0 (match x.cfg.itemCount with
        | none => [0, 0]
        | some c => [1, c])

/-- 44_pipeline.md R293: INIT with legal channel operands, those of a writer empty: BIND and SEEN from the operands, every
working register and ITEMS reset, LIFE EMPTY or READING; CFG and the fault record stay; nothing else changes. -/
def Obligations.InitBindsAndResets : Prop :=
  ∀ (s : State) (inst : U16) (x : Instance) (ch0 : U64) (ch1 : Option U64),
    s.inst? inst = some x → x.life ≠ .faulted → ChannelOperands s x ch0 ch1 →
    (x.cfg.role = .writer → s.mem.len ch0 = 0 ∧ ∀ c1, ch1 = some c1 → s.mem.len c1 = 0) →
    ∃ t y, exec (.init inst ch0 ch1) s = .next t ∧ Untouched s t inst [] ∧ Answered s t 0 [] ∧
      t.inst? inst = some y ∧ y.cfg = x.cfg ∧ y.fault = x.fault ∧ y.items = 0 ∧
      y.life = (if x.cfg.role = .writer then .empty else .reading) ∧
      y.bind.data = some { chan := ch0, seen := s.mem.gen ch0 } ∧
      y.bind.lens = ch1.map (fun c1 => { chan := c1, seen := s.mem.gen c1 }) ∧ AllReset x.cfg y.work

/-- 44_pipeline.md R294, R295: WRITE_ONE and WRITE of items that fit, within ITEMCOUNT and CHANNEL_MAX, on channels nobody
else changed: the items go through the pipeline, the emitted bytes through the staging buffers; ITEMS counts them, LIFE is
WRITING unless there was none; every other channel, instance and register is as before. That CHANNEL_MAX bounds the bytes
that reach the channel is the model's reading (log entry 12). -/
def Obligations.WritesComplete : Prop :=
  ∀ (s : State) (inst : U16) (x : Instance) (items : List Item) (i : Instr),
    s.Inv = true → s.inst? inst = some x → x.cfg.role = .writer → (x.life = .empty ∨ x.life = .writing) →
    Synced s x → WriteCommand inst items i → (∀ y ∈ items, y.fits x.cfg.base = true) → RoomFor x items.length →
    EachLane s x (fun sl l => l.bytes.length +
      flushedLen s.params.stageBytes l ((writeItems s.params x.cfg x.work items).2.get sl).length ≤
        s.params.channelMax) →
    ∃ t y, exec i s = .next t ∧ Untouched s t inst x.chans ∧ Answered s t 0 [] ∧ t.inst? inst = some y ∧
      y.cfg = x.cfg ∧ y.fault = x.fault ∧ y.life = (if items = [] then x.life else .writing) ∧
      y.items = x.items + BitVec.ofNat 64 items.length ∧
      WorkIs y (writeItems s.params x.cfg x.work items).1 ∧ SparesUnusedStage x y ∧
      LanesBecome s t x y fun sl l =>
        l.staged s.params.stageBytes ((writeItems s.params x.cfg x.work items).2.get sl)

/-- 44_pipeline.md R296, R297, R298: READ_ONE, READ and SKIP on a reader whose channels nobody else changed, where decoding
meets no fault: status OK when the count was reached, else EOS; the item or items in operand form; for READ and SKIP the
count first; STATUS.ITEMS and the working registers as the items read leave them; nothing else changes. -/
def Obligations.ReadsComplete : Prop :=
  ∀ (s : State) (inst : U16) (x : Instance) (n : U64) (e : ReadEnd) (xs : List Item) (r : Reading),
    s.Inv = true → s.inst? inst = some x → x.cfg.role = .reader → x.life = .reading → Synced s x →
    readItems s.params x.cfg (s.chanBytes x) n.toNat { items := x.items, work := x.work } = (e, xs, r) →
    (e = .done ∨ e = .eos) →
    (n = 1 → ∃ t, exec (.readOne inst) s = .next t ∧ Untouched s t inst [] ∧
      t.inst? inst = some { x with items := r.items, work := r.work } ∧
      Answered s t (if e = .done then 0 else 1) (xs.flatMap Item.words)) ∧
    (∀ buflen offset : U64, offset.toNat + n.toNat ≤ buflen.toNat →
      ∃ t, exec (.read inst buflen offset n) s = .next t ∧ Untouched s t inst [] ∧
        t.inst? inst = some { x with items := r.items, work := r.work } ∧
        Answered s t (if e = .done then 0 else 1) (BitVec.ofNat 64 xs.length :: xs.flatMap Item.words)) ∧
    ∃ t, exec (.skip inst n) s = .next t ∧ Untouched s t inst [] ∧
      t.inst? inst = some { x with items := r.items, work := r.work } ∧
      Answered s t (if e = .done then 0 else 1) [BitVec.ofNat 64 xs.length]

/-- 44_pipeline.md R299: COMMIT of a writer in EMPTY or WRITING, within CHANNEL_MAX, on channels nobody else changed: the
stages and the base are flushed, every staged byte is in the channel, LIFE is COMMITTED, ITEMS stays. In COMMITTED it changes
nothing but the result. -/
def Obligations.CommitCompletes : Prop :=
  ∀ (s : State) (inst : U16) (x : Instance),
    s.Inv = true → s.inst? inst = some x → x.cfg.role = .writer → Synced s x →
    ((x.life = .empty ∨ x.life = .writing) →
      EachLane s x (fun sl l => l.bytes.length + l.stage.length +
        ((commitFlush s.params x.cfg x.work).2.get sl).length ≤ s.params.channelMax) →
      ∃ t y, exec (.commit inst) s = .next t ∧ Untouched s t inst x.chans ∧ Answered s t 0 [] ∧
        t.inst? inst = some y ∧ y.cfg = x.cfg ∧ y.fault = x.fault ∧ y.life = .committed ∧ y.items = x.items ∧
        WorkIs y (commitFlush s.params x.cfg x.work).1 ∧ SparesUnusedStage x y ∧
        LanesBecome s t x y fun sl l =>
          l.drained s.params.stageBytes ((commitFlush s.params x.cfg x.work).2.get sl)) ∧
    (x.life = .committed → ∃ t, exec (.commit inst) s = .next t ∧ Replied s t 0 [])

/-- 44_pipeline.md R301: FLUSH of a writer in EMPTY, WRITING or COMMITTED, on channels nobody else changed: the staged bytes
are in the channel, and no logical state changes. That a flush past CHANNEL_MAX faults is the model's reading (log entry 11). -/
def Obligations.FlushMovesTheStagedBytes : Prop :=
  ∀ (s : State) (inst : U16) (x : Instance),
    s.Inv = true → s.inst? inst = some x → x.cfg.role = .writer →
    (x.life = .empty ∨ x.life = .writing ∨ x.life = .committed) → Synced s x →
    EachLane s x (fun _ l => l.bytes.length + l.stage.length ≤ s.params.channelMax) →
    ∃ t y, exec (.flush inst) s = .next t ∧ Untouched s t inst x.chans ∧ Answered s t 0 [] ∧
      t.inst? inst = some y ∧ y.cfg = x.cfg ∧ y.fault = x.fault ∧ y.life = x.life ∧ y.items = x.items ∧
      WorkIs y x.work ∧ SparesUnusedStage x y ∧
      LanesBecome s t x y fun _ l => l.drained s.params.stageBytes []

/-- 44_pipeline.md R300: RESET of a writer in EMPTY, WRITING or COMMITTED empties its channels, one modification each; RESET
of a reader in READING leaves them. SEEN is synchronised, every working register and ITEMS reset; CFG, the bindings and the
fault record stay; nothing else changes. -/
def Obligations.ResetRewinds : Prop :=
  ∀ (s : State) (inst : U16) (x : Instance), s.Inv = true → s.inst? inst = some x →
    (x.cfg.role = .writer → (x.life = .empty ∨ x.life = .writing ∨ x.life = .committed) →
      ∃ t y, exec (.reset inst) s = .next t ∧ Untouched s t inst x.chans ∧ Answered s t 0 [] ∧
        t.inst? inst = some y ∧ y.cfg = x.cfg ∧ y.fault = x.fault ∧ y.life = .empty ∧ y.items = 0 ∧
        AllReset x.cfg y.work ∧
        LanesBecome s t x y fun _ l => { bytes := [], gen := l.gen + 1, seen := l.gen + 1, stage := [] }) ∧
    (x.cfg.role = .reader → x.life = .reading →
      ∃ t y, exec (.reset inst) s = .next t ∧ Untouched s t inst [] ∧ Answered s t 0 [] ∧
        t.inst? inst = some y ∧ y.cfg = x.cfg ∧ y.fault = x.fault ∧ y.life = .reading ∧ y.items = 0 ∧
        AllReset x.cfg y.work ∧ LanesBecome s t x y fun _ l => { l with seen := l.gen, stage := [] })

/-- 44_pipeline.md R302: RESUME of a writer in UNINIT or COMMITTED, with legal channels that decode to n items within
ITEMCOUNT: each channel holds U of the items, modified once if that changed it; the registers are those of a writer that wrote
the items, STAGE empty; ITEMS is n, LIFE WRITING; nothing else changes. That a longer re-encoding past CHANNEL_MAX faults is
the model's reading (log entry 11). -/
def Obligations.ResumeRebuildsTheWriter : Prop :=
  ∀ (s : State) (inst : U16) (x : Instance) (ch0 : U64) (ch1 : Option U64) (rows : U64) (xs : List Item) (r : Reading),
    s.Inv = true → s.inst? inst = some x → x.cfg.role = .writer → (x.life = .uninit ∨ x.life = .committed) →
    ChannelOperands s x ch0 ch1 → (∀ c, x.cfg.itemCount = some c → rows.toNat ≤ c.toNat) →
    readItems s.params { x.cfg with itemCount := none } (contents s ch0 ch1) rows.toNat
      { items := 0, work := Work.reset x.cfg } = (.done, xs, r) →
    (emittedU s.params x.cfg xs).data.length ≤ s.params.channelMax →
    (emittedU s.params x.cfg xs).lens.length ≤ s.params.channelMax →
    ∃ t y, exec (.resume inst ch0 ch1 rows) s = .next t ∧ Untouched s t inst (ch0 :: ch1.toList) ∧
      Answered s t 0 [] ∧ t.inst? inst = some y ∧
      y.cfg = x.cfg ∧ y.fault = x.fault ∧ y.life = .writing ∧ y.items = rows ∧
      y.work = (writeItems s.params x.cfg (Work.reset x.cfg) xs).1 ∧
      y.work.stage.data = [] ∧ y.work.stage.lens = [] ∧
      ContentBecomes s t ch0 (emittedU s.params x.cfg xs).data ∧
      (∀ c1, ch1 = some c1 → ContentBecomes s t c1 (emittedU s.params x.cfg xs).lens) ∧
      y.bind.data = some { chan := ch0, seen := t.mem.gen ch0 } ∧
      y.bind.lens = ch1.map fun c1 => { chan := c1, seen := t.mem.gen c1 }

/-! ## Faults -/

/-- 60_exceptions.md R361: an instance in FAULTED answers every command but the two queries with its recorded code, and
nothing else changes. -/
def Obligations.FaultedInstancesRefuse : Prop :=
  ∀ (s : State) (i : Instr) (op : Opcode) (inst : U16) (x : Instance),
    Instr.command? i = some (op, inst) → op ≠ .getChannelCount → op ≠ .getItemCount →
    s.inst? inst = some x → x.life = .faulted →
    ∃ t, exec i s = .next t ∧ Replied s t (2 + 256 * x.fault.code.setWidth 64) []

/-- 44_pipeline.md R307, 60_exceptions.md R353: a command on an instance whose role or LIFE the table does not list for it,
and INIT of a writer on a channel that is not empty (whatever else is wrong with the two ids: R358), take ProtocolViolation
with SLOT 0xFF and OFFSET 0; nothing else changes. -/
def Obligations.ProtocolViolationsFault : Prop :=
  (∀ (s : State) (i : Instr) (op : Opcode) (inst : U16) (x : Instance),
    Instr.command? i = some (op, inst) → s.inst? inst = some x → x.life ≠ .faulted →
    ¬listedRow op x.cfg.role x.life →
    ∃ t, exec i s = .next t ∧ TookFault s t inst x op .protocolViolation 0xFF#8 0) ∧
  ∀ (s : State) (inst : U16) (x : Instance) (ch0 : U64) (ch1 : Option U64),
    s.inst? inst = some x → x.life ≠ .faulted → x.cfg.role = .writer →
    (ch1.isSome = true ↔ x.cfg.base.channelCount = 2) →
    (s.mem.len ch0 ≠ 0 ∨ ∃ c1, ch1 = some c1 ∧ s.mem.len c1 ≠ 0) →
    ∃ t, exec (.init inst ch0 ch1) s = .next t ∧ TookFault s t inst x .init .protocolViolation 0xFF#8 0

/-- 44_pipeline.md R294, R295, R297, 60_exceptions.md R354: a WRITE or READ whose OFFSET + COUNT is past BUFLEN; a WRITE_ONE
or WRITE with an operand in the range that is an invalid argument; one that takes ITEMS past ITEMCOUNT: InvalidArgument with
SLOT 0xFF and OFFSET 0; nothing else changes. -/
def Obligations.InvalidItemArgumentsFault : Prop :=
  ∀ (s : State) (inst : U16) (x : Instance), s.Inv = true → s.inst? inst = some x →
    (x.cfg.role = .writer → (x.life = .empty ∨ x.life = .writing) →
      (∀ buflen offset count buf, buf.length = buflen.toNat → buflen.toNat < offset.toNat + count.toNat →
        ∃ t, exec (.write inst buflen offset count buf) s = .next t ∧
          TookFault s t inst x .write .invalidArgument 0xFF#8 0) ∧
      (∀ o, BadOperand x.cfg.base o →
        ∃ t, exec (.writeOne inst o) s = .next t ∧ TookFault s t inst x .writeOne .invalidArgument 0xFF#8 0) ∧
      (∀ buflen offset count buf, buf.length = buflen.toNat → offset.toNat + count.toNat ≤ buflen.toNat →
        (∀ o ∈ (buf.drop offset.toNat).take count.toNat, o.wellFormed = true ∧ o.fits x.cfg.base.shape = true) →
        (∃ o ∈ (buf.drop offset.toNat).take count.toNat, BadOperand x.cfg.base o) →
        ∃ t, exec (.write inst buflen offset count buf) s = .next t ∧
          TookFault s t inst x .write .invalidArgument 0xFF#8 0) ∧
      ∀ items i op, WriteCommand inst items i → Instr.command? i = some (op, inst) →
        (∀ y ∈ items, y.fits x.cfg.base = true) → ¬RoomFor x items.length →
        ∃ t, exec i s = .next t ∧ TookFault s t inst x op .invalidArgument 0xFF#8 0) ∧
    (x.cfg.role = .reader → x.life = .reading →
      ∀ buflen offset count, buflen.toNat < offset.toNat + count.toNat →
        ∃ t, exec (.read inst buflen offset count) s = .next t ∧
          TookFault s t inst x .read .invalidArgument 0xFF#8 0)

/-- 44_pipeline.md R293, R302, 60_exceptions.md R354, R358: INIT (of a writer: where the named channels are empty; else it
is ProtocolViolation) and RESUME with a channel id that names no channel or with CH0 = CH1, and RESUME with ROWS past
ITEMCOUNT: InvalidArgument with SLOT 0xFF and OFFSET 0; nothing else changes. That an id which names no channel is not a
channel that is not empty is the model's reading (log entry 7). -/
def Obligations.InvalidChannelArgumentsFault : Prop :=
  ∀ (s : State) (inst : U16) (x : Instance) (ch0 : U64) (ch1 : Option U64) (rows : U64),
    s.inst? inst = some x → (ch1.isSome = true ↔ x.cfg.base.channelCount = 2) →
    (s.mem.get ch0 = none ∨ (∃ c1, ch1 = some c1 ∧ (s.mem.get c1 = none ∨ c1 = ch0)) →
      (x.life ≠ .faulted →
        (x.cfg.role = .writer → s.mem.len ch0 = 0 ∧ ∀ c1, ch1 = some c1 → s.mem.len c1 = 0) →
        ∃ t, exec (.init inst ch0 ch1) s = .next t ∧ TookFault s t inst x .init .invalidArgument 0xFF#8 0) ∧
      (x.cfg.role = .writer → (x.life = .uninit ∨ x.life = .committed) →
        ∃ t, exec (.resume inst ch0 ch1 rows) s = .next t ∧
          TookFault s t inst x .resume .invalidArgument 0xFF#8 0)) ∧
    (ChannelOperands s x ch0 ch1 → x.cfg.role = .writer → (x.life = .uninit ∨ x.life = .committed) →
      (∃ c, x.cfg.itemCount = some c ∧ c.toNat < rows.toNat) →
      ∃ t, exec (.resume inst ch0 ch1 rows) s = .next t ∧
        TookFault s t inst x .resume .invalidArgument 0xFF#8 0)

/-- 20_memory.md R71, 44_pipeline.md R294, R295, R299: a WRITE_ONE, WRITE, COMMIT, FLUSH or RESUME that would make a bound
channel longer than CHANNEL_MAX takes InvalidArgument, and no byte is emitted; nothing else changes. That FLUSH and RESUME are
checked too is the model's reading (log entry 11), and so is that the bytes counted are those that reach the channel (log
entry 12). -/
def Obligations.ChannelMaxIsKept : Prop :=
  ∀ (s : State) (inst : U16) (x : Instance), s.Inv = true → s.inst? inst = some x → x.cfg.role = .writer →
    (∀ (sl : Slot) (l : Lane), sl ∈ x.cfg.base.slots → s.lane x sl = some l →
      ((x.life = .empty ∨ x.life = .writing) →
        (∀ items i op, WriteCommand inst items i → Instr.command? i = some (op, inst) →
          (∀ y ∈ items, y.fits x.cfg.base = true) → RoomFor x items.length →
          s.params.channelMax < l.bytes.length +
            flushedLen s.params.stageBytes l ((writeItems s.params x.cfg x.work items).2.get sl).length →
          ∃ t, exec i s = .next t ∧ TookFault s t inst x op .invalidArgument 0xFF#8 0) ∧
        (s.params.channelMax < l.bytes.length + l.stage.length +
            ((commitFlush s.params x.cfg x.work).2.get sl).length →
          ∃ t, exec (.commit inst) s = .next t ∧ TookFault s t inst x .commit .invalidArgument 0xFF#8 0)) ∧
      ((x.life = .empty ∨ x.life = .writing ∨ x.life = .committed) →
        s.params.channelMax < l.bytes.length + l.stage.length →
        ∃ t, exec (.flush inst) s = .next t ∧ TookFault s t inst x .flush .invalidArgument 0xFF#8 0)) ∧
    ∀ (ch0 : U64) (ch1 : Option U64) (rows : U64) (xs : List Item) (r : Reading),
      (x.life = .uninit ∨ x.life = .committed) → ChannelOperands s x ch0 ch1 →
      (∀ c, x.cfg.itemCount = some c → rows.toNat ≤ c.toNat) →
      readItems s.params { x.cfg with itemCount := none } (contents s ch0 ch1) rows.toNat
        { items := 0, work := Work.reset x.cfg } = (.done, xs, r) →
      (s.params.channelMax < (emittedU s.params x.cfg xs).data.length ∨
        s.params.channelMax < (emittedU s.params x.cfg xs).lens.length) →
      ∃ t, exec (.resume inst ch0 ch1 rows) s = .next t ∧
        TookFault s t inst x .resume .invalidArgument 0xFF#8 0

/-- 20_memory.md R86, 60_exceptions.md R355: a command that checks channels, with no earlier fault, on an instance one of
whose channels another agent changed: ChannelHazard with SLOT the least such slot and OFFSET 0; nothing else changes. What counts
against CHANNEL_MAX in the earlier check is the model's reading: the bytes that reach the channel (log entry 12), and for FLUSH
too (log entry 11). -/
def Obligations.ChannelHazardsFault : Prop :=
  ∀ (s : State) (inst : U16) (x : Instance) (sl : Slot),
    s.Inv = true → s.inst? inst = some x → LeastStale s x sl →
    (x.cfg.role = .reader → x.life = .reading → ∀ i op,
      ((i = .readOne inst ∧ op = .readOne) ∨ (∃ n, i = .skip inst n ∧ op = .skip) ∨
       (∃ buflen offset n, i = .read inst buflen offset n ∧ op = .read ∧ offset.toNat + n.toNat ≤ buflen.toNat)) →
      ∃ t, exec i s = .next t ∧ TookFault s t inst x op .channelHazard sl.number 0) ∧
    (x.cfg.role = .writer → (x.life = .empty ∨ x.life = .writing) → ∀ items i op,
      WriteCommand inst items i → Instr.command? i = some (op, inst) →
      (∀ y ∈ items, y.fits x.cfg.base = true) → RoomFor x items.length →
      EachLane s x (fun sl' l => l.bytes.length +
        flushedLen s.params.stageBytes l ((writeItems s.params x.cfg x.work items).2.get sl').length ≤
          s.params.channelMax) →
      ∃ t, exec i s = .next t ∧ TookFault s t inst x op .channelHazard sl.number 0) ∧
    (x.cfg.role = .writer → (x.life = .empty ∨ x.life = .writing ∨ x.life = .committed) →
      (EachLane s x (fun _ l => l.bytes.length + l.stage.length ≤ s.params.channelMax) →
        ∃ t, exec (.flush inst) s = .next t ∧ TookFault s t inst x .flush .channelHazard sl.number 0) ∧
      ((x.life ≠ .committed → EachLane s x (fun sl' l => l.bytes.length + l.stage.length +
          ((commitFlush s.params x.cfg x.work).2.get sl').length ≤ s.params.channelMax)) →
        ∃ t, exec (.commit inst) s = .next t ∧ TookFault s t inst x .commit .channelHazard sl.number 0))

/-- 60_exceptions.md R356, R357, R360: where decoding meets CorruptStream, READ_ONE, READ, SKIP and RESUME take it with its
slot and offset; where the channels hold fewer than ROWS items, RESUME takes ResumeShort with SLOT 0xFF and OFFSET 0. Every
channel and every other instance is as before. -/
def Obligations.ExecutionFaultsLeaveTheChannels : Prop :=
  (∀ (s : State) (inst : U16) (x : Instance) (n : U64) (sl : Slot) (off : U64) (xs : List Item) (r : Reading),
    s.Inv = true → s.inst? inst = some x → x.cfg.role = .reader → x.life = .reading → Synced s x →
    readItems s.params x.cfg (s.chanBytes x) n.toNat { items := x.items, work := x.work } = (.corrupt sl off, xs, r) →
    (n = 1 → ∃ t, exec (.readOne inst) s = .next t ∧
      TookExecutionFault s t inst x .readOne .corruptStream sl.number off) ∧
    (∀ buflen offset : U64, offset.toNat + n.toNat ≤ buflen.toNat →
      ∃ t, exec (.read inst buflen offset n) s = .next t ∧
        TookExecutionFault s t inst x .read .corruptStream sl.number off) ∧
    ∃ t, exec (.skip inst n) s = .next t ∧ TookExecutionFault s t inst x .skip .corruptStream sl.number off) ∧
  ∀ (s : State) (inst : U16) (x : Instance) (ch0 : U64) (ch1 : Option U64) (rows : U64) (e : ReadEnd)
    (xs : List Item) (r : Reading),
    s.inst? inst = some x → x.cfg.role = .writer → (x.life = .uninit ∨ x.life = .committed) →
    ChannelOperands s x ch0 ch1 → (∀ c, x.cfg.itemCount = some c → rows.toNat ≤ c.toNat) →
    readItems s.params { x.cfg with itemCount := none } (contents s ch0 ch1) rows.toNat
      { items := 0, work := Work.reset x.cfg } = (e, xs, r) →
    (∀ sl off, e = .corrupt sl off → ∃ t, exec (.resume inst ch0 ch1 rows) s = .next t ∧
      TookExecutionFault s t inst x .resume .corruptStream sl.number off) ∧
    (e = .eos → ∃ t, exec (.resume inst ch0 ch1 rows) s = .next t ∧
      TookExecutionFault s t inst x .resume .resumeShort 0xFF#8 0)

/-- 60_exceptions.md R362: CONSTRUCT, CREATE_READER and CREATE_WRITER when all MAX_INSTANCES ids are in use:
ResourceExhausted in the result, nothing recorded, nothing else changed. -/
def Obligations.NoFreeIdIsReported : Prop :=
  ∀ (s : State) (i : Instr), s.params.maxInstances ≤ s.insts.length →
    ((∃ cfg : Cfg, cfg.ok = true ∧ i = .construct cfg.desc cfg.itemCount) ∨
     ∃ inst x, s.inst? inst = some x ∧ x.life ≠ .faulted ∧
       ((i = .createReader inst ∧ x.cfg.role = .writer) ∨ (i = .createWriter inst ∧ x.cfg.role = .reader))) →
    ∃ t, exec i s = .next t ∧ Replied s t 0x0702 []

/-- 44_pipeline.md R290, 60_exceptions.md R360: whatever the instruction, when its result is a FAULT every channel is as
before, and, for a command, so is every instance but the addressed one. -/
def Obligations.FaultingCommandsChangeNoChannel : Prop :=
  ∀ (s t : State) (i : Instr) (r : Result), exec i s = .next t → t.results = r :: s.results →
    r.status.extractLsb' 0 2 = 2#2 →
    t.mem = s.mem ∧ ∀ op inst, Instr.command? i = some (op, inst) → ∀ j, j ≠ inst → t.inst? j = s.inst? j

/-! ## The whole machine -/

/-- 70_reset_and_hazards.md R380, 20_memory.md R87: a channel the host creates has its content and GEN 0; a content it replaces is
one modification; nothing else changes but the pending acts. How the host's acts reach the block, and that it keeps to
MAX_CHANNELS and CHANNEL_MAX, is the model's choice (log entries 3, 18). -/
def Obligations.HostActsChangeOneChannel : Prop :=
  ∀ (s : State) (id : U64) (content : List Byte) (rest : List HostAct),
    s.unitPort = none → content.length ≤ s.params.channelMax →
    (s.input = .createChannel id content :: rest → s.mem.get id = none → s.mem.chans.length < s.params.maxChannels →
      ∃ t, step s = .next t ∧ t = { s with input := rest, mem := t.mem } ∧
        t.mem.get id = some { id := id, bytes := content, gen := 0 } ∧ ∀ c, c ≠ id → t.mem.get c = s.mem.get c) ∧
    ∀ ch, s.input = .writeChannel id content :: rest → s.mem.get id = some ch →
      ∃ t, step s = .next t ∧ t = { s with input := rest, mem := t.mem } ∧
        t.mem.get id = some { ch with bytes := content, gen := ch.gen + 1 } ∧ ∀ c, c ≠ id → t.mem.get c = s.mem.get c

/-- 10_state.md R22, 60_exceptions.md R362, R370: no step changes the configuration of an instance, and none removes an
instance (an id, once given, is never freed). -/
def Obligations.ConfigurationNeverChanges : Prop :=
  ∀ (s t : State) (id : U16) (x : Instance), step s = .next t → s.inst? id = some x →
    ∃ y, t.inst? id = some y ∧ y.cfg = x.cfg

/-- 60_exceptions.md R361: FAULTED is terminal: no step, of whatever command to whatever instance, changes any register of an
instance in FAULTED. -/
def Obligations.FaultedIsTerminal : Prop :=
  ∀ (s t : State) (id : U16) (x : Instance), step s = .next t → s.inst? id = some x → x.life = .faulted →
    t.inst? id = some x

/-- 20_memory.md R70, R72, R82: a command changes no channel but those bound to its instance, and RESUME none but those its
operands bind, even if the instance was bound to others before; a command that is no WRITE_ONE, WRITE, COMMIT, RESET, FLUSH or
RESUME, and a unit, changes none at all. -/
def Obligations.OnlyBoundChannelsChange : Prop :=
  ∀ (s t : State) (i : Instr), exec i s = .next t →
    (∀ op inst x c, Instr.command? i = some (op, inst) → s.inst? inst = some x →
      c ∉ (if op = .resume then operandChans i else x.chans) →
      t.mem.gen c = s.mem.gen c ∧ ∀ off, t.mem.readByte c off = s.mem.readByte c off) ∧
    ((∀ op inst, Instr.command? i = some (op, inst) →
        op ≠ .writeOne ∧ op ≠ .write ∧ op ≠ .commit ∧ op ≠ .reset ∧ op ≠ .flush ∧ op ≠ .resume) →
      t.mem = s.mem)

/-- 20_memory.md R84, R89: what a command does depends only on the parameters, its instance, the channels bound to that and
the channels its operands name: in two states that agree on those it has the same result and leaves the same instance and the
same channels. (Commands that create instances also depend on how many there are.) The free-value counter is the model's own
(log entry 2). -/
def Obligations.CommandsDependOnlyOnTheirInstance : Prop :=
  ∀ (s s' t : State) (i : Instr) (op : Opcode) (inst : U16) (x : Instance),
    Instr.command? i = some (op, inst) → op ≠ .createReader → op ≠ .createWriter →
    s.inst? inst = some x → AgreeOn s s' inst (x.chans ++ operandChans i) → exec i s = .next t →
    ∃ t' r, exec i s' = .next t' ∧ AgreeOn t t' inst (x.chans ++ operandChans i) ∧
      t.results = r :: s.results ∧ t'.results = r :: s'.results

/-- 10_state.md R46: a command never moves RD_CUR backwards, except INIT, RESET and RESUME, which reset it. (A unit at the
unit port advances it: RunUnitsComplete, SingleUnitsComplete, PairUnitsComplete.) -/
def Obligations.FetchPointerMovesForward : Prop :=
  ∀ (s t : State) (i : Instr) (op : Opcode) (inst id : U16) (x y : Instance), s.Inv = true →
    Instr.command? i = some (op, inst) → op ≠ .init → op ≠ .reset → op ≠ .resume → exec i s = .next t →
    s.inst? id = some x → t.inst? id = some y → y.life ≠ .faulted →
    ∀ sl, (x.work.cur.get sl).toNat ≤ (y.work.cur.get sl).toNat

/-- The invariant of every run, which every step keeps: the memory's canonical form and CHANNEL_MAX (20_memory.md R71),
MAX_INSTANCES (60_exceptions.md R370), a legal configuration and LIFE of each instance (10_state.md R26, R31), the fault
record at its reset value until FAULTED (R32), BIND naming different existing channels (R34, 44_pipeline.md R293), the ranges
of the working registers (10_state.md R35 to R43), FBW_ZRUN = 0 whenever FBW_PV = 1 (R36). -/
def Obligations.StepKeepsInv : Prop := ∀ s t : State, s.Inv = true → step s = .next t → t.Inv = true

/-- The state after reset satisfies the invariant (its parameter values are the model's choice, log entry 1). -/
def Obligations.ResetSatisfiesInv : Prop := State.reset.Inv = true

/-- 10_state.md R36 to R43: every uW register stays below 2^W, and BW_ACC holds nothing above its BW_NBITS bits, at reset and
after every step (the containers are the model's choice, log entry 15). -/
def Obligations.StepKeepsWidths : Prop :=
  WidthsKept State.reset ∧
  ∀ s t : State, s.Inv = true → WidthsKept s → step s = .next t → WidthsKept t

end
end

