-- ==== Sys2Proof/Laws/State.lean ====
section
/-! SUPPORT. The fields of a state and of an instance after each update, and the slots of a pair. -/

namespace Sys2Proof.Machine

variable (s : State) (id : U16) (x y : Instance) (st : Status) (ws : List U64)

/-! ## `State.reply` -/

@[simp] theorem State.reply_params : (s.reply st ws).params = s.params := rfl
@[simp] theorem State.reply_mem : (s.reply st ws).mem = s.mem := rfl
@[simp] theorem State.reply_insts : (s.reply st ws).insts = s.insts := rfl
@[simp] theorem State.reply_input : (s.reply st ws).input = s.input := rfl
@[simp] theorem State.reply_unitPort : (s.reply st ws).unitPort = s.unitPort := rfl
@[simp] theorem State.reply_freeCount : (s.reply st ws).freeCount = s.freeCount := rfl
@[simp] theorem State.reply_results :
    (s.reply st ws).results = { status := st.word, words := ws } :: s.results := rfl
@[simp] theorem State.reply_inst? : (s.reply st ws).inst? id = s.inst? id := rfl

/-! ## `State.setInst` -/

@[simp] theorem State.setInst_params : (s.setInst id x).params = s.params := rfl
@[simp] theorem State.setInst_mem : (s.setInst id x).mem = s.mem := rfl
@[simp] theorem State.setInst_insts : (s.setInst id x).insts = s.insts.set (id.toNat - 1) x := rfl
@[simp] theorem State.setInst_input : (s.setInst id x).input = s.input := rfl
@[simp] theorem State.setInst_results : (s.setInst id x).results = s.results := rfl
@[simp] theorem State.setInst_unitPort : (s.setInst id x).unitPort = s.unitPort := rfl
@[simp] theorem State.setInst_freeCount : (s.setInst id x).freeCount = s.freeCount := rfl

/-! ## `State.addInst` -/

@[simp] theorem State.addInst_params : (s.addInst x).params = s.params := rfl
@[simp] theorem State.addInst_mem : (s.addInst x).mem = s.mem := rfl
@[simp] theorem State.addInst_insts : (s.addInst x).insts = s.insts ++ [x] := rfl
@[simp] theorem State.addInst_input : (s.addInst x).input = s.input := rfl
@[simp] theorem State.addInst_results : (s.addInst x).results = s.results := rfl
@[simp] theorem State.addInst_unitPort : (s.addInst x).unitPort = s.unitPort := rfl
@[simp] theorem State.addInst_freeCount : (s.addInst x).freeCount = s.freeCount := rfl

/-! ## The instance table -/

theorem State.inst?_pos {s : State} {id : U16} {x : Instance} (h : s.inst? id = some x) : 1 ≤ id.toNat := by
  rcases Nat.eq_zero_or_pos id.toNat with h0 | h0
  · have : id = 0 := BitVec.eq_of_toNat_eq (by simpa using h0)
    simp [State.inst?, this] at h
  · exact h0

theorem State.inst?_getElem {s : State} {id : U16} {x : Instance} (h : s.inst? id = some x) :
    s.insts[id.toNat - 1]? = some x := by
  unfold State.inst? at h
  split at h
  · cases h
  · exact h

theorem State.inst?_of_pos (s : State) {id : U16} (h : 1 ≤ id.toNat) : s.inst? id = s.insts[id.toNat - 1]? := by
  have : id ≠ 0 := by rintro rfl; simp at h
  unfold State.inst?
  rw [if_neg this]

theorem State.inst?_lt {s : State} {id : U16} {x : Instance} (h : s.inst? id = some x) :
    id.toNat - 1 < s.insts.length :=
  (List.getElem?_eq_some_iff.mp (State.inst?_getElem h)).1

theorem State.inst?_mem {s : State} {id : U16} {x : Instance} (h : s.inst? id = some x) : x ∈ s.insts :=
  List.mem_of_getElem? (State.inst?_getElem h)

/-- The instance put back is the one read. -/
theorem State.setInst_inst?_same {s : State} {id : U16} {x : Instance} (h : s.inst? id = some x) (y : Instance) :
    (s.setInst id y).inst? id = some y := by
  rw [State.inst?_of_pos _ (State.inst?_pos h)]
  simp [State.inst?_lt h]

/-- Every other instance stays. -/
theorem State.setInst_inst?_ne {s : State} {id : U16} {x : Instance} (h : s.inst? id = some x) (y : Instance)
    {j : U16} (hj : j ≠ id) : (s.setInst id y).inst? j = s.inst? j := by
  by_cases h0 : j = 0
  · simp [State.inst?, h0]
  · have hjp : 1 ≤ j.toNat := by
      rcases Nat.eq_zero_or_pos j.toNat with h1 | h1
      · exact absurd (BitVec.eq_of_toNat_eq (by simpa using h1)) h0
      · exact h1
    rw [State.inst?_of_pos _ hjp, State.inst?_of_pos _ hjp]
    have hp := State.inst?_pos h
    have hne : id.toNat ≠ j.toNat := fun e => hj (BitVec.eq_of_toNat_eq e.symm)
    simp only [State.setInst_insts]
    rw [List.getElem?_set_ne (by omega)]

/-- A new instance leaves every existing id as it was. -/
theorem State.addInst_inst?_old {s : State} {id : U16} {x : Instance} (h : s.inst? id = some x) (y : Instance) :
    (s.addInst y).inst? id = some x := by
  rw [State.inst?_of_pos _ (State.inst?_pos h)]
  simp only [State.addInst_insts]
  rw [List.getElem?_append_left (State.inst?_lt h)]
  exact State.inst?_getElem h

/-! ## Slots -/

@[simp] theorem PerSlot.get_data {α : Type} (p : PerSlot α) : p.get .data = p.data := rfl
@[simp] theorem PerSlot.get_lens {α : Type} (p : PerSlot α) : p.get .lens = p.lens := rfl
@[simp] theorem PerSlot.set_data {α : Type} (p : PerSlot α) (a : α) : p.set .data a = { p with data := a } := rfl
@[simp] theorem PerSlot.set_lens {α : Type} (p : PerSlot α) (a : α) : p.set .lens a = { p with lens := a } := rfl

@[simp] theorem PerSlot.get_set_same {α : Type} (p : PerSlot α) (sl : Slot) (a : α) : (p.set sl a).get sl = a := by
  cases sl <;> rfl

theorem PerSlot.get_set_ne {α : Type} (p : PerSlot α) {sl sl' : Slot} (h : sl' ≠ sl) (a : α) :
    (p.set sl a).get sl' = p.get sl' := by
  cases sl <;> cases sl' <;> first | rfl | exact absurd rfl h

end Sys2Proof.Machine
end

