-- ==== Sys2Proof/Laws/Memory.lean ====
section
/-! SUPPORT. The channel memory: read after write, and the canonical form that every operation keeps. -/

namespace Sys2Proof.Machine

theorem Memory.get_id {m : Memory} {id : U64} {c : Channel} (h : m.get id = some c) : c.id = id := by
  have := List.find?_some h
  simpa using this

theorem Memory.get_mem {m : Memory} {id : U64} {c : Channel} (h : m.get id = some c) : c ∈ m.chans :=
  List.mem_of_find?_eq_some h

theorem Memory.gen_of_get {m : Memory} {id : U64} {c : Channel} (h : m.get id = some c) : m.gen id = c.gen := by
  simp [Memory.gen, h]

theorem Memory.len_of_get {m : Memory} {id : U64} {c : Channel} (h : m.get id = some c) :
    m.len id = c.bytes.length := by
  simp [Memory.len, h]

theorem find_map_put (id j : U64) (bytes : List Byte) (gen : U64) (cs : List Channel) :
    (cs.map fun c => if c.id = id then { c with bytes := bytes, gen := gen } else c).find? (fun c => c.id == j) =
      (cs.find? fun c => c.id == j).map fun c => if c.id = id then { c with bytes := bytes, gen := gen } else c := by
  induction cs with
  | nil => rfl
  | cons c cs ih =>
    by_cases hc : c.id = id <;> by_cases hj : c.id = j <;> simp_all

theorem Memory.get_put (m : Memory) (id j : U64) (bytes : List Byte) (gen : U64) :
    (m.put id bytes gen).get j =
      (m.get j).map fun c => if c.id = id then { c with bytes := bytes, gen := gen } else c :=
  find_map_put id j bytes gen m.chans

/-- Read after write: the channel written. -/
theorem Memory.get_put_same {m : Memory} {id : U64} {c : Channel} (h : m.get id = some c) (bytes : List Byte)
    (gen : U64) : (m.put id bytes gen).get id = some { id := id, bytes := bytes, gen := gen } := by
  rw [Memory.get_put, h]
  have := Memory.get_id h
  simp [this]

/-- Read after write: every other channel. -/
theorem Memory.get_put_ne (m : Memory) {id j : U64} (h : j ≠ id) (bytes : List Byte) (gen : U64) :
    (m.put id bytes gen).get j = m.get j := by
  rw [Memory.get_put]
  cases hj : m.get j with
  | none => rfl
  | some c =>
    have := Memory.get_id hj
    simp [this, h]

theorem Memory.put_ids (m : Memory) (id : U64) (bytes : List Byte) (gen : U64) :
    ((m.put id bytes gen).chans.map fun c => c.id.toNat) = m.chans.map fun c => c.id.toNat := by
  simp only [Memory.put, List.map_map]
  apply List.map_congr_left
  intro c _
  by_cases h : c.id = id <;> simp [h]

/-- Writing a channel keeps the canonical form. -/
theorem Memory.put_wf {m : Memory} (h : m.wf) (id : U64) (bytes : List Byte) (gen : U64) :
    (m.put id bytes gen).wf := by
  unfold Memory.wf
  rw [Memory.put_ids]
  exact h

/-- One modification keeps the canonical form. -/
theorem Memory.modify_wf {m : Memory} (h : m.wf) (id : U64) (bytes : List Byte) : (m.modify id bytes).wf :=
  Memory.put_wf h _ _ _

theorem insertChannel_mem (c d : Channel) (cs : List Channel) : d ∈ insertChannel c cs ↔ d = c ∨ d ∈ cs := by
  induction cs with
  | nil => simp [insertChannel]
  | cons e es ih =>
    unfold insertChannel
    split
    · simp_all
    · simp_all
      tauto

theorem insertChannel_length (c : Channel) (cs : List Channel) :
    (insertChannel c cs).length = cs.length + 1 := by
  induction cs with
  | nil => rfl
  | cons e es ih =>
    unfold insertChannel
    split <;> simp_all

theorem insertChannel_sorted (c : Channel) (cs : List Channel)
    (h : (cs.map fun d => d.id.toNat).Pairwise (· < ·)) (hc : ∀ d ∈ cs, d.id ≠ c.id) :
    ((insertChannel c cs).map fun d => d.id.toNat).Pairwise (· < ·) := by
  induction cs with
  | nil => simp [insertChannel]
  | cons e es ih =>
    simp only [List.map_cons, List.pairwise_cons] at h
    have hec : e.id ≠ c.id := hc e (by simp)
    have hne : e.id.toNat ≠ c.id.toNat := fun q => hec (BitVec.eq_of_toNat_eq q)
    unfold insertChannel
    split
    · rename_i hlt
      simp only [List.map_cons, List.pairwise_cons]
      refine ⟨?_, h.1, h.2⟩
      intro a ha
      rcases List.mem_cons.mp ha with rfl | ha
      · exact hlt
      · exact lt_trans hlt (h.1 a ha)
    · rename_i hlt
      simp only [List.map_cons, List.pairwise_cons]
      refine ⟨?_, ih h.2 fun d hd => hc d (by simp [hd])⟩
      intro a ha
      obtain ⟨d, hd, rfl⟩ := List.mem_map.mp ha
      rcases (insertChannel_mem c d es).mp hd with rfl | hd
      · omega
      · exact h.1 _ (List.mem_map.mpr ⟨d, hd, rfl⟩)

theorem Memory.get_none_ne {m : Memory} {id : U64} (h : m.get id = none) : ∀ d ∈ m.chans, d.id ≠ id := by
  intro d hd he
  have := List.find?_eq_none.mp h d hd
  simp [he] at this

/-- Creating a new channel keeps the canonical form. -/
theorem Memory.create_wf {m : Memory} (h : m.wf) {id : U64} (hid : m.get id = none) (content : List Byte) :
    (m.create id content).wf :=
  insertChannel_sorted _ _ h (Memory.get_none_ne hid)

theorem find_insertChannel (c : Channel) (cs : List Channel) (j : U64) (hc : ∀ d ∈ cs, d.id ≠ c.id) :
    (insertChannel c cs).find? (fun d => d.id == j) =
      if j = c.id then some c else cs.find? fun d => d.id == j := by
  induction cs with
  | nil =>
    by_cases h : c.id = j
    · simp [insertChannel, h]
    · simp [insertChannel, h, Ne.symm h]
  | cons e es ih =>
    have hec : e.id ≠ c.id := hc e (by simp)
    have ih := ih fun d hd => hc d (by simp [hd])
    unfold insertChannel
    by_cases h : j = c.id
    · subst h
      split <;> simp_all
    · have h' : c.id ≠ j := Ne.symm h
      split <;> simp_all [List.find?_cons]

/-- Read after creation: the new channel, with GEN 0. -/
theorem Memory.get_create_same {m : Memory} {id : U64} (h : m.get id = none) (content : List Byte) :
    (m.create id content).get id = some { id := id, bytes := content, gen := 0 } := by
  have := find_insertChannel { id := id, bytes := content, gen := 0 } m.chans id (Memory.get_none_ne h)
  simpa [Memory.create, Memory.get] using this

/-- Read after creation: every other channel. -/
theorem Memory.get_create_ne {m : Memory} {id j : U64} (h : m.get id = none) (hj : j ≠ id) (content : List Byte) :
    (m.create id content).get j = m.get j := by
  have := find_insertChannel { id := id, bytes := content, gen := 0 } m.chans j (Memory.get_none_ne h)
  simpa [Memory.create, Memory.get, hj] using this

/-- The memory after reset has the canonical form. -/
theorem Memory.reset_wf : State.reset.mem.wf := by decide

end Sys2Proof.Machine
end

