-- ==== Sys2Proof/Laws/Ops.lean ====
section
/-! SUPPORT. What each shared operation can do, said once: the checks of a command, fault entry, the output paths. -/

namespace Sys2Proof.Machine

/-! ## The checks of a command -/

/-- A command that passes the first three checks runs its body. -/
theorem dispatch_body {s : State} {op : Opcode} {id : U16} {x : Instance} {body : Instance → Outcome}
    (h : s.inst? id = some x) (hl : x.life ≠ .faulted ∨ survivesFault op = true)
    (hv : validIn op x.cfg.role x.life = true) : s.dispatch op id body = body x := by
  have h1 : ¬(x.life = .faulted ∧ survivesFault op = false) := by
    rintro ⟨a, b⟩
    rcases hl with h | h
    · exact h a
    · simp [h] at b
  unfold State.dispatch
  rw [h]
  simp only [h1, hv, if_false, Bool.true_eq_false]

/-- An instance in FAULTED refuses every command but the two queries. -/
theorem dispatch_faulted {s : State} {op : Opcode} {id : U16} {x : Instance} {body : Instance → Outcome}
    (h : s.inst? id = some x) (hl : x.life = .faulted) (hs : survivesFault op = false) :
    s.dispatch op id body = .next (s.reply (.fault x.fault.code) []) := by
  unfold State.dispatch
  rw [h]
  simp only [hl, hs, and_self, if_true]

/-- A role or LIFE outside the table is ProtocolViolation. -/
theorem dispatch_invalid {s : State} {op : Opcode} {id : U16} {x : Instance} {body : Instance → Outcome}
    (h : s.inst? id = some x) (hl : x.life ≠ .faulted) (hv : validIn op x.cfg.role x.life = false) :
    s.dispatch op id body = .next (s.plainFault id op .protocolViolation) := by
  unfold State.dispatch
  rw [h]
  simp only [hl, hv, false_and, if_false, if_true]

/-- Everything a command addressed to an instance can do. -/
theorem dispatch_cases {s : State} {op : Opcode} {id : U16} {body : Instance → Outcome} {o : Outcome}
    (h : s.dispatch op id body = o) :
    (s.inst? id = none ∧ o = .next (s.plainFault id op .illegalCommand)) ∨
    ∃ x, s.inst? id = some x ∧
      ((x.life = .faulted ∧ o = .next (s.reply (.fault x.fault.code) [])) ∨
       (validIn op x.cfg.role x.life = false ∧ o = .next (s.plainFault id op .protocolViolation)) ∨
       ((x.life ≠ .faulted ∨ survivesFault op = true) ∧ validIn op x.cfg.role x.life = true ∧ body x = o)) := by
  unfold State.dispatch at h
  split at h
  · rename_i h0
    exact .inl ⟨h0, h.symm⟩
  · rename_i x h0
    refine .inr ⟨x, h0, ?_⟩
    split at h
    · rename_i h1
      exact .inl ⟨h1.1, h.symm⟩
    · rename_i h1
      split at h
      · rename_i h2
        exact .inr (.inl ⟨h2, h.symm⟩)
      · rename_i h2
        refine .inr (.inr ⟨?_, by simpa using h2, h⟩)
        by_cases hf : x.life = .faulted
        · exact .inr (by simpa [hf] using h1)
        · exact .inl hf

theorem onChannels_bound {s : State} {x : Instance} (h : s.bound x = true) (o : Outcome) : s.onChannels x o = o := by
  simp [State.onChannels, h]

theorem onChannels_next {s t : State} {x : Instance} {o : Outcome} (h : s.onChannels x o = .next t) :
    s.bound x = true ∧ o = .next t := by
  unfold State.onChannels at h
  split at h
  · exact ⟨‹_›, h⟩
  · cases h

theorem hazardCheck_next {s t : State} {op : Opcode} {id : U16} {x : Instance} {o : Outcome}
    (h : s.hazardCheck op id x o = .next t) :
    (∃ sl, sl ∈ x.cfg.base.slots ∧ s.stale x sl = true ∧ t = s.faultEntry id op .channelHazard sl.number 0) ∨
      ((∀ sl ∈ x.cfg.base.slots, s.stale x sl = false) ∧ o = .next t) := by
  unfold State.hazardCheck at h
  split at h
  · rename_i sl h0
    refine .inl ⟨sl, List.mem_of_find?_eq_some h0, List.find?_some h0, ?_⟩
    cases h
    rfl
  · rename_i h0
    refine .inr ⟨?_, h⟩
    intro sl hsl
    simpa using List.find?_eq_none.mp h0 sl hsl

theorem hazardCheck_clean {s : State} {op : Opcode} {id : U16} {x : Instance} {o : Outcome}
    (h : ∀ sl ∈ x.cfg.base.slots, s.stale x sl = false) : s.hazardCheck op id x o = o := by
  unfold State.hazardCheck
  have : x.cfg.base.slots.find? (s.stale x) = none := List.find?_eq_none.mpr (by simpa using h)
  rw [this]

/-- A synchronised instance is stale on no slot. -/
theorem stale_of_synced {s : State} {x : Instance} (hb : s.bound x = true) (h : Synced s x) :
    ∀ sl ∈ x.cfg.base.slots, s.stale x sl = false := by
  intro sl hsl
  have hb := List.all_eq_true.mp hb sl hsl
  unfold State.stale
  cases hx : x.bind.get sl with
  | none => simp [State.boundChan, hx] at hb
  | some b => simpa using h sl hsl b hx

/-! ## Fault entry -/

/-- A fault that no instance records changes nothing but the results. -/
theorem faultEntry_unrecorded (s : State) (id : U16) (op : Opcode) (code : FaultCode) (slot : Byte) (offset : U64)
    (h : code.unrecorded = true ∨ op = .construct) :
    s.faultEntry id op code slot offset = s.reply (.fault code.code) [] := by
  unfold State.faultEntry
  rcases h with h | h <;> simp [h]

/-- A recorded fault: the record and LIFE of the instance, and the result. -/
theorem faultEntry_recorded {s : State} {id : U16} {x : Instance} (op : Opcode) (code : FaultCode) (slot : Byte)
    (offset : U64) (hc : code.unrecorded = false) (ho : op ≠ .construct) (h : s.inst? id = some x) :
    s.faultEntry id op code slot offset =
      (s.setInst id
        { x with
          fault := { code := code.code, opcode := op.code, slot := slot, offset := offset }
          life := .faulted }).reply (.fault code.code) [] := by
  unfold State.faultEntry
  simp [hc, ho, h]

/-- The fields a fault entry leaves. -/
theorem faultEntry_fields (s : State) (id : U16) (op : Opcode) (code : FaultCode) (slot : Byte) (offset : U64) :
    (s.faultEntry id op code slot offset).params = s.params ∧ (s.faultEntry id op code slot offset).mem = s.mem ∧
    (s.faultEntry id op code slot offset).input = s.input ∧
    (s.faultEntry id op code slot offset).unitPort = s.unitPort ∧
    (s.faultEntry id op code slot offset).freeCount = s.freeCount ∧
    (s.faultEntry id op code slot offset).insts.length = s.insts.length ∧
    (s.faultEntry id op code slot offset).results =
      { status := (Status.fault code.code).word, words := [] } :: s.results := by
  unfold State.faultEntry
  split
  · simp
  · split <;> simp

/-! ## Output paths -/

@[simp] theorem State.onLanes_eq (s : State) (id : U16) (x : Instance) (f : Slot → Lane → Lane) :
    s.onLanes id x f =
      (s.onSlots x f x.cfg.base.slots).1.setInst id (s.onSlots x f x.cfg.base.slots).2 := rfl

/-- One output path of a bound slot, in full. -/
theorem onLane_bound {s : State} {x : Instance} {sl : Slot} {b : Binding} {c : Channel} (f : Lane → Lane)
    (hb : x.bind.get sl = some b) (hc : s.mem.get b.chan = some c) :
    let l' := f { bytes := c.bytes, gen := c.gen, seen := b.seen, stage := x.work.stage.get sl }
    s.onLane x sl f =
      ({ s with mem := s.mem.put b.chan l'.bytes l'.gen },
        { x with
          bind := x.bind.set sl (some { b with seen := l'.seen })
          work := { x.work with stage := x.work.stage.set sl l'.stage } }) := by
  simp only [State.onLane, State.lane, hb, hc, Option.map_some]

/-- What changing output paths leaves: every field of the state but the memory, every register of the instance but BIND,
SEEN and STAGE; the ids of the channels and of the bindings; the canonical form. -/
structure LaneFrame (s t : State) (x y : Instance) : Prop where
  params : t.params = s.params
  insts : t.insts = s.insts
  input : t.input = s.input
  results : t.results = s.results
  unitPort : t.unitPort = s.unitPort
  freeCount : t.freeCount = s.freeCount
  wf : s.mem.wf → t.mem.wf
  exists_iff : ∀ c, (t.mem.get c).isSome = (s.mem.get c).isSome
  cfg : y.cfg = x.cfg
  life : y.life = x.life
  fault : y.fault = x.fault
  items : y.items = x.items
  work : { y.work with stage := x.work.stage } = x.work
  bindData : y.bind.data.map Binding.chan = x.bind.data.map Binding.chan
  bindLens : y.bind.lens.map Binding.chan = x.bind.lens.map Binding.chan

theorem LaneFrame.refl (s : State) (x : Instance) : LaneFrame s s x x := by
  constructor <;> simp

theorem LaneFrame.trans {s t u : State} {x y z : Instance} (h : LaneFrame s t x y) (k : LaneFrame t u y z) :
    LaneFrame s u x z where
  params := k.params.trans h.params
  insts := k.insts.trans h.insts
  input := k.input.trans h.input
  results := k.results.trans h.results
  unitPort := k.unitPort.trans h.unitPort
  freeCount := k.freeCount.trans h.freeCount
  wf := fun q => k.wf (h.wf q)
  exists_iff := fun c => (k.exists_iff c).trans (h.exists_iff c)
  cfg := k.cfg.trans h.cfg
  life := k.life.trans h.life
  fault := k.fault.trans h.fault
  items := k.items.trans h.items
  work := by
    have a := h.work
    have b := k.work
    rw [← a, ← b]
  bindData := k.bindData.trans h.bindData
  bindLens := k.bindLens.trans h.bindLens

theorem onLane_frame (s : State) (x : Instance) (sl : Slot) (f : Lane → Lane) :
    LaneFrame s (s.onLane x sl f).1 x (s.onLane x sl f).2 := by
  cases hb : x.bind.get sl with
  | none => simp [State.onLane, hb, LaneFrame.refl]
  | some b =>
    cases hc : s.mem.get b.chan with
    | none => simp [State.onLane, State.lane, hb, hc, LaneFrame.refl]
    | some c =>
      rw [onLane_bound f hb hc]
      constructor <;> try rfl
      · exact fun h => Memory.put_wf h _ _ _
      · intro j
        simp only [Memory.get_put]
        cases s.mem.get j <;> rfl
      · cases sl <;> simp at hb <;> simp [hb]
      · cases sl <;> simp at hb <;> simp [hb]

theorem onSlots_frame (f : Slot → Lane → Lane) (sls : List Slot) (s : State) (x : Instance) :
    LaneFrame s (s.onSlots x f sls).1 x (s.onSlots x f sls).2 := by
  induction sls generalizing s x with
  | nil => exact LaneFrame.refl s x
  | cons sl rest ih => exact (onLane_frame s x sl (f sl)).trans (ih _ _)

/-- Changing an output path leaves every channel that is not bound to the slot. -/
theorem onLane_get_ne {s : State} {x : Instance} {sl : Slot} (f : Lane → Lane) {j : U64}
    (h : ∀ b, x.bind.get sl = some b → j ≠ b.chan) : (s.onLane x sl f).1.mem.get j = s.mem.get j := by
  cases hb : x.bind.get sl with
  | none => simp [State.onLane, hb]
  | some b =>
    cases hc : s.mem.get b.chan with
    | none => simp [State.onLane, State.lane, hb, hc]
    | some c =>
      rw [onLane_bound f hb hc]
      exact Memory.get_put_ne _ (h b hb) _ _

end Sys2Proof.Machine
end

