-- ==== Sys2Proof/Laws/Ranges.lean ====
section
/-! SUPPORT. The ranges of the working registers (10_state.md R35 to R43) are kept by the write path, the commit flush and
the read path: one lemma per operation. -/

namespace Sys2Proof.Machine

/-! ## The base stages -/

theorem fbWriteWord_ok (v : Variant) (r : FbwRegs) (x : U64) (h : fbwOk v r = true) :
    fbwOk v (fbWriteWord v r x).1 = true := by
  have hm : 1 < Variant.maxRun v := by cases v <;> decide
  unfold fbWriteWord
  simp only [fbwOk, Bool.and_eq_true, decide_eq_true_eq, Bool.or_eq_true, Bool.not_eq_true',
    beq_iff_eq, bne_iff_ne] at h ⊢
  split_ifs <;> simp_all <;> omega

/-- So does a list of words. -/
theorem fbWriteWords_ok (v : Variant) (xs : List U64) (r : FbwRegs) (h : fbwOk v r = true) :
    fbwOk v (fbWriteWords v r xs).1 = true := by
  induction xs generalizing r with
  | nil => exact h
  | cons x xs ih => exact ih _ (fbWriteWord_ok v r x h)

/-- So does the commit flush, from any registers. -/
theorem fbFlush_ok (v : Variant) (r : FbwRegs) : fbwOk v (fbFlush v r).1 = true := by
  cases v <;> simp [fbFlush, fbwOk, Variant.maxRun]

/-- The width of a bit-width base divides the accumulator. -/
theorem Base.width_cases (b : Base) (hs : b.strings = false) (hv : b.variant? = none) :
    b.width ∣ 32 ∧ 0 < b.width := by
  cases b <;> simp_all [Base.strings, Base.variant?, Base.width]

/-- One word keeps the range of BW_NBITS. -/
theorem bwWriteWord_ok (b : Base) (hs : b.strings = false) (hv : b.variant? = none) (r : BwRegs) (x : U64)
    (h : bwOk b r.nbits = true) : bwOk b (bwWriteWord b.width r x).1.nbits = true := by
  obtain ⟨hd, hp⟩ := Base.width_cases b hs hv
  simp only [bwOk, Bool.and_eq_true, decide_eq_true_eq] at h ⊢
  unfold bwWriteWord
  simp only
  split_ifs with h1
  · simp
  · simp only
    obtain ⟨k, hk⟩ := hd
    have h2 := Nat.dvd_of_mod_eq_zero h.2
    obtain ⟨m, hm⟩ := h2
    rw [hm] at h1 h ⊢
    refine ⟨?_, by simp [← Nat.mul_succ]⟩
    have h32 : b.width * m < b.width * k := by omega
    have : m < k := Nat.lt_of_mul_lt_mul_left h32
    have h4 : b.width * (m + 1) ≤ b.width * k := Nat.mul_le_mul_left _ this
    have h5 : b.width * (m+1) = b.width * m + b.width := Nat.mul_succ _ _
    omega

/-- So does a list of words. -/
theorem bwWriteWords_ok (b : Base) (hs : b.strings = false) (hv : b.variant? = none) (xs : List U64) (r : BwRegs)
    (h : bwOk b r.nbits = true) : bwOk b (bwWriteWords b.width r xs).1.nbits = true := by
  induction xs generalizing r with
  | nil => exact h
  | cons x xs ih => exact ih _ (bwWriteWord_ok b hs hv r x h)

/-- So does the commit flush. -/
theorem bwFlush_ok (b : Base) (r : BwRegs) (h : bwOk b r.nbits = true) : bwOk b (bwFlush r).1.nbits = true := by
  unfold bwFlush
  split
  · simp [bwOk]
  · exact h

/-! ## Transform stages -/
theorem tableSet_ok (h : Nat) (t : List (Nat × U64)) (i : Nat) (x : U64) (hi : i < 2 ^ h) (ht : tableOk h t = true) :
    tableOk h (tableSet t i x) = true := by
  have key : ∀ t : List (Nat × U64), tableOk h t = true →
      tableOk h (tableSet t i x) = true ∧ ∀ e ∈ tableSet t i x, e.1 = i ∨ ∃ e' ∈ t, e'.1 = e.1 := by
    intro t
    induction t with
    | nil =>
      intro _
      unfold tableSet
      split
      · simp [tableOk]
      · rename_i h0
        simp only [tableOk, List.all_cons, List.all_nil, Bool.and_true, Bool.and_eq_true, decide_eq_true_eq, bne_iff_ne]
        exact ⟨⟨⟨hi, h0⟩, by simp⟩, by simp⟩
    | cons e rest ih =>
      intro ht
      obtain ⟨j, y⟩ := e
      simp only [tableOk, List.all_cons, Bool.and_eq_true, decide_eq_true_eq, List.map_cons, List.pairwise_cons,
        bne_iff_ne] at ht ih ⊢
      have ih := ih ⟨ht.1.2, ht.2.2⟩
      unfold tableSet
      by_cases h1 : i = j
      · subst h1
        simp only [if_true]
        split
        · exact ⟨⟨ht.1.2, ht.2.2⟩, fun e he => .inr ⟨e, by simp [he], rfl⟩⟩
        · refine ⟨⟨?_, ?_⟩, ?_⟩
          · simp only [List.all_cons, Bool.and_eq_true, decide_eq_true_eq, bne_iff_ne]
            exact ⟨⟨hi, ‹_›⟩, ht.1.2⟩
          · simpa using ht.2
          · intro e he
            rcases List.mem_cons.mp he with rfl | he
            · exact .inl rfl
            · exact .inr ⟨e, by simp [he], rfl⟩
      · simp only [h1, if_false]
        by_cases h2 : i < j
        · simp only [h2, if_true]
          split
          · refine ⟨⟨?_, ?_⟩, ?_⟩
            · simp only [List.all_cons, Bool.and_eq_true, decide_eq_true_eq, bne_iff_ne]
              exact ht.1
            · simpa using ht.2
            · exact fun e he => .inr ⟨e, he, rfl⟩
          · refine ⟨⟨?_, ?_⟩, ?_⟩
            · simp only [List.all_cons, Bool.and_eq_true, decide_eq_true_eq, bne_iff_ne]
              exact ⟨⟨hi, ‹_›⟩, ht.1⟩
            · simp only [List.map_cons, List.pairwise_cons]
              refine ⟨?_, ht.2⟩
              intro a ha
              rcases List.mem_cons.mp ha with rfl | ha
              · exact h2
              · exact lt_trans h2 (ht.2.1 a ha)
            · intro e he
              rcases List.mem_cons.mp he with rfl | he
              · exact .inl rfl
              · exact .inr ⟨e, he, rfl⟩
        · simp only [h2, if_false]
          refine ⟨⟨?_, ?_⟩, ?_⟩
          · simp only [List.all_cons, Bool.and_eq_true, decide_eq_true_eq, bne_iff_ne]
            exact ⟨ht.1.1, ih.1.1⟩
          · simp only [List.map_cons, List.pairwise_cons]
            refine ⟨?_, ih.1.2⟩
            intro a ha
            obtain ⟨e, he, rfl⟩ := List.mem_map.mp ha
            rcases ih.2 e he with q | ⟨e', he', q⟩
            · omega
            · rw [← q]; exact ht.2.1 _ (List.mem_map.mpr ⟨e', he', rfl⟩)
          · intro e he
            rcases List.mem_cons.mp he with rfl | he
            · exact .inr ⟨(j, y), by simp, rfl⟩
            · rcases ih.2 e he with q | ⟨e', he', q⟩
              · exact .inl q
              · exact .inr ⟨e', by simp [he'], q⟩
  exact (key t ht).1

/-- A DFCM update keeps the ranges. -/
theorem dfcmUpdate_ok (w h : Nat) (r : DfcmRegs) (x : U64) (hr : stageOk h (.dfcm r) = true) :
    stageOk h (.dfcm (dfcmUpdate w h r x)) = true := by
  simp only [stageOk, Bool.and_eq_true, decide_eq_true_eq, dfcmUpdate] at hr ⊢
  exact ⟨decide_eq_true (Nat.mod_lt _ (Nat.two_pow_pos h)), tableSet_ok h _ _ _ hr.1 hr.2⟩

/-- A frame emitted leaves the writer registers in range. -/
theorem ddEmit_ok (w : Nat) (r : DdRegs) (m h : Nat) (hr : r.fp < 16) :
    stageOk h (.dd (ddEmitFrame w r m).1) = true := by
  simp [stageOk, ddEmitFrame, ddFrameReset, hr]

/-- One word through a stage keeps its ranges and its kind. -/
theorem stageWrite_ok (w h : Nat) (st : StageRegs) (x : U64) (hs : stageOk h st = true) :
    stageOk h (stageWrite w h st x).1 = true ∧ (stageWrite w h st x).1.kind = st.kind := by
  cases st with
  | xor p => simp [stageWrite, stageOk, StageRegs.kind]
  | dfcm r => exact ⟨dfcmUpdate_ok w h r x hs, rfl⟩
  | dd r =>
    refine ⟨?_, rfl⟩
    simp only [stageWrite, ddWrite]
    simp only [stageOk, Bool.and_eq_true, decide_eq_true_eq, beq_iff_eq] at hs
    split
    · exact ddEmit_ok _ _ _ _ hs.2
    · simp only [stageOk, Bool.and_eq_true, decide_eq_true_eq, beq_iff_eq, List.length_set]
      rename_i hne
      exact ⟨⟨by omega, hs.1.2⟩, hs.2⟩

/-- So does a list of words. -/
theorem stageWrites_ok (w h : Nat) (xs : List U64) (st : StageRegs) (hs : stageOk h st = true) :
    stageOk h (stageWrites w h st xs).1 = true ∧ (stageWrites w h st xs).1.kind = st.kind := by
  induction xs generalizing st with
  | nil => exact ⟨hs, rfl⟩
  | cons x xs ih =>
    have a := stageWrite_ok w h st x hs
    have b := ih _ a.1
    exact ⟨b.1, b.2.trans a.2⟩

/-- So does the commit flush of a stage. -/
theorem stageFlush_ok (w h : Nat) (st : StageRegs) (hs : stageOk h st = true) :
    stageOk h (stageFlush w st).1 = true ∧ (stageFlush w st).1.kind = st.kind := by
  cases st with
  | xor p => exact ⟨hs, rfl⟩
  | dfcm r => exact ⟨hs, rfl⟩
  | dd r =>
    refine ⟨?_, rfl⟩
    simp only [stageFlush, ddFlush]
    split
    · simp only [stageOk, Bool.and_eq_true, decide_eq_true_eq] at hs
      exact ddEmit_ok _ _ _ _ hs.2
    · exact hs

/-- Words through the stack keep the ranges and the kinds. -/
theorem pushWords_ok (w h : Nat) (sts : List StageRegs) (ws : List U64) (hs : sts.all (stageOk h) = true) :
    (pushWords w h sts ws).1.all (stageOk h) = true ∧
      (pushWords w h sts ws).1.map StageRegs.kind = sts.map StageRegs.kind := by
  induction sts generalizing ws with
  | nil => simp [pushWords]
  | cons st rest ih =>
    simp only [List.all_cons, Bool.and_eq_true] at hs
    have a := stageWrites_ok w h ws st hs.1
    have b := ih (stageWrites w h st ws).2 hs.2
    simp [pushWords, a, b]

/-- So does the commit flush of the stack. -/
theorem flushStages_ok (w h : Nat) (sts : List StageRegs) (ws : List U64) (hs : sts.all (stageOk h) = true) :
    (flushStages w h sts ws).1.all (stageOk h) = true ∧
      (flushStages w h sts ws).1.map StageRegs.kind = sts.map StageRegs.kind := by
  induction sts generalizing ws with
  | nil => simp [flushStages]
  | cons st rest ih =>
    simp only [List.all_cons, Bool.and_eq_true] at hs
    have a := stageWrites_ok w h ws st hs.1
    have f := stageFlush_ok w h _ a.1
    have b := ih ((stageWrites w h st ws).2 ++ (stageFlush w (stageWrites w h st ws).1).2) hs.2
    simp [flushStages, f, b, a]

/-- The ranges of the working registers other than STAGE. -/
def Work.coreOk (h : Nat) (cfg : Cfg) (k : Work) : Prop :=
  (∀ v, flagVariant cfg.base = some v → fbwOk v k.fbw = true ∧ carryOk v k.carry = true) ∧
  (cfg.base.strings = false → cfg.base.variant? = none → bwOk cfg.base k.bwNbits = true) ∧
  k.xf.map StageRegs.kind = cfg.xforms ∧ k.xf.all (stageOk h) = true

/-- The ranges of the working registers: STAGE, and the rest. -/
theorem Work.ok_iff (p : Params) (cfg : Cfg) (k : Work) :
    k.ok p cfg = true ↔ k.stage.data.length < p.stageBytes ∧ k.stage.lens.length < p.stageBytes ∧
      k.coreOk p.dfcmBits cfg := by
  unfold Work.ok Work.coreOk
  simp only [Bool.and_eq_true, decide_eq_true_eq, Bool.or_eq_true, beq_iff_eq, Option.isSome_iff_ne_none]
  constructor
  · rintro ⟨⟨⟨⟨⟨a, b⟩, c⟩, d⟩, e⟩, f⟩
    refine ⟨a, b, ?_, ?_, e, f⟩
    · intro v hv
      rw [hv] at c
      simpa using c
    · intro h1 h2
      rcases d with (d | d) | d
      · simp [h1] at d
      · exact absurd h2 d
      · exact d
  · rintro ⟨a, b, c, d, e, f⟩
    refine ⟨⟨⟨⟨⟨a, b⟩, ?_⟩, ?_⟩, e⟩, f⟩
    · cases hv : flagVariant cfg.base with
      | none => rfl
      | some v => simpa using c v hv
    · by_cases h1 : cfg.base.strings = true
      · exact .inl (.inl h1)
      · by_cases h2 : cfg.base.variant? = none
        · exact .inr (d (by simpa using h1) h2)
        · exact .inl (.inr h2)

/-- A flag-byte base decodes its own variant. -/
theorem flagVariant_of_variant? {b : Base} {v : Variant} (h : b.variant? = some v) : flagVariant b = some v := by
  cases b <;> simp_all [flagVariant, Base.variant?]

/-- Words written to a numeric base keep the ranges, and STAGE is not touched. -/
theorem baseWrite_core (h : Nat) (cfg : Cfg) (k : Work) (ws : List U64) (hk : k.coreOk h cfg) :
    (baseWrite cfg.base k ws).1.coreOk h cfg ∧ (baseWrite cfg.base k ws).1.stage = k.stage := by
  obtain ⟨a, b, c, d⟩ := hk
  unfold baseWrite
  cases hv : cfg.base.variant? with
  | some v =>
    refine ⟨⟨?_, ?_, c, d⟩, rfl⟩
    · intro v' hv'
      have := flagVariant_of_variant? hv
      rw [this] at hv'
      cases hv'
      exact ⟨fbWriteWords_ok v ws _ (a v this).1, (a v this).2⟩
    · intro _ h2
      rw [hv] at h2; cases h2
  | none =>
    refine ⟨⟨a, ?_, c, d⟩, rfl⟩
    intro h1 h2
    exact bwWriteWords_ok cfg.base h1 h2 ws { acc := k.bwAcc, nbits := k.bwNbits } (b h1 h2)

/-- One item through the write path keeps the ranges; STAGE is written by the output path only. -/
theorem writeItem_core (p : Params) (cfg : Cfg) (k : Work) (x : Item) (hk : k.coreOk p.dfcmBits cfg) :
    (writeItem p cfg k x).1.coreOk p.dfcmBits cfg ∧ (writeItem p cfg k x).1.stage = k.stage := by
  obtain ⟨a, b, c, d⟩ := hk
  cases x with
  | num v =>
    have t := pushWords_ok cfg.base.width p.dfcmBits k.xf [trunc cfg.base.width v] d
    exact baseWrite_core p.dfcmBits cfg _ _ ⟨a, b, t.2.trans c, t.1⟩
  | str s =>
    simp only [writeItem]
    split
    · rename_i hv
      refine ⟨⟨?_, ?_, c, d⟩, rfl⟩
      · intro v' hv'
        have h1 : flagVariant cfg.base = some .fb64lsb := by simp [flagVariant, hv]
        rw [h1] at hv'; cases hv'
        exact ⟨fbWriteWord_ok _ _ _ (a _ h1).1, (a _ h1).2⟩
      · intro h1; simp [hv, Base.strings] at h1
    · exact ⟨⟨a, b, c, d⟩, rfl⟩

/-- So does a list of items. -/
theorem writeItems_core (p : Params) (cfg : Cfg) (xs : List Item) (k : Work) (hk : k.coreOk p.dfcmBits cfg) :
    (writeItems p cfg k xs).1.coreOk p.dfcmBits cfg ∧ (writeItems p cfg k xs).1.stage = k.stage := by
  induction xs generalizing k with
  | nil => exact ⟨hk, rfl⟩
  | cons x xs ih =>
    have a := writeItem_core p cfg k x hk
    have b := ih _ a.1
    exact ⟨b.1, b.2.trans a.2⟩

/-- So does the commit flush. -/
theorem commitFlush_core (p : Params) (cfg : Cfg) (k : Work) (hk : k.coreOk p.dfcmBits cfg) :
    (commitFlush p cfg k).1.coreOk p.dfcmBits cfg ∧ (commitFlush p cfg k).1.stage = k.stage := by
  have h1 : (stagesFlush p cfg k).1.coreOk p.dfcmBits cfg ∧ (stagesFlush p cfg k).1.stage = k.stage := by
    unfold stagesFlush
    split
    · exact ⟨hk, rfl⟩
    · rename_i hs
      obtain ⟨a, b, c, d⟩ := hk
      have t := flushStages_ok cfg.base.width p.dfcmBits k.xf [] d
      exact baseWrite_core p.dfcmBits cfg _ _ ⟨a, b, t.2.trans c, t.1⟩
  have h2 : ∀ k : Work, k.coreOk p.dfcmBits cfg →
      (baseFlush cfg.base k).1.coreOk p.dfcmBits cfg ∧ (baseFlush cfg.base k).1.stage = k.stage := by
    rintro k ⟨a, b, c, d⟩
    unfold baseFlush
    cases hv : cfg.base.variant? with
    | some v =>
      refine ⟨⟨?_, ?_, c, d⟩, rfl⟩
      · intro v' hv'
        rw [flagVariant_of_variant? hv] at hv'
        cases hv'
        exact ⟨fbFlush_ok v _, (a v (flagVariant_of_variant? hv)).2⟩
      · intro _ h2; rw [hv] at h2; cases h2
    | none =>
      simp only
      split
      · rename_i hb
        refine ⟨⟨?_, ?_, c, d⟩, rfl⟩
        · intro v' hv'
          have h1 : flagVariant cfg.base = some .fb64lsb := by simp [flagVariant, hb]
          rw [h1] at hv'; cases hv'
          exact ⟨fbFlush_ok _ _, (a _ h1).2⟩
        · intro h1; simp [hb, Base.strings] at h1
      · split
        · exact ⟨⟨a, b, c, d⟩, rfl⟩
        · refine ⟨⟨a, ?_, c, d⟩, rfl⟩
          intro h1 h2
          exact bwFlush_ok cfg.base { acc := k.bwAcc, nbits := k.bwNbits } (b h1 h2)
  have := h2 _ h1.1
  exact ⟨this.1, this.2.trans h1.2⟩

/-! ## The read path -/

theorem runLength_range (v : Variant) (f : Byte) (h : flagKind v f = .rle) :
    1 ≤ runLength v f ∧ runLength v f ≤ Variant.maxRun v := by
  revert f
  cases v <;> decide

/-- What FBReadWord changes: RD_CUR and the carry, the carry within its range. -/
theorem fbReadWord_core (v : Variant) (sl : Slot) (ch : List Byte) (w : Work) (h : carryOk v w.carry = true) :
    carryOk v (fbReadWord v sl ch w).2.carry = true ∧ (fbReadWord v sl ch w).2.fbw = w.fbw ∧
    (fbReadWord v sl ch w).2.stage = w.stage ∧ (fbReadWord v sl ch w).2.bwNbits = w.bwNbits ∧
    (fbReadWord v sl ch w).2.xf = w.xf := by
  have hm : 1 < Variant.maxRun v := by cases v <;> decide
  simp only [carryOk, Bool.and_eq_true, decide_eq_true_eq] at h ⊢
  unfold fbReadWord
  split
  · simp; omega
  · split
    · simp; omega
    · cases hd : decodeUnitAt v ch (w.cur.get sl).toNat with
      | none => simp; omega
      | some r =>
        cases r with
        | corrupt => simp; omega
        | words len ws =>
          cases ws with
          | one a => simp [applyUnit]; try omega
          | two a b => simp [applyUnit]; try omega
          | zeros r =>
            have hr : 1 ≤ r ∧ r ≤ Variant.maxRun v := by
              unfold decodeUnitAt at hd
              split at hd
              · cases hd
              · rename_i f hf
                simp only [Option.some.injEq] at hd
                unfold unitBody at hd
                split at hd
                · rename_i hk
                  simp only [rleBody, UnitResult.words.injEq, UnitWords.zeros.injEq] at hd
                  rw [← hd.2]
                  exact runLength_range v f hk
                · unfold singleBody at hd
                  simp only at hd
                  split at hd <;> simp at hd
                · unfold pairBody at hd
                  simp only at hd
                  split at hd <;> simp at hd
                · simp [reservedBody] at hd
            simp [applyUnit]; omega

/-- What BWReadWord changes: BW_RIDX. -/
theorem bwReadWord_core (b : Nat) (ch : List Byte) (w : Work) :
    (bwReadWord b ch w).2.carry = w.carry ∧ (bwReadWord b ch w).2.fbw = w.fbw ∧
    (bwReadWord b ch w).2.stage = w.stage ∧ (bwReadWord b ch w).2.bwNbits = w.bwNbits ∧
    (bwReadWord b ch w).2.xf = w.xf := by
  unfold bwReadWord
  split <;> simp

/-- One word read from a numeric base keeps the ranges. -/
theorem baseRead_core (h : Nat) (cfg : Cfg) (ch : List Byte) (k : Work) (hk : k.coreOk h cfg) :
    (baseRead cfg.base ch k).2.coreOk h cfg ∧ (baseRead cfg.base ch k).2.stage = k.stage ∧
      (baseRead cfg.base ch k).2.xf = k.xf := by
  obtain ⟨a, b, c, d⟩ := hk
  unfold baseRead
  cases hv : cfg.base.variant? with
  | some v =>
    have hf := flagVariant_of_variant? hv
    obtain ⟨r1, r2, r3, r4, r5⟩ := fbReadWord_core v .data ch k (a v hf).2
    refine ⟨⟨?_, ?_, by simpa [r5] using c, by simpa [r5] using d⟩, r3, r5⟩
    · intro v' hv'
      rw [hf] at hv'; cases hv'
      exact ⟨by simpa [r2] using (a v hf).1, r1⟩
    · intro h1 h2; rw [hv] at h2; cases h2
  | none =>
    obtain ⟨r1, r2, r3, r4, r5⟩ := bwReadWord_core cfg.base.width ch k
    refine ⟨⟨?_, ?_, by simpa [r5] using c, by simpa [r5] using d⟩, r3, r5⟩
    · intro v' hv'
      simpa [r1, r2] using a v' hv'
    · intro h1 h2; simpa [r4] using b h1 h2

/-- An accepted delta keeps the ranges of a DD reader stage. -/
theorem ddAccept_ok (w h : Nat) (r : DdRegs) (e : U64) (hr : stageOk h (.dd r) = true) :
    stageOk h (.dd (ddAccept w r e).2) = true := by
  simp only [stageOk, Bool.and_eq_true, decide_eq_true_eq] at hr
  have h2 : (ddAccept w r e).2.fp < 16 := by
    have := hr.2
    simp only [ddAccept]
    split <;> omega
  simp only [stageOk, Bool.and_eq_true, decide_eq_true_eq]
  exact ⟨hr.1, h2⟩

/-- The reader word step of a stage keeps its ranges and its kind, and any property that the pull below keeps. -/
theorem stageRead_ok {κ : Type} (P : κ → Prop) (w h : Nat) (pull : κ → Got U64 × κ) (lone : κ → U64)
    (hp : ∀ k, P k → P (pull k).2) (st : StageRegs) (k : κ) (hk : P k) (hs : stageOk h st = true) :
    P (stageRead w h pull lone st k).2.2 ∧ stageOk h (stageRead w h pull lone st k).2.1 = true ∧
      (stageRead w h pull lone st k).2.1.kind = st.kind := by
  have h1 := hp k hk
  cases st with
  | xor p =>
    simp only [stageRead]
    split <;> rename_i he <;> rw [he] at h1 <;> simp [h1, stageOk, StageRegs.kind]
  | dfcm r =>
    simp only [stageRead]
    split <;> rename_i he <;> rw [he] at h1 <;>
      first | exact ⟨h1, hs, rfl⟩ | exact ⟨h1, dfcmUpdate_ok w h r _ hs, rfl⟩
  | dd r =>
    simp only [stageRead]
    split
    · split
      · rename_i m k' he
        rw [he] at h1
        have h2 := hp k' h1
        have hs' : stageOk h (.dd { r with min := m }) = true := hs
        split <;> rename_i he2 <;> rw [he2] at h2 <;>
          first | exact ⟨h2, hs', rfl⟩ | exact ⟨h2, ddAccept_ok w h _ _ hs', rfl⟩
      · rename_i he; rw [he] at h1; exact ⟨h1, hs, rfl⟩
      · rename_i he; rw [he] at h1; exact ⟨h1, hs, rfl⟩
    · split <;> rename_i he <;> rw [he] at h1 <;>
        first | exact ⟨h1, hs, rfl⟩ | exact ⟨h1, ddAccept_ok w h _ _ hs, rfl⟩

/-- One word through the stack keeps a property of the base and the ranges and kinds of the stages. -/
theorem pullStage_ok (P : Work → Prop) (w h : Nat) (base : Work → Got U64 × Work)
    (hp : ∀ k, P k → P (base k).2) (n : Nat) (sts : List StageRegs) (k : Work) (hk : P k)
    (hs : sts.all (stageOk h) = true) :
    P (pullStage w h base n (sts, k)).2.2 ∧ (pullStage w h base n (sts, k)).2.1.all (stageOk h) = true ∧
      (pullStage w h base n (sts, k)).2.1.map StageRegs.kind = sts.map StageRegs.kind := by
  induction n generalizing sts k with
  | zero => simpa [pullStage, hs] using hp k hk
  | succ n ih =>
    cases sts with
    | nil => simpa [pullStage] using hp k hk
    | cons st rest =>
      simp only [List.all_cons, Bool.and_eq_true] at hs
      have := stageRead_ok (κ := List StageRegs × Work)
        (fun q => P q.2 ∧ q.1.all (stageOk h) = true ∧ q.1.map StageRegs.kind = rest.map StageRegs.kind) w h
        (pullStage w h base n) (fun x => x.2.cur.get .data)
        (fun q hq => by
          obtain ⟨a, b, c⟩ := hq
          have := ih q.1 q.2 a b
          exact ⟨this.1, this.2.1, this.2.2.trans c⟩)
        st (rest, k) ⟨hk, hs.2, rfl⟩ hs.1
      obtain ⟨⟨a, b, c⟩, d, e⟩ := this
      simp only [pullStage]
      refine ⟨a, ?_, ?_⟩
      · simp only [List.all_cons, Bool.and_eq_true]
        exact ⟨d, b⟩
      · simp only [List.map_cons, e, c]

/-- One item pulled keeps the ranges and STAGE. -/
theorem pullItem_core (p : Params) (cfg : Cfg) (chs : PerSlot (List Byte)) (k : Work) (hk : k.coreOk p.dfcmBits cfg) :
    (pullItem p cfg.base chs k).2.coreOk p.dfcmBits cfg ∧ (pullItem p cfg.base chs k).2.stage = k.stage := by
  unfold pullItem
  split
  · rename_i hb
    have : ∀ (c : PerSlot U64), ({ k with cur := c } : Work).coreOk p.dfcmBits cfg := fun c => hk
    unfold variReadItem
    simp only
    split
    · exact ⟨hk, rfl⟩
    · split
      · exact ⟨hk, rfl⟩
      · split
        · exact ⟨hk, rfl⟩
        · split
          · exact ⟨hk, rfl⟩
          · exact ⟨this _, rfl⟩
  · split
    · rename_i hb
      obtain ⟨a, b, c, d⟩ := hk
      have hf : flagVariant cfg.base = some .fb64lsb := by simp [flagVariant, hb]
      have := fbReadWord_core .fb64lsb .lens chs.lens k (a _ hf).2
      have hc : (fbReadWord .fb64lsb .lens chs.lens k).2.coreOk p.dfcmBits cfg := by
        obtain ⟨r1, r2, r3, r4, r5⟩ := this
        refine ⟨?_, ?_, by simpa [r5] using c, by simpa [r5] using d⟩
        · intro v' hv'
          rw [hf] at hv'; cases hv'
          exact ⟨by simpa [r2] using (a _ hf).1, r1⟩
        · intro h1; simp [hb, Base.strings] at h1
      unfold vardReadItem
      split
      · rename_i he; rw [he] at hc this; exact ⟨hc, this.2.2.1⟩
      · rename_i he; rw [he] at hc this; exact ⟨hc, this.2.2.1⟩
      · rename_i he; rw [he] at hc this
        simp only
        split
        · exact ⟨hc, this.2.2.1⟩
        · exact ⟨hc, this.2.2.1⟩
    · obtain ⟨a, b, c, d⟩ := hk
      have := pullStage_ok (fun w => ({ w with xf := k.xf } : Work).coreOk p.dfcmBits cfg ∧ w.stage = k.stage)
        cfg.base.width p.dfcmBits (baseRead cfg.base chs.data) (by
          rintro w ⟨hw, hst⟩
          have key := baseRead_core p.dfcmBits cfg chs.data { w with xf := k.xf } hw
          have e : baseRead cfg.base chs.data { w with xf := k.xf } =
              ((baseRead cfg.base chs.data w).1, { (baseRead cfg.base chs.data w).2 with xf := k.xf }) := by
            unfold baseRead
            cases cfg.base.variant? with
            | none =>
              simp only [bwReadWord]
              split <;> rfl
            | some v =>
              simp only [fbReadWord]
              split
              · rfl
              · split
                · rfl
                · cases decodeUnitAt v chs.data (w.cur.get .data).toNat with
                  | none => rfl
                  | some r =>
                    cases r with
                    | corrupt => rfl
                    | words len ws => cases ws <;> rfl
          rw [e] at key
          exact ⟨key.1, key.2.1.trans hst⟩)
        k.xf.length k.xf k ⟨⟨a, b, c, d⟩, rfl⟩ d
      obtain ⟨⟨⟨a', b', _, _⟩, s'⟩, d', c'⟩ := this
      exact ⟨⟨a', b', c'.trans c, d'⟩, s'⟩

/-- ReadItem keeps the ranges and STAGE. -/
theorem readItem_core (p : Params) (cfg : Cfg) (chs : PerSlot (List Byte)) (r : Reading)
    (hk : r.work.coreOk p.dfcmBits cfg) :
    (readItem p cfg chs r).2.work.coreOk p.dfcmBits cfg ∧ (readItem p cfg chs r).2.work.stage = r.work.stage := by
  unfold readItem
  split
  · exact ⟨hk, rfl⟩
  · have := pullItem_core p cfg chs r.work hk
    split <;> rename_i he <;> rw [he] at this <;> exact this

/-- So does a run of reads. -/
theorem readItems_core (p : Params) (cfg : Cfg) (chs : PerSlot (List Byte)) (n : Nat) (r : Reading)
    (hk : r.work.coreOk p.dfcmBits cfg) :
    (readItems p cfg chs n r).2.2.work.coreOk p.dfcmBits cfg ∧
      (readItems p cfg chs n r).2.2.work.stage = r.work.stage := by
  induction n generalizing r with
  | zero => exact ⟨hk, rfl⟩
  | succ n ih =>
    have := readItem_core p cfg chs r hk
    unfold readItems
    split <;> rename_i he <;> rw [he] at this
    · have b := ih _ this.1
      exact ⟨b.1, b.2.trans this.2⟩
    · exact this
    · exact this

/-- The reset registers are in range. -/
theorem Work.reset_core (h : Nat) (cfg : Cfg) : (Work.reset cfg).coreOk h cfg := by
  refine ⟨?_, ?_, ?_, ?_⟩
  · intro v _
    cases v <;> simp [Work.reset, FbwRegs.reset, fbwOk, carryOk, Variant.maxRun]
  · intro h1 h2
    simp [Work.reset, bwOk]
  · simp only [Work.reset, List.map_map]
    conv_rhs => rw [← List.map_id cfg.xforms]
    apply List.map_congr_left
    intro t _
    cases t <;> rfl
  · simp only [Work.reset, List.all_map, List.all_eq_true]
    intro t _
    cases t <;> simp [StageRegs.reset, stageOk, DdRegs.reset, ddFrameReset, DfcmRegs.reset, tableOk]

end Sys2Proof.Machine
end

