-- ==== Sys2Proof/Laws/Invariant.lean ====
section
/-! SUPPORT. The invariant of every run (`State.Inv`) as its parts, and each shared operation keeps it. -/

namespace Sys2Proof.Machine

/-! ## Instances in a later state -/

/-- A later state: the same parameters, and every channel that existed exists. -/
def Ext (s t : State) : Prop :=
  t.params = s.params ∧ ∀ c, (s.mem.get c).isSome = true → (t.mem.get c).isSome = true

/-- Every state extends itself. -/
theorem Ext.refl (s : State) : Ext s s := ⟨rfl, fun _ h => h⟩

/-- A slot has a channel when it is bound to an existing one. -/
theorem boundChan_isSome (s : State) (x : Instance) (sl : Slot) :
    (s.boundChan x sl).isSome = true ↔ ∃ b, x.bind.get sl = some b ∧ (s.mem.get b.chan).isSome = true := by
  unfold State.boundChan
  cases x.bind.get sl <;> simp

/-- Bound slots stay bound in a later state. -/
theorem bound_ext {s t : State} (h : Ext s t) {x : Instance} (hb : s.bound x = true) : t.bound x = true := by
  unfold State.bound at *
  rw [List.all_eq_true] at *
  intro sl hsl
  obtain ⟨b, h1, h2⟩ := (boundChan_isSome s x sl).mp (hb sl hsl)
  exact (boundChan_isSome t x sl).mpr ⟨b, h1, h.2 _ h2⟩

/-- Legal bindings stay legal in a later state. -/
theorem bindingOk_ext {s t : State} (h : Ext s t) {x : Instance} (hb : bindingOk s x = true) :
    bindingOk t x = true := by
  unfold bindingOk at *
  simp only [Bool.and_eq_true] at *
  exact ⟨bound_ext h hb.1, hb.2⟩

/-- What the invariant says of an initialised instance. -/
theorem ok_running {s : State} {x : Instance} (h1 : x.life ≠ .faulted) (h2 : x.life ≠ .uninit) :
    Instance.ok s x = true ↔ x.cfg.ok = true ∧ lifeOk x.cfg.role x.life = true ∧ x.fault = FaultRec.reset ∧
      bindingOk s x = true ∧ x.work.ok s.params x.cfg = true := by
  unfold Instance.ok
  cases hl : x.life <;> simp_all [and_assoc]

/-- What the invariant says of an instance in UNINIT. -/
theorem ok_uninit {s : State} {x : Instance} (h2 : x.life = .uninit) :
    Instance.ok s x = true ↔ x.cfg.ok = true ∧ lifeOk x.cfg.role .uninit = true ∧ x = Instance.fresh x.cfg := by
  unfold Instance.ok
  simp [h2, and_assoc]

/-- What the invariant says of an instance in FAULTED. -/
theorem ok_faulted {s : State} {x : Instance} (h2 : x.life = .faulted) :
    Instance.ok s x = true ↔ x.cfg.ok = true ∧ lifeOk x.cfg.role .faulted = true ∧ x.fault.code ≠ 0 := by
  unfold Instance.ok
  simp [h2, and_assoc]

/-- Every instance has a legal configuration. -/
theorem ok_cfg {s : State} {x : Instance} (h : Instance.ok s x = true) : x.cfg.ok = true := by
  unfold Instance.ok at h
  simp only [Bool.and_eq_true] at h
  exact h.1.1

/-- The fault record is the reset record outside FAULTED. -/
theorem ok_fault {s : State} {x : Instance} (h : Instance.ok s x = true) (hl : x.life ≠ .faulted) :
    x.fault = FaultRec.reset := by
  by_cases hu : x.life = .uninit
  · have := ((ok_uninit hu).mp h).2.2
    rw [this]; rfl
  · exact ((ok_running hl hu).mp h).2.2.1

/-- An instance stays legal in a later state. -/
theorem ok_ext {s t : State} (h : Ext s t) {x : Instance} (hx : Instance.ok s x = true) : Instance.ok t x = true := by
  by_cases h1 : x.life = .faulted
  · exact (ok_faulted h1).mpr ((ok_faulted h1).mp hx)
  · by_cases h2 : x.life = .uninit
    · exact (ok_uninit h2).mpr ((ok_uninit h2).mp hx)
    · have := (ok_running h1 h2).mp hx
      refine (ok_running h1 h2).mpr ⟨this.1, this.2.1, this.2.2.1, bindingOk_ext h this.2.2.2.1, ?_⟩
      rw [h.1]; exact this.2.2.2.2

/-- A listed channel is the one its id names. -/
theorem get_of_mem {m : Memory} (hw : m.wf) {c : Channel} (h : c ∈ m.chans) : m.get c.id = some c := by
  obtain ⟨l⟩ := m
  simp only [Memory.wf, Memory.get] at *
  induction l with
  | nil => simp at h
  | cons d ds ih =>
    simp only [List.map_cons, List.pairwise_cons] at hw
    rcases List.mem_cons.mp h with rfl | h
    · simp
    · have := hw.1 c.id.toNat (List.mem_map.mpr ⟨c, h, rfl⟩)
      have hne : d.id ≠ c.id := by intro e; rw [e] at this; omega
      rw [List.find?_cons_of_neg (by simpa using hne)]
      exact ih hw.2 h

/-! ## The invariant -/

/-- The parts of `State.Inv`. -/
structure IsInv (s : State) : Prop where
  legal : s.params.legal = true
  wf : s.mem.wf
  lens : ∀ c ch, s.mem.get c = some ch → ch.bytes.length ≤ s.params.channelMax
  count : s.insts.length ≤ s.params.maxInstances
  oks : ∀ x ∈ s.insts, Instance.ok s x = true
  port : ∀ p, s.unitPort = some p → readingOp p.op = true

/-- The invariant as its parts. -/
theorem inv_iff (s : State) : s.Inv = true ↔ IsInv s := by
  unfold State.Inv
  simp only [Bool.and_eq_true, decide_eq_true_eq, List.all_eq_true]
  constructor
  · rintro ⟨⟨⟨⟨⟨a, b⟩, c⟩, d⟩, e⟩, f⟩
    refine ⟨a, b, fun i ch h => c ch (Memory.get_mem h), d, e, fun p hp => by rw [hp] at f; exact f⟩
  · rintro ⟨a, b, c, d, e, f⟩
    refine ⟨⟨⟨⟨⟨a, b⟩, fun ch h => c _ ch (get_of_mem b h)⟩, d⟩, e⟩, ?_⟩
    cases hp : s.unitPort with
    | none => rfl
    | some p => exact f p hp

/-- STAGE_BYTES is at least 1. -/
theorem stageBytes_pos {s : State} (h : IsInv s) : 1 ≤ s.params.stageBytes := by
  have := h.legal
  simp only [Params.legal, Bool.and_eq_true, decide_eq_true_eq] at this
  omega

/-- One instance replaced and the channels changed within CHANNEL_MAX. -/
theorem IsInv.set {s t : State} (h : IsInv s) (he : Ext s t) (hw : t.mem.wf)
    (hl : ∀ c ch, t.mem.get c = some ch → ch.bytes.length ≤ s.params.channelMax)
    (i : Nat) (y : Instance) (hi : t.insts = s.insts.set i y) (hy : Instance.ok t y = true)
    (hp : ∀ p, t.unitPort = some p → readingOp p.op = true) : IsInv t where
  legal := by rw [he.1]; exact h.legal
  wf := hw
  lens := by rw [he.1]; exact hl
  count := by rw [he.1, hi, List.length_set]; exact h.count
  oks := by
    intro x hx
    rw [hi] at hx
    rcases List.mem_or_eq_of_mem_set hx with hx | rfl
    · exact ok_ext he (h.oks x hx)
    · exact hy
  port := hp

/-- The channels changed within CHANNEL_MAX, no instance. -/
theorem IsInv.same {s t : State} (h : IsInv s) (he : Ext s t) (hw : t.mem.wf)
    (hl : ∀ c ch, t.mem.get c = some ch → ch.bytes.length ≤ s.params.channelMax)
    (hi : t.insts = s.insts)
    (hp : ∀ p, t.unitPort = some p → readingOp p.op = true) : IsInv t where
  legal := by rw [he.1]; exact h.legal
  wf := hw
  lens := by rw [he.1]; exact hl
  count := by rw [he.1, hi]; exact h.count
  oks := by
    intro x hx
    rw [hi] at hx
    exact ok_ext he (h.oks x hx)
  port := hp

/-- A result keeps the invariant. -/
theorem IsInv.reply {s : State} (h : IsInv s) (st : Status) (ws : List U64) : IsInv (s.reply st ws) :=
  h.same ⟨rfl, fun _ h => h⟩ h.wf h.lens rfl h.port

/-- A legal instance put in the place of one keeps it. -/
theorem IsInv.setInst {s : State} (h : IsInv s) (id : U16) (y : Instance) (hy : Instance.ok s y = true) :
    IsInv (s.setInst id y) :=
  h.set ⟨rfl, fun _ h => h⟩ h.wf h.lens (id.toNat - 1) y rfl (ok_ext ⟨rfl, fun _ h => h⟩ hy) h.port

/-- LIFE is one the role can have. -/
theorem ok_role {s : State} {x : Instance} (h : Instance.ok s x = true) : lifeOk x.cfg.role x.life = true := by
  unfold Instance.ok at h
  simp only [Bool.and_eq_true] at h
  exact h.1.2

/-- Every role can be FAULTED. -/
theorem lifeOk_faulted' (r : Role) : lifeOk r .faulted = true := by cases r <;> rfl

/-- Every role can be UNINIT. -/
theorem lifeOk_uninit' (r : Role) : lifeOk r .uninit = true := by cases r <;> rfl

/-- Fault entry keeps the invariant. -/
theorem IsInv.faultEntry {s : State} (h : IsInv s) (id : U16) (op : Opcode) (code : FaultCode) (slot : Byte)
    (off : U64) : IsInv (s.faultEntry id op code slot off) := by
  unfold State.faultEntry
  split
  · exact h.reply _ _
  · split
    · exact h.reply _ _
    · rename_i x hx
      have hok := h.oks x (State.inst?_mem hx)
      apply IsInv.reply
      apply h.setInst
      refine (ok_faulted rfl).mpr ⟨(ok_cfg hok : x.cfg.ok = true), lifeOk_faulted' _, ?_⟩
      cases code <;> simp [FaultCode.code]

/-- So does a fault with no slot. -/
theorem IsInv.plainFault {s : State} (h : IsInv s) (id : U16) (op : Opcode) (code : FaultCode) :
    IsInv (s.plainFault id op code) := h.faultEntry _ _ _ _ _

/-- So does a fault found during execution. -/
theorem IsInv.executionFault {s : State} (h : IsInv s) (id : U16) (x y : Instance) (op : Opcode) (code : FaultCode)
    (slot : Byte) (off : U64) (hx : s.inst? id = some y) (hc : x.cfg = y.cfg) (hop : op ≠ .construct)
    (hcode : code.unrecorded = false) :
    IsInv (s.executionFault id x op code slot off) := by
  have hok := h.oks y (State.inst?_mem hx)
  unfold State.executionFault
  have h2 : ∀ z, State.inst? (State.setInst { s with freeCount := s.freeCount + 1 } id z) id = some z :=
    fun z => State.setInst_inst?_same (s := { s with freeCount := s.freeCount + 1 }) hx z
  simp only
  rw [faultEntry_recorded op code slot off hcode hop (h2 _)]
  apply IsInv.reply
  have hcc : x.cfg.ok = true := by rw [hc]; exact ok_cfg hok
  refine h.set ⟨rfl, fun _ h => h⟩ h.wf h.lens (id.toNat - 1)
    { x with
      work := Config.unspecifiedWork s.freeCount, life := .faulted
      fault := { code := code.code, opcode := op.code, slot := slot, offset := off } } ?_ ?_ h.port
  · simp only [State.setInst_insts, List.set_set]
  · refine (ok_faulted rfl).mpr ⟨hcc, lifeOk_faulted' _, ?_⟩
    cases code <;> simp [FaultCode.code]

/-- A fresh instance of a legal configuration keeps it. -/
theorem IsInv.addInst {s : State} (h : IsInv s) (cfg : Cfg) (hc : cfg.ok = true) (n : Nat) (hf : s.freeId = some n) :
    IsInv (s.addInst (Instance.fresh cfg)) where
  legal := h.legal
  wf := h.wf
  lens := h.lens
  count := by
    unfold State.freeId at hf
    split at hf
    · simp; omega
    · cases hf
  oks := by
    intro x hx
    simp only [State.addInst_insts, List.mem_append, List.mem_singleton] at hx
    rcases hx with hx | rfl
    · exact ok_ext ⟨rfl, fun _ h => h⟩ (h.oks x hx)
    · exact (ok_uninit rfl).mpr ⟨hc, lifeOk_uninit' _, rfl⟩
  port := h.port

/-! ## Output paths -/

theorem onSlots_get_ne (f : Slot → Lane → Lane) (j : U64) (sls : List Slot) (s : State) (x : Instance)
    (h : ∀ sl ∈ sls, ∀ b, x.bind.get sl = some b → j ≠ b.chan) :
    (s.onSlots x f sls).1.mem.get j = s.mem.get j := by
  induction sls generalizing s x with
  | nil => rfl
  | cons sl rest ih =>
    simp only [State.onSlots]
    rw [ih, onLane_get_ne]
    · exact h sl (by simp)
    · intro sl' hsl' b hb
      have fr := onLane_frame s x sl (f sl)
      have : (x.bind.get sl').map Binding.chan = some b.chan := by
        cases sl'
        · have := fr.bindData; simp only [PerSlot.get_data] at hb ⊢; rw [← this, hb]; rfl
        · have := fr.bindLens; simp only [PerSlot.get_lens] at hb ⊢; rw [← this, hb]; rfl
      cases hb' : x.bind.get sl' with
      | none => rw [hb'] at this; cases this
      | some b' =>
        rw [hb'] at this
        simp at this
        rw [← this]
        exact h sl' (by simp [hsl']) b' hb'

/-- A property of STAGE that the path function keeps. -/
theorem onLane_stage (P : List Byte → Prop) (f : Lane → Lane) (hf : ∀ l, P l.stage → P (f l).stage)
    (s : State) (x : Instance) (sl : Slot) (h : P x.work.stage.data ∧ P x.work.stage.lens) :
    P (s.onLane x sl f).2.work.stage.data ∧ P (s.onLane x sl f).2.work.stage.lens := by
  cases hb : x.bind.get sl with
  | none => simpa [State.onLane, hb] using h
  | some b =>
    cases hc : s.mem.get b.chan with
    | none => simpa [State.onLane, State.lane, hb, hc] using h
    | some c =>
      rw [onLane_bound f hb hc]
      cases sl
      · exact ⟨hf _ h.1, h.2⟩
      · exact ⟨h.1, hf _ h.2⟩

/-- The same over a list of slots. -/
theorem onSlots_stage (P : List Byte → Prop) (f : Slot → Lane → Lane) (hf : ∀ sl l, P l.stage → P (f sl l).stage)
    (sls : List Slot) (s : State) (x : Instance) (h : P x.work.stage.data ∧ P x.work.stage.lens) :
    P (s.onSlots x f sls).2.work.stage.data ∧ P (s.onSlots x f sls).2.work.stage.lens := by
  induction sls generalizing s x with
  | nil => exact h
  | cons sl rest ih => exact ih _ _ (onLane_stage P (f sl) (hf sl) s x sl h)

/-- The output paths extend the state. -/
theorem LaneFrame.ext {s t : State} {x y : Instance} (h : LaneFrame s t x y) : Ext s t :=
  ⟨h.params, fun c hc => by rw [h.exists_iff]; exact hc⟩

/-- The bound channels stay the same. -/
theorem LaneFrame.bindGet {s t : State} {x y : Instance} (h : LaneFrame s t x y) (sl : Slot) :
    (y.bind.get sl).map Binding.chan = (x.bind.get sl).map Binding.chan := by
  cases sl
  · exact h.bindData
  · exact h.bindLens

/-- Bound slots stay bound. -/
theorem LaneFrame.bound {s t : State} {x y : Instance} (h : LaneFrame s t x y) (hb : s.bound x = true) :
    t.bound y = true := by
  unfold State.bound at *
  rw [List.all_eq_true] at *
  intro sl hsl
  rw [h.cfg] at hsl
  obtain ⟨b, h1, h2⟩ := (boundChan_isSome s x sl).mp (hb sl hsl)
  have := h.bindGet sl
  rw [h1] at this
  cases hy : y.bind.get sl with
  | none => rw [hy] at this; cases this
  | some b' =>
    rw [hy] at this
    simp at this
    exact (boundChan_isSome t y sl).mpr ⟨b', hy, by rw [this]; exact h.ext.2 _ h2⟩

/-- Two channel ids that are both there differ. -/
def distinct (a b : Option U64) : Bool := match a, b with | some a, some b => a != b | _, _ => true

/-- Legal bindings: bound slots, different channels. -/
theorem bindingOk_eq (s : State) (x : Instance) : bindingOk s x =
    (s.bound x && distinct (x.bind.data.map Binding.chan) (x.bind.lens.map Binding.chan)) := by
  unfold bindingOk distinct
  cases x.bind.data <;> cases x.bind.lens <;> rfl

/-- Legal bindings stay legal. -/
theorem LaneFrame.bindingOk {s t : State} {x y : Instance} (h : LaneFrame s t x y) (hb : bindingOk s x = true) :
    Machine.bindingOk t y = true := by
  rw [bindingOk_eq, Bool.and_eq_true] at *
  exact ⟨h.bound hb.1, by rw [h.bindData, h.bindLens]; exact hb.2⟩

/-- The ranges of the other working registers stay. -/
theorem LaneFrame.core {s t : State} {x y : Instance} (h : LaneFrame s t x y) (hh : Nat)
    (hc : x.work.coreOk hh x.cfg) : y.work.coreOk hh y.cfg := by
  rw [h.cfg]
  have : ({ y.work with stage := x.work.stage } : Work).coreOk hh x.cfg := by rw [h.work]; exact hc
  exact this

/-- The output paths of a running instance changed, STAGE within STAGE_BYTES and the channels within CHANNEL_MAX. -/
theorem IsInv.onLanes {s : State} (h : IsInv s) (id : U16) (x : Instance) (f : Slot → Lane → Lane)
    (h1 : x.life ≠ .faulted) (h2 : x.life ≠ .uninit) (hx : Instance.ok s x = true)
    (hf : ∀ sl l, l.stage.length < s.params.stageBytes → (f sl l).stage.length < s.params.stageBytes)
    (hlen : ∀ c ch, (s.onLanes id x f).mem.get c = some ch → ch.bytes.length ≤ s.params.channelMax) :
    IsInv (s.onLanes id x f) := by
  have fr := onSlots_frame f x.cfg.base.slots s x
  obtain ⟨a, b, c, d, e⟩ := (ok_running h1 h2).mp hx
  obtain ⟨e1, e2, e3⟩ := (Work.ok_iff _ _ _).mp e
  have st := onSlots_stage (fun l => l.length < s.params.stageBytes) f hf x.cfg.base.slots s x ⟨e1, e2⟩
  refine h.set (t := s.onLanes id x f) ?_ (fr.wf h.wf) hlen (id.toNat - 1) (s.onSlots x f x.cfg.base.slots).2 ?_ ?_ ?_
  · exact fr.ext
  · simp [fr.insts]
  · apply ok_ext (s := (s.onSlots x f x.cfg.base.slots).1) ⟨rfl, fun _ h => h⟩
    refine (ok_running ?_ ?_).mpr ⟨?_, ?_, ?_, ?_, ?_⟩
    · rw [fr.life]; exact h1
    · rw [fr.life]; exact h2
    · rw [fr.cfg]; exact a
    · rw [fr.cfg, fr.life]; exact b
    · rw [fr.fault]; exact c
    · exact fr.bindingOk d
    · refine (Work.ok_iff _ _ _).mpr ?_
      rw [fr.params]
      exact ⟨st.1, st.2, fr.core _ e3⟩
  · intro p hp
    simp [fr.unitPort] at hp
    exact h.port p hp

/-- No overflow means that every channel is within CHANNEL_MAX. -/
theorem len_ne_overflow {s : State} (h : IsInv s) (id : U16) (x y : Instance) (f : Slot → Lane → Lane)
    (hcfg : y.cfg = x.cfg) (hbind : y.bind = x.bind)
    (ho : overflows s (s.onLanes id y f) x = false) :
    ∀ c ch, (s.onLanes id y f).mem.get c = some ch → ch.bytes.length ≤ s.params.channelMax := by
  intro c ch hg
  by_cases hb : ∃ sl ∈ x.cfg.base.slots, ∃ b, x.bind.get sl = some b ∧ b.chan = c
  · obtain ⟨sl, hsl, b, hb, rfl⟩ := hb
    unfold overflows at ho
    rw [List.any_eq_false] at ho
    have := ho sl hsl
    rw [hb] at this
    simp only [Bool.and_eq_true, decide_eq_true_eq] at this
    have e1 : (s.onLanes id y f).mem.len b.chan = ch.bytes.length := Memory.len_of_get hg
    have e2 : s.mem.len b.chan ≤ s.params.channelMax := by
      cases hs : s.mem.get b.chan with
      | none => simp [Memory.len, hs]
      | some d => rw [Memory.len_of_get hs]; exact h.lens _ d hs
    rw [e1] at this
    omega
  · have : (s.onLanes id y f).mem.get c = s.mem.get c := by
      have := onSlots_get_ne f c y.cfg.base.slots s y (by
        intro sl hsl b hb' e
        rw [hcfg] at hsl
        rw [hbind] at hb'
        exact hb ⟨sl, hsl, b, hb', e.symm⟩)
      simpa using this
    rw [this] at hg
    exact h.lens c ch hg

/-- FlushStage keeps STAGE shorter than STAGE_BYTES. -/
theorem flush_stage (n : Nat) (hn : 1 ≤ n) (l : Lane) (h : l.stage.length < n) : l.flush.stage.length < n := by
  unfold Lane.flush
  split
  · exact h
  · simp; omega

/-- So does Emit. -/
theorem emit_stage (n : Nat) (hn : 1 ≤ n) (l : Lane) (b : Byte) (h : l.stage.length < n) :
    (l.emit n b).stage.length < n := by
  unfold Lane.emit
  simp only
  split
  · unfold Lane.flush; split
    · rename_i h2; simp at h2
    · simp; omega
  · rename_i h2; simp at h2 ⊢; omega

/-- So does Emit of a list. -/
theorem emitAll_stage (n : Nat) (hn : 1 ≤ n) (bs : List Byte) (l : Lane) (h : l.stage.length < n) :
    (l.emitAll n bs).stage.length < n := by
  induction bs generalizing l with
  | nil => exact h
  | cons b bs ih => exact ih _ (emit_stage n hn l b h)

end Sys2Proof.Machine
end

