-- ==== Sys2Proof/Laws/PerInstr.lean ====
section
/-! SUPPORT. The family TableRow: the first byte of the encoding of a well-formed instruction lies in its row of
spec/opcode_table.json (30_encoding.md R103, R112 to R114): mask, match, and the row's constraint on the flag byte. -/

namespace Sys2Proof.Laws

/-- `match` and `mask` of a row of the opcode table, on the first byte. -/
structure Row where
  pattern : Byte
  mask : Byte

/-- A command's row: the whole byte is its opcode. -/
def commandRow (op : Opcode) : Row := { pattern := op.code, mask := 0xFF#8 }

/-- The row of each instruction, in the table's order. -/
def rowOf : Instr → Row
  | .init _ _ _ => commandRow .init
  | .writeOne _ _ => commandRow .writeOne
  | .write _ _ _ _ _ => commandRow .write
  | .readOne _ => commandRow .readOne
  | .read _ _ _ _ => commandRow .read
  | .skip _ _ => commandRow .skip
  | .commit _ => commandRow .commit
  | .reset _ => commandRow .reset
  | .flush _ => commandRow .flush
  | .resume _ _ _ _ => commandRow .resume
  | .createReader _ => commandRow .createReader
  | .createWriter _ => commandRow .createWriter
  | .getChannelCount _ => commandRow .getChannelCount
  | .getItemCount _ => commandRow .getItemCount
  | .construct _ _ => commandRow .construct
  | .fb32Rle _ _ => { pattern := 0x80#8, mask := 0x80#8 }
  | .fb32Single _ => { pattern := 0x0F#8, mask := 0x0F#8 }
  | .fb32Pair _ _ => { pattern := 0, mask := 0 }
  | .fb32Rsvd _ _ => { pattern := 0, mask := 0 }
  | .fb64Rle _ => { pattern := 0xF0#8, mask := 0xF0#8 }
  | .fb64Single _ => { pattern := 0x0F#8, mask := 0x0F#8 }
  | .fb64Pair _ _ => { pattern := 0, mask := 0 }
  | .fb64lsbRle _ _ => { pattern := 0x80#8, mask := 0x80#8 }
  | .fb64lsbSingle _ => { pattern := 0x0F#8, mask := 0x0F#8 }
  | .fb64lsbPair _ _ => { pattern := 0, mask := 0 }
  | .fb64lsbRsvd _ _ => { pattern := 0, mask := 0 }

/-- The row's constraint on a flag byte; a command's is on its header (30_encoding.md R104). -/
def rowAllows (i : Instr) (f : Byte) : Bool :=
  match i with
  | .fb32Rle _ _ => decide (5 ≤ f.toNat / 32)
  | .fb32Single _ => decide (f.toNat / 32 ≤ 4)
  | .fb32Pair _ _ => decide (f.toNat / 32 ≤ 4) && decide (f.toNat % 16 / 2 ≤ 4)
  | .fb32Rsvd _ _ => decide (f.toNat / 32 ≤ 4) && decide (10 ≤ f.toNat % 16) && decide (f.toNat % 16 ≤ 14)
  | .fb64Rle _ => true
  | .fb64Single _ => decide (f.toNat / 16 ≠ 15)
  | .fb64Pair _ _ => decide (f.toNat / 16 ≠ 15) && decide (f.toNat % 16 ≠ 15)
  | .fb64lsbRle _ _ => decide (9 ≤ f.toNat / 16)
  | .fb64lsbSingle _ => decide (f.toNat / 16 ≤ 8)
  | .fb64lsbPair _ _ => decide (f.toNat / 16 ≤ 8) && decide (f.toNat % 16 ≤ 8)
  | .fb64lsbRsvd _ _ => decide (f.toNat / 16 ≤ 8) && decide (9 ≤ f.toNat % 16) && decide (f.toNat % 16 ≤ 14)
  | .init _ _ _ | .writeOne _ _ | .write _ _ _ _ _ | .readOne _ | .read _ _ _ _ | .skip _ _ | .commit _ | .reset _
  | .flush _ | .resume _ _ _ _ | .createReader _ | .createWriter _ | .getChannelCount _ | .getItemCount _
  | .construct _ _ => true

/-- The first byte of a well-formed instruction's encoding matches its row. -/
def TableRow.Statement (i : Instr) : Prop :=
  i.wellFormed = true → ∃ f rest, encode i = f :: rest ∧ f &&& (rowOf i).mask = (rowOf i).pattern ∧
    rowAllows i f = true

/-! ## Commands -/

/-- The first byte of a command is its opcode. -/
theorem encode_command_head (op : Opcode) (inst : U16) (ws : List U64) :
    ∃ rest, wordsBytes (headerWord op inst :: ws) = op.code :: rest := by
  refine ⟨leBytes 7 ((headerWord op inst).toNat / 256) ++ wordsBytes ws, ?_⟩
  have h : BitVec.ofNat 8 (headerWord op inst).toNat = op.code := by
    apply BitVec.eq_of_toNat_eq
    have h1 := op.code.isLt
    have h2 := inst.isLt
    simp only [headerWord, BitVec.toNat_ofNat]
    omega
  simp only [wordsBytes, List.flatMap_cons, wordBytes, leBytes, h, List.cons_append]

/-- A command whose encoding is its header and some words lies in its opcode's row. -/
theorem command_in_row {i : Instr} (op : Opcode) (inst : U16) (ws : List U64)
    (he : encode i = wordsBytes (headerWord op inst :: ws)) (hr : rowOf i = commandRow op)
    (ha : ∀ f, rowAllows i f = true) : TableRow.Statement i := by
  intro _
  obtain ⟨rest, h⟩ := encode_command_head op inst ws
  refine ⟨op.code, rest, he.trans h, ?_, ha _⟩
  rw [hr]
  cases op <;> rfl

theorem TableRow.init (inst : U16) (ch0 : U64) (ch1 : Option U64) : TableRow.Statement (.init inst ch0 ch1) :=
  command_in_row .init inst _ rfl rfl fun _ => rfl

theorem TableRow.writeOne (inst : U16) (item : Operand) : TableRow.Statement (.writeOne inst item) :=
  command_in_row .writeOne inst _ rfl rfl fun _ => rfl

theorem TableRow.write (inst : U16) (buflen offset count : U64) (buf : List Operand) :
    TableRow.Statement (.write inst buflen offset count buf) :=
  command_in_row .write inst _ rfl rfl fun _ => rfl

theorem TableRow.readOne (inst : U16) : TableRow.Statement (.readOne inst) :=
  command_in_row .readOne inst _ rfl rfl fun _ => rfl

theorem TableRow.read (inst : U16) (buflen offset count : U64) :
    TableRow.Statement (.read inst buflen offset count) :=
  command_in_row .read inst _ rfl rfl fun _ => rfl

theorem TableRow.skip (inst : U16) (count : U64) : TableRow.Statement (.skip inst count) :=
  command_in_row .skip inst _ rfl rfl fun _ => rfl

theorem TableRow.commit (inst : U16) : TableRow.Statement (.commit inst) :=
  command_in_row .commit inst _ rfl rfl fun _ => rfl

theorem TableRow.reset (inst : U16) : TableRow.Statement (.reset inst) :=
  command_in_row .reset inst _ rfl rfl fun _ => rfl

theorem TableRow.flush (inst : U16) : TableRow.Statement (.flush inst) :=
  command_in_row .flush inst _ rfl rfl fun _ => rfl

theorem TableRow.resume (inst : U16) (ch0 : U64) (ch1 : Option U64) (rows : U64) :
    TableRow.Statement (.resume inst ch0 ch1 rows) :=
  command_in_row .resume inst _ rfl rfl fun _ => rfl

theorem TableRow.createReader (inst : U16) : TableRow.Statement (.createReader inst) :=
  command_in_row .createReader inst _ rfl rfl fun _ => rfl

theorem TableRow.createWriter (inst : U16) : TableRow.Statement (.createWriter inst) :=
  command_in_row .createWriter inst _ rfl rfl fun _ => rfl

theorem TableRow.getChannelCount (inst : U16) : TableRow.Statement (.getChannelCount inst) :=
  command_in_row .getChannelCount inst _ rfl rfl fun _ => rfl

theorem TableRow.getItemCount (inst : U16) : TableRow.Statement (.getItemCount inst) :=
  command_in_row .getItemCount inst _ rfl rfl fun _ => rfl

theorem TableRow.construct (desc : U64) (itemCount : Option U64) : TableRow.Statement (.construct desc itemCount) :=
  command_in_row .construct 0 _ rfl rfl fun _ => rfl

/-! ## Units -/

/-- A unit lies in its row when its flag byte does. -/
theorem unit_in_row {i : Instr} (f : Byte) (he : encode i = [f])
    (h : i.wellFormed = true → f &&& (rowOf i).mask = (rowOf i).pattern ∧ rowAllows i f = true) :
    TableRow.Statement i := fun hw => ⟨f, [], he, (h hw).1, (h hw).2⟩

theorem TableRow.fb32Rle (code : BitVec 3) (low5 : BitVec 5) : TableRow.Statement (.fb32Rle code low5) :=
  unit_in_row _ rfl (by revert code low5; decide)

theorem TableRow.fb32Single (hi : BitVec 4) : TableRow.Statement (.fb32Single hi) :=
  unit_in_row _ rfl (by revert hi; decide)

theorem TableRow.fb32Pair (hi lo : BitVec 4) : TableRow.Statement (.fb32Pair hi lo) :=
  unit_in_row _ rfl (by revert hi lo; decide)

theorem TableRow.fb32Rsvd (hi lo : BitVec 4) : TableRow.Statement (.fb32Rsvd hi lo) :=
  unit_in_row _ rfl (by revert hi lo; decide)

theorem TableRow.fb64Rle (runm1 : BitVec 4) : TableRow.Statement (.fb64Rle runm1) :=
  unit_in_row _ rfl (by revert runm1; decide)

theorem TableRow.fb64Single (hi : BitVec 4) : TableRow.Statement (.fb64Single hi) :=
  unit_in_row _ rfl (by revert hi; decide)

theorem TableRow.fb64Pair (hi lo : BitVec 4) : TableRow.Statement (.fb64Pair hi lo) :=
  unit_in_row _ rfl (by revert hi lo; decide)

theorem TableRow.fb64lsbRle (code low4 : BitVec 4) : TableRow.Statement (.fb64lsbRle code low4) :=
  unit_in_row _ rfl (by revert code low4; decide)

theorem TableRow.fb64lsbSingle (hi : BitVec 4) : TableRow.Statement (.fb64lsbSingle hi) :=
  unit_in_row _ rfl (by revert hi; decide)

theorem TableRow.fb64lsbPair (hi lo : BitVec 4) : TableRow.Statement (.fb64lsbPair hi lo) :=
  unit_in_row _ rfl (by revert hi lo; decide)

theorem TableRow.fb64lsbRsvd (hi lo : BitVec 4) : TableRow.Statement (.fb64lsbRsvd hi lo) :=
  unit_in_row _ rfl (by revert hi lo; decide)

end Sys2Proof.Laws
end

