-- ==== Sys2Proof/Tests/Slice0.lean ====
section
/-! SUPPORT. The model's own tests: ill-formed terms that WellFormed refuses, words written out from the spec's encodings,
one-step tests from the vectors of 95_test_vectors.md (named V<n>, P<n>), and for every statement with hypotheses a concrete
state and operands that meet them. -/

namespace Sys2Proof.Tests

open Sys2Proof.Machine

/-! ## Small states -/

def nextOf : Outcome → Option State
  | .next s => some s
  | .fault _ => none
  | .refused _ => none

/-- The state after an instruction that has a next state. -/
def after (i : Instr) (s : State) : State := (nextOf (exec i s)).getD s

theorem exec_after {i : Instr} {s : State} (h : (nextOf (exec i s)).isSome = true) : exec i s = .next (after i s) := by
  unfold after
  cases he : exec i s <;> simp_all [nextOf]

theorem runsOk_after {i : Instr} {s : State}
    (h : ((nextOf (exec i s)).isSome && (after i s).lastStatus == 0) = true) : RunsOk i s (after i s) := by
  simp only [Bool.and_eq_true, beq_iff_eq] at h
  exact ⟨exec_after h.1, h.2⟩

/-- Status and words of the newest result. -/
def answer (o : Outcome) : Option (U64 × List U64) :=
  (nextOf o).bind fun s => s.results.head?.map fun r => (r.status, r.words)

/-- The content of a channel afterwards. -/
def content (o : Outcome) (c : U64) : Option (List Byte) :=
  (nextOf o).bind fun s => (s.mem.get c).map Channel.bytes

/-- Something of the first instance afterwards. -/
def first {α : Type} (o : Outcome) (f : Instance → α) : Option α := (nextOf o).bind fun s => (s.inst? 1).map f

def testParams : Params := { stageBytes := 64, dfcmBits := 8, maxInstances := 3, maxChannels := 4, channelMax := 400 }

/-- Channels 0, 1, … of these contents, GEN 0, and these instances. -/
def testState (contents : List (List Byte)) (insts : List Instance) : State :=
  { State.reset with
    params := testParams
    insts := insts
    mem := { chans := contents.zipIdx.map fun e => { id := BitVec.ofNat 64 e.2, bytes := e.1, gen := 0 } } }

def cfgOf (b : Base) (role : Role) (xforms : List Xform) : Cfg :=
  { base := b, xforms := xforms, role := role, itemCount := none, varKind := .bytes }

/-- An instance in LIFE, slot 0 bound to channel 0, slot 1 (of VARD) to channel 1, registers at reset. -/
def boundInst (b : Base) (role : Role) (life : Life) (xforms : List Xform) : Instance :=
  { Instance.fresh (cfgOf b role xforms) with
    life := life
    bind := { data := some { chan := 0, seen := 0 }
              lens := if b = .vard then some { chan := 1, seen := 0 } else none } }

/-- A writer in EMPTY on empty channels. -/
def writerState (b : Base) : State := testState [[], []] [boundInst b .writer .empty []]

/-- A reader in READING over these channel contents. -/
def readerState (b : Base) (xforms : List Xform) (contents : List (List Byte)) : State :=
  testState contents [boundInst b .reader .reading xforms]

/-- A reader in READING over this channel content, at the unit port of a READ_ONE. -/
def portState (b : Base) (bytes : List Byte) : State :=
  { readerState b [] [bytes] with unitPort := some { inst := 1, slot := .data, op := .readOne, word := none } }

def nums (l : List Nat) : List Operand := l.map fun n => .num (BitVec.ofNat 64 n)

/-- The eight bytes of a word, the low one first. -/
def w8 (n : Nat) : List Byte := leBytes 8 n

/-! ## WellFormed refuses -/

theorem test_ill_formed_operands :
    (Instr.writeOne 1 (.str 9 [0])).wellFormed = false ∧ (Instr.writeOne 1 (.str 0 [0])).wellFormed = false ∧
    (Instr.write 1 2 0 1 (nums [5])).wellFormed = false ∧ (Instr.write 1 1 0 1 [.str 1 []]).wellFormed = false ∧
    (Instr.construct 0x80 none).wellFormed = false ∧ (Instr.construct 0 (some 3)).wellFormed = false := by decide

theorem test_ill_formed_fb32 :
    (Instr.fb32Rle 4 0).wellFormed = false ∧ (Instr.fb32Single 0xA).wellFormed = false ∧
    (Instr.fb32Pair 0xA 0).wellFormed = false ∧ (Instr.fb32Pair 0 0xA).wellFormed = false ∧
    (Instr.fb32Rsvd 0xA 0xA).wellFormed = false ∧ (Instr.fb32Rsvd 0 9).wellFormed = false ∧
    (Instr.fb32Rsvd 0 0xF).wellFormed = false := by decide

theorem test_ill_formed_fb64 :
    (Instr.fb64Single 0xF).wellFormed = false ∧ (Instr.fb64Pair 0xF 0).wellFormed = false ∧
    (Instr.fb64Pair 0 0xF).wellFormed = false ∧ (Instr.fb64lsbRle 8 0).wellFormed = false ∧
    (Instr.fb64lsbSingle 9).wellFormed = false ∧ (Instr.fb64lsbPair 9 0).wellFormed = false ∧
    (Instr.fb64lsbPair 0 9).wellFormed = false ∧ (Instr.fb64lsbRsvd 9 9).wellFormed = false ∧
    (Instr.fb64lsbRsvd 0 8).wellFormed = false ∧ (Instr.fb64lsbRsvd 0 0xF).wellFormed = false := by decide

theorem test_misfitting_operands :
    (Instr.init 1 0 none).fits Base.vard.shape = false ∧ (Instr.init 1 0 (some 1)).fits .numeric = false ∧
    (Instr.resume 1 0 none 3).fits Base.vard.shape = false ∧ (Instr.writeOne 1 (.num 1)).fits Base.vari.shape = false ∧
    (Instr.writeOne 1 (.str 0 [])).fits .numeric = false ∧
    (Instr.write 1 1 0 1 [.str 0 []]).fits .numeric = false := by decide

/-! ## Words written out: commands (V81, V83, P1 to P5), header first, each word least significant byte first -/

theorem test_decode_init : decodePacket .numeric [0x01, 0, 1, 0, 0, 0, 0, 0, 7, 0, 0, 0, 0, 0, 0, 0] = .ok (.init 1 7 none) ∧
    decodePacket Base.vard.shape
      [0x01, 0, 0x34, 0x12, 0, 0, 0, 0, 0, 0, 0, 0, 0, 0, 0, 0, 1, 0, 0, 0, 0, 0, 0, 0] =
      .ok (.init 0x1234 0 (some 1)) := by decide

theorem test_decode_writeOne :
    decodePacket .numeric [0x02, 0, 2, 0, 0, 0, 0, 0, 0, 1, 0, 0, 0, 0, 0, 0] = .ok (.writeOne 2 (.num 0x100)) := by decide

theorem test_decode_write :
    decodePacket Base.vari.shape
      ([0x03, 0, 1, 0, 0, 0, 0, 0] ++ [2, 0, 0, 0, 0, 0, 0, 0] ++ [0, 0, 0, 0, 0, 0, 0, 0] ++ [2, 0, 0, 0, 0, 0, 0, 0] ++
        [0, 0, 0, 0, 0, 0, 0, 0] ++ [5, 0, 0, 0, 0, 0, 0, 0] ++ [0x68, 0x65, 0x6C, 0x6C, 0x6F, 0, 0, 0]) =
      .ok (.write 1 2 0 2 [.str 0 [], .str 5 [0x6F6C6C6568]]) := by decide

theorem test_decode_readOne : decodePacket .numeric [0x04, 0, 2, 0, 0, 0, 0, 0] = .ok (.readOne 2) := by decide

theorem test_decode_read :
    decodePacket .numeric
      ([0x05, 0, 2, 0, 0, 0, 0, 0] ++ [4, 0, 0, 0, 0, 0, 0, 0] ++ [1, 0, 0, 0, 0, 0, 0, 0] ++ [3, 0, 0, 0, 0, 0, 0, 0]) =
      .ok (.read 2 4 1 3) := by decide

theorem test_decode_skip :
    decodePacket .numeric [0x06, 0, 2, 0, 0, 0, 0, 0, 1, 0, 0, 0, 0, 0, 0, 0x80] = .ok (.skip 2 0x8000000000000001) := by
  decide

theorem test_decode_commit : decodePacket .numeric [0x07, 0, 1, 0, 0, 0, 0, 0] = .ok (.commit 1) := by decide

theorem test_decode_reset : decodePacket .numeric [0x08, 0, 1, 0, 0, 0, 0, 0] = .ok (.reset 1) := by decide

theorem test_decode_flush : decodePacket .numeric [0x09, 0, 1, 0, 0, 0, 0, 0] = .ok (.flush 1) := by decide

theorem test_decode_resume :
    decodePacket .numeric
      ([0x0A, 0, 1, 0, 0, 0, 0, 0] ++ [9, 0, 0, 0, 0, 0, 0, 0] ++ [4, 0, 0, 0, 0, 0, 0, 0]) =
      .ok (.resume 1 9 none 4) := by decide

theorem test_decode_createReader : decodePacket .numeric [0x0B, 0, 1, 0, 0, 0, 0, 0] = .ok (.createReader 1) := by decide

theorem test_decode_createWriter : decodePacket .numeric [0x0C, 0, 1, 0, 0, 0, 0, 0] = .ok (.createWriter 1) := by decide

theorem test_decode_getChannelCount :
    decodePacket .numeric [0x0D, 0, 1, 0, 0, 0, 0, 0] = .ok (.getChannelCount 1) := by decide

theorem test_decode_getItemCount :
    decodePacket .numeric [0x0E, 0, 1, 0, 0, 0, 0, 0] = .ok (.getItemCount 1) := by decide

theorem test_decode_construct :
    decodePacket .numeric [0x0F, 0, 0, 0, 0, 0, 0, 0, 0x10, 0x62, 0, 0, 0, 0, 0, 0] = .ok (.construct 0x6210 none) ∧
    decodePacket .numeric ([0x0F, 0, 0, 0, 0, 0, 0, 0] ++ [0x84, 0, 0, 0, 0, 0, 0, 0] ++ [5, 0, 0, 0, 0, 0, 0, 0]) =
      .ok (.construct 0x84 (some 5)) := by decide

/-- V83, V84: reserved opcodes and fields, and INST on CONSTRUCT. -/
theorem test_decode_illegal :
    decodePacket .numeric [0x10, 0, 1, 0, 0, 0, 0, 0] = .error (.reservedOpcode 0x10) ∧
    decodePacket .numeric [0x00, 0, 1, 0, 0, 0, 0, 0] = .error (.reservedOpcode 0) ∧
    decodePacket .numeric [0x01, 1, 1, 0, 0, 0, 0, 0] = .error .reservedField ∧
    decodePacket .numeric [0x0F, 0, 1, 0, 0, 0, 0, 0] = .error .instOnConstruct ∧
    decodePacket .numeric [0x04, 0, 1, 0, 0, 0, 0, 0, 0, 0, 0, 0, 0, 0, 0, 0] = .error .trailingWords := by decide

/-! ## Flag bytes written out (V1 to V25) -/

theorem test_decode_fb32Rle : decodeUnit .fb32 0b10100010 = .fb32Rle 0b101 0b00010 := by decide
theorem test_decode_fb32Single : decodeUnit .fb32 0b00101111 = .fb32Single 0b0010 := by decide
theorem test_decode_fb32Pair : decodeUnit .fb32 0b10000010 = .fb32Pair 0b1000 0b0010 := by decide
theorem test_decode_fb32Rsvd : decodeUnit .fb32 0b00101010 = .fb32Rsvd 0b0010 0b1010 := by decide
theorem test_decode_fb64Rle : decodeUnit .fb64 0b11110010 = .fb64Rle 0b0010 := by decide
theorem test_decode_fb64Single : decodeUnit .fb64 0b10001111 = .fb64Single 0b1000 := by decide
theorem test_decode_fb64Pair : decodeUnit .fb64 0b01110100 = .fb64Pair 0b0111 0b0100 := by decide
theorem test_decode_fb64lsbRle : decodeUnit .fb64lsb 0b11101111 = .fb64lsbRle 0b1110 0b1111 := by decide
theorem test_decode_fb64lsbSingle : decodeUnit .fb64lsb 0b10001111 = .fb64lsbSingle 0b1000 := by decide
theorem test_decode_fb64lsbPair : decodeUnit .fb64lsb 0b00010000 = .fb64lsbPair 0b0001 0b0000 := by decide
theorem test_decode_fb64lsbRsvd : decodeUnit .fb64lsb 0b00011110 = .fb64lsbRsvd 0b0001 0b1110 := by decide

/-! ## One step: commands -/

/-- P3: a two-channel reader. -/
theorem test_init_reader :
    let o := exec (.init 1 0 (some 1)) (testState [[1], [2]] [Instance.fresh (cfgOf .vard .reader [])])
    answer o = some (0, []) ∧ first o Instance.life = some .reading ∧
      first o Instance.bind = some { data := some { chan := 0, seen := 0 }, lens := some { chan := 1, seen := 0 } } := by
  decide

/-- V84: FB32 writer INIT on a channel holding 2F 05; and R358: ProtocolViolation comes before InvalidArgument (CH0 = CH1). -/
theorem test_init_nonempty :
    let o := exec (.init 1 0 none) (testState [[0x2F, 0x05]] [Instance.fresh (cfgOf .fb32 .writer [])])
    answer o = some (0x0302, []) ∧ first o Instance.life = some .faulted ∧
      first o Instance.fault = some { code := 3, opcode := 1, slot := 0xFF, offset := 0 } ∧
      answer (exec (.init 1 0 (some 0)) (testState [[1]] [Instance.fresh (cfgOf .vard .writer [])])) =
        some (0x0302, []) := by decide

/-- V3, the last word of [0, 0, 5]: the two zeros become the pair 00, and 5 is held. -/
theorem test_writeOne :
    let s := writerState .fb32
    let x := { boundInst .fb32 .writer .writing [] with items := 2, work.fbw.zrun := 2 }
    let o := exec (.writeOne 1 (.num 5)) { s with insts := [x] }
    answer o = some (0, []) ∧ first o (fun y => y.work.stage.data) = some [0x00] ∧
      first o (fun y => y.work.fbw) = some { zrun := 0, pv := true, pend := 5 } ∧ first o Instance.items = some 3 := by
  decide

/-- V52: BW4 WRITE_ONE 0x100 is InvalidArgument. -/
theorem test_writeOne_invalid :
    let o := exec (.writeOne 1 (.num 0x100)) (writerState .bw4)
    answer o = some (0x0102, []) ∧ first o Instance.life = some .faulted ∧ first o Instance.items = some 0 := by decide

/-- P1: after WRITE of [0, 0, 0, 5, 0, 0], STAGE[0] = A0 20 05, FBW_ZRUN = 1, ch0 empty. -/
theorem test_write :
    let o := exec (.write 1 6 0 6 (nums [0, 0, 0, 5, 0, 0])) (writerState .fb32)
    answer o = some (0, []) ∧ content o 0 = some [] ∧
      first o (fun y => y.work.stage.data) = some [0xA0, 0x20, 0x05] ∧ first o (fun y => y.work.fbw.zrun) = some 1 := by
  decide

/-- V84: WRITE with BUFLEN 2, OFFSET 1, COUNT 2. -/
theorem test_write_past_buffer :
    let o := exec (.write 1 2 1 2 (nums [1, 2])) (writerState .fb32)
    answer o = some (0x0102, []) ∧ first o Instance.fault = some { code := 1, opcode := 3, slot := 0xFF, offset := 0 } := by
  decide

/-- V14: 8F 12 is the word 0x1200000000000000. -/
theorem test_readOne :
    answer (exec (.readOne 1) (readerState .fb64 [] [[0x8F, 0x12]])) = some (0, [0x1200000000000000]) := by decide

/-- V36: a lone frame minimum is CorruptStream at OFFSET 2. -/
theorem test_readOne_lone_minimum :
    let o := exec (.readOne 1) (readerState .fb32 [.dd] [[0x2F, 0x05]])
    answer o = some (0x0202, []) ∧ first o Instance.fault = some { code := 2, opcode := 4, slot := 0, offset := 2 } := by
  decide

/-- V6: READ 4 over A0 20 05 0F. -/
theorem test_read :
    let o := exec (.read 1 4 0 4) (readerState .fb32 [] [[0xA0, 0x20, 0x05, 0x0F]])
    answer o = some (0, [4, 0, 0, 0, 5]) ∧ first o (fun y => y.work.cur.data) = some 3 ∧
      first o (fun y => y.work.carry) = some 1 := by decide

/-- V38: the stack [XOR, DD] over the FB32 stream of [5, 5, 7, 0], and EOS after it. -/
theorem test_read_stack :
    answer (exec (.read 1 9 4 5)
      (readerState .fb32 [.xor, .dd] [[0x82, 0xFB, 0xFF, 0xFF, 0xFF, 0x0A, 0x02, 0x07, 0x2F, 0x0A]])) =
      some (1, [4, 5, 5, 7, 0]) := by decide

/-- P3: SKIP 4 over the payload and lengths of "hello", "", "", "", "world!". -/
theorem test_skip :
    let o := exec (.skip 1 4)
      (readerState .vard [] [[0x68, 0x65, 0x6C, 0x6C, 0x6F, 0x77, 0x6F, 0x72, 0x6C, 0x64, 0x21], [0x10, 5, 0, 0x1F, 6]])
    answer o = some (0, [4]) ∧ first o (fun y => y.work.cur) = some { data := 5, lens := 3 } := by decide

/-- V51: BW1 with one byte holds 8 items; SKIP 9 ends at EOS. -/
theorem test_skip_eos : answer (exec (.skip 1 9) (readerState .bw1 [] [[0x0D]])) = some (1, [8]) := by decide

/-- V31: [10, 12, 15, 15] in the DD frame is flushed as 02 0A 22 02 03 0F. -/
theorem test_commit :
    let x := { boundInst .fb32 .writer .writing [.dd] with
      items := 4, work.xf := [.dd { DdRegs.reset with fill := 4, frame := [10, 12, 15, 15] ++ List.replicate 12 0 }] }
    let o := exec (.commit 1) (testState [[]] [x])
    answer o = some (0, []) ∧ content o 0 = some [0x02, 0x0A, 0x22, 0x02, 0x03, 0x0F] ∧
      first o Instance.life = some .committed ∧ (nextOf o).map (fun s => s.mem.gen 0) = some 1 := by decide

/-- V84: COMMIT on a reader. -/
theorem test_commit_reader : answer (exec (.commit 1) (readerState .fb32 [] [[]])) = some (0x0302, []) := by decide

/-- 44_pipeline.md R300: a writer's RESET truncates its channel, one modification. -/
theorem test_reset_writer :
    let x := { boundInst .fb32 .writer .committed [] with items := 6, work.stage.data := [7] }
    let o := exec (.reset 1) (testState [[0xA0, 0x20]] [x])
    content o 0 = some [] ∧ (nextOf o).map (fun s => s.mem.gen 0) = some 1 ∧
      first o (fun y => (y.life, y.items, y.work.stage.data)) = some (.empty, 0, []) := by decide

/-- 60_exceptions.md R361, P4: RESET of a faulted reader is refused with its recorded code. -/
theorem test_reset_faulted :
    let x := { boundInst .fb64 .reader .faulted [] with fault := { code := 4, opcode := 4, slot := 0, offset := 0 } }
    answer (exec (.reset 1) (testState [[]] [x])) = some (0x0402, []) := by decide

/-- 44_pipeline.md R301: the staged bytes reach the channel, the held word stays. -/
theorem test_flush :
    let x := { boundInst .fb32 .writer .writing [] with items := 1, work.stage.data := [0xA0], work.fbw.zrun := 2 }
    let o := exec (.flush 1) (testState [[]] [x])
    content o 0 = some [0xA0] ∧ first o (fun y => (y.life, y.work.stage.data, y.work.fbw.zrun)) =
      some (.writing, [], 2) := by decide

/-- V70: RESUME 5 on A0 20 05 0F leaves A0 20 05. -/
theorem test_resume :
    let o := exec (.resume 1 0 none 5) (testState [[0xA0, 0x20, 0x05, 0x0F]] [Instance.fresh (cfgOf .fb32 .writer [])])
    answer o = some (0, []) ∧ content o 0 = some [0xA0, 0x20, 0x05] ∧
      first o (fun y => (y.life, y.items, y.work.fbw.zrun)) = some (.writing, 5, 0) := by decide

/-- V76: BW2 RESUME 5 on 39 is ResumeShort, the channel unchanged. -/
theorem test_resume_short :
    let o := exec (.resume 1 0 none 5) (testState [[0x39]] [Instance.fresh (cfgOf .bw2 .writer [])])
    answer o = some (0x0602, []) ∧ content o 0 = some [0x39] ∧
      first o Instance.fault = some { code := 6, opcode := 0x0A, slot := 0xFF, offset := 0 } := by decide

/-- P1: CREATE_READER answers the next id. -/
theorem test_createReader :
    let o := exec (.createReader 1) (writerState .fb32)
    answer o = some (0, [2]) ∧
      (nextOf o).bind (fun s => s.inst? 2) = some (Instance.fresh (cfgOf .fb32 .reader [])) := by decide

/-- 44_pipeline.md R304: CREATE_WRITER on a writer is ProtocolViolation. -/
theorem test_createWriter :
    answer (exec (.createWriter 1) (readerState .fb32 [.xor] [[]])) = some (0, [2]) ∧
    answer (exec (.createWriter 1) (writerState .fb32)) = some (0x0302, []) := by decide

/-- P3. -/
theorem test_getChannelCount :
    answer (exec (.getChannelCount 1) (writerState .vard)) = some (0, [2]) ∧
    answer (exec (.getChannelCount 1) (writerState .vari)) = some (0, [1]) := by decide

/-- P4. -/
theorem test_getItemCount :
    let x := { boundInst .fb64 .reader .faulted [] with cfg.itemCount := some 3 }
    answer (exec (.getItemCount 1) (testState [[]] [x])) = some (0, [1, 3]) := by decide

/-- V83: FB32 writer [XOR, DD]; BW2 reader with itemcount = 5. -/
theorem test_construct :
    (nextOf (exec (.construct 0x6210 none) (testState [] []))).map State.insts =
      some [Instance.fresh (cfgOf .fb32 .writer [.xor, .dd])] ∧
    (nextOf (exec (.construct 0x84 (some 5)) (testState [] []))).map State.insts =
      some [Instance.fresh { cfgOf .bw2 .reader [] with itemCount := some 5 }] := by decide

/-- V83: the descriptors refused. -/
theorem test_construct_refused :
    [0x000B, 0x0110, 0x1118, 0x0020, 0x10000].map (fun d => answer (exec (.construct d none) (testState [] []))) =
      List.replicate 5 (some (0x0102, [])) := by decide

/-! ## One step: units at the port -/

/-- The word at the port afterwards, RD_CUR[0], RD_CARRY and RD_CARRYVAL. -/
def portOf (o : Outcome) : Option (Option U64 × U64 × Int × U64) :=
  (nextOf o).bind fun s => s.unitPort.bind fun p => (s.inst? p.inst).map fun x =>
    (p.word, x.work.cur.data, x.work.carry, x.work.carryVal)

/-- V7: A2 is RLE(5). -/
theorem test_fb32Rle : portOf (exec (.fb32Rle 5 2) (portState .fb32 [0xA2])) = some (some 0, 1, -4, 0) := by decide

/-- V4: 5F 34 12 is the word 0x12340000. -/
theorem test_fb32Single :
    portOf (exec (.fb32Single 5) (portState .fb32 [0x5F, 0x34, 0x12])) = some (some 0x12340000, 3, 0, 0) := by decide

/-- V4: 88 01 02 03 04 05 06 07 08. -/
theorem test_fb32Pair :
    portOf (exec (.fb32Pair 8 8) (portState .fb32 [0x88, 1, 2, 3, 4, 5, 6, 7, 8])) =
      some (some 0x04030201, 9, 1, 0x08070605) := by decide

/-- V5: 2A 05. -/
theorem test_fb32Rsvd :
    let o := exec (.fb32Rsvd 2 0xA) (portState .fb32 [0x2A, 5])
    answer o = some (0x0202, []) ∧ first o Instance.fault = some { code := 2, opcode := 4, slot := 0, offset := 0 } := by
  decide

/-- V14: FF is sixteen zeros. -/
theorem test_fb64Rle : portOf (exec (.fb64Rle 15) (portState .fb64 [0xFF])) = some (some 0, 1, -15, 0) := by decide

/-- V12: AF FF 00 00 is 0x0000FF0000000000. -/
theorem test_fb64Single :
    portOf (exec (.fb64Single 0xA) (portState .fb64 [0xAF, 0xFF, 0, 0])) = some (some 0x0000FF0000000000, 4, 0, 0) := by
  decide

/-- V13: 00 05 00 is [5, 0]. -/
theorem test_fb64Pair : portOf (exec (.fb64Pair 0 0) (portState .fb64 [0, 5, 0])) = some (some 5, 3, 1, 0) := by decide

/-- V21: FF is 114 zeros. -/
theorem test_fb64lsbRle : portOf (exec (.fb64lsbRle 15 15) (portState .fb64lsb [0xFF])) = some (some 0, 1, -113, 0) := by
  decide

/-- V22: 2F 00 01 is 0x100. -/
theorem test_fb64lsbSingle :
    portOf (exec (.fb64lsbSingle 2) (portState .fb64lsb [0x2F, 0, 1])) = some (some 0x100, 3, 0, 0) := by decide

/-- V23: 01 05 is [0, 5]. -/
theorem test_fb64lsbPair :
    portOf (exec (.fb64lsbPair 0 1) (portState .fb64lsb [0x01, 5])) = some (some 0, 2, 1, 5) := by decide

/-- V24: 1E 05. -/
theorem test_fb64lsbRsvd : answer (exec (.fb64lsbRsvd 1 0xE) (portState .fb64lsb [0x1E, 5])) = some (0x0202, []) := by
  decide

/-! ## One step of the machine -/

/-- V84: INIT to INST 9 when 9 names no instance. -/
theorem test_step_illegal :
    answer (step { writerState .fb32 with input := [.command [1, 0, 9, 0, 0, 0, 0, 0, 0, 0, 0, 0, 0, 0, 0, 0]] }) =
      some (0x0502, []) := by decide

/-- 20_memory.md R86, R87: the host changes a bound channel, and the next READ_ONE is a ChannelHazard (V84). -/
theorem test_step_hazard :
    (nextOf (step { readerState .fb32 [] [[]] with
      input := [.writeChannel 0 [0x2F, 5], .command [4, 0, 1, 0, 0, 0, 0, 0]] })).bind (fun s => answer (step s)) =
      some (0x0402, []) := by decide

/-! ## Transform stages -/

/-- V39: the words of DFCM for three of its rows at H = 8 and for [7 ×5] at H = 4; DFCM_HASH after the last step of the
second (R236). -/
theorem test_dfcm_words :
    (stageWrites 32 8 (StageRegs.reset .dfcm) [7, 7, 7, 7, 7, 7, 7]).2 = [7, 7, 7, 7, 7, 0, 0] ∧
      (stageWrites 32 8 (StageRegs.reset .dfcm) [1, 2, 3, 4, 5, 6, 7, 8]).2 = [1, 2, 3, 4, 5, 3, 1, 15] ∧
      (match (stageWrites 32 8 (StageRegs.reset .dfcm) [1, 2, 3, 4, 5, 6, 7, 8]).1 with
        | .dfcm r => r.hash
        | _ => 0) = 85 ∧
      (stageWrites 32 8 (StageRegs.reset .dfcm) [1, 3, 1, 3, 1, 3]).2 = [1, 3, 1, 3, 1, 3] ∧
      (stageWrites 32 4 (StageRegs.reset .dfcm) [7, 7, 7, 7, 7]).2 = [7, 7, 7, 0, 0] := by decide

/-- V39: the FB32 bytes of a DFCM pipeline. -/
theorem test_dfcm_bytes :
    (emittedE testParams (cfgOf .fb32 .writer [.dfcm]) ([1, 2, 3, 4, 5, 6, 7, 8].map fun n => Item.num n)).data =
      [0x22, 0x01, 0x02, 0x22, 0x03, 0x04, 0x22, 0x05, 0x03, 0x22, 0x01, 0x0F] := by decide

/-- R221: the words of DD, partial frames of four and of two at the flush. -/
theorem test_dd_words :
    stageEncode 32 8 .dd [10, 12, 15, 15] = [0, 10, 2, 3, 0] ∧ stageEncode 32 8 .dd [5, 3] = [0xFFFFFFFE, 7, 0] := by
  decide

/-- The 15 items 100 to 114. -/
def items15 : List U64 := (List.range 15).map fun i => BitVec.ofNat 64 (100 + i)

/-- R221: the frame of 100 to 115 is pushed when its last item arrives. -/
theorem test_dd_frame :
    (stageWrites 32 8 (StageRegs.reset .dd) items15).2 = [] ∧
      (stageWrites 32 8 (StageRegs.reset .dd) (items15 ++ [115])).2 = [1, 99] ++ List.replicate 15 0 := by
  decide +kernel

/-- V37: the words of XOR. -/
theorem test_xor_words :
    (stageWrites 32 8 (StageRegs.reset .xor) [5, 5, 7, 0, 0xFFFFFFFF]).2 = [5, 0, 2, 7, 0xFFFFFFFF] := by decide

/-! ## Witnesses: states and operands that meet the hypotheses of the statements

A witness of a statement is named `witness_` and the statement's name. -/

def syncedCheck (s : State) (x : Instance) : Bool := x.cfg.base.slots.all fun sl => !s.stale x sl

theorem synced_of_check {s : State} {x : Instance} (h : syncedCheck s x = true) : Synced s x := by
  intro sl hsl b hb
  have := List.all_eq_true.mp h sl hsl
  simpa [State.stale, hb] using this

def laneCheck (s : State) (x : Instance) (f : Slot → Lane → Bool) : Bool :=
  x.cfg.base.slots.all fun sl =>
    match s.lane x sl with
    | none => true
    | some l => f sl l

theorem eachLane_of_check {s : State} {x : Instance} (f : Slot → Lane → Bool) {g : Slot → Lane → Prop}
    (hg : ∀ sl l, f sl l = true → g sl l) (h : laneCheck s x f = true) : EachLane s x g := by
  intro sl hsl l hl
  have := List.all_eq_true.mp h sl hsl
  simp only [hl] at this
  exact hg sl l this

theorem operands_one {s : State} {x : Instance} {c : U64} (hb : x.cfg.base.channelCount = 1)
    (h : (s.mem.get c).isSome = true) : ChannelOperands s x c none :=
  ⟨by simp [hb], h, fun _ h => nomatch h⟩

theorem operands_two {s : State} {x : Instance} {c d : U64} (hb : x.cfg.base.channelCount = 2)
    (h : (s.mem.get c).isSome = true) (h' : (s.mem.get d).isSome = true ∧ d ≠ c) : ChannelOperands s x c (some d) :=
  ⟨by simp [hb], h, fun e he => by cases he; exact h'⟩

/-- A port of a READ_ONE on slot 0 of the first instance. -/
def port0 : UnitPort := { inst := 1, slot := .data, op := .readOne, word := none }

def readerInst (b : Base) : Instance := boundInst b .reader .reading []

def chanOf (bytes : List Byte) : Channel := { id := 0, bytes := bytes, gen := 0 }

theorem at_port0 {b : Base} {v : Variant} (bytes : List Byte) (h : slotVariant b .data = some v) :
    AtPort (portState b bytes) port0 (readerInst b) v (chanOf bytes) := ⟨rfl, rfl, rfl, rfl, h, rfl⟩

theorem cur_port0 (b : Base) : 0 = ((readerInst b).work.cur.get port0.slot).toNat := rfl

theorem witness_StepRunsTheDecodedCommand :
    let s := { writerState .vari with input := [.command ([2, 0, 1, 0, 0, 0, 0, 0] ++ w8 1 ++ w8 0x61)] }
    s.unitPort = none ∧ s.input = .command ([2, 0, 1, 0, 0, 0, 0, 0] ++ w8 1 ++ w8 0x61) :: [] ∧
      decodePacket (s.packetShape ([2, 0, 1, 0, 0, 0, 0, 0] ++ w8 1 ++ w8 0x61))
        ([2, 0, 1, 0, 0, 0, 0, 0] ++ w8 1 ++ w8 0x61) = .ok (.writeOne 1 (.str 1 [0x61])) := by decide

theorem witness_StepRunsTheDecodedUnit :
    AtPort (portState .fb32 [0x20, 5]) port0 (readerInst .fb32) .fb32 (chanOf [0x20, 5]) ∧
      (readerInst .fb32).work.carry = 0 ∧
      (chanOf [0x20, 5]).bytes[((readerInst .fb32).work.cur.get port0.slot).toNat]? = some 0x20 :=
  ⟨at_port0 _ rfl, by decide, by decide⟩

/-- Every way a header can be illegal, reserved opcodes at both ends of the range. -/
theorem witness_IllegalHeadersChangeNothing :
    let s := { writerState .fb32 with input := [.command (wordsBytes [0x10010])] }
    s.unitPort = none ∧ s.input = .command (wordsBytes [0x10010]) :: [] ∧
      IllegalHeader s 0x10000 ∧ IllegalHeader s 0x10010 ∧ IllegalHeader s 0x100FF ∧ IllegalHeader s 0x10101 ∧
      IllegalHeader s 0x100010001 ∧ IllegalHeader s 0x1000F ∧ IllegalHeader s 0x20001 :=
  ⟨rfl, rfl, .inl (by decide), .inr (.inl (by decide)), .inr (.inl (by decide)), .inr (.inr (.inl (by decide))),
    .inr (.inr (.inr (.inl (by decide)))), .inr (.inr (.inr (.inr (.inl (by decide))))),
    .inr (.inr (.inr (.inr (.inr (by decide)))))⟩

theorem witness_DecodingInvertsEncoding :
    ∀ e ∈ [(Shape.numeric, Instr.init 1 0 none), (Base.vard.shape, Instr.init 0xFFFF 0 (some 1)),
      (Base.vari.shape, Instr.write 1 2 0 2 [.str 0 [], .str 9 [1, 2]]), (Shape.numeric, Instr.construct 0x81 (some 3)),
      (Shape.numeric, Instr.fb32Pair 9 9), (Shape.numeric, Instr.fb64Rle 15), (Shape.numeric, Instr.fb64lsbRsvd 8 14)],
      e.2.wellFormed = true ∧ e.2.fits e.1 = true := by decide

theorem witness_DecodedPacketsEncodeBack :
    decodePacket .numeric [6, 0, 1, 0, 0, 0, 0, 0, 5, 0, 0, 0, 0, 0, 0, 0] = .ok (.skip 1 5) := by decide

theorem witness_FlagBytesFollowTheTables :
    0xA0 ≤ (0xA0#8).toNat ∧ 0xF0 ≤ (0xF0#8).toNat ∧ 0x90 ≤ (0x90#8).toNat ∧ 0xA0 ≤ (0xFF#8).toNat := by decide

theorem witness_DescriptorsNameTheirConfiguration :
    (cfgOf .fb64 .writer (List.replicate 15 .dfcm)).ok = true ∧ (none : Option U64).isSome = (0x1110#64).getLsbD 7 ∧
      parseDesc 0x1110 none = some (cfgOf .fb32 .writer [.dd]) := by decide

theorem witness_NibblesAndRunBytesGiveBack :
    (0xFFFFFFFF#64).toNat < 2 ^ (8 * Variant.byteWidth .fb32) ∧ (0xFFFFFFFFFFFFFFFF#64).toNat < 2 ^ (8 * Variant.byteWidth .fb64) ∧
      (Variant.rleMin .fb32 ≤ 3 ∧ 98 ≤ Variant.maxRun .fb32) ∧ (Variant.rleMin .fb64 ≤ 1 ∧ 16 ≤ Variant.maxRun .fb64) ∧
      Variant.rleMin .fb64lsb ≤ 3 ∧ 114 ≤ Variant.maxRun .fb64lsb := by decide

theorem witness_NibblesUseTheFewestBytes :
    (0x10000#64).toNat < 2 ^ (8 * Variant.byteWidth .fb32) ∧ nibBytes .fb32 6 ≤ Variant.byteWidth .fb32 ∧
      [0#8, 0#8, 1#8].length = nibBytes .fb32 6 ∧ nibValue .fb32 6 [0, 0, 1] = 0x10000 := by decide

theorem small_lt {n : Nat} (h : n ≤ 1000) : n < 2 ^ 64 := by omega

theorem witness_FlagByteRoundTrip :
    (∀ x ∈ [0#64, 0#64, 0#64, 0xFFFFFFFF#64], x.toNat < 2 ^ (8 * Variant.byteWidth .fb32)) ∧
      (fbEncode .fb32 [0, 0, 0, 0xFFFFFFFF]).length < 2 ^ 64 ∧
      (Work.reset (cfgOf .fb32 .reader [])).cur.get .data = 0 ∧ (Work.reset (cfgOf .fb32 .reader [])).carry = 0 :=
  ⟨by simp [Variant.byteWidth], small_lt (by decide), by decide, by decide⟩

theorem witness_RunUnitsComplete :
    (5 ≤ (5#3).toNat ∧ AtPort (portState .fb32 [0xA0]) port0 (readerInst .fb32) .fb32 (chanOf [0xA0])) ∧
      AtPort (portState .fb64 [0xF0]) port0 (readerInst .fb64) .fb64 (chanOf [0xF0]) ∧
      9 ≤ (9#4).toNat ∧ AtPort (portState .fb64lsb [0x90]) port0 (readerInst .fb64lsb) .fb64lsb (chanOf [0x90]) :=
  ⟨⟨by decide, at_port0 _ rfl⟩, at_port0 _ rfl, by decide, at_port0 _ rfl⟩

/-- Each variant at its largest nibble, the data bytes just there (the offset 0 is RD_CUR: `cur_port0`). -/
theorem witness_SingleUnitsComplete :
    ((9#4).toNat / 2 ≤ 4 ∧
      AtPort (portState .fb32 [0x9F, 1, 2, 3, 4]) port0 (readerInst .fb32) .fb32 (chanOf [0x9F, 1, 2, 3, 4]) ∧
      0 + 1 + (9#4).toNat / 2 ≤ (chanOf [0x9F, 1, 2, 3, 4]).bytes.length) ∧
    (0xE#4 ≠ 0xF#4 ∧ AtPort (portState .fb64 [0xEF, 1, 2, 3, 4, 5, 6, 7]) port0 (readerInst .fb64) .fb64
        (chanOf [0xEF, 1, 2, 3, 4, 5, 6, 7]) ∧
      0 + 1 + ((0xE#4).toNat % 8 + 1) ≤ (chanOf [0xEF, 1, 2, 3, 4, 5, 6, 7]).bytes.length) ∧
    (8#4).toNat ≤ 8 ∧ AtPort (portState .fb64lsb [0x8F, 1, 2, 3, 4, 5, 6, 7, 8]) port0 (readerInst .fb64lsb) .fb64lsb
        (chanOf [0x8F, 1, 2, 3, 4, 5, 6, 7, 8]) ∧
      0 + 1 + (8#4).toNat ≤ (chanOf [0x8F, 1, 2, 3, 4, 5, 6, 7, 8]).bytes.length :=
  ⟨⟨by decide, at_port0 _ rfl, by decide⟩, ⟨by decide, at_port0 _ rfl, by decide⟩, by decide, at_port0 _ rfl, by decide⟩

/-- Nibbles at both ends of their range, the data bytes just there. -/
theorem witness_PairUnitsComplete :
    ((9#4).toNat / 2 ≤ 4 ∧ (0#4).toNat / 2 ≤ 4 ∧
      AtPort (portState .fb32 [0x90, 1, 2, 3, 4]) port0 (readerInst .fb32) .fb32 (chanOf [0x90, 1, 2, 3, 4]) ∧
      0 + 1 + (9#4).toNat / 2 + (0#4).toNat / 2 ≤ (chanOf [0x90, 1, 2, 3, 4]).bytes.length) ∧
    (8#4 ≠ 0xF#4 ∧ 0#4 ≠ 0xF#4 ∧
      AtPort (portState .fb64 [0x80, 1, 2]) port0 (readerInst .fb64) .fb64 (chanOf [0x80, 1, 2]) ∧
      0 + 1 + ((8#4).toNat % 8 + 1) + ((0#4).toNat % 8 + 1) ≤ (chanOf [0x80, 1, 2]).bytes.length) ∧
    (0#4).toNat ≤ 8 ∧ (8#4).toNat ≤ 8 ∧
      AtPort (portState .fb64lsb [0x08, 1, 2, 3, 4, 5, 6, 7, 8]) port0 (readerInst .fb64lsb) .fb64lsb
        (chanOf [0x08, 1, 2, 3, 4, 5, 6, 7, 8]) ∧
      0 + 1 + (0#4).toNat + (8#4).toNat ≤ (chanOf [0x08, 1, 2, 3, 4, 5, 6, 7, 8]).bytes.length :=
  ⟨⟨by decide, by decide, at_port0 _ rfl, by decide⟩, ⟨by decide, by decide, at_port0 _ rfl, by decide⟩, by decide,
    by decide, at_port0 _ rfl, by decide⟩

/-- One state for each of the eight cases, at the boundary of its nibbles, one data byte short. -/
theorem witness_CorruptUnitsFault :
    readingOp port0.op = true ∧
    ((9#4).toNat / 2 ≤ 4 ∧ 10 ≤ (10#4).toNat ∧ (10#4).toNat ≤ 14 ∧
      AtPort (portState .fb32 [0x9A]) port0 (readerInst .fb32) .fb32 (chanOf [0x9A])) ∧
    ((8#4).toNat ≤ 8 ∧ 9 ≤ (14#4).toNat ∧ (14#4).toNat ≤ 14 ∧
      AtPort (portState .fb64lsb [0x8E]) port0 (readerInst .fb64lsb) .fb64lsb (chanOf [0x8E])) ∧
    ((2#4).toNat / 2 ≤ 4 ∧ AtPort (portState .fb32 [0x2F]) port0 (readerInst .fb32) .fb32 (chanOf [0x2F]) ∧
      (chanOf [0x2F]).bytes.length < 0 + 1 + (2#4).toNat / 2) ∧
    (0#4 ≠ 0xF#4 ∧ AtPort (portState .fb64 [0x0F]) port0 (readerInst .fb64) .fb64 (chanOf [0x0F]) ∧
      (chanOf [0x0F]).bytes.length < 0 + 1 + ((0#4).toNat % 8 + 1)) ∧
    ((1#4).toNat ≤ 8 ∧ AtPort (portState .fb64lsb [0x1F]) port0 (readerInst .fb64lsb) .fb64lsb (chanOf [0x1F]) ∧
      (chanOf [0x1F]).bytes.length < 0 + 1 + (1#4).toNat) ∧
    ((2#4).toNat / 2 ≤ 4 ∧ AtPort (portState .fb32 [0x22, 1]) port0 (readerInst .fb32) .fb32 (chanOf [0x22, 1]) ∧
      (chanOf [0x22, 1]).bytes.length < 0 + 1 + (2#4).toNat / 2 + (2#4).toNat / 2) ∧
    (0#4 ≠ 0xF#4 ∧ AtPort (portState .fb64 [0, 1]) port0 (readerInst .fb64) .fb64 (chanOf [0, 1]) ∧
      (chanOf [0, 1]).bytes.length < 0 + 1 + ((0#4).toNat % 8 + 1) + ((0#4).toNat % 8 + 1)) ∧
    (1#4).toNat ≤ 8 ∧ AtPort (portState .fb64lsb [0x11, 1]) port0 (readerInst .fb64lsb) .fb64lsb (chanOf [0x11, 1]) ∧
      (chanOf [0x11, 1]).bytes.length < 0 + 1 + (1#4).toNat + (1#4).toNat :=
  ⟨rfl, ⟨by decide, by decide, by decide, at_port0 _ rfl⟩, ⟨by decide, by decide, by decide, at_port0 _ rfl⟩,
    ⟨by decide, at_port0 _ rfl, by decide⟩, ⟨by decide, at_port0 _ rfl, by decide⟩,
    ⟨by decide, at_port0 _ rfl, by decide⟩, ⟨by decide, at_port0 _ rfl, by decide⟩,
    ⟨by decide, at_port0 _ rfl, by decide⟩, by decide, at_port0 _ rfl, by decide⟩

/-- A reader at the port with a carry. -/
def carryInst (c : Int) : Instance := { readerInst .fb32 with work.carry := c, work.carryVal := if c = 1 then 5 else 0 }

def carryState (c : Int) : State := { portState .fb32 [0x20] with insts := [carryInst c] }

theorem witness_CarriedWordsComeFirst :
    (AtPort (carryState 1) port0 (carryInst 1) .fb32 (chanOf [0x20]) ∧ (carryInst 1).work.carry = 1) ∧
    AtPort (carryState (-1)) port0 (carryInst (-1)) .fb32 (chanOf [0x20]) ∧ (carryInst (-1)).work.carry < 0 :=
  ⟨⟨⟨rfl, rfl, rfl, rfl, rfl, rfl⟩, rfl⟩, ⟨rfl, rfl, rfl, rfl, rfl, rfl⟩, by decide⟩

theorem witness_UnitStepIsTheReaderWordStep :
    readingOp port0.op = true ∧
    (AtPort (portState .fb32 [0xA0]) port0 (readerInst .fb32) .fb32 (chanOf [0xA0]) ∧
      (fbReadWord .fb32 port0.slot [0xA0] (readerInst .fb32).work).1 = .value 0) ∧
    (AtPort (portState .fb32 []) port0 (readerInst .fb32) .fb32 (chanOf []) ∧
      (fbReadWord .fb32 port0.slot [] (readerInst .fb32).work).1 = .eos) ∧
    AtPort (portState .fb32 [0x2F]) port0 (readerInst .fb32) .fb32 (chanOf [0x2F]) ∧
      (fbReadWord .fb32 port0.slot [0x2F] (readerInst .fb32).work).1 = .corrupt .data 0 :=
  ⟨rfl, ⟨at_port0 _ rfl, by decide⟩, ⟨at_port0 _ rfl, by decide⟩, at_port0 _ rfl, by decide⟩

theorem witness_ReaderEndsOnlyAtTheEnd :
    ∀ ch ∈ [[], [0x0A#8], [0x2F#8], [0x22#8, 1#8]],
      (readerInst .fb32).work.carry ≤ 1 ∧ ((readerInst .fb32).work.cur.get .data).toNat ≤ ch.length := by decide

theorem witness_TransformRoundTrip :
    (1 ≤ 1 ∧ 1 ≤ 64 ∧ ∀ x ∈ [0#64, 1#64], x.toNat < 2 ^ 1) ∧ 1 ≤ 64 ∧ 64 ≤ 64 ∧
      ∀ x ∈ [0#64, 0xFFFFFFFFFFFFFFFF#64], x.toNat < 2 ^ 64 := by simp

/-- A DD stage with f items buffered. -/
def ddFilled (f : Nat) : DdRegs :=
  { DdRegs.reset with fill := f, frame := List.replicate f 5 ++ List.replicate (16 - f) 0 }

/-- DD stages at each bound of DD_FILL; a DD frame of two; a DFCM stage whose table holds x at HASH, and a flush of XOR and
DFCM. -/
theorem witness_TransformStagesPushTheirWords :
    (((ddFilled 0).frame.length = 16 ∧ (ddFilled 0).fill < 15 ∧ (ddFilled 0).fill = 0) ∧
      ((ddFilled 14).frame.length = 16 ∧ (ddFilled 14).fill < 15) ∧
      ((ddFilled 15).frame.length = 16 ∧ (ddFilled 15).fill = 15 ∧ 0 < (ddFilled 15).fill ∧ (ddFilled 15).fill < 16) ∧
      (ddFilled 1).frame.length = 16 ∧ 0 < (ddFilled 1).fill ∧ (ddFilled 1).fill < 16) ∧
    (1 ≤ 32 ∧ 32 ≤ 64 ∧ [5#64, 3#64] ≠ [] ∧ 1 < [5#64, 3#64].length) ∧ tableOk 8 [(0, 7#64), (255, 9#64)] = true ∧
      (StageRegs.xor 5).kind ≠ .dd ∧ (StageRegs.reset .dfcm).kind ≠ .dd := by decide

theorem witness_BitWidthPacking :
    2 ∈ [1, 2, 4, 8, 16] ∧ (2 < [1#64, 2#64, 3#64].length ∧ 3 ≤ 3 ∧ (3 + 1) * 2 ≤ 8 * (bwEncode 2 [1, 2, 3]).length) ∧
      8 * [0x39#8].length < 2 ^ 64 ∧ (Work.reset (cfgOf .bw2 .reader [])).bwRidx = 0 := by decide

theorem witness_VariableLengthStreams :
    (cfgOf .vari .writer []).base = .vari ∧ (cfgOf .vard .writer []).base = .vard := by decide

theorem witness_StreamIsTheCompositionOfItsStages :
    (cfgOf .bw4 .writer [.xor, .dd]).base.strings = false ∧
      ∀ x ∈ [Item.num 0x1A, Item.num 0xFF], x.fits (cfgOf .bw4 .writer [.xor, .dd]).base = true := by decide

theorem witness_PipelineRoundTrip :
    (testParams.legal = true ∧ (cfgOf .fb32 .reader [.dd, .dfcm]).ok = true ∧
      (∀ x ∈ [Item.num 0xFFFFFFFF, Item.num 0], x.exact .fb32 = true) ∧
      8 * (emittedE testParams (cfgOf .fb32 .reader [.dd, .dfcm]) [.num 0xFFFFFFFF, .num 0]).data.length < 2 ^ 64 ∧
      (emittedE testParams (cfgOf .fb32 .reader [.dd, .dfcm]) [.num 0xFFFFFFFF, .num 0]).lens.length < 2 ^ 64) ∧
    ((cfgOf .bw1 .reader [.xor]).ok = true ∧ (∀ x ∈ [Item.num 1], x.exact .bw1 = true) ∧
      8 * (emittedE testParams (cfgOf .bw1 .reader [.xor]) [.num 1]).data.length < 2 ^ 64 ∧
      (emittedE testParams (cfgOf .bw1 .reader [.xor]) [.num 1]).lens.length < 2 ^ 64) ∧
    (cfgOf .vard .reader []).ok = true ∧ (∀ x ∈ [Item.str [1, 2], Item.str []], x.exact .vard = true) ∧
      8 * (emittedE testParams (cfgOf .vard .reader []) [.str [1, 2], .str []]).data.length < 2 ^ 64 ∧
      (emittedE testParams (cfgOf .vard .reader []) [.str [1, 2], .str []]).lens.length < 2 ^ 64 :=
  ⟨⟨by decide, by decide, by decide, small_lt (by decide), small_lt (by decide)⟩,
    ⟨by decide, by decide, small_lt (by decide), small_lt (by decide)⟩,
    by decide, by decide, small_lt (by decide), small_lt (by decide)⟩

theorem witness_StagingInClosedForm : ({ bytes := [1], gen := 0, seen := 0, stage := [2, 3] } : Lane).stage.length < 3 := by
  decide

/-! ### Writers -/

theorem writeCommand_ones (inst : U16) (x : Item) : WriteCommand inst [x] (.writeOne inst x.operand) :=
  .inl ⟨x, rfl, rfl⟩

/-- A WRITE of two numbers in the middle of a buffer. -/
def write2 (a b : U64) : Instr := .write 1 4 1 2 [.num 7, .num a, .num b, .str 3 []]

theorem writeCommand_write2 (a b : U64) : WriteCommand 1 [.num a, .num b] (write2 a b) :=
  .inr ⟨4, 1, 2, _, rfl, rfl, by decide, rfl⟩

/-- The hypotheses that every run of commands from a fresh FB32 writer shares. -/
theorem witness_fresh_writer :
    (writerState .fb32).Inv = true ∧ (writerState .fb32).inst? 1 = some (boundInst .fb32 .writer .empty []) ∧
      (boundInst .fb32 .writer .empty []).cfg.role = .writer ∧ (boundInst .fb32 .writer .empty []).life = .empty ∧
      (boundInst .fb32 .writer .empty []).work = Work.reset (boundInst .fb32 .writer .empty []).cfg ∧
      EachLane (writerState .fb32) (boundInst .fb32 .writer .empty []) (fun _ l => l.bytes = []) ∧
      Synced (writerState .fb32) (boundInst .fb32 .writer .empty []) := by
  refine ⟨by decide, by decide, rfl, rfl, rfl, ?_, synced_of_check (by decide)⟩
  exact eachLane_of_check (fun _ l => l.bytes == []) (fun _ l h => by simpa using h) (by decide)

def s1 : State := after (write2 0 5) (writerState .fb32)
def s2 : State := after (.commit 1) s1
def s2f : State := after (.flush 1) s1
def s3f : State := after (write2 0 0) s2f
def s4f : State := after (.commit 1) s3f
def s3r : State := after (.resume 1 0 none 2) s2
def s4r : State := after (write2 0 0) s3r
def s5r : State := after (.commit 1) s4r

/-- The runs; with `witness_fresh_writer` and `writeCommand_write2`, all the hypotheses. -/
theorem witness_CommittedChannelHoldsTheStream :
    (∀ y ∈ [Item.num 0, Item.num 5] ++ [Item.num 0, Item.num 0], y.fits .fb32 = true) ∧
    RunsOk (write2 0 5) (writerState .fb32) s1 ∧ RunsOk (.commit 1) s1 s2 ∧
    RunsOk (.flush 1) s1 s2f ∧ RunsOk (write2 0 0) s2f s3f ∧ RunsOk (.commit 1) s3f s4f ∧
    testParams.dfcmBits = { testParams with stageBytes := 1 }.dfcmBits :=
  ⟨by decide, runsOk_after (by decide), runsOk_after (by decide), runsOk_after (by decide), runsOk_after (by decide),
    runsOk_after (by decide), rfl⟩

theorem witness_ResumeContinuesTheStream :
    (writerState .fb32).params.channelMax < 2 ^ 61 ∧
    (boundInst .fb32 .writer .empty []).bind.data = some { chan := 0, seen := 0 } ∧
    (∀ y ∈ [Item.num 0, Item.num 5] ++ [Item.num 0, Item.num 0], y.fits .fb32 = true) ∧
    RunsOk (write2 0 5) (writerState .fb32) s1 ∧ RunsOk (.commit 1) s1 s2 ∧
    RunsOk (.resume 1 0 none (BitVec.ofNat 64 [Item.num 0, Item.num 5].length)) s2 s3r ∧
    RunsOk (write2 0 0) s3r s4r ∧ RunsOk (.commit 1) s4r s5r :=
  ⟨by decide, by decide, by decide, runsOk_after (by decide), runsOk_after (by decide), runsOk_after (by decide),
    runsOk_after (by decide), runsOk_after (by decide)⟩

theorem witness_WriteIsManyWriteOnes :
    (writerState .fb32).Inv = true ∧ (writerState .fb32).inst? 1 = some (boundInst .fb32 .writer .empty []) ∧
      WriteCommand 1 [.num 0, .num 5] (write2 0 5) ∧ (∀ y ∈ [Item.num 0, Item.num 5], y.fits .fb32 = true) ∧
      RunsOk (write2 0 5) (writerState .fb32) s1 :=
  ⟨by decide, by decide, writeCommand_write2 0 5, by decide, runsOk_after (by decide)⟩

theorem witness_SkipAndReadOnesAreARead :
    let s := readerState .fb32 [] [[0x20, 5]]
    s.Inv = true ∧ (1#64).toNat + (3#64).toNat ≤ (4#64).toNat ∧ exec (.read 1 4 1 3) s = .next (after (.read 1 4 1 3) s) ∧
      ((after (.read 1 4 1 3) s).lastStatus = 0 ∨ (after (.read 1 4 1 3) s).lastStatus = 1) :=
  ⟨by decide, by decide, exec_after (by decide), by decide⟩

/-! ### Creation, queries, INIT -/

theorem desc_low_bits (c : Cfg) : c.desc.toNat % 16 ≤ 10 := by
  have h : c.base.code ≤ 10 := by cases c.base <;> decide
  simp only [Cfg.desc, BitVec.toNat_ofNat]
  split_ifs <;> omega

/-- Two of three ids in use; a reserved BASE. -/
theorem witness_ConstructCreatesAnInstance :
    ((testState [] [readerInst .bool, readerInst .bw8]).params.legal = true ∧ (cfgOf .vari .writer []).ok = true ∧
      (testState [] [readerInst .bool, readerInst .bw8]).insts.length <
        (testState [] [readerInst .bool, readerInst .bw8]).params.maxInstances) ∧
    (none : Option U64).isSome = (0x000B#64).getLsbD 7 ∧
      ¬∃ cfg : Cfg, cfg.ok = true ∧ cfg.desc = 0x000B#64 ∧ cfg.itemCount = none := by
  refine ⟨by decide, by decide, ?_⟩
  rintro ⟨cfg, -, h, -⟩
  have := desc_low_bits cfg
  rw [h] at this
  exact absurd this (by decide)

theorem witness_CreateMakesTheCounterpart :
    ((writerState .fb32).params.legal = true ∧
      (writerState .fb32).inst? 1 = some (boundInst .fb32 .writer .empty []) ∧
      (boundInst .fb32 .writer .empty []).life ≠ .faulted ∧ (writerState .fb32).insts.length < 3 ∧
      (boundInst .fb32 .writer .empty []).cfg.role = .writer) ∧
    (readerState .fb32 [] [[]]).inst? 1 = some (readerInst .fb32) ∧ (readerInst .fb32).life ≠ .faulted ∧
      (readerInst .fb32).cfg.role = .reader ∧ (readerState .fb32 [] [[]]).insts.length < 3 := by decide

theorem witness_QueriesAnswer :
    (testState [] [boundInst .fb64 .reader .faulted []]).inst? 1 = some (boundInst .fb64 .reader .faulted []) := by decide

def freshInst (b : Base) (role : Role) : Instance := Instance.fresh (cfgOf b role [])

theorem witness_InitBindsAndResets :
    ((testState [[1]] [freshInst .fb32 .reader]).inst? 1 = some (freshInst .fb32 .reader) ∧
      (freshInst .fb32 .reader).life ≠ .faulted ∧
      ChannelOperands (testState [[1]] [freshInst .fb32 .reader]) (freshInst .fb32 .reader) 0 none) ∧
    (testState [[], []] [freshInst .vard .writer]).inst? 1 = some (freshInst .vard .writer) ∧
      (freshInst .vard .writer).life ≠ .faulted ∧
      ChannelOperands (testState [[], []] [freshInst .vard .writer]) (freshInst .vard .writer) 0 (some 1) ∧
      (testState [[], []] [freshInst .vard .writer]).mem.len 0 = 0 ∧
      ∀ c1, some 1 = some c1 → (testState [[], []] [freshInst .vard .writer]).mem.len c1 = 0 :=
  ⟨⟨by decide, by decide, operands_one (by decide) (by decide)⟩, by decide, by decide,
    operands_two (by decide) (by decide) (by decide), by decide, fun c h => by cases h; decide⟩

/-! ### Writing, reading, committing -/

/-- A writer of two bytes at most, staging one byte. -/
def tinyParams : Params := { testParams with stageBytes := 1, channelMax := 2 }

def tinyState (x : Instance) : State := { testState [[]] [x] with params := tinyParams }

/-- The bytes that reach slot sl's channel when the items are written stay within CHANNEL_MAX. -/
def roomCheck (s : State) (x : Instance) (items : List Item) (sl : Slot) (l : Lane) : Bool :=
  decide (l.bytes.length + flushedLen s.params.stageBytes l ((writeItems s.params x.cfg x.work items).2.get sl).length ≤
    s.params.channelMax)

def commitCheck (s : State) (x : Instance) (sl : Slot) (l : Lane) : Bool :=
  decide (l.bytes.length + l.stage.length + ((commitFlush s.params x.cfg x.work).2.get sl).length ≤ s.params.channelMax)

def w32 (life : Life) : Instance := boundInst .fb32 .writer life []

/-- [0, 5] is 02 05, exactly CHANNEL_MAX bytes; [5] as a WRITE_ONE. -/
theorem witness_WritesComplete :
    (tinyState (w32 .empty)).Inv = true ∧ (tinyState (w32 .empty)).inst? 1 = some (w32 .empty) ∧
      (w32 .empty).cfg.role = .writer ∧ (w32 .empty).life = .empty ∧ Synced (tinyState (w32 .empty)) (w32 .empty) ∧
      (WriteCommand 1 [.num 0, .num 5] (write2 0 5) ∧ (∀ y ∈ [Item.num 0, Item.num 5], y.fits .fb32 = true) ∧
        RoomFor (w32 .empty) 2 ∧
        EachLane (tinyState (w32 .empty)) (w32 .empty) (fun sl l =>
          roomCheck (tinyState (w32 .empty)) (w32 .empty) [.num 0, .num 5] sl l = true)) ∧
      WriteCommand 1 [.num 5] (.writeOne 1 (.num 5)) ∧
        EachLane (tinyState (w32 .empty)) (w32 .empty) (fun sl l =>
          roomCheck (tinyState (w32 .empty)) (w32 .empty) [.num 5] sl l = true) :=
  ⟨by decide, by decide, rfl, rfl, synced_of_check (by decide),
    ⟨writeCommand_write2 0 5, by decide, (fun _ h => nomatch h), eachLane_of_check _ (fun _ _ h => h) (by decide)⟩,
    writeCommand_ones 1 (.num 5), eachLane_of_check _ (fun _ _ h => h) (by decide)⟩

/-- n = 1 ends done, n = 3 at the end of the stream. -/
theorem witness_ReadsComplete :
    let s := readerState .fb32 [] [[0x20, 5]]
    let x := readerInst .fb32
    s.Inv = true ∧ s.inst? 1 = some x ∧ x.cfg.role = .reader ∧ x.life = .reading ∧ Synced s x ∧
      (readItems s.params x.cfg (s.chanBytes x) (1#64).toNat { items := x.items, work := x.work }).1 = .done ∧
      (readItems s.params x.cfg (s.chanBytes x) (3#64).toNat { items := x.items, work := x.work }).1 = .eos ∧
      (0#64).toNat + (3#64).toNat ≤ (3#64).toNat :=
  ⟨by decide, by decide, rfl, rfl, synced_of_check (by decide), by decide, by decide, by decide⟩

/-- A held word 5: its SINGLE unit 2F 05 is exactly CHANNEL_MAX bytes. -/
def held : Instance := { w32 .writing with items := 1, work.fbw := { zrun := 0, pv := true, pend := 5 } }

theorem witness_CommitCompletes :
    ((tinyState held).Inv = true ∧ (tinyState held).inst? 1 = some held ∧ held.cfg.role = .writer ∧ held.life = .writing ∧
      Synced (tinyState held) held ∧ EachLane (tinyState held) held (fun sl l => commitCheck (tinyState held) held sl l = true)) ∧
    (tinyState (w32 .committed)).Inv = true ∧ (tinyState (w32 .committed)).inst? 1 = some (w32 .committed) ∧
      Synced (tinyState (w32 .committed)) (w32 .committed) ∧ (w32 .committed).life = .committed :=
  ⟨⟨by decide, by decide, rfl, rfl, synced_of_check (by decide), eachLane_of_check _ (fun _ _ h => h) (by decide)⟩,
    by decide, by decide, synced_of_check (by decide), rfl⟩

/-- Two bytes in a STAGE of three, which fill the channel. -/
def stagedInst : Instance := { w32 .writing with items := 2, work.stage.data := [2, 5] }

def stagedState : State := { testState [[]] [stagedInst] with params := { tinyParams with stageBytes := 3 } }

theorem witness_FlushMovesTheStagedBytes :
    stagedState.Inv = true ∧ stagedState.inst? 1 = some stagedInst ∧ stagedInst.cfg.role = .writer ∧
      stagedInst.life = .writing ∧ Synced stagedState stagedInst ∧
      EachLane stagedState stagedInst (fun _ l => l.bytes.length + l.stage.length ≤ stagedState.params.channelMax) :=
  ⟨by decide, by decide, rfl, rfl, synced_of_check (by decide),
    eachLane_of_check (fun _ l => decide (l.bytes.length + l.stage.length ≤ stagedState.params.channelMax))
      (fun _ _ h => of_decide_eq_true h) (by decide)⟩

theorem witness_ResetRewinds :
    (stagedState.Inv = true ∧ stagedState.inst? 1 = some stagedInst ∧ stagedInst.cfg.role = .writer ∧
      stagedInst.life = .writing) ∧
    (readerState .vard [] [[1], [0x1F, 1]]).Inv = true ∧
      (readerState .vard [] [[1], [0x1F, 1]]).inst? 1 = some (readerInst .vard) ∧ (readerInst .vard).cfg.role = .reader ∧
      (readerInst .vard).life = .reading := by decide

/-- V70 with n = 5. -/
theorem witness_ResumeRebuildsTheWriter :
    let s := testState [[0xA0, 0x20, 0x05, 0x0F]] [freshInst .fb32 .writer]
    let x := freshInst .fb32 .writer
    s.Inv = true ∧ s.inst? 1 = some x ∧ x.cfg.role = .writer ∧ x.life = .uninit ∧ ChannelOperands s x 0 none ∧
      (∀ c, x.cfg.itemCount = some c → (5#64).toNat ≤ c.toNat) ∧
      (readItems s.params { x.cfg with itemCount := none } (contents s 0 none) (5#64).toNat
        { items := 0, work := Work.reset x.cfg }).1 = .done ∧
      (emittedU s.params x.cfg [.num 0, .num 0, .num 0, .num 5, .num 0]).data.length ≤ s.params.channelMax ∧
      (emittedU s.params x.cfg [.num 0, .num 0, .num 0, .num 5, .num 0]).lens.length ≤ s.params.channelMax :=
  ⟨by decide, by decide, rfl, rfl, operands_one (by decide) (by decide), (fun _ h => nomatch h), by decide, by decide,
    by decide⟩

/-! ### Faults -/

def faultedInst : Instance :=
  { readerInst .fb32 with life := .faulted, fault := { code := 2, opcode := 4, slot := 0, offset := 0 } }

theorem witness_FaultedInstancesRefuse :
    Instr.command? (.reset 1) = some (.reset, 1) ∧ Opcode.reset ≠ .getChannelCount ∧ Opcode.reset ≠ .getItemCount ∧
      (testState [[]] [faultedInst]).inst? 1 = some faultedInst ∧ faultedInst.life = .faulted := by decide

/-- WRITE_ONE in UNINIT, COMMIT of a reader (V84); a writer's INIT on a channel that is not empty: slot 0, slot 1, both (CH0 =
CH1), slot 0 beside an id that names no channel. -/
theorem witness_ProtocolViolationsFault :
    (Instr.command? (.writeOne 1 (.num 0)) = some (.writeOne, 1) ∧
      (testState [] [freshInst .fb32 .writer]).inst? 1 = some (freshInst .fb32 .writer) ∧
      (freshInst .fb32 .writer).life ≠ .faulted ∧ ¬listedRow .writeOne .writer .uninit ∧ ¬listedRow .commit .reader .reading) ∧
    ((testState [[0x2F, 5]] [freshInst .fb32 .writer]).inst? 1 = some (freshInst .fb32 .writer) ∧
      (freshInst .fb32 .writer).cfg.role = .writer ∧
      ((none : Option U64).isSome = true ↔ (freshInst .fb32 .writer).cfg.base.channelCount = 2) ∧
      (testState [[0x2F, 5]] [freshInst .fb32 .writer]).mem.len 0 ≠ 0) ∧
    let s := testState [[], [1]] [freshInst .vard .writer]
    (s.inst? 1 = some (freshInst .vard .writer) ∧ (freshInst .vard .writer).life ≠ .faulted ∧
      ((some (1#64)).isSome = true ↔ (freshInst .vard .writer).cfg.base.channelCount = 2)) ∧
      (∃ c1, some (1#64) = some c1 ∧ s.mem.len c1 ≠ 0) ∧ s.mem.len 1 ≠ 0 ∧ s.mem.get 9 = none :=
  ⟨⟨by decide, by decide, by decide, by unfold listedRow; decide, by unfold listedRow; decide⟩,
    ⟨by decide, rfl, by decide, by decide⟩, ⟨by decide, by decide, by decide⟩, ⟨1, rfl, by decide⟩, by decide, by decide⟩

/-- A writer with two of three items written. -/
def bounded : Instance := { w32 .writing with items := 2, cfg.itemCount := some 3 }

/-- The last operand OPW refuses and a padding byte; OFFSET + COUNT one past BUFLEN; one item past ITEMCOUNT. -/
theorem witness_InvalidItemArgumentsFault :
    ((testState [[]] [bounded]).Inv = true ∧ (testState [[]] [bounded]).inst? 1 = some bounded ∧
      bounded.cfg.role = .writer ∧ bounded.life = .writing) ∧
    ((nums [1, 2]).length = (2#64).toNat ∧ (2#64).toNat < (1#64).toNat + (2#64).toNat) ∧
    BadOperand .fb32 (.num 0x100000000) ∧ BadOperand .bw4 (.num 0x100) ∧ BadOperand .vari (.str 7 [0x0100000000000000]) ∧
    ((nums [5, 0x100000000]).length = (2#64).toNat ∧ (0#64).toNat + (2#64).toNat ≤ (2#64).toNat ∧
      (∀ o ∈ ((nums [5, 0x100000000]).drop (0#64).toNat).take (2#64).toNat,
        o.wellFormed = true ∧ o.fits bounded.cfg.base.shape = true) ∧
      Operand.num 0x100000000 ∈ ((nums [5, 0x100000000]).drop (0#64).toNat).take (2#64).toNat) ∧
    (WriteCommand 1 [.num 0, .num 5] (write2 0 5) ∧ Instr.command? (write2 0 5) = some (.write, 1) ∧
      (∀ y ∈ [Item.num 0, Item.num 5], y.fits .fb32 = true) ∧ ¬RoomFor bounded 2) ∧
    (readerState .fb32 [] [[]]).Inv = true ∧ (readerState .fb32 [] [[]]).inst? 1 = some (readerInst .fb32) ∧
      (readerInst .fb32).cfg.role = .reader ∧ (readerInst .fb32).life = .reading :=
  ⟨by decide, by decide, ⟨rfl, by decide⟩, ⟨rfl, by decide⟩, ⟨rfl, rfl, 7, by decide, 1, by decide, by decide⟩, by decide,
    ⟨writeCommand_write2 0 5, rfl, by decide, fun h => absurd (h 3 rfl) (by decide)⟩, by decide⟩

/-- No channel CH0, no channel CH1, CH0 = CH1, every channel empty; ROWS one past ITEMCOUNT. -/
theorem witness_InvalidChannelArgumentsFault :
    let s := testState [[], []] [freshInst .vard .writer]
    let x := freshInst .vard .writer
    (s.inst? 1 = some x ∧ ((some (1#64)).isSome = true ↔ x.cfg.base.channelCount = 2) ∧ x.life ≠ .faulted ∧
      x.cfg.role = .writer ∧ x.life = .uninit) ∧
    s.mem.get 2 = none ∧ (∃ c1, some (2#64) = some c1 ∧ s.mem.get c1 = none) ∧ (∃ c1, some (0#64) = some c1 ∧ c1 = 0) ∧
    (s.mem.len 0 = 0 ∧ s.mem.len 1 = 0 ∧ s.mem.len 2 = 0) ∧
    ChannelOperands s { x with cfg.itemCount := some 3 } 0 (some 1) ∧ (3#64).toNat < (4#64).toNat :=
  ⟨⟨by decide, by decide, by decide, rfl, rfl⟩, by decide, ⟨2, rfl, by decide⟩, ⟨0, rfl, rfl⟩,
    ⟨by decide, by decide, by decide⟩,
    operands_two (by decide) (by decide) (by decide), by decide⟩

/-- A FB64 writer in UNINIT, a channel of CHANNEL_MAX bytes: SINGLE(5), RLE(16), PAIR(6, 7). -/
def longerState : State :=
  { testState [[0x0F, 0x05, 0xFF, 0x00, 0x06, 0x07]] [freshInst .fb64 .writer] with params.channelMax := 6 }

def longerItems : List Item := [.num 5] ++ List.replicate 16 (.num 0) ++ [.num 6, .num 7]

/-- One byte more than CHANNEL_MAX: a WRITE of [0, 5] after one byte, a COMMIT of a held word after one byte, a FLUSH of two
bytes after one byte. -/
theorem witness_ChannelMaxIsKept :
    let s := { testState [[7]] [held] with params := tinyParams }
    let t := { testState [[7]] [w32 .writing] with params := tinyParams }
    let u := { stagedState with mem := s.mem }
    let l : Lane := { bytes := [7], gen := 0, seen := 0, stage := [] }
    let m : Lane := { l with stage := [2, 5] }
    (s.Inv = true ∧ s.inst? 1 = some held ∧ held.cfg.role = .writer ∧ held.life = .writing ∧ .data ∈ held.cfg.base.slots ∧
      s.lane held .data = some l ∧
      s.params.channelMax < l.bytes.length + l.stage.length + ((commitFlush s.params held.cfg held.work).2.get .data).length) ∧
    (t.Inv = true ∧ t.inst? 1 = some (w32 .writing) ∧ t.lane (w32 .writing) .data = some l ∧
      RoomFor (w32 .writing) [Item.num 0, Item.num 5].length ∧
      t.params.channelMax < l.bytes.length + flushedLen t.params.stageBytes l
        ((writeItems t.params (w32 .writing).cfg (w32 .writing).work [.num 0, .num 5]).2.get .data).length) ∧
    u.Inv = true ∧ u.inst? 1 = some stagedInst ∧ stagedInst.cfg.role = .writer ∧ stagedInst.life = .writing ∧
      u.lane stagedInst .data = some m ∧ u.params.channelMax < m.bytes.length + m.stage.length :=
  ⟨⟨by decide, by decide, rfl, rfl, by decide, by decide, by decide⟩,
    ⟨by decide, by decide, by decide, (fun _ h => nomatch h), by decide⟩, by decide, by decide, rfl, rfl, by decide, by decide⟩

/-- One byte more than CHANNEL_MAX: RESUME re-encodes [5, sixteen zeros, 6, 7] as PAIR(5, 0), RLE(15), PAIR(6, 7). -/
theorem witness_ChannelMaxIsKept_resume :
    let x := freshInst .fb64 .writer
    longerState.Inv = true ∧ longerState.inst? 1 = some x ∧ x.cfg.role = .writer ∧ x.life = .uninit ∧
      ChannelOperands longerState x 0 none ∧ (∀ c, x.cfg.itemCount = some c → (19#64).toNat ≤ c.toNat) ∧
      (let e := readItems longerState.params { x.cfg with itemCount := none } (contents longerState 0 none) (19#64).toNat
          { items := 0, work := Work.reset x.cfg }
       e = (.done, longerItems, e.2.2)) ∧
      longerState.params.channelMax < (emittedU longerState.params x.cfg longerItems).data.length :=
  ⟨by decide, by decide, rfl, rfl, operands_one (by decide) (by decide), (fun _ h => nomatch h),
    by decide, by decide⟩

/-- A state whose channel 0 was changed after the instance synchronised with it. -/
def staleState (x : Instance) : State :=
  { testState [[]] [x] with mem := { chans := [{ id := 0, bytes := [], gen := 1 }] } }

/-- A stale slot 0 of a reader and of writers; slot 1 as the least stale slot of VARD. -/
theorem witness_ChannelHazardsFault :
    (∀ x ∈ [readerInst .fb32, w32 .empty, w32 .writing, w32 .committed],
      (staleState x).Inv = true ∧ (staleState x).inst? 1 = some x) ∧
    (∀ x ∈ [readerInst .fb32, w32 .empty, w32 .writing, w32 .committed], LeastStale (staleState x) x .data) ∧
    EachLane (staleState (w32 .writing)) (w32 .writing)
      (fun sl l => roomCheck (staleState (w32 .writing)) (w32 .writing) [.num 0, .num 5] sl l = true) ∧
    EachLane (staleState (w32 .writing)) (w32 .writing)
      (fun sl l => commitCheck (staleState (w32 .writing)) (w32 .writing) sl l = true) ∧
    LeastStale { readerState .vard [] [[], []] with
      mem := { chans := [{ id := 0, bytes := [], gen := 0 }, { id := 1, bytes := [], gen := 1 }] } }
      (readerInst .vard) .lens := by
  refine ⟨by decide, ?_, eachLane_of_check _ (fun _ _ h => h) (by decide), eachLane_of_check _ (fun _ _ h => h) (by decide),
    by decide, ⟨{ chan := 1, seen := 0 }, by decide, by decide⟩, ?_⟩
  · intro x hx
    simp only [List.mem_cons, List.not_mem_nil, or_false] at hx
    rcases hx with rfl | rfl | rfl | rfl <;>
      exact ⟨by decide, ⟨{ chan := 0, seen := 0 }, by decide, by decide⟩, fun h => nomatch h⟩
  · intro _ b hb
    have : b = { chan := 0, seen := 0 } := by
      have h : (readerInst .vard).bind.get .data = some { chan := 0, seen := 0 } := by decide
      rw [h] at hb
      exact (Option.some.inj hb).symm
    subst this
    decide

/-- V5 and V70: CorruptStream in a reader and in a RESUME; ResumeShort with one row too many. -/
theorem witness_ExecutionFaultsLeaveTheChannels :
    (let s := readerState .fb32 [] [[0x2A, 5]]
     let x := readerInst .fb32
     s.Inv = true ∧ s.inst? 1 = some x ∧ x.cfg.role = .reader ∧ x.life = .reading ∧ Synced s x ∧
       (readItems s.params x.cfg (s.chanBytes x) (1#64).toNat { items := x.items, work := x.work }).1 = .corrupt .data 0) ∧
    (let s := testState [[0xA0, 0x0A]] [freshInst .fb32 .writer]
     let x := freshInst .fb32 .writer
     s.inst? 1 = some x ∧ x.cfg.role = .writer ∧ x.life = .uninit ∧ ChannelOperands s x 0 none ∧
       (∀ c, x.cfg.itemCount = some c → (4#64).toNat ≤ c.toNat) ∧
       (readItems s.params { x.cfg with itemCount := none } (contents s 0 none) (4#64).toNat
         { items := 0, work := Work.reset x.cfg }).1 = .corrupt .data 1) ∧
    let s := testState [[0xA0]] [freshInst .fb32 .writer]
    let x := freshInst .fb32 .writer
    ChannelOperands s x 0 none ∧
      (readItems s.params { x.cfg with itemCount := none } (contents s 0 none) (4#64).toNat
        { items := 0, work := Work.reset x.cfg }).1 = .eos :=
  ⟨⟨by decide, by decide, rfl, rfl, synced_of_check (by decide), by decide⟩,
    ⟨by decide, rfl, rfl, operands_one (by decide) (by decide), (fun _ h => nomatch h), by decide⟩,
    operands_one (by decide) (by decide), by decide⟩

/-- All three ids in use. -/
theorem witness_NoFreeIdIsReported :
    let s := testState [[]] [w32 .empty, readerInst .fb32, freshInst .bool .reader]
    s.params.maxInstances ≤ s.insts.length ∧ (cfgOf .fb32 .writer [.dd]).ok = true ∧
      (s.inst? 1 = some (w32 .empty) ∧ (w32 .empty).life ≠ .faulted ∧ (w32 .empty).cfg.role = .writer) ∧
      s.inst? 2 = some (readerInst .fb32) ∧ (readerInst .fb32).life ≠ .faulted ∧ (readerInst .fb32).cfg.role = .reader := by
  decide

theorem witness_FaultingCommandsChangeNoChannel :
    exec (.writeOne 1 (.num 0x100)) (writerState .bw4) =
        .next (after (.writeOne 1 (.num 0x100)) (writerState .bw4)) ∧
      (after (.writeOne 1 (.num 0x100)) (writerState .bw4)).results =
        { status := 0x0102, words := [] } :: (writerState .bw4).results ∧
      (0x0102#64).extractLsb' 0 2 = 2#2 := ⟨exec_after (by decide), by decide, by decide⟩

/-! ### The whole machine -/

def stepAfter (s : State) : State := (nextOf (step s)).getD s

theorem step_stepAfter {s : State} (h : (nextOf (step s)).isSome = true) : step s = .next (stepAfter s) := by
  unfold stepAfter
  cases he : step s <;> simp_all [nextOf]

/-- A state whose host sends READ_ONE to instance 1. -/
def readOneNext (x : Instance) : State :=
  { testState [[0x20, 5]] [x] with input := [.command [4, 0, 1, 0, 0, 0, 0, 0]] }

theorem witness_HostActsChangeOneChannel :
    let s := { testState [[], [7]] [] with input := [.createChannel 9 [1]] }
    let t := { testState [[], [7]] [] with input := [.writeChannel 1 []] }
    (s.unitPort = none ∧ [1#8].length ≤ s.params.channelMax ∧ s.input = .createChannel 9 [1] :: [] ∧ s.mem.get 9 = none ∧
      s.mem.chans.length < s.params.maxChannels) ∧
    t.unitPort = none ∧ t.input = .writeChannel 1 [] :: [] ∧ t.mem.get 1 = some { id := 1, bytes := [7], gen := 0 } := by
  decide

theorem witness_ConfigurationNeverChanges :
    step (readOneNext (readerInst .fb32)) = .next (stepAfter (readOneNext (readerInst .fb32))) ∧
      (readOneNext (readerInst .fb32)).inst? 1 = some (readerInst .fb32) := ⟨step_stepAfter (by decide), by decide⟩

theorem witness_FaultedIsTerminal :
    step (readOneNext faultedInst) = .next (stepAfter (readOneNext faultedInst)) ∧
      (readOneNext faultedInst).inst? 1 = some faultedInst ∧ faultedInst.life = .faulted :=
  ⟨step_stepAfter (by decide), by decide, rfl⟩

/-- A COMMIT that changes channel 0, with a channel 1 beside it; a RESUME on channel 1 of an instance bound to channel 0; a
READ_ONE, which changes none. -/
theorem witness_OnlyBoundChannelsChange :
    let s := testState [[], [7]] [held]
    exec (.commit 1) s = .next (after (.commit 1) s) ∧ Instr.command? (.commit 1) = some (.commit, 1) ∧
      s.inst? 1 = some held ∧ 1#64 ∉ (if Opcode.commit = .resume then operandChans (.commit 1) else held.chans) ∧
      let i := Instr.resume 1 1 none 3
      let u := testState [[], [0xA0]] [w32 .committed]
      (exec i u = .next (after i u) ∧ Instr.command? i = some (.resume, 1) ∧ u.inst? 1 = some (w32 .committed) ∧
        0#64 ∉ if Opcode.resume = .resume then operandChans i else (w32 .committed).chans) ∧
      let r := readerState .fb32 [] [[0x20, 5]]
      exec (.readOne 1) r = .next (after (.readOne 1) r) ∧ Instr.command? (.readOne 1) = some (.readOne, 1) :=
  ⟨exec_after (by decide), rfl, by decide, by decide, ⟨exec_after (by decide), rfl, by decide, by decide⟩,
    exec_after (by decide), rfl⟩

/-- Two states that differ in another channel, another instance and the host's pending acts. -/
theorem witness_CommandsDependOnlyOnTheirInstance :
    let s := testState [[], [7]] [held]
    let s' := { testState [[], [8, 9]] [held, readerInst .bool] with input := [.command []] }
    Instr.command? (.commit 1) = some (.commit, 1) ∧ s.inst? 1 = some held ∧
      AgreeOn s s' 1 (held.chans ++ operandChans (.commit 1)) ∧ exec (.commit 1) s = .next (after (.commit 1) s) := by
  refine ⟨rfl, by decide, ⟨rfl, rfl, rfl, ?_⟩, exec_after (by decide)⟩
  intro c hc
  have h : held.chans ++ operandChans (.commit 1) = [0] := by decide
  rw [h, List.mem_singleton] at hc
  subst hc
  rfl

theorem witness_FetchPointerMovesForward :
    let s := readerState .fb32 [] [[0x20, 5]]
    s.Inv = true ∧ Instr.command? (.readOne 1) = some (.readOne, 1) ∧ exec (.readOne 1) s = .next (after (.readOne 1) s) ∧
      s.inst? 1 = some (readerInst .fb32) ∧
      ((after (.readOne 1) s).inst? 1).map (fun y => (y.life, y.work.cur.data)) = some (.reading, 2) :=
  ⟨by decide, rfl, exec_after (by decide), by decide, by decide⟩

theorem witness_StepKeepsInv :
    (readOneNext (readerInst .fb32)).Inv = true ∧
      step (readOneNext (readerInst .fb32)) = .next (stepAfter (readOneNext (readerInst .fb32))) :=
  ⟨by decide, step_stepAfter (by decide)⟩

theorem witness_StepKeepsWidths : WidthsKept (readOneNext (readerInst .fb32)) := by
  intro x hx _
  have h : x = readerInst .fb32 := by simpa [readOneNext, testState] using hx
  subst h
  exact ⟨fun _ => ⟨by decide, by decide, fun st h => nomatch h⟩, by decide⟩

end Sys2Proof.Tests
end

section
/-! PROOFS. The streams of the variable-length bases VARI and VARD (43_varlen.md) as functions of the whole item list:
what the item step and the commit flush of each do, the item list by induction, and O24. -/

namespace Sys2Proof.Machine

/-! ## Emitted bytes -/

@[simp] theorem Emitted.append_mk (d d' l l' : List Byte) :
    Emitted.append { data := d, lens := l } { data := d', lens := l' } = { data := d ++ d', lens := l ++ l' } := rfl

@[simp] theorem Emitted.none_append (e : Emitted) : Emitted.none.append e = e := rfl

@[simp] theorem Emitted.append_none (e : Emitted) : e.append Emitted.none = e := by
  simp [Emitted.append, Emitted.none]

@[simp] theorem Work.reset_fbw (cfg : Cfg) : (Work.reset cfg).fbw = FbwRegs.reset := rfl

section
variable (p : Params) {cfg : Cfg} (k : Work) (s : List Byte) (items : List (List Byte))

theorem stagesFlush_of_strings (h : cfg.base.strings = true) : stagesFlush p cfg k = (k, Emitted.none) := by
  simp [stagesFlush, h]

/-! ## VARI -/

theorem writeItem_vari (h : cfg.base = .vari) :
    writeItem p cfg k (.str s) = (k, { data := variBytes s, lens := [] }) := by
  simp [writeItem, h]

/-- The VARI item step keeps no state (R272), so the items of a list are written independently of each other. -/
theorem writeItems_vari (h : cfg.base = .vari) :
    writeItems p cfg k (items.map .str) = (k, { data := items.flatMap variBytes, lens := [] }) := by
  induction items with
  | nil => rfl
  | cons s items ih =>
    simp [writeItems, writeItem_vari p k s h, ih]

/-- VARI has nothing to flush (R275). -/
theorem baseFlush_vari : baseFlush .vari k = (k, Emitted.none) := rfl

theorem commitFlush_vari (h : cfg.base = .vari) : commitFlush p cfg k = (k, Emitted.none) := by
  have hs : cfg.base.strings = true := by rw [h]; rfl
  simp [commitFlush, stagesFlush_of_strings p k hs, h, baseFlush_vari]

/-! ## VARD -/

/-- The words of the VARD length channel: the length of each item. -/
def lengthWords (items : List (List Byte)) : List U64 := items.map fun s => BitVec.ofNat 64 s.length

@[simp] theorem lengthWords_cons :
    lengthWords (s :: items) = BitVec.ofNat 64 s.length :: lengthWords items := rfl

theorem writeItem_vard (h : cfg.base = .vard) :
    writeItem p cfg k (.str s) =
      ({ k with fbw := (fbWriteWord .fb64lsb k.fbw (BitVec.ofNat 64 s.length)).1 },
        { data := s, lens := (fbWriteWord .fb64lsb k.fbw (BitVec.ofNat 64 s.length)).2 }) := by
  simp [writeItem, vardWriteItem, h]

/-- The VARD item steps drive the FB64LSB writer as its word steps on the lengths do, from any registers (R277). -/
theorem writeItems_vard (h : cfg.base = .vard) :
    writeItems p cfg k (items.map .str) =
      ({ k with fbw := (fbWriteWords .fb64lsb k.fbw (lengthWords items)).1 },
        { data := items.flatten, lens := (fbWriteWords .fb64lsb k.fbw (lengthWords items)).2 }) := by
  induction items generalizing k with
  | nil => rfl
  | cons s items ih =>
    simp [writeItems, writeItem_vard p k s h, ih, fbWriteWords]

/-- VARD flushes the FB64LSB writer into slot 1 (R278). -/
theorem baseFlush_vard :
    baseFlush .vard k =
      ({ k with fbw := (fbFlush .fb64lsb k.fbw).1 }, { data := [], lens := (fbFlush .fb64lsb k.fbw).2 }) := rfl

theorem commitFlush_vard (h : cfg.base = .vard) :
    commitFlush p cfg k =
      ({ k with fbw := (fbFlush .fb64lsb k.fbw).1 }, { data := [], lens := (fbFlush .fb64lsb k.fbw).2 }) := by
  have hs : cfg.base.strings = true := by rw [h]; rfl
  simp [commitFlush, stagesFlush_of_strings p k hs, h, baseFlush_vard]

/-! ## The channels after a commit -/

theorem emittedE_vari (h : cfg.base = .vari) :
    emittedE p cfg (items.map .str) = { data := items.flatMap variBytes, lens := [] } := by
  simp [emittedE, emittedU, writeItems_vari p _ items h, commitFlush_vari p _ h]

theorem emittedE_vard (h : cfg.base = .vard) :
    emittedE p cfg (items.map .str) =
      { data := items.flatten, lens := fbEncode .fb64lsb (lengthWords items) } := by
  simp [emittedE, emittedU, writeItems_vard p _ items h, commitFlush_vard p _ h, fbEncode]

end

/-- Settles O24: the item list by induction (`writeItems_vari`, `writeItems_vard`), then the commit flush. -/
theorem variableLengthStreams : Obligations.VariableLengthStreams := by
  intro p cfg items
  constructor
  · intro hvari
    rw [emittedE_vari p items hvari]
    rfl
  · intro hvard
    rw [emittedE_vard p items hvard]
    exact ⟨rfl, rfl⟩

end Sys2Proof.Machine
end

section
/-! PROOFS. The flag-byte writer (40_flagbyte.md R162 to R165) emits the whole-sequence form Enc (R166): the equations of
Enc, the words that the writer's registers hold back, and O12. -/

namespace Sys2Proof.Machine

/-! ## Variant constants -/

theorem Variant.rleMin_pos (v : Variant) : 0 < Variant.rleMin v := by cases v <;> decide

theorem Variant.rleMin_le_three (v : Variant) : Variant.rleMin v ≤ 3 := by cases v <;> decide

theorem Variant.rleMin_le_maxRun (v : Variant) : Variant.rleMin v ≤ Variant.maxRun v := by cases v <;> decide

/-! ## Leading zeros -/

theorem leadingZeros_zero_cons (xs : List U64) : leadingZeros (0 :: xs) = leadingZeros xs + 1 := if_pos rfl

theorem leadingZeros_cons_of_ne {x : U64} (h : x ≠ 0) (xs : List U64) : leadingZeros (x :: xs) = 0 := if_neg h

theorem leadingZeros_replicate_append (z : Nat) (xs : List U64) :
    leadingZeros (List.replicate z 0 ++ xs) = z + leadingZeros xs := by
  induction z with
  | zero => exact (Nat.zero_add _).symm
  | succ z ih =>
    rw [List.replicate_succ, List.cons_append, leadingZeros_zero_cons, ih]
    omega

/-- A list begins with its leading zeros. -/
theorem take_eq_replicate_of_le_leadingZeros {n : Nat} {xs : List U64} (h : n ≤ leadingZeros xs) :
    xs.take n = List.replicate n 0 := by
  induction xs generalizing n with
  | nil =>
    obtain rfl : n = 0 := Nat.le_zero.mp h
    rfl
  | cons x xs ih =>
    cases n with
    | zero => rfl
    | succ n =>
      by_cases hx : x = 0
      · subst hx
        rw [leadingZeros_zero_cons] at h
        rw [List.take_succ_cons, ih (by omega), List.replicate_succ]
      · rw [leadingZeros_cons_of_ne hx] at h
        omega

/-! ## The equations of Enc, R166 -/

/-- Fuel that reaches the end of the list is enough: every call drops at least one word. -/
theorem encSeq_fuel (v : Variant) {n m : Nat} {xs : List U64} (hn : xs.length ≤ n) (hm : xs.length ≤ m) :
    encSeq v n xs = encSeq v m xs := by
  induction n generalizing m xs with
  | zero =>
    obtain rfl := List.eq_nil_of_length_eq_zero (Nat.le_zero.mp hn)
    cases m <;> rfl
  | succ n ih =>
    cases xs with
    | nil => cases m <;> rfl
    | cons x xs =>
      obtain ⟨m, rfl⟩ := Nat.exists_eq_add_one.mpr (Nat.lt_of_lt_of_le (Nat.zero_lt_succ _) hm)
      rw [List.length_cons] at hn hm
      have hmin := Variant.rleMin_pos v
      have hmax := Variant.rleMin_le_maxRun v
      by_cases hr : Variant.rleMin v ≤ leadingZeros (x :: xs)
      · simp only [encSeq, hr, if_true]
        congr 1
        apply ih <;> simp only [List.length_drop, List.length_cons, Nat.min_def] <;> split <;> omega
      · simp only [encSeq, hr, if_false]
        cases xs with
        | nil => rfl
        | cons y ys =>
          rw [List.length_cons] at hn hm
          exact congrArg (pairUnit v x y ++ ·) (ih (by omega) (by omega))

/-- `Enc(xs)`. -/
def enc (v : Variant) (xs : List U64) : List Byte := encSeq v xs.length xs

theorem encSeq_eq_enc (v : Variant) {n : Nat} {xs : List U64} (h : xs.length ≤ n) : encSeq v n xs = enc v xs :=
  encSeq_fuel v h le_rfl

@[simp] theorem enc_nil (v : Variant) : enc v [] = [] := rfl

/-- The RLE case. -/
theorem enc_rle (v : Variant) {xs : List U64} (h : Variant.rleMin v ≤ leadingZeros xs) :
    enc v xs = rleUnit v (Nat.min (leadingZeros xs) (Variant.maxRun v)) ++
      enc v (xs.drop (Nat.min (leadingZeros xs) (Variant.maxRun v))) := by
  have hmin := Variant.rleMin_pos v
  have hmax := Variant.rleMin_le_maxRun v
  cases xs with
  | nil => exact absurd (Nat.lt_of_lt_of_le hmin h) (Nat.lt_irrefl 0)
  | cons x xs =>
    simp only [enc, List.length_cons, encSeq, h, if_true]
    congr 1
    apply encSeq_eq_enc
    simp only [List.length_drop, List.length_cons, Nat.min_def]
    split <;> omega

/-- The RLE case read from its run: a run of MAX zeros, or one of at least RLE_MIN that no zero follows. -/
theorem enc_replicate_append (v : Variant) {r : Nat} {xs : List U64} (hmin : Variant.rleMin v ≤ r)
    (hr : r = Variant.maxRun v ∨ r ≤ Variant.maxRun v ∧ leadingZeros xs = 0) :
    enc v (List.replicate r 0 ++ xs) = rleUnit v r ++ enc v xs := by
  have hz := leadingZeros_replicate_append r xs
  have hrun : Nat.min (leadingZeros (List.replicate r 0 ++ xs)) (Variant.maxRun v) = r := by
    rw [hz]
    show min (r + leadingZeros xs) (Variant.maxRun v) = r
    omega
  rw [enc_rle v (by omega), hrun, List.drop_left' List.length_replicate]

/-- The PAIR case. -/
theorem enc_pair (v : Variant) {x y : U64} {ys : List U64} (h : leadingZeros (x :: y :: ys) < Variant.rleMin v) :
    enc v (x :: y :: ys) = pairUnit v x y ++ enc v ys := by
  have hr : ¬ Variant.rleMin v ≤ leadingZeros (x :: y :: ys) := Nat.not_le.mpr h
  simp only [enc, List.length_cons, encSeq, hr, if_false]
  exact congrArg _ (encSeq_eq_enc v (Nat.le_succ _))

/-- The SINGLE case. -/
theorem enc_single (v : Variant) {x : U64} (h : leadingZeros [x] < Variant.rleMin v) : enc v [x] = singleUnit v x := by
  have hr : ¬ Variant.rleMin v ≤ leadingZeros [x] := Nat.not_le.mpr h
  simp only [enc, List.length_cons, encSeq, hr, if_false]

/-! ## The writer, R162 to R165 -/

/-- The words that the writer's registers hold back: the first value of a pair, or the zeros of a run
(10_state.md R36). -/
def FbwRegs.held (r : FbwRegs) : List U64 := if r.pv then [r.pend] else List.replicate r.zrun 0

theorem FbwRegs.held_of_pv {r : FbwRegs} (h : r.pv = true) : r.held = [r.pend] := if_pos h

theorem FbwRegs.held_of_not_pv {r : FbwRegs} (h : r.pv = false) : r.held = List.replicate r.zrun 0 := by
  simp [FbwRegs.held, h]

/-- The invariant of the writer's registers (10_state.md R36), taken apart. -/
theorem fbwOk_iff (v : Variant) (r : FbwRegs) :
    fbwOk v r = true ↔ r.zrun < Variant.maxRun v ∧ (r.pv = true → r.zrun = 0 ∧ r.pend ≠ 0) := by
  cases hp : r.pv <;> simp [fbwOk, hp]

theorem fbwOk_reset (v : Variant) : fbwOk v FbwRegs.reset = true := by cases v <;> rfl

/-- A word written after a held first value completes the pair (R162). -/
theorem enc_held_pair (v : Variant) {a : U64} (ha : a ≠ 0) (x : U64) (xs : List U64) :
    enc v (a :: x :: xs) = pairUnit v a x ++ enc v xs :=
  enc_pair v (by rw [leadingZeros_cons_of_ne ha]; exact Variant.rleMin_pos v)

/-- Fewer zeros than an RLE unit needs, then a word that is not 0, make no run (R164). -/
theorem leadingZeros_short_run (v : Variant) {z : Nat} (hz : z < Variant.rleMin v) {x : U64} (hx : x ≠ 0) (xs : List U64) :
    leadingZeros (List.replicate z 0 ++ x :: xs) < Variant.rleMin v := by
  rw [leadingZeros_replicate_append, leadingZeros_cons_of_ne hx]
  exact hz

theorem replicate_append_cons_self (z : Nat) (x : U64) (xs : List U64) :
    List.replicate z x ++ x :: xs = List.replicate (z + 1) x ++ xs := by
  simp [List.replicate_succ']

/-- What the writer's step emits and then holds back is what it held back and the word, in Enc (R162 to R164). -/
theorem enc_fbWriteWord (v : Variant) {r : FbwRegs} (hok : fbwOk v r = true) (x : U64) (xs : List U64) :
    enc v (r.held ++ x :: xs) = (fbWriteWord v r x).2 ++ enc v ((fbWriteWord v r x).1.held ++ xs) := by
  obtain ⟨hlt, hpend⟩ := (fbwOk_iff v r).mp hok
  obtain ⟨z, pv, pend⟩ := r
  simp only at hlt hpend
  unfold fbWriteWord
  cases pv with
  | true =>
    obtain ⟨rfl, hne⟩ := hpend rfl
    exact enc_held_pair v hne x xs
  | false =>
    simp only [Bool.false_eq_true, if_false, FbwRegs.held_of_not_pv]
    split_ifs with hx hmax hrle htwo hone
    · rw [hx, replicate_append_cons_self, hmax]
      exact enc_replicate_append v (Variant.rleMin_le_maxRun v) (.inl rfl)
    · rw [hx, replicate_append_cons_self]
      rfl
    · exact enc_replicate_append v hrle (.inr ⟨hlt.le, leadingZeros_cons_of_ne hx xs⟩)
    · subst htwo
      exact enc_pair v (leadingZeros_short_run v (Nat.lt_of_not_le hrle) hx xs)
    · subst hone
      exact enc_pair v (leadingZeros_short_run v (Nat.lt_of_not_le hrle) hx xs)
    · have hthree := Variant.rleMin_le_three v
      obtain rfl : z = 0 := by omega
      rfl

/-- The commit flush of a zero run is Enc of its zeros (R165). -/
theorem zeroRunTail_eq_enc (v : Variant) {z : Nat} (hlt : z < Variant.maxRun v) :
    zeroRunTail v z = enc v (List.replicate z 0) := by
  have hz : leadingZeros (List.replicate z 0) = z := by
    simpa [leadingZeros] using leadingZeros_replicate_append z []
  unfold zeroRunTail
  split_ifs with hrle htwo hone
  · simpa using (enc_replicate_append v (xs := []) hrle (.inr ⟨hlt.le, rfl⟩)).symm
  · subst htwo
    exact ((enc_pair v (hz.trans_lt (Nat.lt_of_not_le hrle))).trans (List.append_nil _)).symm
  · subst hone
    exact (enc_single v (hz.trans_lt (Nat.lt_of_not_le hrle))).symm
  · have hthree := Variant.rleMin_le_three v
    obtain rfl : z = 0 := by omega
    rfl

/-- The commit flush emits Enc of what the registers hold back (R165). -/
theorem fbFlush_eq_enc_held (v : Variant) {r : FbwRegs} (hok : fbwOk v r = true) : (fbFlush v r).2 = enc v r.held := by
  obtain ⟨hlt, hpend⟩ := (fbwOk_iff v r).mp hok
  unfold fbFlush
  cases hpv : r.pv with
  | true =>
    obtain ⟨hz, hne⟩ := hpend hpv
    have hhead : leadingZeros [r.pend] < Variant.rleMin v := by
      rw [leadingZeros_cons_of_ne hne]
      exact Variant.rleMin_pos v
    rw [FbwRegs.held_of_pv hpv, enc_single v hhead, zeroRunTail_eq_enc v hlt, hz]
    simp
  | false => simpa [FbwRegs.held_of_not_pv hpv] using zeroRunTail_eq_enc v hlt

/-- A whole list through the writer, from any registers, and the commit flush. -/
theorem fbWriteWords_flush (v : Variant) {r : FbwRegs} (hok : fbwOk v r = true) (xs : List U64) :
    (fbWriteWords v r xs).2 ++ (fbFlush v (fbWriteWords v r xs).1).2 = enc v (r.held ++ xs) := by
  induction xs generalizing r with
  | nil => simpa [fbWriteWords] using fbFlush_eq_enc_held v hok
  | cons x xs ih => rw [enc_fbWriteWord v hok, ← ih (fbWriteWord_ok v r x hok), fbWriteWords, List.append_assoc]

/-- R166: the writer's bytes from reset are Enc of the list. -/
theorem fbEncode_eq_enc (v : Variant) (xs : List U64) : fbEncode v xs = enc v xs :=
  fbWriteWords_flush v (fbwOk_reset v) xs

theorem fbWriteWords_append (v : Variant) (r : FbwRegs) (xs ys : List U64) :
    (fbWriteWords v r (xs ++ ys)).2 =
      (fbWriteWords v r xs).2 ++ (fbWriteWords v (fbWriteWords v r xs).1 ys).2 := by
  induction xs generalizing r with
  | nil => rfl
  | cons x xs ih => simp [fbWriteWords, ih]

/-- R166, the online form: no byte once emitted is changed by later words. -/
theorem fbWriteWords_prefix_enc (v : Variant) (xs ys : List U64) :
    (fbWriteWords v FbwRegs.reset xs).2 <+: enc v (xs ++ ys) := by
  rw [← fbEncode_eq_enc, fbEncode, fbWriteWords_append, List.append_assoc]
  exact List.prefix_append _ _

/-- Settles O12: the writer's step and flush, word by word, against the equations of Enc. -/
theorem encoderIsTheWholeSequenceForm : Obligations.EncoderIsTheWholeSequenceForm :=
  fun v xs ys => ⟨fbEncode_eq_enc v xs, fbWriteWords_prefix_enc v xs ys⟩

end Sys2Proof.Machine
end

section
/-! PROOFS. Units and the flag-byte reader (40_flagbyte.md R167 to R171): what a unit body and FBReadWord answer in each
case, and O20. -/

namespace Sys2Proof.Machine

/-! ## Units, R167 -/

/-- The data bytes of a SINGLE or PAIR unit run past the end of the channel, or the flag byte is reserved (R171). -/
def BadUnit (v : Variant) (ch : List Byte) (off : Nat) (f : Byte) : Prop :=
  flagKind v f = .reserved ∨
  (flagKind v f = .single ∧ ch.length < off + 1 + nibBytes v (hiNib f)) ∨
  (flagKind v f = .pair ∧ ch.length < off + 1 + nibBytes v (hiNib f) + nibBytes v (loNib f))

theorem singleBody_eq_corrupt_iff (v : Variant) (hi : BitVec 4) (ch : List Byte) (off : Nat) :
    singleBody v hi ch off = .corrupt ↔ ch.length < off + 1 + nibBytes v hi := by
  simp [singleBody]

theorem pairBody_eq_corrupt_iff (v : Variant) (hi lo : BitVec 4) (ch : List Byte) (off : Nat) :
    pairBody v hi lo ch off = .corrupt ↔ ch.length < off + 1 + nibBytes v hi + nibBytes v lo := by
  simp [pairBody]

/-- R171: a unit is corrupt exactly when it is reserved or its data bytes run past the end. -/
theorem unitBody_eq_corrupt_iff (v : Variant) (f : Byte) (ch : List Byte) (off : Nat) :
    unitBody v f ch off = .corrupt ↔ BadUnit v ch off f := by
  unfold unitBody BadUnit
  cases hk : flagKind v f with
  | rle => simp [rleBody]
  | single => simp [singleBody_eq_corrupt_iff]
  | pair => simp [pairBody_eq_corrupt_iff]
  | reserved => simp [reservedBody]

theorem decodeUnitAt_of_getElem? {v : Variant} {ch : List Byte} {off : Nat} {f : Byte} (h : ch[off]? = some f) :
    decodeUnitAt v ch off = some (unitBody v f ch off) := by
  simp [decodeUnitAt, h]

/-- There is no unit exactly where no byte is left (R174). -/
theorem decodeUnitAt_eq_none_iff (v : Variant) (ch : List Byte) (off : Nat) :
    decodeUnitAt v ch off = none ↔ ch.length ≤ off := by
  rw [← List.getElem?_eq_none_iff]
  cases h : ch[off]? with
  | none => simp [decodeUnitAt, h]
  | some f => simp [decodeUnitAt_of_getElem? h]

theorem decodeUnitAt_eq_corrupt_iff (v : Variant) (ch : List Byte) (off : Nat) :
    decodeUnitAt v ch off = some .corrupt ↔ ∃ f, ch[off]? = some f ∧ BadUnit v ch off f := by
  cases h : ch[off]? with
  | none => simp [decodeUnitAt, h]
  | some f => simp [decodeUnitAt_of_getElem? h, unitBody_eq_corrupt_iff]

/-! ## FBReadWord, R168: one equation per case -/

section
variable (v : Variant) (sl : Slot) (ch : List Byte) {w : Work}

theorem fbReadWord_of_carry_one (h : w.carry = 1) :
    fbReadWord v sl ch w = (.value w.carryVal, { w with carry := 0, carryVal := 0 }) := if_pos h

theorem fbReadWord_of_carry_neg (h : w.carry < 0) :
    fbReadWord v sl ch w = (.value 0, { w with carry := w.carry + 1 }) := by
  have h1 : w.carry ≠ 1 := by omega
  simp [fbReadWord, h1, h]

theorem fbReadWord_of_none (h : w.carry = 0) (hd : decodeUnitAt v ch (w.cur.get sl).toNat = none) :
    fbReadWord v sl ch w = (.eos, w) := by
  simp [fbReadWord, h, hd]

theorem fbReadWord_of_corrupt (h : w.carry = 0) (hd : decodeUnitAt v ch (w.cur.get sl).toNat = some .corrupt) :
    fbReadWord v sl ch w = (.corrupt sl (w.cur.get sl), w) := by
  simp [fbReadWord, h, hd]

theorem fbReadWord_of_words (h : w.carry = 0) {len : Nat} {ws : UnitWords}
    (hd : decodeUnitAt v ch (w.cur.get sl).toNat = some (.words len ws)) :
    fbReadWord v sl ch w = (.value (applyUnit w sl len ws).1, (applyUnit w sl len ws).2) := by
  simp [fbReadWord, h, hd]

/-- What FBReadWord can answer, for a carry in its range (10_state.md R37). -/
theorem fbReadWord_cases (h : w.carry ≤ 1) :
    (∃ y k, fbReadWord v sl ch w = (.value y, k)) ∨
    (fbReadWord v sl ch w = (.eos, w) ∧ w.carry = 0 ∧ decodeUnitAt v ch (w.cur.get sl).toNat = none) ∨
    (fbReadWord v sl ch w = (.corrupt sl (w.cur.get sl), w) ∧ w.carry = 0 ∧
      decodeUnitAt v ch (w.cur.get sl).toNat = some .corrupt) := by
  obtain hc | hc | hc : w.carry = 1 ∨ w.carry < 0 ∨ w.carry = 0 := by omega
  · exact .inl ⟨_, _, fbReadWord_of_carry_one v sl ch hc⟩
  · exact .inl ⟨_, _, fbReadWord_of_carry_neg v sl ch hc⟩
  · cases hd : decodeUnitAt v ch (w.cur.get sl).toNat with
    | none => exact .inr (.inl ⟨fbReadWord_of_none v sl ch hc hd, hc, rfl⟩)
    | some r =>
      cases r with
      | corrupt => exact .inr (.inr ⟨fbReadWord_of_corrupt v sl ch hc hd, hc, rfl⟩)
      | words len ws => exact .inl ⟨_, _, fbReadWord_of_words v sl ch hc hd⟩

/-- R169: end of stream exactly with nothing carried and no byte left; no register changes. -/
theorem fbReadWord_eq_eos_iff (h : w.carry ≤ 1) (k : Work) :
    fbReadWord v sl ch w = (.eos, k) ↔ w.carry = 0 ∧ ch.length ≤ (w.cur.get sl).toNat ∧ k = w := by
  constructor
  · intro hr
    obtain ⟨y, k', hv⟩ | ⟨he, hc, hd⟩ | ⟨hv, -, -⟩ := fbReadWord_cases v sl ch h
    · cases hv.symm.trans hr
    · cases he.symm.trans hr
      exact ⟨hc, (decodeUnitAt_eq_none_iff v ch _).mp hd, rfl⟩
    · cases hv.symm.trans hr
  · rintro ⟨hc, hle, rfl⟩
    exact fbReadWord_of_none v sl ch hc ((decodeUnitAt_eq_none_iff v ch _).mpr hle)

/-- R171: CorruptStream exactly at a bad unit, with the slot and offset of that unit; no register changes. -/
theorem fbReadWord_eq_corrupt_iff (h : w.carry ≤ 1) (sl' : Slot) (off : U64) (k : Work) :
    fbReadWord v sl ch w = (.corrupt sl' off, k) ↔
      (w.carry = 0 ∧ ∃ f, ch[(w.cur.get sl).toNat]? = some f ∧ BadUnit v ch (w.cur.get sl).toNat f) ∧
        sl' = sl ∧ off = w.cur.get sl ∧ k = w := by
  constructor
  · intro hr
    obtain ⟨y, k', hv⟩ | ⟨he, -, -⟩ | ⟨hv, hc, hd⟩ := fbReadWord_cases v sl ch h
    · cases hv.symm.trans hr
    · cases he.symm.trans hr
    · cases hv.symm.trans hr
      exact ⟨⟨hc, (decodeUnitAt_eq_corrupt_iff v ch _).mp hd⟩, rfl, rfl, rfl⟩
  · rintro ⟨⟨hc, hbad⟩, rfl, rfl, rfl⟩
    exact fbReadWord_of_corrupt v _ ch hc ((decodeUnitAt_eq_corrupt_iff v ch _).mpr hbad)

end

/-- Settles O20: FBReadWord's two ends (`fbReadWord_eq_eos_iff`, `fbReadWord_eq_corrupt_iff`), at RD_CUR within the
channel. -/
theorem readerEndsOnlyAtTheEnd : Obligations.ReaderEndsOnlyAtTheEnd := by
  intro v sl ch w hcarry hcur
  have hcorrupt := fbReadWord_eq_corrupt_iff v sl ch hcarry
  refine ⟨fun k => ?_, ⟨?_, ?_⟩, ?_⟩
  · have hend : ch.length ≤ (w.cur.get sl).toNat ↔ (w.cur.get sl).toNat = ch.length := by omega
    rw [fbReadWord_eq_eos_iff v sl ch hcarry, hend]
  · rintro ⟨sl', off, k, hr⟩
    exact ((hcorrupt sl' off k).mp hr).1
  · intro hbad
    exact ⟨sl, w.cur.get sl, w, (hcorrupt _ _ _).mpr ⟨hbad, rfl, rfl, rfl⟩⟩
  · intro sl' off k hr
    exact ((hcorrupt sl' off k).mp hr).2

end Sys2Proof.Machine
end

section
/-! PROOFS. Value nibbles and flag bytes (40_flagbyte.md R151 to R158, 30_encoding.md R112 to R114): the nibble and data
bytes chosen for a word decode to it, and the flag byte built from nibbles or from a run is of its class. -/

namespace Sys2Proof

/-! ## Byte order -/

@[simp] theorem leBytes_length (k u : Nat) : (leBytes k u).length = k := by
  induction k generalizing u with
  | zero => rfl
  | succ k ih => simp [leBytes, ih]

/-- The k low bytes of a number read back are the number modulo 2^(8k). -/
theorem unLE_leBytes (k u : Nat) : unLE (leBytes k u) = u % 2 ^ (8 * k) := by
  induction k generalizing u with
  | zero => simp [leBytes, unLE, Nat.mod_one]
  | succ k ih =>
    have hpow : 2 ^ (8 * (k + 1)) = 256 * 2 ^ (8 * k) := by rw [Nat.mul_succ, Nat.pow_add, Nat.mul_comm]
    rw [leBytes, unLE, ih, hpow, Nat.mod_mul, BitVec.toNat_ofNat]

theorem unLE_leBytes_of_lt {k u : Nat} (h : u < 2 ^ (8 * k)) : unLE (leBytes k u) = u := by
  rw [unLE_leBytes, Nat.mod_eq_of_lt h]

end Sys2Proof

namespace Sys2Proof.Machine

/-! ## Byte counts, 00_scope.md R11 -/

/-- A 64-bit number fits in its `lsBytes`. -/
theorem lt_two_pow_lsBytes {u : Nat} (h : u < 2 ^ 64) : u < 2 ^ (8 * lsBytes u) := by
  unfold lsBytes
  cases hf : (List.range 8).find? fun k => decide (u < 2 ^ (8 * k)) with
  | none => exact h
  | some k => simpa using List.find?_some hf

/-- `lsBytes` is the least byte count that fits. -/
theorem lsBytes_le {u k : Nat} (h : u < 2 ^ (8 * k)) (hk : k ≤ 8) : lsBytes u ≤ k := by
  unfold lsBytes
  cases hf : (List.range 8).find? fun k => decide (u < 2 ^ (8 * k)) with
  | none =>
    obtain hlt | rfl := Nat.lt_or_eq_of_le hk
    · exact absurd (decide_eq_true h) (List.find?_eq_none.mp hf k (List.mem_range.mpr hlt))
    · exact le_rfl
  | some j =>
    by_contra hlt
    have hnot := (List.find?_range_eq_some.mp hf).2.2 k (Nat.lt_of_not_le hlt)
    simp [h] at hnot

theorem tzBytesUpTo_le (u n : Nat) : tzBytesUpTo u n ≤ n := by
  induction n with
  | zero => exact le_rfl
  | succ n ih =>
    unfold tzBytesUpTo
    split
    · exact le_rfl
    · exact ih.trans (Nat.le_succ n)

/-- The trailing bytes that `tzBytes` counts are 0. -/
theorem two_pow_tzBytesUpTo_dvd (u n : Nat) : 2 ^ (8 * tzBytesUpTo u n) ∣ u := by
  induction n with
  | zero => exact one_dvd u
  | succ n ih =>
    unfold tzBytesUpTo
    split
    · exact Nat.dvd_of_mod_eq_zero ‹_›
    · exact ih

/-- A uW word is its own reduction modulo 2^W (R9). -/
theorem trunc_eq_self {w : Nat} {x : U64} (h : x.toNat < 2 ^ w) : trunc w x = x := by
  apply BitVec.eq_of_toNat_eq
  simp only [trunc, BitVec.toNat_setWidth, Nat.mod_eq_of_lt h, Nat.mod_eq_of_lt x.isLt]

/-! ## Value nibbles, R151 to R155 -/

/-- A nibble that stands for a value: at most B data bytes, and not the FB64 nibble that means "no second value" or RLE. -/
def IsValueNibble (v : Variant) (n : BitVec 4) : Prop :=
  nibBytes v n ≤ Variant.byteWidth v ∧ (v = .fb64 → n ≠ 0xF#4)

/-- A nibble and data bytes that stand for a word: they decode to it, and the bytes are as many as the nibble says. -/
structure NibbleFor (v : Variant) (x : U64) (p : BitVec 4 × List Byte) : Prop where
  value : nibValue v p.1 p.2 = x
  length : p.2.length = nibBytes v p.1
  isValue : IsValueNibble v p.1

/-- A trailing nibble with the low bytes of a word that fits in them. -/
theorem nibbleFor_trailing {v : Variant} {x : U64} {n : BitVec 4} {k : Nat} (hk : nibBytes v n = k)
    (hlead : nibLeading v n = false) (hn : IsValueNibble v n) (hx : x.toNat < 2 ^ (8 * k)) :
    NibbleFor v x (n, leBytes k x.toNat) where
  length := by rw [leBytes_length, hk]
  isValue := hn
  value := by
    simp only [nibValue, hk, hlead, unLE_leBytes_of_lt hx, Bool.false_eq_true, if_false, BitVec.ofNat_toNat,
      BitVec.setWidth_eq]
    split
    · next hzero =>
      subst hzero
      exact (BitVec.eq_of_toNat_eq (Nat.lt_one_iff.mp hx)).symm
    · rfl

/-- A leading nibble with the high bytes of a word whose lower bytes are 0. -/
theorem nibbleFor_leading {v : Variant} {x : U64} {n : BitVec 4} {k t : Nat} (hk : nibBytes v n = k)
    (hlead : nibLeading v n = true) (hn : IsValueNibble v n) (hpos : k ≠ 0) (hkt : k + t = Variant.byteWidth v)
    (ht : 2 ^ (8 * t) ∣ x.toNat) (hx : x.toNat < 2 ^ (8 * Variant.byteWidth v)) :
    NibbleFor v x (n, leBytes k (x.toNat / 2 ^ (8 * t))) where
  length := by rw [leBytes_length, hk]
  isValue := hn
  value := by
    have hu : x.toNat / 2 ^ (8 * t) < 2 ^ (8 * k) := by
      apply Nat.div_lt_of_lt_mul
      rwa [← Nat.pow_add, ← Nat.mul_add, Nat.add_comm t k, hkt]
    have hback : Variant.byteWidth v - k = t := by omega
    simp only [nibValue, hk, hlead, unLE_leBytes_of_lt hu, hpos, if_true, if_false, hback, Nat.div_mul_cancel ht,
      BitVec.ofNat_toNat, BitVec.setWidth_eq]
    exact trunc_eq_self hx

/-! The nibbles of each variant: which byte counts and selections they carry. -/

theorem nib32_trailing_nibble : ∀ k ≤ 4, nibBytes .fb32 (BitVec.ofNat 4 (2 * k)) = k ∧
    nibLeading .fb32 (BitVec.ofNat 4 (2 * k)) = false := by decide

theorem nib32_leading_nibble : ∀ k ≤ 4, nibBytes .fb32 (BitVec.ofNat 4 (2 * k + 1)) = k ∧
    nibLeading .fb32 (BitVec.ofNat 4 (2 * k + 1)) = true := by decide

theorem nib64_trailing_nibble : ∀ k < 8, nibBytes .fb64 (BitVec.ofNat 4 k) = k + 1 ∧
    nibLeading .fb64 (BitVec.ofNat 4 k) = false ∧ BitVec.ofNat 4 k ≠ 0xF#4 := by decide

theorem nib64_leading_nibble : ∀ k < 7, nibBytes .fb64 (BitVec.ofNat 4 (8 + k)) = k + 1 ∧
    nibLeading .fb64 (BitVec.ofNat 4 (8 + k)) = true ∧ BitVec.ofNat 4 (8 + k) ≠ 0xF#4 := by decide

theorem nibLsb_nibble : ∀ k ≤ 8, nibBytes .fb64lsb (BitVec.ofNat 4 k) = k := by decide

/-- R151, R152. -/
theorem nib32_nibbleFor {x : U64} (hx : x.toNat < 2 ^ 32) : NibbleFor .fb32 x (nib32 x) := by
  have hl4 : lsBytes x.toNat ≤ 4 := lsBytes_le (k := 4) hx (by omega)
  have ht4 : tzBytes 4 x.toNat ≤ 4 := tzBytesUpTo_le _ 4
  unfold nib32
  simp only
  split_ifs with hzero hlt
  · exact nibbleFor_trailing (k := 0) rfl rfl ⟨by decide, nofun⟩ (by omega)
  · have hm : msBytes 4 x.toNat = 4 - tzBytes 4 x.toNat := rfl
    have hpos : msBytes 4 x.toNat ≠ 0 := by
      intro hm0
      have hdvd : 2 ^ (8 * tzBytes 4 x.toNat) ∣ x.toNat := two_pow_tzBytesUpTo_dvd _ 4
      rw [show tzBytes 4 x.toNat = 4 by omega] at hdvd
      exact hzero (Nat.eq_zero_of_dvd_of_lt hdvd hx)
    obtain ⟨hk, hlead⟩ := nib32_leading_nibble (msBytes 4 x.toNat) (by omega)
    exact nibbleFor_leading hk hlead ⟨by rw [hk, hm]; exact Nat.sub_le 4 _, nofun⟩ hpos
      (by rw [hm]; exact Nat.sub_add_cancel ht4) (two_pow_tzBytesUpTo_dvd _ 4) hx
  · obtain ⟨hk, hlead⟩ := nib32_trailing_nibble _ hl4
    exact nibbleFor_trailing hk hlead ⟨by rw [hk]; exact hl4, nofun⟩ (lt_two_pow_lsBytes x.isLt)

/-- Eight trailing zero bytes are only those of the word 0. -/
theorem eq_zero_of_tzBytes_eq {x : U64} (h : tzBytes 8 x.toNat = 8) : x.toNat = 0 := by
  have hdvd : 2 ^ (8 * tzBytes 8 x.toNat) ∣ x.toNat := two_pow_tzBytesUpTo_dvd _ 8
  rw [h] at hdvd
  exact Nat.eq_zero_of_dvd_of_lt hdvd x.isLt

/-- R153, R154. A leading nibble is chosen only for fewer than 8 bytes, so the nibble 0xF is never chosen. -/
theorem nib64_nibbleFor (x : U64) : NibbleFor .fb64 x (nib64 x) := by
  have hl8 : lsBytes x.toNat ≤ 8 := lsBytes_le (k := 8) x.isLt le_rfl
  have hm : msBytes 8 x.toNat = 8 - tzBytes 8 x.toNat := rfl
  obtain ⟨l, hlen⟩ : ∃ l, max 1 (lsBytes x.toNat) = l + 1 := Nat.exists_eq_add_one.mpr (Nat.le_max_left 1 _)
  obtain ⟨m, hmax⟩ : ∃ m, max 1 (msBytes 8 x.toNat) = m + 1 := Nat.exists_eq_add_one.mpr (Nat.le_max_left 1 _)
  simp only [nib64, show Nat.max 1 (lsBytes x.toNat) = l + 1 from hlen,
    show Nat.max 1 (msBytes 8 x.toNat) = m + 1 from hmax, Nat.add_sub_cancel]
  split
  · next hlt =>
    have ht : tzBytes 8 x.toNat < 8 := by
      refine Nat.lt_of_le_of_ne (tzBytesUpTo_le _ 8) fun ht => ?_
      have hl0 : lsBytes x.toNat ≤ 0 := lsBytes_le (by rw [eq_zero_of_tzBytes_eq ht]; exact Nat.one_pos) (by omega)
      omega
    obtain ⟨hk, hlead, hne⟩ := nib64_leading_nibble m (by omega)
    exact nibbleFor_leading hk hlead ⟨by rw [hk]; simp only [Variant.byteWidth]; omega, fun _ => hne⟩ (by omega)
      (by simp only [Variant.byteWidth]; omega) (two_pow_tzBytesUpTo_dvd _ 8) x.isLt
  · obtain ⟨hk, hlead, hne⟩ := nib64_trailing_nibble l (by omega)
    refine nibbleFor_trailing hk hlead ⟨by rw [hk]; simp only [Variant.byteWidth]; omega, fun _ => hne⟩ ?_
    exact (lt_two_pow_lsBytes x.isLt).trans_le (Nat.pow_le_pow_right (by omega) (by omega))

/-- R155. -/
theorem nibLsb_nibbleFor (x : U64) : NibbleFor .fb64lsb x (nibLsb x) := by
  have hl8 : lsBytes x.toNat ≤ 8 := lsBytes_le (k := 8) x.isLt le_rfl
  have hk := nibLsb_nibble _ hl8
  exact nibbleFor_trailing hk rfl ⟨by rw [hk]; exact hl8, nofun⟩ (lt_two_pow_lsBytes x.isLt)

/-- The nibble and data bytes that the writer chooses for a word stand for it. -/
theorem nibOf_nibbleFor {v : Variant} {x : U64} (hx : x.toNat < 2 ^ (8 * Variant.byteWidth v)) :
    NibbleFor v x (nibOf v x) := by
  cases v with
  | fb32 => exact nib32_nibbleFor hx
  | fb64 => exact nib64_nibbleFor x
  | fb64lsb => exact nibLsb_nibbleFor x

/-! ## Flag bytes, 30_encoding.md R112 to R114 -/

@[simp] theorem hiNib_flagByte : ∀ hi lo : BitVec 4, hiNib (flagByte hi lo) = hi := by decide

@[simp] theorem loNib_flagByte : ∀ hi lo : BitVec 4, loNib (flagByte hi lo) = lo := by decide

theorem flagKind_pair {v : Variant} {hi lo : BitVec 4} (hhi : IsValueNibble v hi) (hlo : IsValueNibble v lo) :
    flagKind v (flagByte hi lo) = .pair := by
  unfold IsValueNibble at hhi hlo
  revert hi lo
  cases v <;> decide

theorem flagKind_single {v : Variant} {hi : BitVec 4} (hhi : IsValueNibble v hi) :
    flagKind v (flagByte hi 0xF#4) = .single := by
  unfold IsValueNibble at hhi
  revert hi
  cases v <;> decide

/-- R156 to R158. -/
theorem rleByte_decodes {v : Variant} {r : Nat} (hmin : Variant.rleMin v ≤ r) (hmax : r ≤ Variant.maxRun v) :
    flagKind v (rleByte v r) = .rle ∧ runLength v (rleByte v r) = r := by
  have all : ∀ r ≤ Variant.maxRun v, Variant.rleMin v ≤ r →
      flagKind v (rleByte v r) = .rle ∧ runLength v (rleByte v r) = r := by
    cases v <;> decide
  exact all r hmax hmin

end Sys2Proof.Machine
end

section
/-! PROOFS. The flag-byte round trip (40_flagbyte.md R173): reading to the end as a rule per word, each unit of Enc where the
reader stands, and O13 by the cases of Enc. -/

namespace Sys2Proof.Machine

/-! ## Reading to the end -/

theorem pullMany_succ_of_value {κ : Type} {pull : κ → Got U64 × κ} {k k' : κ} {x : U64} (h : pull k = (.value x, k'))
    (n : Nat) :
    pullMany pull (n + 1) k = (x :: (pullMany pull n k').1, (pullMany pull n k').2.1, (pullMany pull n k').2.2) := by
  simp [pullMany, h]

/-- Pulling returns exactly the words, and then EOS. -/
def ReadsAll {κ : Type} (pull : κ → Got U64 × κ) (k : κ) (xs : List U64) : Prop :=
  (pullMany pull (xs.length + 1) k).1 = xs ∧ (pullMany pull (xs.length + 1) k).2.1 = some .eos

theorem readsAll_nil {κ : Type} {pull : κ → Got U64 × κ} {k k' : κ} (h : pull k = (.eos, k')) : ReadsAll pull k [] := by
  simp [ReadsAll, pullMany, h]

theorem readsAll_cons {κ : Type} {pull : κ → Got U64 × κ} {k k' : κ} {x : U64} {xs : List U64}
    (h : pull k = (.value x, k')) (hxs : ReadsAll pull k' xs) : ReadsAll pull k (x :: xs) := by
  obtain ⟨hwords, heos⟩ := hxs
  rw [ReadsAll, List.length_cons, pullMany_succ_of_value h, hwords]
  exact ⟨rfl, heos⟩

/-! ## Bytes at an offset -/

theorem readBytes_of_drop {ch pre a rest : List Byte} {off : Nat} (h : ch.drop off = pre ++ (a ++ rest)) :
    readBytes ch (off + pre.length) a.length = a := by
  rw [readBytes, ← List.drop_drop, h]
  simp

theorem getElem?_of_drop_eq_cons {ch bs : List Byte} {f : Byte} {off : Nat} (h : ch.drop off = f :: bs) :
    ch[off]? = some f := by
  simpa [h] using (List.getElem?_drop (xs := ch) (i := off) (j := 0)).symm

theorem length_of_drop_eq_cons {ch bs : List Byte} {f : Byte} {off : Nat} (h : ch.drop off = f :: bs) :
    ch.length = off + 1 + bs.length := by
  have hlen := congrArg List.length h
  rw [List.length_drop, List.length_cons] at hlen
  omega

/-! ## The units of Enc decode, R167 -/

section
variable {v : Variant} {ch rest : List Byte} {off : Nat}

theorem decodeUnitAt_rleUnit {r : Nat} (hmin : Variant.rleMin v ≤ r) (hmax : r ≤ Variant.maxRun v)
    (h : ch.drop off = rleUnit v r ++ rest) :
    decodeUnitAt v ch off = some (.words (rleUnit v r).length (.zeros r)) := by
  obtain ⟨hkind, hrun⟩ := rleByte_decodes hmin hmax
  rw [decodeUnitAt_of_getElem? (getElem?_of_drop_eq_cons h)]
  simp [unitBody, hkind, hrun, rleBody, rleUnit]

theorem decodeUnitAt_singleUnit {a : U64} (ha : a.toNat < 2 ^ (8 * Variant.byteWidth v))
    (h : ch.drop off = singleUnit v a ++ rest) :
    decodeUnitAt v ch off = some (.words (singleUnit v a).length (.one a)) := by
  obtain ⟨hvalue, hlength, hnib⟩ := nibOf_nibbleFor ha
  rw [singleUnit, List.cons_append] at h
  have hlen := length_of_drop_eq_cons h
  have hroom : ¬ ch.length < off + 1 + (nibOf v a).2.length := by
    rw [hlen, List.length_append]
    omega
  have hread : readBytes ch (off + 1) (nibOf v a).2.length = (nibOf v a).2 :=
    readBytes_of_drop (pre := [flagByte (nibOf v a).1 0xF#4]) h
  rw [decodeUnitAt_of_getElem? (getElem?_of_drop_eq_cons h)]
  simp only [unitBody, flagKind_single hnib, singleBody, hiNib_flagByte, ← hlength, hroom, if_false, hread, hvalue,
    singleUnit, List.length_cons, Nat.add_comm 1]

theorem decodeUnitAt_pairUnit {a b : U64} (ha : a.toNat < 2 ^ (8 * Variant.byteWidth v))
    (hb : b.toNat < 2 ^ (8 * Variant.byteWidth v)) (h : ch.drop off = pairUnit v a b ++ rest) :
    decodeUnitAt v ch off = some (.words (pairUnit v a b).length (.two a b)) := by
  obtain ⟨hvalueA, hlengthA, hnibA⟩ := nibOf_nibbleFor ha
  obtain ⟨hvalueB, hlengthB, hnibB⟩ := nibOf_nibbleFor hb
  rw [pairUnit, List.cons_append, List.append_assoc] at h
  have hlen := length_of_drop_eq_cons h
  have hroom : ¬ ch.length < off + 1 + (nibOf v a).2.length + (nibOf v b).2.length := by
    rw [hlen, List.length_append, List.length_append]
    omega
  have hreadA : readBytes ch (off + 1) (nibOf v a).2.length = (nibOf v a).2 :=
    readBytes_of_drop (pre := [flagByte (nibOf v a).1 (nibOf v b).1]) h
  have hreadB : readBytes ch (off + 1 + (nibOf v a).2.length) (nibOf v b).2.length = (nibOf v b).2 := by
    rw [Nat.add_assoc, Nat.add_comm 1]
    exact readBytes_of_drop (pre := flagByte (nibOf v a).1 (nibOf v b).1 :: (nibOf v a).2) h
  rw [decodeUnitAt_of_getElem? (getElem?_of_drop_eq_cons h)]
  simp only [unitBody, flagKind_pair hnibA hnibB, pairBody, hiNib_flagByte, loNib_flagByte, ← hlengthA, ← hlengthB,
    hroom, if_false, hreadA, hreadB, hvalueA, hvalueB, pairUnit, List.length_cons, List.length_append]
  congr 2
  omega

end

/-! ## Decoding a byte string -/

/-- RD_CUR[s] advanced by a unit stands after it; no offset wraps in a channel shorter than 2^64 bytes (20_memory.md R71). -/
theorem drop_after_unit {ch unit rest : List Byte} {cur : U64} (hlen : ch.length < 2 ^ 64)
    (h : ch.drop cur.toNat = unit ++ rest) : ch.drop (BitVec.ofNat 64 (cur.toNat + unit.length)).toNat = rest := by
  have hroom := congrArg List.length h
  rw [List.length_drop, List.length_append] at hroom
  have hwrap : cur.toNat + unit.length < 2 ^ 64 := by
    have hcur := cur.isLt
    omega
  rw [BitVec.toNat_ofNat, Nat.mod_eq_of_lt hwrap, ← List.drop_drop, h, List.drop_left]

/-- Wherever the reader stands at a unit boundary with exactly the bytes `bs` of its channel before it, it returns the words
`xs` and then EOS. -/
def Decodes (v : Variant) (sl : Slot) (ch bs : List Byte) (xs : List U64) : Prop :=
  ∀ w : Work, w.carry = 0 → ch.drop (w.cur.get sl).toNat = bs → ReadsAll (fbReadWord v sl ch) w xs

section
variable {v : Variant} {sl : Slot} {ch rest : List Byte} {xs : List U64}

theorem decodes_nil : Decodes v sl ch [] [] := by
  intro w hcarry hdrop
  have hend : ch.length ≤ (w.cur.get sl).toNat := List.drop_eq_nil_iff.mp hdrop
  exact readsAll_nil (fbReadWord_of_none v sl ch hcarry ((decodeUnitAt_eq_none_iff v ch _).mpr hend))

/-- A carry of -n is n zeros before the next unit (R168). -/
theorem Decodes.readsAll_of_zero_carry (h : Decodes v sl ch rest xs) (n : Nat) {w : Work} (hcarry : w.carry = -(n : Int))
    (hdrop : ch.drop (w.cur.get sl).toNat = rest) :
    ReadsAll (fbReadWord v sl ch) w (List.replicate n 0 ++ xs) := by
  induction n generalizing w with
  | zero => exact h w hcarry hdrop
  | succ n ih =>
    refine readsAll_cons (fbReadWord_of_carry_neg v sl ch (by omega)) (ih ?_ hdrop)
    push_cast at hcarry ⊢
    omega

theorem Decodes.rleUnit {r : Nat} (hmin : Variant.rleMin v ≤ r) (hmax : r ≤ Variant.maxRun v) (hlen : ch.length < 2 ^ 64)
    (h : Decodes v sl ch rest xs) : Decodes v sl ch (rleUnit v r ++ rest) (List.replicate r 0 ++ xs) := by
  intro w hcarry hdrop
  obtain ⟨n, rfl⟩ := Nat.exists_eq_add_one.mpr (Nat.lt_of_lt_of_le (Variant.rleMin_pos v) hmin)
  refine readsAll_cons (fbReadWord_of_words v sl ch hcarry (decodeUnitAt_rleUnit hmin hmax hdrop)) ?_
  refine h.readsAll_of_zero_carry n ?_ ?_
  · simp [applyUnit]
  · simpa [applyUnit] using drop_after_unit hlen hdrop

theorem Decodes.singleUnit {a : U64} (ha : a.toNat < 2 ^ (8 * Variant.byteWidth v)) (hlen : ch.length < 2 ^ 64)
    (h : Decodes v sl ch rest xs) : Decodes v sl ch (singleUnit v a ++ rest) (a :: xs) := by
  intro w hcarry hdrop
  refine readsAll_cons (fbReadWord_of_words v sl ch hcarry (decodeUnitAt_singleUnit ha hdrop)) (h _ hcarry ?_)
  simpa [applyUnit] using drop_after_unit hlen hdrop

theorem Decodes.pairUnit {a b : U64} (ha : a.toNat < 2 ^ (8 * Variant.byteWidth v))
    (hb : b.toNat < 2 ^ (8 * Variant.byteWidth v)) (hlen : ch.length < 2 ^ 64) (h : Decodes v sl ch rest xs) :
    Decodes v sl ch (pairUnit v a b ++ rest) (a :: b :: xs) := by
  intro w hcarry hdrop
  refine readsAll_cons (fbReadWord_of_words v sl ch hcarry (decodeUnitAt_pairUnit ha hb hdrop)) ?_
  refine readsAll_cons (fbReadWord_of_carry_one v sl ch rfl) (h _ rfl ?_)
  simpa [applyUnit] using drop_after_unit hlen hdrop

end

/-! ## The round trip, R173 -/

/-- The cases of Enc: nothing, an RLE unit for a run of zeros, a SINGLE unit for a last word, a PAIR unit for two words. -/
theorem enc_cases (v : Variant) (xs : List U64) :
    xs = [] ∨
    (∃ r ys, Variant.rleMin v ≤ r ∧ r ≤ Variant.maxRun v ∧ xs = List.replicate r 0 ++ ys ∧
      enc v xs = rleUnit v r ++ enc v ys) ∨
    (∃ a, xs = [a] ∧ enc v xs = singleUnit v a) ∨
    ∃ a b ys, xs = a :: b :: ys ∧ enc v xs = pairUnit v a b ++ enc v ys := by
  by_cases hrun : Variant.rleMin v ≤ leadingZeros xs
  · refine .inr (.inl ⟨_, _, Nat.le_min.mpr ⟨hrun, Variant.rleMin_le_maxRun v⟩, Nat.min_le_right _ _, ?_, enc_rle v hrun⟩)
    rw [← take_eq_replicate_of_le_leadingZeros (Nat.min_le_left _ _)]
    exact (List.take_append_drop _ _).symm
  · match xs with
    | [] => exact .inl rfl
    | [a] => exact .inr (.inr (.inl ⟨a, rfl, enc_single v (Nat.lt_of_not_le hrun)⟩))
    | a :: b :: ys => exact .inr (.inr (.inr ⟨a, b, ys, rfl, enc_pair v (Nat.lt_of_not_le hrun)⟩))

/-- Enc of a word list decodes to the list, in any channel that holds it last. -/
theorem decodes_enc {v : Variant} {sl : Slot} {ch : List Byte} (hlen : ch.length < 2 ^ 64) (xs : List U64)
    (hxs : ∀ x ∈ xs, x.toNat < 2 ^ (8 * Variant.byteWidth v)) : Decodes v sl ch (enc v xs) xs := by
  induction hn : xs.length using Nat.strong_induction_on generalizing xs with
  | _ n ih =>
    obtain rfl | ⟨r, ys, hmin, hmax, rfl, henc⟩ | ⟨a, rfl, henc⟩ | ⟨a, b, ys, rfl, henc⟩ := enc_cases v xs
    · exact decodes_nil
    · have hpos := Variant.rleMin_pos v
      rw [List.length_append, List.length_replicate] at hn
      rw [henc]
      exact .rleUnit hmin hmax hlen (ih ys.length (by omega) ys (fun y hy => hxs y (by simp [hy])) rfl)
    · rw [henc, ← List.append_nil (singleUnit v a)]
      exact .singleUnit (hxs a (by simp)) hlen decodes_nil
    · rw [List.length_cons, List.length_cons] at hn
      rw [henc]
      exact .pairUnit (hxs a (by simp)) (hxs b (by simp)) hlen
        (ih ys.length (by omega) ys (fun y hy => hxs y (by simp [hy])) rfl)

/-- Settles O13: the writer's bytes are Enc (`fbEncode_eq_enc`), and Enc decodes to its words (`decodes_enc`) from the offset 0
with nothing carried. -/
theorem flagByteRoundTrip : Obligations.FlagByteRoundTrip := by
  intro v sl xs k hxs hlen hcur hcarry
  have hdecodes := decodes_enc (sl := sl) hlen xs hxs
  rw [← fbEncode_eq_enc] at hdecodes
  exact hdecodes k hcarry (by rw [hcur]; rfl)

end Sys2Proof.Machine
end

section
/-! PROOFS. The transform round trip (41_transforms.md R213): what one word is to a reader stage, XOR and DFCM word by word,
DD frame by frame. O21. -/

namespace Sys2Proof.Machine

section
variable (w h : Nat)

/-! ## A stage over a word list -/

theorem stageOverList_nil (st : StageRegs) : stageOverList w h (st, []) = (.eos, st, []) := by
  cases st with
  | dd r => simp [stageOverList, stageRead, pullList]
  | xor prev => rfl
  | dfcm r => rfl

/-! ## XOR and DFCM, R222, R223, R233, R234 -/

theorem stageWrite_kind (st : StageRegs) (x : U64) : (stageWrite w h st x).1.kind = st.kind := by
  cases st <;> rfl

theorem stageFlush_of_ne_dd {st : StageRegs} (hkind : st.kind ≠ .dd) : stageFlush w st = (st, []) := by
  cases st with
  | dd r => exact absurd rfl hkind
  | xor prev => rfl
  | dfcm r => rfl

/-- An XOR or DFCM reader stage undoes the writer's word step from the same registers, and ends in the writer's registers. -/
theorem stageOverList_stageWrite {st : StageRegs} (hkind : st.kind ≠ .dd) (x : U64) (ws : List U64) :
    stageOverList w h (st, (stageWrite w h st x).2 ++ ws) = (.value x, (stageWrite w h st x).1, ws) := by
  cases st with
  | dd r => exact absurd rfl hkind
  | xor prev => simp [stageOverList, stageRead, stageWrite, pullList]
  | dfcm r => simp [stageOverList, stageRead, stageWrite, pullList]

theorem readsAll_stageWrites_of_ne_dd {st : StageRegs} (hkind : st.kind ≠ .dd) (xs : List U64) :
    ReadsAll (stageOverList w h) (st, (stageWrites w h st xs).2) xs := by
  induction xs generalizing st with
  | nil => exact readsAll_nil (stageOverList_nil w h st)
  | cons x xs ih =>
    have hkind' : (stageWrite w h st x).1.kind ≠ .dd := stageWrite_kind w h st x ▸ hkind
    exact readsAll_cons (stageOverList_stageWrite w h hkind x _) (ih hkind')

/-! ## The DD writer, R215 to R217 -/

/-- The items a DD writer stage has buffered for its next frame (R215). -/
def DdRegs.held (r : DdRegs) : List U64 := r.frame.take r.fill

theorem ddWrite_of_fill_lt {r : DdRegs} (hfill : r.fill < 15) (x : U64) :
    ddWrite w r x = ({ r with frame := r.frame.set r.fill x, fill := r.fill + 1 }, []) :=
  if_neg (by simp only; omega)

theorem DdRegs.held_set {r : DdRegs} (hfill : r.fill < r.frame.length) (x : U64) :
    (r.frame.set r.fill x).take (r.fill + 1) = r.held ++ [x] := by
  rw [List.take_add_one, List.take_set_of_le le_rfl, List.getElem?_set_self hfill]
  rfl

theorem ddWrite_of_fill_eq {r : DdRegs} (hfill : r.fill = 15) (hframe : r.frame.length = 16) (x : U64) :
    ddWrite w r x = ({ r with prev := x, fill := 0, frame := ddFrameReset }, frameWords w r.prev (r.held ++ [x])) := by
  have hheld := r.held_set (by omega) x
  rw [hfill] at hheld
  simp [ddWrite, ddEmitFrame, hfill, hheld]

/-- The flush pushes the buffered items as a frame; no items, no words. -/
theorem ddFlush_words (r : DdRegs) : (ddFlush w r).2 = frameWords w r.prev r.held := by
  by_cases hfill : 0 < r.fill
  · simp [ddFlush, hfill, ddEmitFrame, DdRegs.held]
  · simp [ddFlush, DdRegs.held, Nat.eq_zero_of_not_pos hfill, frameWords, differences]

theorem stageOk_dd {h : Nat} {r : DdRegs} (hok : stageOk h (.dd r) = true) : r.fill < 16 ∧ r.frame.length = 16 := by
  simp only [stageOk, Bool.and_eq_true, decide_eq_true_eq, beq_iff_eq] at hok
  exact hok.1

/-- The words of a list are the first word's, then those of the rest from the registers after it. -/
theorem stageWrites_dd_cons (r : DdRegs) (x : U64) (xs : List U64) :
    stageWrites w h (.dd r) (x :: xs) =
      ((stageWrites w h (.dd (ddWrite w r x).1) xs).1,
        (ddWrite w r x).2 ++ (stageWrites w h (.dd (ddWrite w r x).1) xs).2) := rfl

/-! ## The DD reader, R219 -/

theorem stageOverList_dd_of_fp_eq_zero {r : DdRegs} (hfp : r.fp = 0) (m e : U64) (ws : List U64) :
    stageOverList w h (.dd r, m :: e :: ws) =
      (.value (ddAccept w { r with min := m } e).1, .dd (ddAccept w { r with min := m } e).2, ws) := by
  simp [stageOverList, stageRead, pullList, hfp]

theorem stageOverList_dd_of_fp_ne_zero {r : DdRegs} (hfp : r.fp ≠ 0) (e : U64) (ws : List U64) :
    stageOverList w h (.dd r, e :: ws) = (.value (ddAccept w r e).1, .dd (ddAccept w r e).2, ws) := by
  simp [stageOverList, stageRead, pullList, hfp]

/-- At frame position `fp` with DD_PREV = `p`, whatever its DD_MIN, a DD reader stage over the words `ws` returns `xs` and
then EOS. -/
def DdReads (fp : Nat) (p : U64) (ws xs : List U64) : Prop :=
  ∀ r : DdRegs, r.fp = fp → r.prev = p → ReadsAll (stageOverList w h) (.dd r, ws) xs

theorem ddReads_nil (fp : Nat) (p : U64) : DdReads w h fp p [] [] :=
  fun r _ _ => readsAll_nil (stageOverList_nil w h (.dd r))

end

theorem setWidth_sub_of_le {w v : Nat} (hw : w ≤ v) (a b : BitVec v) :
    (a - b).setWidth w = a.setWidth w - b.setWidth w := by
  simp only [BitVec.sub_eq_add_neg, BitVec.setWidth_add _ _ hw, BitVec.setWidth_neg_of_le hw]

/-- Adding back what the frame's difference took away gives the item, for whatever DD_PREV and minimum (R216, R219). -/
theorem addW_addW_subW_subW {w : Nat} (hw : w ≤ 64) {x : U64} (hx : x.toNat < 2 ^ w) (p m : U64) :
    addW w (addW w p (subW w (subW w x p) m)) m = x := by
  have hcancel (a b c : BitVec w) : a + (b - a - c) + c = b := by ring
  calc addW w (addW w p (subW w (subW w x p) m)) m
      = trunc w x := by simp [addW, subW, trunc, hw, BitVec.setWidth_add, setWidth_sub_of_le, hcancel]
    _ = x := trunc_eq_self hx

theorem ddAccept_adjusted_delta {w : Nat} (hw : w ≤ 64) {x : U64} (hx : x.toNat < 2 ^ w) {r : DdRegs} (hfp : r.fp < 16) :
    ddAccept w r (subW w (subW w x r.prev) r.min) = (x, { r with prev := x, fp := (r.fp + 1) % 16 }) := by
  have hnext : (if r.fp + 1 = 16 then 0 else r.fp + 1) = (r.fp + 1) % 16 := by split <;> omega
  simp only [ddAccept, addW_addW_subW_subW hw hx, hnext]

section
variable {w h : Nat} {ws xs : List U64}

/-- The adjusted deltas of items in one frame give the items back. -/
theorem DdReads.deltas (hw : w ≤ 64) {ys : List U64} (hys : ∀ y ∈ ys, y.toNat < 2 ^ w) {r : DdRegs} (hfp : r.fp < 16)
    (hroom : ys ≠ [] → r.fp ≠ 0 ∧ r.fp + ys.length ≤ 16)
    (hrest : DdReads w h ((r.fp + ys.length) % 16) (ys.getLastD r.prev) ws xs) :
    ReadsAll (stageOverList w h) (.dd r, (differences w r.prev ys).map (fun e => subW w e r.min) ++ ws) (ys ++ xs) := by
  induction ys generalizing r with
  | nil => exact hrest r (Nat.mod_eq_of_lt hfp).symm rfl
  | cons y ys ih =>
    obtain ⟨hne, hlen⟩ := hroom (List.cons_ne_nil y ys)
    rw [List.length_cons] at hlen hrest
    have hpull := stageOverList_dd_of_fp_ne_zero w h hne (subW w (subW w y r.prev) r.min)
      ((differences w y ys).map (fun e => subW w e r.min) ++ ws)
    rw [ddAccept_adjusted_delta hw (hys y List.mem_cons_self) hfp] at hpull
    refine readsAll_cons hpull (ih (r := { r with prev := y, fp := (r.fp + 1) % 16 })
      (fun z hz => hys z (List.mem_cons_of_mem y hz)) (Nat.mod_lt _ (by decide)) ?_ ?_)
    · intro hys'
      have := List.length_pos_iff.mpr hys'
      simp only
      omega
    · rw [List.getLastD_cons] at hrest
      simpa only [Nat.mod_add_mod, Nat.add_assoc, Nat.add_comm 1] using hrest

/-- A frame of at most 16 items gives the items back, and ends at a frame boundary when it is full. -/
theorem DdReads.frame (hw : w ≤ 64) {ys : List U64} (hys : ∀ y ∈ ys, y.toNat < 2 ^ w) (hlen : ys.length ≤ 16)
    {p : U64} (hrest : DdReads w h (ys.length % 16) (ys.getLastD p) ws xs) :
    DdReads w h 0 p (frameWords w p ys ++ ws) (ys ++ xs) := by
  cases ys with
  | nil => exact hrest
  | cons y ys =>
    rintro r hfp rfl
    rw [List.length_cons] at hlen hrest
    rw [List.getLastD_cons] at hrest
    generalize hmin : leastSigned w (subW w y r.prev) (differences w y ys) = m
    have hpull := stageOverList_dd_of_fp_eq_zero w h hfp m (subW w (subW w y r.prev) m)
      ((differences w y ys).map (fun e => subW w e m) ++ ws)
    have haccept := ddAccept_adjusted_delta hw (hys y List.mem_cons_self) (r := { r with min := m }) (by simp [hfp])
    rw [haccept] at hpull
    have hdeltas := DdReads.deltas hw (r := { r with prev := y, fp := (r.fp + 1) % 16, min := m })
      (fun z hz => hys z (List.mem_cons_of_mem y hz)) (Nat.mod_lt _ (by decide))
      (fun _ => by simp [hfp, Nat.add_comm 1, hlen]) (by simpa [hfp, Nat.add_comm 1] using hrest)
    simpa [frameWords, differences, hmin] using readsAll_cons hpull hdeltas

/-- A reader stage at a frame boundary, with the writer stage's DD_PREV, reads what the writer pushes for a list and the flush
as the items the writer held and then the list. Each item either joins the held ones or completes their frame. -/
theorem ddReads_stageWrites_flush (hw : w ≤ 64) {r : DdRegs} (hok : stageOk h (.dd r) = true)
    (hxs : ∀ x ∈ r.held ++ xs, x.toNat < 2 ^ w) :
    DdReads w h 0 r.prev
      ((stageWrites w h (.dd r) xs).2 ++ (stageFlush w (stageWrites w h (.dd r) xs).1).2) (r.held ++ xs) := by
  induction xs generalizing r with
  | nil =>
    have hfill : r.held.length < 16 := by
      obtain ⟨hfill, -⟩ := stageOk_dd hok
      exact lt_of_le_of_lt (List.length_take_le _ _) hfill
    rw [List.append_nil] at hxs
    have hframe := DdReads.frame hw hxs hfill.le (p := r.prev) (ddReads_nil w h _ _)
    rw [← ddFlush_words, List.append_nil] at hframe
    simpa [stageWrites, stageFlush] using hframe
  | cons x xs ih =>
    obtain ⟨hfill, hframe⟩ := stageOk_dd hok
    have hok' : stageOk h (.dd (ddWrite w r x).1) = true := (stageWrite_ok w h (.dd r) x hok).1
    rw [List.append_cons] at hxs ⊢
    rw [stageWrites_dd_cons, List.append_assoc]
    by_cases hlast : r.fill = 15
    · rw [ddWrite_of_fill_eq w hlast hframe] at hok' ⊢
      have hrest := ih hok' (fun z hz => hxs z (List.mem_append_right _ hz))
      have hitems : (r.held ++ [x]).length = 16 := by simp [DdRegs.held, hlast, hframe]
      refine DdReads.frame hw (fun z hz => hxs z (List.mem_append_left xs hz)) hitems.le ?_
      rw [hitems, List.getLastD_concat]
      exact hrest
    · have hheld := r.held_set (hframe ▸ hfill) x
      rw [ddWrite_of_fill_lt w (by omega)] at hok' ⊢
      rw [← hheld] at hxs ⊢
      exact ih hok' hxs

end

/-! ## The round trip, R213 -/

theorem stageOk_reset (h : Nat) (t : Xform) : stageOk h (StageRegs.reset t) = true := by
  cases t <;> simp [StageRegs.reset, stageOk, DdRegs.reset, ddFrameReset, DfcmRegs.reset, tableOk]

theorem readsAll_stageEncode_dd {w h : Nat} (hw : w ≤ 64) {xs : List U64} (hxs : ∀ x ∈ xs, x.toNat < 2 ^ w) :
    ReadsAll (stageOverList w h) (StageRegs.reset .dd, stageEncode w h .dd xs) xs :=
  ddReads_stageWrites_flush hw (stageOk_reset h .dd) hxs DdRegs.reset rfl rfl

theorem readsAll_stageEncode_of_ne_dd (w h : Nat) {t : Xform} (hkind : (StageRegs.reset t).kind ≠ .dd) (xs : List U64) :
    ReadsAll (stageOverList w h) (StageRegs.reset t, stageEncode w h t xs) xs := by
  have hkind' : (stageWrites w h (StageRegs.reset t) xs).1.kind ≠ .dd :=
    (stageWrites_ok w h xs _ (stageOk_reset h t)).2 ▸ hkind
  rw [stageEncode, stageFlush_of_ne_dd w hkind', List.append_nil]
  exact readsAll_stageWrites_of_ne_dd w h hkind xs

/-- Settles O21: DD frame by frame (`ddReads_stageWrites_flush`), XOR and DFCM word by word
(`readsAll_stageWrites_of_ne_dd`) with nothing to flush. -/
theorem transformRoundTrip : Obligations.TransformRoundTrip := by
  intro t w h xs _ hw hxs
  cases t with
  | dd => exact readsAll_stageEncode_dd hw hxs
  | xor => exact readsAll_stageEncode_of_ne_dd w h (t := .xor) (by decide) xs
  | dfcm => exact readsAll_stageEncode_of_ne_dd w h (t := .dfcm) (by decide) xs

end Sys2Proof.Machine
end

section
/-! PROOFS. The queries GET_CHANNEL_COUNT and GET_ITEM_COUNT (44_pipeline.md R305, R306): the first checks of R290 let them
through on every instance, and their body only replies. O35. -/

namespace Sys2Proof.Machine

theorem exec_getChannelCount (inst : U16) (s : State) : exec (.getChannelCount inst) s = execGetChannelCount inst s :=
  rfl

theorem exec_getItemCount (inst : U16) (s : State) : exec (.getItemCount inst) s = execGetItemCount inst s :=
  rfl

theorem survivesFault_iff {op : Opcode} : survivesFault op = true ↔ op = .getChannelCount ∨ op = .getItemCount := by
  simp [survivesFault]

/-- The commands an instance in FAULTED still executes (R361) are the unrestricted rows of the validity table (R307). -/
theorem validIn_of_survivesFault {op : Opcode} (hop : survivesFault op = true) (role : Role) (life : Life) :
    validIn op role life = true := by
  obtain rfl | rfl := survivesFault_iff.mp hop
  · rfl
  · rfl

theorem dispatch_of_survivesFault {s : State} {op : Opcode} {id : U16} {x : Instance} {body : Instance → Outcome}
    (hop : survivesFault op = true) (hx : s.inst? id = some x) : s.dispatch op id body = body x :=
  dispatch_body hx (.inr hop) (validIn_of_survivesFault hop _ _)

theorem execGetChannelCount_of_inst {s : State} {inst : U16} {x : Instance} (hx : s.inst? inst = some x) :
    execGetChannelCount inst s = .next (s.reply .ok [BitVec.ofNat 64 x.cfg.base.channelCount]) :=
  dispatch_of_survivesFault rfl hx

theorem execGetItemCount_of_inst {s : State} {inst : U16} {x : Instance} (hx : s.inst? inst = some x) :
    execGetItemCount inst s = .next (s.reply .ok (itemCountWords x.cfg.itemCount)) :=
  dispatch_of_survivesFault rfl hx

theorem replied_reply_ok (s : State) (ws : List U64) : Replied s (s.reply .ok ws) 0 ws := rfl

theorem Base.channelCount_word (b : Base) : BitVec.ofNat 64 b.channelCount = if b = .vard then 2 else 1 := by
  unfold Base.channelCount
  split
  · rfl
  · rfl

/-- Settles O35: both queries reach their body on every instance (`dispatch_of_survivesFault`), and the body is a reply. -/
theorem queriesAnswer : Obligations.QueriesAnswer := by
  intro s inst x hx
  constructor
  · refine ⟨_, (exec_getChannelCount inst s).trans (execGetChannelCount_of_inst hx), ?_⟩
    rw [← Base.channelCount_word]
    exact replied_reply_ok s _
  · refine ⟨_, (exec_getItemCount inst s).trans (execGetItemCount_of_inst hx), ?_⟩
    cases x.cfg.itemCount with
    | none => exact replied_reply_ok s [0, 0]
    | some c => exact replied_reply_ok s [1, c]

end Sys2Proof.Machine
end

section
/-! PROOFS. Faults found before execution (60_exceptions.md R353, R359, R361): every command addressed to an instance begins
with the first checks of 44_pipeline.md R290, the validity table is that of R307, and what a recorded fault leaves. O43, O44. -/

namespace Sys2Proof.Machine

/-! ## Commands and their first checks, 44_pipeline.md R290 -/

/-- Every command but CONSTRUCT runs the first checks of R290 under its own opcode and INST, whatever its other operands. -/
theorem exec_eq_dispatch {i : Instr} {op : Opcode} {inst : U16} (hi : Instr.command? i = some (op, inst))
    (hop : op ≠ .construct) : ∃ body : State → Instance → Outcome, ∀ s, exec i s = s.dispatch op inst (body s) := by
  cases i with
  | init | writeOne | write | readOne | read | skip | commit | reset | flush | resume | createReader | createWriter
  | getChannelCount | getItemCount =>
    cases hi
    exact ⟨_, fun _ => rfl⟩
  | construct =>
    cases hi
    exact absurd rfl hop
  | fb32Rle | fb32Single | fb32Pair | fb32Rsvd | fb64Rle | fb64Single | fb64Pair | fb64lsbRle | fb64lsbSingle
  | fb64lsbPair | fb64lsbRsvd => cases hi

theorem State.inst?_zero (s : State) : s.inst? 0 = none := if_pos rfl

theorem command?_construct {i : Instr} {inst : U16} (hi : Instr.command? i = some (.construct, inst)) : inst = 0 := by
  cases i <;> cases hi
  rfl

/-- A command that names a created instance is not CONSTRUCT: no instance has the id 0 (60_exceptions.md R370). -/
theorem ne_construct_of_inst? {s : State} {i : Instr} {op : Opcode} {inst : U16} {x : Instance}
    (hi : Instr.command? i = some (op, inst)) (hx : s.inst? inst = some x) : op ≠ .construct := by
  rintro rfl
  rw [command?_construct hi, State.inst?_zero] at hx
  cases hx

/-! ## The validity table, 44_pipeline.md R307 -/

/-- The LIFE values of a row that holds in every LIFE but FAULTED. -/
theorem lives_of_ne_faulted {life : Life} (hl : life ≠ .faulted) :
    life = .uninit ∨ life = .empty ∨ life = .writing ∨ life = .committed ∨ life = .reading := by
  cases life with
  | faulted => exact absurd rfl hl
  | _ => decide

/-- The model's check is the table, for a command addressed to an instance that is not FAULTED: the two write the same
roles and LIFE values for each opcode. -/
theorem validIn_iff_listedRow {op : Opcode} (hop : op ≠ .construct) (role : Role) {life : Life} (hl : life ≠ .faulted) :
    validIn op role life = true ↔ listedRow op role life := by
  have hlives := lives_of_ne_faulted hl
  cases op with
  | construct => exact absurd rfl hop
  | init | createReader | createWriter | getChannelCount | getItemCount =>
    cases role <;> simp [validIn, listedRow, validRows, hlives, hl]
  | writeOne | write | readOne | read | skip | commit | reset | flush | resume =>
    cases role <;> simp [validIn, listedRow, validRows, or_assoc]

theorem validIn_eq_false_of_not_listedRow {op : Opcode} (hop : op ≠ .construct) {role : Role} {life : Life}
    (hl : life ≠ .faulted) (h : ¬listedRow op role life) : validIn op role life = false :=
  Bool.eq_false_iff.mpr (mt (validIn_iff_listedRow hop role hl).mp h)

/-! ## What a fault leaves, 60_exceptions.md R359, R360 -/

/-- The result word of a fault: FAULT in bits 1:0, the code in bits 15:8 (30_encoding.md R107). -/
theorem Status.word_fault : ∀ code : Byte, (Status.fault code).word = 2 + 256 * code.setWidth 64 := by
  decide

theorem replied_reply_fault (s : State) (code : Byte) :
    Replied s (s.reply (.fault code) []) (2 + 256 * code.setWidth 64) [] := by
  rw [← Status.word_fault]
  rfl

/-- A change of one instance and a result leave every other instance and every channel. -/
theorem untouched_setInst_reply {s : State} {inst : U16} {x : Instance} (hx : s.inst? inst = some x) (y : Instance)
    (st : Status) (ws : List U64) : Untouched s ((s.setInst inst y).reply st ws) inst [] :=
  ⟨rfl, rfl, rfl, rfl, fun _ hj => State.setInst_inst?_ne hx y hj, fun _ => rfl, fun _ _ => ⟨rfl, fun _ => rfl⟩⟩

/-- A fault that is recorded, found before execution, is taken by the instance. -/
theorem tookFault_faultEntry {s : State} {inst : U16} {x : Instance} {op : Opcode} {code : FaultCode}
    (hcode : code.unrecorded = false) (hop : op ≠ .construct) (hx : s.inst? inst = some x) (slot : Byte) (offset : U64) :
    TookFault s (s.faultEntry inst op code slot offset) inst x op code slot offset := by
  rw [faultEntry_recorded op code slot offset hcode hop hx]
  refine ⟨untouched_setInst_reply hx _ _ _, ?_, State.setInst_inst?_same hx _⟩
  rw [← Status.word_fault]
  rfl

/-! ## Refusals of FAULTED, 60_exceptions.md R361 -/

/-- Settles O43: the command is a `dispatch` (`exec_eq_dispatch`), which refuses before its body (`dispatch_faulted`). -/
theorem faultedInstancesRefuse : Obligations.FaultedInstancesRefuse := by
  intro s i op inst x hi hchan hitem hx hl
  obtain ⟨body, hexec⟩ := exec_eq_dispatch hi (ne_construct_of_inst? hi hx)
  have hsurv : survivesFault op = false := Bool.eq_false_iff.mpr fun h => (survivesFault_iff.mp h).elim hchan hitem
  exact ⟨_, (hexec s).trans (dispatch_faulted hx hl hsurv), replied_reply_fault s _⟩

/-! ## Protocol violations, 60_exceptions.md R353 -/

theorem channelsForm_iff (b : Base) (ch1 : Option U64) :
    channelsForm b ch1 = true ↔ (ch1.isSome = true ↔ b.channelCount = 2) := by
  rw [channelsForm, beq_iff_eq, Bool.eq_iff_iff, decide_eq_true_iff]

theorem channelsNonEmpty_iff (m : Memory) (ch0 : U64) (ch1 : Option U64) :
    channelsNonEmpty m ch0 ch1 = true ↔ m.len ch0 ≠ 0 ∨ ∃ c1, ch1 = some c1 ∧ m.len c1 ≠ 0 := by
  cases ch1 with
  | none => simp [channelsNonEmpty]
  | some c1 => simp [channelsNonEmpty]

/-- A writer's INIT on a channel that is not empty faults before its ids are examined (R358). -/
theorem execInit_of_nonEmpty {s : State} {inst : U16} {x : Instance} {ch0 : U64} {ch1 : Option U64}
    (hx : s.inst? inst = some x) (hl : x.life ≠ .faulted) (hrole : x.cfg.role = .writer)
    (hform : channelsForm x.cfg.base ch1 = true) (hne : channelsNonEmpty s.mem ch0 ch1 = true) :
    execInit inst ch0 ch1 s = .next (s.plainFault inst .init .protocolViolation) := by
  have hvalid : validIn .init x.cfg.role x.life = true := bne_iff_ne.mpr hl
  rw [execInit, dispatch_body hx (.inl hl) hvalid]
  simp [hform, hrole, hne]

/-- Settles O44: a row the table lacks stops the command at the third check (`dispatch_invalid`), a writer's INIT on bytes at
the first check of its body (`execInit_of_nonEmpty`); both take the fault (`tookFault_faultEntry`). -/
theorem protocolViolationsFault : Obligations.ProtocolViolationsFault := by
  constructor
  · intro s i op inst x hi hx hl hrow
    have hop := ne_construct_of_inst? hi hx
    obtain ⟨body, hexec⟩ := exec_eq_dispatch hi hop
    have hinvalid := validIn_eq_false_of_not_listedRow hop hl hrow
    exact ⟨_, (hexec s).trans (dispatch_invalid hx hl hinvalid), tookFault_faultEntry rfl hop hx _ _⟩
  · intro s inst x ch0 ch1 hx hl hrole hform hne
    have hinit := execInit_of_nonEmpty hx hl hrole ((channelsForm_iff _ _).mpr hform) ((channelsNonEmpty_iff _ _ _).mpr hne)
    exact ⟨_, hinit, tookFault_faultEntry rfl (by decide) hx _ _⟩

end Sys2Proof.Machine
end

section
/-! PROOFS. The encodings of 30_encoding.md R100 to R108: words and bytes, the header word, the operands of a command, each
as an equivalence between what decodes and what is encoded. O4, O5, O7. -/

namespace Sys2Proof

open Machine

/-! ## Words and bytes, R101, R102 -/

@[simp] theorem wordBytes_length (w : U64) : (wordBytes w).length = 8 := leBytes_length 8 _

@[simp] theorem wordsBytes_nil : wordsBytes [] = [] := rfl

@[simp] theorem wordsBytes_cons (w : U64) (ws : List U64) : wordsBytes (w :: ws) = wordBytes w ++ wordsBytes ws := rfl

@[simp] theorem wordsBytes_append (ws us : List U64) : wordsBytes (ws ++ us) = wordsBytes ws ++ wordsBytes us :=
  List.flatMap_append

@[simp] theorem wordsBytes_length (ws : List U64) : (wordsBytes ws).length = 8 * ws.length := by
  induction ws with
  | nil => rfl
  | cons w ws ih =>
    simp [ih]
    omega

theorem unLE_wordBytes (w : U64) : unLE (wordBytes w) = w.toNat := unLE_leBytes_of_lt w.isLt

theorem unLE_lt (bs : List Byte) : unLE bs < 2 ^ (8 * bs.length) := by
  induction bs with
  | nil => exact Nat.one_pos
  | cons b bs ih =>
    have hb := b.isLt
    have hpow : 2 ^ (8 * (b :: bs).length) = 256 * 2 ^ (8 * bs.length) := by
      rw [List.length_cons, Nat.mul_succ, Nat.pow_add, Nat.mul_comm]
    rw [unLE, hpow]
    omega

/-- Bytes are the low bytes of the number they stand for. -/
theorem leBytes_unLE (bs : List Byte) : leBytes bs.length (unLE bs) = bs := by
  induction bs with
  | nil => rfl
  | cons b bs ih =>
    have hb := b.isLt
    have hdiv : (b.toNat + 256 * unLE bs) / 256 = unLE bs := by omega
    have hlow : BitVec.ofNat 8 (b.toNat + 256 * unLE bs) = b := BitVec.eq_of_toNat_eq (by simp; omega)
    rw [unLE, List.length_cons, leBytes, hdiv, hlow, ih]

/-- Eight bytes are the bytes of the word they stand for. -/
theorem wordBytes_ofNat_unLE {bs : List Byte} (h : bs.length = 8) : wordBytes (BitVec.ofNat 64 (unLE bs)) = bs := by
  have hlt := unLE_lt bs
  rw [h] at hlt
  rw [wordBytes, BitVec.toNat_ofNat, Nat.mod_eq_of_lt hlt, ← h, leBytes_unLE]

theorem wordsOf_append_of_length {a : List Byte} (h : a.length = 8) (bs : List Byte) :
    wordsOf (a ++ bs) = (wordsOf bs).map (BitVec.ofNat 64 (unLE a) :: ·) := by
  match a, h with
  | [_, _, _, _, _, _, _, _], _ => rfl

theorem wordsOf_wordsBytes (ws : List U64) : wordsOf (wordsBytes ws) = some ws := by
  induction ws with
  | nil => rfl
  | cons w ws ih =>
    rw [wordsBytes_cons, wordsOf_append_of_length (wordBytes_length w), ih, unLE_wordBytes]
    simp

/-- Bytes that read as words are the bytes of those words. -/
theorem wordsOf_eq_some_iff {bs : List Byte} {ws : List U64} : wordsOf bs = some ws ↔ bs = wordsBytes ws := by
  constructor
  · intro h
    induction bs using wordsOf.induct generalizing ws with
    | case1 =>
      cases h
      rfl
    | case2 b0 b1 b2 b3 b4 b5 b6 b7 rest ih =>
      simp only [wordsOf, Option.map_eq_some_iff] at h
      obtain ⟨us, hus, rfl⟩ := h
      rw [wordsBytes_cons, wordBytes_ofNat_unLE rfl, ← ih hus]
      rfl
    | case3 bs h1 h2 =>
      simp [wordsOf] at h
  · rintro rfl
    exact wordsOf_wordsBytes ws

/-! ## The header word, R101, R104 -/

/-- The opcode of a byte is the one whose code it is. -/
theorem Opcode.ofByte_eq_some_iff {b : Byte} {op : Opcode} : Opcode.ofByte b = some op ↔ b = op.code := by
  constructor
  · unfold Opcode.ofByte
    split <;> rintro ⟨⟩ <;> exact BitVec.eq_of_toNat_eq (by assumption)
  · rintro rfl
    cases op <;> rfl

theorem headerOf_headerWord (op : Opcode) (inst : U16) :
    headerOf (headerWord op inst) = { opcode := op.code, rsv0 := 0, inst := inst, rsv1 := 0 } := by
  have hop : op.code.toNat < 256 := op.code.isLt
  have hinst := inst.isLt
  have hword : (headerWord op inst).toNat = op.code.toNat + inst.toNat * 2 ^ 16 := by
    rw [headerWord, BitVec.toNat_ofNat]
    omega
  have hop16 : op.code.toNat < 16 := by cases op <;> decide
  simp only [headerOf, Header.mk.injEq]
  refine ⟨?_, ?_, ?_, ?_⟩ <;> apply BitVec.eq_of_toNat_eq <;>
    simp only [BitVec.extractLsb'_toNat, hword, Nat.shiftRight_eq_div_pow, BitVec.ofNat_eq_ofNat, BitVec.toNat_ofNat,
      Nat.reducePow] <;> omega

/-- A header word is the one of its opcode and INST when its reserved fields are 0. -/
theorem eq_headerWord_iff {w : U64} {op : Opcode} {inst : U16} :
    w = headerWord op inst ↔ headerOf w = { opcode := op.code, rsv0 := 0, inst := inst, rsv1 := 0 } := by
  constructor
  · rintro rfl
    exact headerOf_headerWord op inst
  · intro h
    simp only [headerOf, Header.mk.injEq] at h
    obtain ⟨hop, hrsv0, hinst, hrsv1⟩ := h
    have hlt := w.isLt
    have hop := congrArg BitVec.toNat hop
    have hrsv0 := congrArg BitVec.toNat hrsv0
    have hinst := congrArg BitVec.toNat hinst
    have hrsv1 := congrArg BitVec.toNat hrsv1
    simp only [BitVec.extractLsb'_toNat, Nat.shiftRight_eq_div_pow, BitVec.ofNat_eq_ofNat, BitVec.toNat_ofNat,
      Nat.reducePow] at hop hrsv0 hinst hrsv1
    apply BitVec.eq_of_toNat_eq
    rw [headerWord, BitVec.toNat_ofNat]
    omega

/-- A header that decodes is the header word of its opcode and INST; CONSTRUCT has INST 0. -/
theorem decodeHeader_eq_ok_iff {w : U64} {op : Opcode} {inst : U16} :
    decodeHeader w = .ok (op, inst) ↔ w = headerWord op inst ∧ (op = .construct → inst = 0) := by
  have hfields : headerOf w = { opcode := op.code, rsv0 := 0, inst := inst, rsv1 := 0 } ↔
      (Opcode.ofByte (headerOf w).opcode = some op ∧ (headerOf w).rsv0 = 0 ∧ (headerOf w).inst = inst ∧
        (headerOf w).rsv1 = 0) := by
    rw [Opcode.ofByte_eq_some_iff]
    exact Header.mk.injEq .. ▸ Iff.rfl
  rw [eq_headerWord_iff, hfields]
  simp only [decodeHeader]
  cases hop : Opcode.ofByte (headerOf w).opcode with
  | none => simp
  | some op' =>
    simp only [Option.some.injEq]
    split_ifs with hrsv hcons
    · simp only [false_iff]
      rintro ⟨⟨-, h0, -, h1⟩, -⟩
      exact hrsv.elim (· h0) (· h1)
    · simp only [false_iff]
      rintro ⟨⟨rfl, -, rfl, -⟩, h⟩
      exact hcons.2 (h hcons.1)
    · simp only [not_or, not_not] at hrsv
      simp only [Except.ok.injEq, Prod.mk.injEq, hrsv, true_and, and_true]
      constructor
      · rintro ⟨rfl, rfl⟩
        exact ⟨⟨rfl, rfl⟩, fun h => by simpa [h] using hcons⟩
      · exact fun h => h.1

/-! ## Operand words, R102, R103 -/

theorem takeWords_eq_some_iff {n : Nat} {ws : List U64} {r : List U64 × List U64} :
    takeWords n ws = some r ↔ ws = r.1 ++ r.2 ∧ r.1.length = n := by
  induction n generalizing ws r with
  | zero =>
    obtain ⟨a, b⟩ := r
    simp only [takeWords, Option.some.injEq, Prod.mk.injEq, List.length_eq_zero_iff]
    constructor
    · rintro ⟨rfl, rfl⟩
      exact ⟨rfl, rfl⟩
    · rintro ⟨rfl, rfl⟩
      exact ⟨rfl, rfl⟩
  | succ n ih =>
    obtain ⟨a, b⟩ := r
    cases ws with
    | nil =>
      simp only [takeWords, reduceCtorEq, false_iff]
      rintro ⟨h, hlen⟩
      simp [(List.append_eq_nil_iff.mp h.symm).1] at hlen
    | cons w ws =>
      simp only [takeWords, Option.map_eq_some_iff, ih, Prod.mk.injEq]
      constructor
      · rintro ⟨q, ⟨rfl, hlen⟩, rfl, rfl⟩
        exact ⟨rfl, by simp [hlen]⟩
      · rintro ⟨h, hlen⟩
        cases a with
        | nil => simp at hlen
        | cons u us =>
          simp only [List.cons_append, List.cons.injEq] at h
          obtain ⟨rfl, rfl⟩ := h
          exact ⟨(us, b), ⟨rfl, by simpa using hlen⟩, rfl, rfl⟩

theorem decodeOperand_eq_some_iff {sh : Shape} {ws : List U64} {r : Operand × List U64} :
    decodeOperand sh ws = some r ↔ ws = r.1.words ++ r.2 ∧ r.1.wellFormed = true ∧ r.1.fits sh = true := by
  obtain ⟨o, rest⟩ := r
  cases ws with
  | nil => cases o <;> simp [decodeOperand, Operand.words]
  | cons w ws =>
    cases hs : sh.strings with
    | false =>
      cases o with
      | num u => simp [decodeOperand, hs, Operand.words, Operand.wellFormed, Operand.fits]
      | str len us => simp [decodeOperand, hs, Operand.fits]
    | true =>
      cases o with
      | num u => simp [decodeOperand, hs, Operand.fits]
      | str len us =>
        simp only [decodeOperand, hs, if_true, Option.map_eq_some_iff, takeWords_eq_some_iff, Prod.mk.injEq,
          Operand.str.injEq, Operand.words, Operand.wellFormed, Operand.fits, beq_iff_eq, List.cons_append,
          List.cons.injEq, and_true]
        constructor
        · rintro ⟨q, ⟨rfl, hlen⟩, ⟨rfl, rfl⟩, rfl⟩
          exact ⟨⟨rfl, rfl⟩, hlen⟩
        · rintro ⟨⟨rfl, rfl⟩, hlen⟩
          exact ⟨(us, rest), ⟨rfl, hlen⟩, ⟨rfl, rfl⟩, rfl⟩

theorem decodeOperands_eq_some_iff {sh : Shape} {n : Nat} {ws : List U64} {r : List Operand × List U64} :
    decodeOperands sh n ws = some r ↔ ws = r.1.flatMap Operand.words ++ r.2 ∧ r.1.length = n ∧
      r.1.all Operand.wellFormed = true ∧ r.1.all (Operand.fits sh) = true := by
  induction n generalizing ws r with
  | zero =>
    obtain ⟨os, rest⟩ := r
    simp only [decodeOperands, Option.some.injEq, Prod.mk.injEq, List.length_eq_zero_iff]
    constructor
    · rintro ⟨rfl, rfl⟩
      exact ⟨rfl, rfl, rfl, rfl⟩
    · rintro ⟨rfl, rfl, -, -⟩
      exact ⟨rfl, rfl⟩
  | succ n ih =>
    obtain ⟨os, rest⟩ := r
    simp only [decodeOperands]
    constructor
    · intro h
      split at h
      · cases h
      · next o us hd =>
        obtain ⟨hws, hwf, hfits⟩ := decodeOperand_eq_some_iff.mp hd
        obtain ⟨q, hq, hr⟩ := Option.map_eq_some_iff.mp h
        obtain ⟨hus, hlen, hall, hfitall⟩ := ih.mp hq
        cases hr
        simp only at hws hus hwf hfits
        simp [hws, hus, hlen, hall, hfitall, hwf, hfits]
    · rintro ⟨rfl, hlen, hall, hfitall⟩
      cases os with
      | nil => simp at hlen
      | cons o os =>
        simp only [List.all_cons, Bool.and_eq_true] at hall hfitall
        have hd : decodeOperand sh ((o :: os).flatMap Operand.words ++ rest) =
            some (o, os.flatMap Operand.words ++ rest) :=
          decodeOperand_eq_some_iff.mpr ⟨by simp, hall.1, hfitall.1⟩
        have hq : decodeOperands sh n (os.flatMap Operand.words ++ rest) = some (os, rest) :=
          ih.mpr ⟨rfl, by simpa using hlen, hall.2, hfitall.2⟩
        simp only [hd, hq, Option.map_some]

theorem decodeChannels_eq_some_iff {sh : Shape} {ws rest : List U64} {c0 : U64} {c1 : Option U64} :
    decodeChannels sh ws = some (c0, c1, rest) ↔ ws = c0 :: (c1.toList ++ rest) ∧ c1.isSome = sh.twoChannels := by
  cases ws with
  | nil => simp [decodeChannels]
  | cons w ws =>
    cases htwo : sh.twoChannels with
    | false => cases c1 <;> simp [decodeChannels, htwo]
    | true => cases ws <;> cases c1 <;> simp [decodeChannels, htwo]

/-! ## Commands, R103, R108 -/

/-- The operands of a well-formed command of the shape decode to it, whatever words follow. -/
theorem decodeBody_encodeWords {sh : Shape} {i : Instr} {op : Opcode} {inst : U16}
    (hi : Instr.command? i = some (op, inst)) (hwf : i.wellFormed = true) (hfits : i.fits sh = true) :
    ∃ body, encodeWords i = headerWord op inst :: body ∧
      ∀ rest, decodeBody sh op inst (body ++ rest) = some (i, rest) := by
  cases i with
  | init inst' c0 c1 =>
    cases hi
    refine ⟨_, rfl, fun rest => ?_⟩
    have h : decodeChannels sh (c0 :: c1.toList ++ rest) = some (c0, c1, rest) :=
      decodeChannels_eq_some_iff.mpr ⟨rfl, beq_iff_eq.mp hfits⟩
    simp only [decodeBody, h, Option.map_some]
  | resume inst' c0 c1 n =>
    cases hi
    refine ⟨_, rfl, fun rest => ?_⟩
    have h : decodeChannels sh (c0 :: (c1.toList ++ [n]) ++ rest) = some (c0, c1, n :: rest) :=
      decodeChannels_eq_some_iff.mpr ⟨by simp, beq_iff_eq.mp hfits⟩
    simp only [decodeBody, h]
  | writeOne inst' item =>
    cases hi
    refine ⟨_, rfl, fun rest => ?_⟩
    have h : decodeOperand sh (item.words ++ rest) = some (item, rest) :=
      decodeOperand_eq_some_iff.mpr ⟨rfl, hwf, hfits⟩
    simp only [decodeBody, h, Option.map_some]
  | write inst' l o n buf =>
    cases hi
    refine ⟨_, rfl, fun rest => ?_⟩
    simp only [Instr.wellFormed, Bool.and_eq_true, beq_iff_eq] at hwf
    have h : decodeOperands sh l.toNat (buf.flatMap Operand.words ++ rest) = some (buf, rest) :=
      decodeOperands_eq_some_iff.mpr ⟨rfl, hwf.1, hwf.2, hfits⟩
    simp only [decodeBody, List.cons_append, h, Option.map_some]
  | construct d n =>
    cases hi
    refine ⟨_, rfl, fun rest => ?_⟩
    have hd : d.getLsbD 7 = n.isSome := (beq_iff_eq.mp hwf).symm
    cases n with
    | none => simp only [decodeBody, List.cons_append, hd, Option.isSome_none, Bool.false_eq_true, if_false,
        Option.toList_none, List.nil_append]
    | some n => simp only [decodeBody, List.cons_append, hd, Option.isSome_some, if_true, Option.toList_some,
        List.nil_append]
  | readOne | read | skip | commit | reset | flush | createReader | createWriter | getChannelCount | getItemCount =>
    cases hi
    exact ⟨_, rfl, fun _ => rfl⟩
  | _ => cases hi

/-- What operands decode to is a well-formed command of the shape, and they are its own. -/
theorem encodeWords_of_decodeBody {sh : Shape} {op : Opcode} {inst : U16} {ws rest : List U64} {i : Instr}
    (hinst : op = .construct → inst = 0) (h : decodeBody sh op inst ws = some (i, rest)) :
    Instr.command? i = some (op, inst) ∧ i.wellFormed = true ∧ i.fits sh = true ∧
      headerWord op inst :: ws = encodeWords i ++ rest := by
  cases op with
  | init =>
    obtain ⟨⟨c0, c1, r⟩, hr, he⟩ := Option.map_eq_some_iff.mp h
    obtain ⟨rfl, hc⟩ := decodeChannels_eq_some_iff.mp hr
    cases he
    exact ⟨rfl, rfl, beq_iff_eq.mpr hc, rfl⟩
  | resume =>
    simp only [decodeBody] at h
    split at h
    · next c0 c1 n r hr =>
      obtain ⟨rfl, hc⟩ := decodeChannels_eq_some_iff.mp hr
      cases h
      exact ⟨rfl, rfl, beq_iff_eq.mpr hc, by simp [encodeWords]⟩
    · cases h
  | writeOne =>
    obtain ⟨⟨o, r⟩, hr, he⟩ := Option.map_eq_some_iff.mp h
    obtain ⟨rfl, hwf, hfits⟩ := decodeOperand_eq_some_iff.mp hr
    cases he
    exact ⟨rfl, hwf, hfits, rfl⟩
  | write =>
    simp only [decodeBody] at h
    split at h
    · next l o n us =>
      obtain ⟨⟨os, r⟩, hr, he⟩ := Option.map_eq_some_iff.mp h
      obtain ⟨rfl, hlen, hwf, hfits⟩ := decodeOperands_eq_some_iff.mp hr
      cases he
      exact ⟨rfl, by simpa [Instr.wellFormed, hlen] using hwf, hfits, rfl⟩
    · cases h
  | read =>
    simp only [decodeBody] at h
    split at h
    · cases h
      exact ⟨rfl, rfl, rfl, rfl⟩
    · cases h
  | skip =>
    simp only [decodeBody] at h
    split at h
    · cases h
      exact ⟨rfl, rfl, rfl, rfl⟩
    · cases h
  | construct =>
    obtain rfl := hinst rfl
    simp only [decodeBody] at h
    split at h
    · cases h
    · next d us =>
      split at h
      · next hd =>
        split at h
        · cases h
        · cases h
          exact ⟨rfl, beq_iff_eq.mpr hd.symm, rfl, rfl⟩
      · next hd =>
        cases h
        exact ⟨rfl, beq_iff_eq.mpr (Bool.eq_false_iff.mpr hd).symm, rfl, rfl⟩
  | readOne | commit | reset | flush | createReader | createWriter | getChannelCount | getItemCount =>
    cases h
    exact ⟨rfl, rfl, rfl, rfl⟩

/-- Words decode to a command and the words left over exactly when they are its encoding and those. -/
theorem decodeWords_eq_ok_iff {sh : Shape} {ws rest : List U64} {i : Instr} :
    decodeWords sh ws = .ok (i, rest) ↔ (Instr.command? i).isSome = true ∧ i.wellFormed = true ∧ i.fits sh = true ∧
      ws = encodeWords i ++ rest := by
  constructor
  · intro h
    cases ws with
    | nil => cases h
    | cons w ws =>
      simp only [decodeWords] at h
      split at h
      · cases h
      · next op inst hh =>
        obtain ⟨rfl, hinst⟩ := decodeHeader_eq_ok_iff.mp hh
        split at h
        · cases h
        · next r hr =>
          cases h
          obtain ⟨hi, hwf, hfits, he⟩ := encodeWords_of_decodeBody hinst hr
          exact ⟨by rw [hi]; rfl, hwf, hfits, he⟩
  · rintro ⟨hi, hwf, hfits, rfl⟩
    obtain ⟨⟨op, inst⟩, hi⟩ := Option.isSome_iff_exists.mp hi
    obtain ⟨body, he, hbody⟩ := decodeBody_encodeWords hi hwf hfits
    have hh : decodeHeader (headerWord op inst) = .ok (op, inst) := by
      refine decodeHeader_eq_ok_iff.mpr ⟨rfl, ?_⟩
      rintro rfl
      exact command?_construct hi
    simp only [he, List.cons_append, decodeWords, hh, hbody]

/-- The bytes left over are those of the words left over. -/
theorem drop_wordsBytes_append (ws rest : List U64) :
    (wordsBytes (ws ++ rest)).drop ((wordsBytes (ws ++ rest)).length - 8 * rest.length) = wordsBytes rest := by
  rw [wordsBytes_append]
  exact List.drop_left' (by simp)

/-- A unit is no command. -/
theorem flag?_eq_none_iff {i : Instr} : i.flag? = none ↔ (Instr.command? i).isSome = true := by
  cases i <;> simp [Instr.flag?, Instr.command?]

theorem encode_of_command {i : Instr} (hi : (Instr.command? i).isSome = true) : encode i = wordsBytes (encodeWords i) := by
  simp only [encode, flag?_eq_none_iff.mpr hi]

theorem port_of_command {i : Instr} (hi : (Instr.command? i).isSome = true) (sh : Shape) : i.port sh = .command sh := by
  simp only [Instr.port, flag?_eq_none_iff.mpr hi]

theorem decode_command_encode {sh : Shape} {i : Instr} (hi : (Instr.command? i).isSome = true)
    (hwf : i.wellFormed = true) (hfits : i.fits sh = true) : decode (.command sh) (encode i) = .ok (i, []) := by
  have hw : decodeWords sh (encodeWords i) = .ok (i, []) :=
    decodeWords_eq_ok_iff.mpr ⟨hi, hwf, hfits, (List.append_nil _).symm⟩
  have hdrop := drop_wordsBytes_append (encodeWords i) []
  rw [List.append_nil] at hdrop
  simp only [decode, encode_of_command hi, wordsOf_wordsBytes, hw, hdrop, wordsBytes_nil]

/-- A whole packet decodes to a command exactly when it is its encoding. -/
theorem decodePacket_eq_ok_iff {sh : Shape} {bs : List Byte} {i : Instr} :
    decodePacket sh bs = .ok i ↔ (Instr.command? i).isSome = true ∧ i.wellFormed = true ∧ i.fits sh = true ∧
      encode i = bs := by
  constructor
  · intro h
    simp only [decodePacket] at h
    split at h
    · cases h
    · next i' hd =>
      cases h
      simp only [decode] at hd
      split at hd
      · cases hd
      · next ws hws =>
        obtain rfl := wordsOf_eq_some_iff.mp hws
        split at hd
        · cases hd
        · next i' rest hw =>
          simp only [Except.ok.injEq, Prod.mk.injEq] at hd
          obtain ⟨rfl, hrest⟩ := hd
          obtain ⟨hi, hwf, hfits, rfl⟩ := decodeWords_eq_ok_iff.mp hw
          rw [drop_wordsBytes_append] at hrest
          have hnil : rest = [] := by
            have := congrArg List.length hrest
            simpa using this
          exact ⟨hi, hwf, hfits, by rw [encode_of_command hi, hnil, List.append_nil]⟩
    · cases h
  · rintro ⟨hi, hwf, hfits, rfl⟩
    simp only [decodePacket, decode_command_encode hi hwf hfits]

/-! ## Units, R112 to R114 -/

/-- A well-formed unit is the one its flag byte announces: a check of every operand of the eleven units. -/
theorem decodeUnit_of_flag? {i : Instr} {v : Variant} {f : Byte} (hf : i.flag? = some (v, f))
    (hwf : i.wellFormed = true) : decodeUnit v f = i := by
  cases i with
  | fb32Rle code low5 =>
    cases hf
    revert code low5
    decide
  | fb32Single hi | fb64Rle hi | fb64Single hi | fb64lsbSingle hi =>
    cases hf
    revert hi
    decide
  | fb32Pair hi lo | fb32Rsvd hi lo | fb64Pair hi lo | fb64lsbRle hi lo | fb64lsbPair hi lo | fb64lsbRsvd hi lo =>
    cases hf
    revert hi lo
    decide
  | _ => cases hf

theorem decode_unit_encode {i : Instr} {v : Variant} {f : Byte} (hf : i.flag? = some (v, f))
    (hwf : i.wellFormed = true) : decode (.unit v) (encode i) = .ok (i, []) := by
  simp only [encode, hf, decode, decodeUnit_of_flag? hf hwf]

end Sys2Proof

namespace Sys2Proof.Machine

/-- Settles O4: a command by `decode_command_encode`, a unit by `decode_unit_encode`. -/
theorem decodingInvertsEncoding : Obligations.DecodingInvertsEncoding := by
  intro sh i hwf hfits
  cases hf : i.flag? with
  | none =>
    have hi := flag?_eq_none_iff.mp hf
    rw [port_of_command hi]
    exact decode_command_encode hi hwf hfits
  | some vf =>
    obtain ⟨v, f⟩ := vf
    have hport : i.port sh = .unit v := by simp only [Instr.port, hf]
    rw [hport]
    exact decode_unit_encode hf hwf

/-- Settles O5: one direction of `decodePacket_eq_ok_iff`. -/
theorem decodedPacketsEncodeBack : Obligations.DecodedPacketsEncodeBack := by
  intro sh bs i h
  obtain ⟨hi, hwf, hfits, he⟩ := decodePacket_eq_ok_iff.mp h
  exact ⟨hwf, hfits, hi, he⟩

/-- Settles O7: evaluation of the decoder on the written-out words. -/
theorem writtenOutWordsDecode : Obligations.WrittenOutWordsDecode := by
  refine ⟨?_, ?_, ?_, ?_, ?_, ?_, ?_⟩ <;> decide

end Sys2Proof.Machine
end

section
/-! PROOFS. The unit port (40_flagbyte.md R167, R168, R180 to R190): what a step of the reader at the port is, each unit's
meaning as the body that `fbReadWord` runs, and the flag-byte tables of 30_encoding.md R112 to R117. O2, O6, O14 to O19. -/

namespace Sys2Proof.Machine

/-! ## Flag bytes -/

theorem flagByte_hiNib_loNib : ∀ f : Byte, flagByte (hiNib f) (loNib f) = f := by decide

theorem code_append_low5 : ∀ f : Byte, (f.extractLsb' 5 3 ++ f.extractLsb' 0 5 : Byte) = f := by decide

theorem flagKind_fb64_ne_reserved (f : Byte) : flagKind .fb64 f ≠ .reserved := by
  revert f
  decide

/-- Every flag byte announces a well-formed unit, the one of that byte. -/
theorem decodeUnit_spec (v : Variant) (f : Byte) :
    (decodeUnit v f).wellFormed = true ∧ (decodeUnit v f).flag? = some (v, f) := by
  revert f
  cases v <;> decide

theorem encode_decodeUnit (v : Variant) (f : Byte) : encode (decodeUnit v f) = [f] := by
  simp only [encode, (decodeUnit_spec v f).2]

/-- Settles O6: each clause is a check of every flag byte or nibble. -/
theorem flagBytesFollowTheTables : Obligations.FlagBytesFollowTheTables := by
  refine ⟨?_, fun n => ⟨rfl, rfl, rfl, rfl, rfl, rfl⟩, fun v f => ?_⟩
  · intro f
    refine ⟨?_, ?_, ?_, ?_, ?_, ?_⟩ <;> revert f <;> decide
  · exact ⟨(decodeUnit_spec v f).1, encode_decodeUnit v f, (decodeUnit_spec v f).2⟩

/-! ## Units as bodies, R167 -/

/-- A unit that a reader decodes is executed with the body that its own word step runs. -/
theorem exec_decodeUnit (v : Variant) (f : Byte) (s : State) : exec (decodeUnit v f) s = s.runUnit v (unitBody v f) := by
  have hbody : unitBody v f = fun ch off =>
      match flagKind v f with
      | .rle => rleBody (runLength v f)
      | .single => singleBody v (hiNib f) ch off
      | .pair => pairBody v (hiNib f) (loNib f) ch off
      | .reserved => reservedBody := rfl
  rw [hbody]
  unfold decodeUnit
  cases v with
  | fb32 =>
    cases flagKind .fb32 f with
    | rle =>
      show s.runUnit .fb32 (fun _ _ => rleBody (runLength .fb32 (f.extractLsb' 5 3 ++ f.extractLsb' 0 5))) = _
      rw [code_append_low5]
    | single | pair | reserved => rfl
  | fb64 =>
    cases hk : flagKind .fb64 f with
    | reserved => exact absurd hk (flagKind_fb64_ne_reserved f)
    | rle =>
      show s.runUnit .fb64 (fun _ _ => rleBody (runLength .fb64 (flagByte 0xF#4 (loNib f)))) = _
      simp only [runLength, loNib_flagByte]
    | single | pair => rfl
  | fb64lsb =>
    cases flagKind .fb64lsb f with
    | rle =>
      show s.runUnit .fb64lsb (fun _ _ => rleBody (runLength .fb64lsb (flagByte (hiNib f) (loNib f)))) = _
      rw [flagByte_hiNib_loNib]
    | single | pair | reserved => rfl

/-- What a unit answers as a word step: its first word, or CorruptStream at the unit. -/
def UnitResult.got (w : Work) (sl : Slot) : UnitResult → Got U64 × Work
  | .corrupt => (.corrupt sl (w.cur.get sl), w)
  | .words len ws => (.value (applyUnit w sl len ws).1, (applyUnit w sl len ws).2)

/-- With nothing carried, the word step is the unit at RD_CUR. -/
theorem fbReadWord_of_unit (v : Variant) (sl : Slot) (ch : List Byte) {w : Work} {f : Byte}
    (hcarry : ¬(w.carry = 1 ∨ w.carry < 0)) (hf : ch[(w.cur.get sl).toNat]? = some f) :
    fbReadWord v sl ch w = (unitBody v f ch (w.cur.get sl).toNat).got w sl := by
  obtain ⟨h1, h2⟩ := not_or.mp hcarry
  simp only [fbReadWord, h1, h2, if_false, decodeUnitAt_of_getElem? hf]
  cases unitBody v f ch (w.cur.get sl).toNat <;> rfl

/-! ## The reader at the port -/

section
variable {s : State} {p : UnitPort} {x : Instance} {v : Variant} {c : Channel}

/-- The reader at the port, when it decodes the variant. -/
theorem unitReader_eq_some_iff : s.unitReader v = some (p, x) ↔ s.unitPort = some p ∧ s.inst? p.inst = some x ∧
    x.cfg.role = .reader ∧ x.life = .reading ∧ slotVariant x.cfg.base p.slot = some v := by
  unfold State.unitReader
  constructor
  · intro h
    split at h
    · cases h
    · next q hq =>
      split at h
      · cases h
      · next y hy =>
        split at h
        · next hok =>
          cases h
          exact ⟨hq, hy, hok⟩
        · cases h
  · rintro ⟨hp, hx, hok⟩
    simp only [hp, hx, hok, and_self, if_true]

theorem AtPort.unitReader (h : AtPort s p x v c) : s.unitReader v = some (p, x) := by
  obtain ⟨hp, hx, hrole, hlife, hv, -⟩ := h
  exact unitReader_eq_some_iff.mpr ⟨hp, hx, hrole, hlife, hv⟩

theorem atPort_of_unitReader (hr : s.unitReader v = some (p, x)) (hc : s.boundChan x p.slot = some c) :
    AtPort s p x v c := by
  obtain ⟨hp, hx, hrole, hlife, hv⟩ := unitReader_eq_some_iff.mp hr
  exact ⟨hp, hx, hrole, hlife, hv, hc⟩

/-- A unit has a next state only at the port. -/
theorem atPort_of_runUnit {t : State} {body : List Byte → Nat → UnitResult} (ht : s.runUnit v body = .next t) :
    ∃ p x c, AtPort s p x v c := by
  simp only [State.runUnit] at ht
  split at ht
  · cases ht
  · next p x hr =>
    split at ht
    · cases ht
    · next c hc => exact ⟨p, x, c, atPort_of_unitReader hr hc⟩

/-- A unit at the port is a word step there. -/
theorem runUnit_of_atPort (h : AtPort s p x v c) (body : List Byte → Nat → UnitResult) :
    s.runUnit v body = s.unitWord p x ((body c.bytes (x.work.cur.get p.slot).toNat).got x.work p.slot) := by
  obtain ⟨-, -, -, -, -, hc⟩ := id h
  simp only [State.runUnit, h.unitReader, hc]
  cases body c.bytes (x.work.cur.get p.slot).toNat <;> rfl

theorem step_of_port (hp : s.unitPort = some p) : step s = stepUnit s p := by simp only [step, hp]

/-- What the port fetches with a carried word or at the end of the channel. -/
theorem AtPort.unitFetch_of_none (h : AtPort s p x v c) (hf : nextFlag x p.slot c.bytes = none) :
    s.unitFetch p = .carried p x (fbReadWord v p.slot c.bytes x.work) := by
  obtain ⟨-, hx, -, -, hv, hc⟩ := id h
  simp only [State.unitFetch, hx, Option.bind_some, hv, h.unitReader, hc, hf]

/-- What the port fetches with a flag byte next. -/
theorem AtPort.unitFetch_of_some (h : AtPort s p x v c) {f : Byte} (hf : nextFlag x p.slot c.bytes = some f) :
    s.unitFetch p = .unit v (c.bytes.drop (x.work.cur.get p.slot).toNat) := by
  obtain ⟨-, hx, -, -, hv, hc⟩ := id h
  simp only [State.unitFetch, hx, Option.bind_some, hv, h.unitReader, hc, hf]

theorem nextFlag_eq_some_iff {x : Instance} {sl : Slot} {ch : List Byte} {f : Byte} :
    nextFlag x sl ch = some f ↔ ¬(x.work.carry = 1 ∨ x.work.carry < 0) ∧ ch[(x.work.cur.get sl).toNat]? = some f := by
  unfold nextFlag
  split_ifs with h
  · simp [h]
  · simp [h]

theorem drop_eq_cons_of_getElem? {ch : List Byte} {off : Nat} {f : Byte} (h : ch[off]? = some f) :
    ∃ rest, ch.drop off = f :: rest := by
  obtain ⟨hlt, rfl⟩ := List.getElem?_eq_some_iff.mp h
  exact ⟨_, List.drop_eq_getElem_cons hlt⟩

/-- With a flag byte next, the port executes the unit it announces. -/
theorem AtPort.stepUnit_of_flag (h : AtPort s p x v c) {f : Byte} (hf : nextFlag x p.slot c.bytes = some f) :
    stepUnit s p = exec (decodeUnit v f) s := by
  obtain ⟨rest, hdrop⟩ := drop_eq_cons_of_getElem? (nextFlag_eq_some_iff.mp hf).2
  simp only [stepUnit, h.unitFetch_of_some hf, hdrop, decode]

/-- A step at the port is the word step of a reader (R168). -/
theorem step_of_atPort (h : AtPort s p x v c) : step s = s.unitWord p x (fbReadWord v p.slot c.bytes x.work) := by
  rw [step_of_port h.1]
  cases hf : nextFlag x p.slot c.bytes with
  | none => simp only [stepUnit, h.unitFetch_of_none hf]
  | some f =>
    obtain ⟨hcarry, hget⟩ := nextFlag_eq_some_iff.mp hf
    rw [h.stepUnit_of_flag hf, exec_decodeUnit, runUnit_of_atPort h, fbReadWord_of_unit v p.slot c.bytes hcarry hget]

/-- Every step with a reader at the port is a word step of a reader there. -/
theorem atPort_of_step {t : State} (hp : s.unitPort = some p) (ht : step s = .next t) :
    ∃ x v c, AtPort s p x v c := by
  rw [step_of_port hp, stepUnit, State.unitFetch] at ht
  cases hv : (s.inst? p.inst).bind fun x => slotVariant x.cfg.base p.slot with
  | none => simp [hv] at ht
  | some v =>
    cases hr : s.unitReader v with
    | none => simp [hv, hr] at ht
    | some q =>
      obtain ⟨q, x⟩ := q
      have hq : q = p := Option.some.inj ((unitReader_eq_some_iff.mp hr).1.symm.trans hp)
      subst hq
      cases hc : s.boundChan x q.slot with
      | none => simp [hv, hr, hc] at ht
      | some c => exact ⟨x, v, c, atPort_of_unitReader hr hc⟩

/-- A word at the port: the reader's registers and the word returned, nothing else. -/
theorem unitRan_unitWord (hx : s.inst? p.inst = some x) (y : U64) (k : Work) :
    ∃ t, s.unitWord p x (.value y, k) = .next t ∧ UnitRan s t p x y k :=
  ⟨_, rfl, rfl, rfl, rfl, rfl, rfl, fun _ hj => State.setInst_inst?_ne hx _ hj, rfl, State.setInst_inst?_same hx _⟩

end

/-! ## Faults found during execution, 60_exceptions.md R359, R360 -/

/-- The instance that an execution fault leaves: FAULTED, with the record and unspecified working registers. -/
def Instance.faultedInExecution (x : Instance) (n : Nat) (op : Opcode) (code : FaultCode) (slot : Byte) (off : U64) :
    Instance :=
  { x with
    work := Config.unspecifiedWork n, life := .faulted
    fault := { code := code.code, opcode := op.code, slot := slot, offset := off } }

theorem executionFault_eq {s : State} {id : U16} {y : Instance} (hy : s.inst? id = some y) (x : Instance) {op : Opcode}
    {code : FaultCode} (hcode : code.unrecorded = false) (hop : op ≠ .construct) (slot : Byte) (off : U64) :
    s.executionFault id x op code slot off =
      ({ s with freeCount := s.freeCount + 1 }.setInst id
        (x.faultedInExecution s.freeCount op code slot off)).reply (.fault code.code) [] := by
  have hset (z : Instance) : State.inst? (State.setInst { s with freeCount := s.freeCount + 1 } id z) id = some z :=
    State.setInst_inst?_same (s := { s with freeCount := s.freeCount + 1 }) hy z
  rw [State.executionFault, faultEntry_recorded op code slot off hcode hop (hset _)]
  simp only [State.setInst, List.set_set, Instance.faultedInExecution]

theorem tookExecutionFault_executionFault {s : State} {id : U16} {x : Instance} (hx : s.inst? id = some x) {y : Instance}
    (hy : y.cfg = x.cfg) {op : Opcode} {code : FaultCode} (hcode : code.unrecorded = false) (hop : op ≠ .construct)
    (slot : Byte) (off : U64) :
    TookExecutionFault s (s.executionFault id y op code slot off) id x op code slot off := by
  rw [executionFault_eq hx y hcode hop]
  refine ⟨rfl, rfl, rfl, fun _ hj => State.setInst_inst?_ne (s := { s with freeCount := _ }) hx _ hj, ?_, _,
    State.setInst_inst?_same (s := { s with freeCount := _ }) hx _, hy, rfl, rfl⟩
  rw [← Status.word_fault]
  rfl

theorem ne_construct_of_readingOp {op : Opcode} (h : readingOp op = true) : op ≠ .construct := by
  rintro rfl
  cases h

/-- CorruptStream at the port ends the reading command, and the port is empty. -/
theorem tookExecutionFault_unitWord {s : State} {p : UnitPort} {x : Instance} (hx : s.inst? p.inst = some x)
    (hop : readingOp p.op = true) (sl : Slot) (off : U64) (k : Work) :
    ∃ t, s.unitWord p x (.corrupt sl off, k) = .next t ∧ t.unitPort = none ∧
      TookExecutionFault s t p.inst x p.op .corruptStream sl.number off := by
  have hx' : State.inst? { s with unitPort := none } p.inst = some x := hx
  refine ⟨_, rfl, ?_, tookExecutionFault_executionFault hx' rfl rfl (ne_construct_of_readingOp hop) _ _⟩
  rw [executionFault_eq hx' x rfl (ne_construct_of_readingOp hop)]
  rfl

/-! ## The steps of the port: O2, O18, O19 -/

/-- Settles O2: with the carry empty and a byte at RD_CUR, the port fetches the unit (`AtPort.stepUnit_of_flag`). -/
theorem stepRunsTheDecodedUnit : Obligations.StepRunsTheDecodedUnit := by
  intro s p x v c f h hcarry hf
  rw [step_of_port h.1]
  exact h.stepUnit_of_flag (nextFlag_eq_some_iff.mpr ⟨by omega, hf⟩)

/-- Settles O18: the word step at the port (`step_of_atPort`) takes the carry first. -/
theorem carriedWordsComeFirst : Obligations.CarriedWordsComeFirst := by
  intro s p x v c h
  rw [step_of_atPort h]
  constructor
  · intro hcarry
    rw [fbReadWord_of_carry_one v p.slot c.bytes hcarry]
    exact unitRan_unitWord h.2.1 _ _
  · intro hcarry
    rw [fbReadWord_of_carry_neg v p.slot c.bytes hcarry]
    exact unitRan_unitWord h.2.1 _ _

/-- End of stream changes no register. -/
theorem fbReadWord_eos_work {v : Variant} {sl : Slot} {ch : List Byte} {w k : Work}
    (h : fbReadWord v sl ch w = (.eos, k)) : k = w := by
  unfold fbReadWord at h
  split at h
  · cases h
  · split at h
    · cases h
    · split at h <;> cases h
      rfl

/-- Settles O19: the step at the port is `unitWord` of the reader's word step (`step_of_atPort`), case by case. -/
theorem unitStepIsTheReaderWordStep : Obligations.UnitStepIsTheReaderWordStep := by
  intro s p x v c h hop
  rw [step_of_atPort h]
  refine ⟨fun y k hr => ?_, fun k hr => ?_, fun sl off k hr => ?_⟩
  · rw [hr]
    exact unitRan_unitWord h.2.1 y k
  · rw [hr]
    exact ⟨fbReadWord_eos_work hr, rfl⟩
  · rw [hr]
    exact tookExecutionFault_unitWord h.2.1 hop sl off k

/-! ## Values and offsets, 30_encoding.md R117 -/

/-- RD_CUR advanced as a word step advances it. -/
theorem Work.advance_eq (k : Work) (sl : Slot) (n : Nat) :
    k.advance sl n = { k with cur := k.cur.set sl (BitVec.ofNat 64 ((k.cur.get sl).toNat + n)) } := by
  simp [Work.advance, BitVec.ofNat_add]

theorem bytesAt_eq_readBytes {c : Channel} {off n : Nat} (h : off + n ≤ c.bytes.length) :
    bytesAt c off n = readBytes c.bytes off n := by
  apply List.ext_getElem
  · simp [bytesAt, readBytes]
    omega
  · intro i h1 h2
    simp only [bytesAt, List.length_map, List.length_range] at h1
    have hlt : off + i < c.bytes.length := by omega
    simp [bytesAt, readBytes, hlt]

theorem readBytes_length {ch : List Byte} {off n : Nat} (h : off + n ≤ ch.length) : (readBytes ch off n).length = n := by
  simp [readBytes]
  omega

/-- The value of a nibble's data bytes is that of R117, for a nibble of at most B bytes. -/
theorem nibValue_eq_dataValue {v : Variant} {n : BitVec 4} {l : List Byte} (hlen : l.length = nibBytes v n)
    (hle : nibBytes v n ≤ Variant.byteWidth v) :
    nibValue v n l = dataValue (Variant.byteWidth v) (nibBytes v n) (nibLeading v n) l := by
  unfold nibValue dataValue
  simp only
  split_ifs with hzero hlead hlead
  · rw [List.length_eq_zero_iff.mp (hlen.trans hzero)]
    simp [unLE]
  · rw [List.length_eq_zero_iff.mp (hlen.trans hzero)]
    simp [unLE]
  · apply trunc_eq_self
    have hlt := unLE_lt l
    rw [hlen] at hlt
    have hB : Variant.byteWidth v ≤ 8 := by cases v <;> decide
    have hprod : unLE l * 2 ^ (8 * (Variant.byteWidth v - nibBytes v n)) < 2 ^ (8 * Variant.byteWidth v) := by
      calc unLE l * 2 ^ (8 * (Variant.byteWidth v - nibBytes v n))
          < 2 ^ (8 * nibBytes v n) * 2 ^ (8 * (Variant.byteWidth v - nibBytes v n)) :=
            Nat.mul_lt_mul_of_pos_right hlt (Nat.two_pow_pos _)
        _ = 2 ^ (8 * Variant.byteWidth v) := by
            rw [← Nat.pow_add, ← Nat.mul_add, Nat.add_sub_cancel' hle]
    rw [BitVec.toNat_ofNat]
    exact lt_of_le_of_lt (Nat.mod_le _ _) hprod
  · rfl

/-! ## The units, R180 to R190 -/

section
variable {s : State} {p : UnitPort} {x : Instance} {v : Variant} {c : Channel}

/-- A unit whose body yields words is a completed word step. -/
theorem unitRan_runUnit (h : AtPort s p x v c) {body : List Byte → Nat → UnitResult} {len : Nat} {ws : UnitWords}
    (hb : body c.bytes (x.work.cur.get p.slot).toNat = .words len ws) :
    ∃ t, s.runUnit v body = .next t ∧
      UnitRan s t p x (applyUnit x.work p.slot len ws).1 (applyUnit x.work p.slot len ws).2 := by
  rw [runUnit_of_atPort h, hb]
  exact unitRan_unitWord h.2.1 _ _

/-- A corrupt unit ends the command that reads. -/
theorem tookExecutionFault_runUnit (h : AtPort s p x v c) (hop : readingOp p.op = true)
    {body : List Byte → Nat → UnitResult} (hb : body c.bytes (x.work.cur.get p.slot).toNat = .corrupt) :
    ∃ t, s.runUnit v body = .next t ∧ t.unitPort = none ∧
      TookExecutionFault s t p.inst x p.op .corruptStream p.slot.number (x.work.cur.get p.slot) := by
  rw [runUnit_of_atPort h, hb]
  exact tookExecutionFault_unitWord h.2.1 hop _ _ _

theorem unitRan_rle (h : AtPort s p x v c) (r : Nat) :
    ∃ t, s.runUnit v (fun _ _ => rleBody r) = .next t ∧
      UnitRan s t p x 0 { x.work.advance p.slot 1 with carry := -((r : Int) - 1) } := by
  obtain ⟨t, ht, hran⟩ := unitRan_runUnit h (body := fun _ _ => rleBody r) rfl
  refine ⟨t, ht, ?_⟩
  rw [Work.advance_eq]
  exact hran

theorem unitRan_single (h : AtPort s p x v c) {hi : BitVec 4} (hle : nibBytes v hi ≤ Variant.byteWidth v)
    (hroom : (x.work.cur.get p.slot).toNat + 1 + nibBytes v hi ≤ c.bytes.length) :
    ∃ t, s.runUnit v (singleBody v hi) = .next t ∧
      UnitRan s t p x
        (dataValue (Variant.byteWidth v) (nibBytes v hi) (nibLeading v hi)
          (bytesAt c ((x.work.cur.get p.slot).toNat + 1) (nibBytes v hi)))
        (x.work.advance p.slot (1 + nibBytes v hi)) := by
  have hb : singleBody v hi c.bytes (x.work.cur.get p.slot).toNat = .words (1 + nibBytes v hi)
      (.one (nibValue v hi (readBytes c.bytes ((x.work.cur.get p.slot).toNat + 1) (nibBytes v hi)))) :=
    if_neg (Nat.not_lt.mpr hroom)
  obtain ⟨t, ht, hran⟩ := unitRan_runUnit h hb
  refine ⟨t, ht, ?_⟩
  rw [Work.advance_eq, bytesAt_eq_readBytes hroom, ← nibValue_eq_dataValue (readBytes_length hroom) hle]
  exact hran

theorem unitRan_pair (h : AtPort s p x v c) {hi lo : BitVec 4} (hhi : nibBytes v hi ≤ Variant.byteWidth v)
    (hlo : nibBytes v lo ≤ Variant.byteWidth v)
    (hroom : (x.work.cur.get p.slot).toNat + 1 + nibBytes v hi + nibBytes v lo ≤ c.bytes.length) :
    ∃ t, s.runUnit v (pairBody v hi lo) = .next t ∧
      UnitRan s t p x
        (dataValue (Variant.byteWidth v) (nibBytes v hi) (nibLeading v hi)
          (bytesAt c ((x.work.cur.get p.slot).toNat + 1) (nibBytes v hi)))
        { x.work.advance p.slot (1 + nibBytes v hi + nibBytes v lo) with
          carry := 1
          carryVal := dataValue (Variant.byteWidth v) (nibBytes v lo) (nibLeading v lo)
            (bytesAt c ((x.work.cur.get p.slot).toNat + 1 + nibBytes v hi) (nibBytes v lo)) } := by
  have hb : pairBody v hi lo c.bytes (x.work.cur.get p.slot).toNat = .words (1 + nibBytes v hi + nibBytes v lo)
      (.two (nibValue v hi (readBytes c.bytes ((x.work.cur.get p.slot).toNat + 1) (nibBytes v hi)))
        (nibValue v lo (readBytes c.bytes ((x.work.cur.get p.slot).toNat + 1 + nibBytes v hi) (nibBytes v lo)))) :=
    if_neg (Nat.not_lt.mpr hroom)
  have hroom1 : (x.work.cur.get p.slot).toNat + 1 + nibBytes v hi ≤ c.bytes.length := by omega
  obtain ⟨t, ht, hran⟩ := unitRan_runUnit h hb
  refine ⟨t, ht, ?_⟩
  rw [Work.advance_eq, bytesAt_eq_readBytes hroom1, bytesAt_eq_readBytes hroom,
    ← nibValue_eq_dataValue (readBytes_length hroom1) hhi, ← nibValue_eq_dataValue (readBytes_length hroom) hlo]
  exact hran

end

/-- A value nibble of each variant has at most B data bytes. -/
theorem nibBytes_fb32_le {n : BitVec 4} (h : n.toNat / 2 ≤ 4) : nibBytes .fb32 n ≤ Variant.byteWidth .fb32 := h

theorem nibBytes_fb64_le (n : BitVec 4) : nibBytes .fb64 n ≤ Variant.byteWidth .fb64 := by
  revert n
  decide

theorem nibBytes_fb64lsb_le {n : BitVec 4} (h : n.toNat ≤ 8) : nibBytes .fb64lsb n ≤ Variant.byteWidth .fb64lsb := h

theorem runLength_fb32Rle : ∀ (code : BitVec 3) (low5 : BitVec 5), 5 ≤ code.toNat →
    ((runLength .fb32 (code ++ low5) : Nat) : Int) = ((code.toNat : Int) - 5) * 32 + low5.toNat + 3 := by decide

theorem runLength_fb64Rle : ∀ low : BitVec 4, ((runLength .fb64 (flagByte 0xF#4 low) : Nat) : Int) = low.toNat + 1 := by
  decide

theorem runLength_fb64lsbRle : ∀ code low4 : BitVec 4, 9 ≤ code.toNat →
    ((runLength .fb64lsb (flagByte code low4) : Nat) : Int) = ((code.toNat : Int) - 9) * 16 + low4.toNat + 3 := by decide

/-- Settles O14: the RLE bodies of the three variants at the port (`unitRan_rle`). -/
theorem runUnitsComplete : Obligations.RunUnitsComplete := by
  intro s p x c
  refine ⟨fun code low5 hcode h => ?_, fun runm1 h => ?_, fun code low4 hcode h => ?_⟩
  · rw [← runLength_fb32Rle code low5 hcode]
    exact unitRan_rle h _
  · rw [← runLength_fb64Rle runm1]
    exact unitRan_rle h _
  · rw [← runLength_fb64lsbRle code low4 hcode]
    exact unitRan_rle h _

/-- Settles O15: the SINGLE bodies of the three variants at the port (`unitRan_single`). -/
theorem singleUnitsComplete : Obligations.SingleUnitsComplete := by
  rintro s p x c hi off rfl
  exact ⟨fun hhi h hroom => unitRan_single h (nibBytes_fb32_le hhi) hroom,
    fun _ h hroom => unitRan_single h (nibBytes_fb64_le hi) hroom,
    fun hhi h hroom => unitRan_single h (nibBytes_fb64lsb_le hhi) hroom⟩

/-- Settles O16: the PAIR bodies of the three variants at the port (`unitRan_pair`). -/
theorem pairUnitsComplete : Obligations.PairUnitsComplete := by
  rintro s p x c hi lo off rfl
  exact ⟨fun hhi hlo h hroom => unitRan_pair h (nibBytes_fb32_le hhi) (nibBytes_fb32_le hlo) hroom,
    fun _ _ h hroom => unitRan_pair h (nibBytes_fb64_le hi) (nibBytes_fb64_le lo) hroom,
    fun hhi hlo h hroom => unitRan_pair h (nibBytes_fb64lsb_le hhi) (nibBytes_fb64lsb_le hlo) hroom⟩

/-- Settles O17: the body of each of the eight units is corrupt, and the port takes the fault
(`tookExecutionFault_runUnit`). -/
theorem corruptUnitsFault : Obligations.CorruptUnitsFault := by
  rintro s p x c hi lo i off rfl hop (⟨-, -, -, rfl, h⟩ | ⟨-, -, -, rfl, h⟩ | ⟨-, rfl, h, hend⟩ | ⟨-, rfl, h, hend⟩ |
    ⟨-, rfl, h, hend⟩ | ⟨-, -, rfl, h, hend⟩ | ⟨-, -, rfl, h, hend⟩ | ⟨-, -, rfl, h, hend⟩)
  · exact tookExecutionFault_runUnit h hop (body := fun _ _ => reservedBody) rfl
  · exact tookExecutionFault_runUnit h hop (body := fun _ _ => reservedBody) rfl
  · exact tookExecutionFault_runUnit h hop ((singleBody_eq_corrupt_iff _ _ _ _).mpr hend)
  · exact tookExecutionFault_runUnit h hop ((singleBody_eq_corrupt_iff _ _ _ _).mpr hend)
  · exact tookExecutionFault_runUnit h hop ((singleBody_eq_corrupt_iff _ _ _ _).mpr hend)
  · exact tookExecutionFault_runUnit h hop ((pairBody_eq_corrupt_iff _ _ _ _ _).mpr hend)
  · exact tookExecutionFault_runUnit h hop ((pairBody_eq_corrupt_iff _ _ _ _ _).mpr hend)
  · exact tookExecutionFault_runUnit h hop ((pairBody_eq_corrupt_iff _ _ _ _ _).mpr hend)

end Sys2Proof.Machine
end

section
/-! PROOFS. The construction descriptor (30_encoding.md R105, 44_pipeline.md R308) as an equivalence between its fields and
the configuration it names, and the operand forms of items (R102, R294). O8, O9. -/

namespace Sys2Proof.Machine

/-! ## Codes -/

theorem Base.ofCode_eq_some_iff {c : BitVec 4} {b : Base} : Base.ofCode c = some b ↔ c.toNat = b.code := by
  revert c
  cases b <;> decide

theorem VarKind.ofCode_eq_some_iff {c : BitVec 2} {k : VarKind} : VarKind.ofCode c = some k ↔ c.toNat = k.code := by
  revert c
  cases k <;> decide

theorem Xform.ofCode_eq_some_iff {c : BitVec 2} {t : Xform} : Xform.ofCode c = some t ↔ c.toNat = t.code := by
  revert c
  cases t <;> decide

theorem Base.code_lt (b : Base) : b.code < 16 := by cases b <;> decide

theorem VarKind.code_lt (k : VarKind) : k.code < 4 := by cases k <;> decide

theorem Xform.code_lt (t : Xform) : t.code < 4 := by cases t <;> decide

theorem xformCodes_lt (ts : List Xform) : xformCodes ts < 4 ^ ts.length := by
  induction ts with
  | nil => exact Nat.one_pos
  | cons t ts ih =>
    have ht := t.code_lt
    rw [xformCodes, List.length_cons, Nat.pow_succ]
    omega

/-! ## The transforms of a descriptor -/

/-- The transforms read from bit 12 + 2j are those whose codes stand there. -/
theorem descXforms_eq_some_iff {d : U64} {j n : Nat} {ts : List Xform} :
    descXforms d j n = some ts ↔ ts.length = n ∧ xformCodes ts = d.toNat / 2 ^ (12 + 2 * j) % 4 ^ n := by
  induction n generalizing j ts with
  | zero =>
    simp only [descXforms, Option.some.injEq, List.length_eq_zero_iff, Nat.pow_zero, Nat.mod_one]
    constructor
    · rintro rfl
      exact ⟨rfl, rfl⟩
    · exact fun h => h.1.symm
  | succ n ih =>
    have hcode (t : Xform) : Xform.ofCode (d.extractLsb' (12 + 2 * j) 2) = some t ↔
        d.toNat / 2 ^ (12 + 2 * j) % 4 = t.code := by
      rw [Xform.ofCode_eq_some_iff, BitVec.extractLsb'_toNat, Nat.shiftRight_eq_div_pow]
    have hnext : d.toNat / 2 ^ (12 + 2 * (j + 1)) = d.toNat / 2 ^ (12 + 2 * j) / 4 := by
      rw [Nat.div_div_eq_div_mul, show 12 + 2 * (j + 1) = 12 + 2 * j + 2 by omega, Nat.pow_add]
    have hsplit : d.toNat / 2 ^ (12 + 2 * j) % 4 ^ (n + 1) =
        d.toNat / 2 ^ (12 + 2 * j) % 4 + 4 * (d.toNat / 2 ^ (12 + 2 * j) / 4 % 4 ^ n) := by
      rw [Nat.pow_succ', Nat.mod_mul]
    have hlist : descXforms d j (n + 1) = some ts ↔ ∃ t us, ts = t :: us ∧
        Xform.ofCode (d.extractLsb' (12 + 2 * j) 2) = some t ∧ descXforms d (j + 1) n = some us := by
      simp only [descXforms]
      cases Xform.ofCode (d.extractLsb' (12 + 2 * j) 2) <;> cases descXforms d (j + 1) n <;> simp [eq_comm]
    rw [hlist, hsplit]
    constructor
    · rintro ⟨t, us, rfl, ht, hus⟩
      obtain ⟨hlen, hcodes⟩ := ih.mp hus
      rw [xformCodes, ← (hcode t).mp ht, hcodes, hnext]
      exact ⟨by simp [hlen], rfl⟩
    · rintro ⟨hlen, hcodes⟩
      cases ts with
      | nil => cases hlen
      | cons t us =>
        have ht := t.code_lt
        rw [xformCodes] at hcodes
        refine ⟨t, us, rfl, (hcode t).mpr (by omega), ih.mpr ⟨by simpa using hlen, ?_⟩⟩
        rw [hnext]
        omega

/-! ## The descriptor word -/

/-- The descriptor as a number: its fields in their places. -/
def Cfg.descNat (c : Cfg) : Nat :=
  c.base.code + (if c.role = .writer then 0x10 else 0) + c.varKind.code * 0x20 +
    (if c.itemCount.isSome then 0x80 else 0) + c.xforms.length * 0x100 + xformCodes c.xforms * 0x1000

theorem Cfg.desc_toNat {c : Cfg} (h : c.xforms.length ≤ 15) : c.desc.toNat = c.descNat := by
  have hb := c.base.code_lt
  have hk := c.varKind.code_lt
  have hx := xformCodes_lt c.xforms
  have hpow : 4 ^ c.xforms.length ≤ 4 ^ 15 := Nat.pow_le_pow_right (by decide) h
  have hlt : c.descNat < 2 ^ 64 := by
    unfold Cfg.descNat
    split_ifs <;> omega
  exact Nat.mod_eq_of_lt hlt

/-- What the parts of a legal configuration are. -/
theorem Cfg.ok_iff (c : Cfg) : c.ok = true ↔ (c.xforms = [] ∨ c.base.takesXforms = true) ∧ c.xforms.length ≤ 15 ∧
    (c.base.strings = true ∨ c.varKind = .bytes) := by
  simp [Cfg.ok, and_assoc]

/-- The fields of a descriptor word that names a configuration. -/
structure DescNames (d : U64) (c : Cfg) : Prop where
  base : d.toNat % 16 = c.base.code
  kind : d.toNat / 32 % 4 = c.varKind.code
  count : c.xforms.length = d.toNat / 256 % 16
  codes : xformCodes c.xforms = d.toNat / 4096 % 4 ^ c.xforms.length
  role : d.getLsbD 4 = decide (c.role = .writer)
  rest : d.toNat / 4096 / 4 ^ c.xforms.length = 0

theorem descK_eq (d : U64) : descK d = d.toNat / 256 % 16 := by
  rw [descK, BitVec.extractLsb'_toNat, Nat.shiftRight_eq_div_pow]

theorem two_pow_desc (n : Nat) : 2 ^ (12 + 2 * n) = 4096 * 4 ^ n := by
  rw [Nat.pow_add, Nat.pow_mul]

theorem ushiftRight_eq_zero_iff (d : U64) (n : Nat) :
    d >>> (12 + 2 * n) = 0 ↔ d.toNat / 4096 / 4 ^ n = 0 := by
  rw [← BitVec.toNat_inj, BitVec.toNat_ushiftRight, Nat.shiftRight_eq_div_pow, two_pow_desc, Nat.div_div_eq_div_mul]
  rfl

theorem not_not_and_eq_false {P : Prop} {b : Bool} : ¬(¬P ∧ b = false) ↔ P ∨ b = true := by
  cases b <;> simp

/-- A descriptor names a configuration exactly when its fields are the configuration's and that is legal. -/
theorem parseDesc_eq_some_iff {d : U64} {n : Option U64} {c : Cfg} :
    parseDesc d n = some c ↔ DescNames d c ∧ c.ok = true ∧ c.itemCount = n := by
  have hbase (b : Base) : Base.ofCode (d.extractLsb' 0 4) = some b ↔ d.toNat % 16 = b.code := by
    rw [Base.ofCode_eq_some_iff, BitVec.extractLsb'_toNat, Nat.shiftRight_zero]
  have hkind (k : VarKind) : VarKind.ofCode (d.extractLsb' 5 2) = some k ↔ d.toNat / 32 % 4 = k.code := by
    rw [VarKind.ofCode_eq_some_iff, BitVec.extractLsb'_toNat, Nat.shiftRight_eq_div_pow]
  have hxs (ts : List Xform) : descXforms d 0 (descK d) = some ts ↔
      ts.length = d.toNat / 256 % 16 ∧ xformCodes ts = d.toNat / 4096 % 4 ^ ts.length := by
    rw [descXforms_eq_some_iff, descK_eq]
    constructor
    · rintro ⟨h, hc⟩
      exact ⟨h, h ▸ hc⟩
    · rintro ⟨h, hc⟩
      exact ⟨h, h ▸ hc⟩
  have hrole (r : Role) : (if d.getLsbD 4 then Role.writer else Role.reader) = r ↔
      d.getLsbD 4 = decide (r = .writer) := by
    cases d.getLsbD 4 <;> cases r <;> simp
  rw [Cfg.ok_iff]
  constructor
  · intro h
    simp only [parseDesc] at h
    generalize hr : (if d.getLsbD 4 then Role.writer else Role.reader) = r at h
    split at h
    · next b k ts hb hk ht =>
      obtain ⟨hlen, hcodes⟩ := (hxs ts).mp ht
      split_ifs at h with h1 h2 h3
      rw [not_not, descK_eq, ← hlen, ushiftRight_eq_zero_iff] at h3
      cases h
      refine ⟨⟨(hbase b).mp hb, (hkind k).mp hk, hlen, hcodes, (hrole r).mp hr, h3⟩,
        ⟨not_not_and_eq_false.mp h2, ?_, (not_not_and_eq_false.mp h1).symm⟩, rfl⟩
      simp only
      omega
    · cases h
  · rintro ⟨⟨hb, hk, hlen, hcodes, hr, hrest⟩, ⟨hx, -, hs⟩, rfl⟩
    have h1 : ¬(c.varKind ≠ .bytes ∧ c.base.strings = false) := not_not_and_eq_false.mpr hs.symm
    have h2 : ¬(c.xforms ≠ [] ∧ c.base.takesXforms = false) := not_not_and_eq_false.mpr hx
    have h3 : ¬d >>> (12 + 2 * descK d) ≠ 0 := by
      rw [not_not, descK_eq, ← hlen, ushiftRight_eq_zero_iff]
      exact hrest
    simp only [parseDesc, (hbase _).mpr hb, (hkind _).mpr hk, (hxs _).mpr ⟨hlen, hcodes⟩, h1, h2, h3, if_false,
      (hrole _).mpr hr]

theorem getLsbD_eq_decide (d : U64) (i : Nat) : d.getLsbD i = decide (d.toNat / 2 ^ i % 2 = 1) := by
  rw [← BitVec.testBit_toNat, Nat.testBit_eq_decide_div_mod_eq]

/-- The fields and DESC.IC of a word are those of a configuration exactly when it is the configuration's descriptor. -/
theorem descNames_iff {d : U64} {c : Cfg} (h : c.xforms.length ≤ 15) :
    DescNames d c ∧ d.getLsbD 7 = c.itemCount.isSome ↔ d = c.desc := by
  have hb := c.base.code_lt
  have hk := c.varKind.code_lt
  have hx := xformCodes_lt c.xforms
  have hword : d = c.desc ↔ d.toNat = c.descNat := by rw [← BitVec.toNat_inj, Cfg.desc_toNat h]
  have hrole : d.getLsbD 4 = decide (c.role = .writer) ↔ d.toNat / 16 % 2 = if c.role = .writer then 1 else 0 := by
    rw [getLsbD_eq_decide]
    cases c.role <;> simp
  have hcount : d.getLsbD 7 = c.itemCount.isSome ↔ d.toNat / 128 % 2 = if c.itemCount.isSome then 1 else 0 := by
    rw [getLsbD_eq_decide]
    cases c.itemCount <;> simp
  have hsplit : ∀ m, xformCodes c.xforms = m % 4 ^ c.xforms.length ∧ m / 4 ^ c.xforms.length = 0 ↔
      xformCodes c.xforms = m := by
    intro m
    constructor
    · rintro ⟨h1, h2⟩
      rw [h1, Nat.mod_eq_of_lt (Nat.lt_of_div_eq_zero (Nat.pow_pos (by decide)) h2)]
    · rintro rfl
      exact ⟨(Nat.mod_eq_of_lt hx).symm, Nat.div_eq_of_lt hx⟩
  rw [hword, hcount]
  unfold Cfg.descNat
  constructor
  · rintro ⟨⟨hb', hk', hn, hc, hr, hz⟩, hi⟩
    have hcodes := (hsplit _).mp ⟨hc, hz⟩
    have hr := hrole.mp hr
    split_ifs at hr hi ⊢ <;> omega
  · intro hd
    have hcodes : xformCodes c.xforms = d.toNat / 4096 := by split_ifs at hd <;> omega
    obtain ⟨hc, hz⟩ := (hsplit _).mpr hcodes
    refine ⟨⟨?_, ?_, ?_, hc, hrole.mpr ?_, hz⟩, ?_⟩ <;> split_ifs at hd ⊢ <;> omega

theorem parseDesc_ok {d : U64} {n : Option U64} {c : Cfg} (h : parseDesc d n = some c) : c.ok = true :=
  (parseDesc_eq_some_iff.mp h).2.1

/-- With the ITEMCOUNT word that DESC.IC announces, a descriptor names a configuration exactly when it is its descriptor. -/
theorem parseDesc_iff_desc {d : U64} {n : Option U64} {c : Cfg} (hn : n.isSome = d.getLsbD 7) :
    parseDesc d n = some c ↔ c.ok = true ∧ c.itemCount = n ∧ c.desc = d := by
  rw [parseDesc_eq_some_iff]
  constructor
  · rintro ⟨hd, hok, rfl⟩
    have hlen := ((Cfg.ok_iff c).mp hok).2.1
    exact ⟨hok, rfl, ((descNames_iff hlen).mp ⟨hd, hn.symm⟩).symm⟩
  · rintro ⟨hok, rfl, rfl⟩
    have hlen := ((Cfg.ok_iff c).mp hok).2.1
    exact ⟨((descNames_iff hlen).mpr rfl).1, hok, rfl⟩

theorem Cfg.desc_getLsbD_seven {c : Cfg} (h : c.ok = true) : c.desc.getLsbD 7 = c.itemCount.isSome :=
  ((descNames_iff ((Cfg.ok_iff c).mp h).2.1).mpr rfl).2

theorem parseDesc_desc {c : Cfg} (h : c.ok = true) : parseDesc c.desc c.itemCount = some c :=
  (parseDesc_iff_desc (Cfg.desc_getLsbD_seven h).symm).mpr ⟨h, rfl, rfl⟩

/-- Settles O8: the two directions of `parseDesc_iff_desc`. -/
theorem descriptorsNameTheirConfiguration : Obligations.DescriptorsNameTheirConfiguration :=
  ⟨fun _ h => ⟨parseDesc_desc h, Cfg.desc_getLsbD_seven h⟩, fun _ _ _ hn h => (parseDesc_iff_desc hn).mp h⟩

/-! ## Packed words, 30_encoding.md R102 -/

theorem leBytes_zero (k : Nat) : leBytes k 0 = List.replicate k 0 := by
  induction k with
  | zero => rfl
  | succ k ih => simp [leBytes, ih, List.replicate_succ]

/-- More bytes than the number has are zero bytes. -/
theorem leBytes_unLE_add (bs : List Byte) (k : Nat) : leBytes (bs.length + k) (unLE bs) = bs ++ List.replicate k 0 := by
  induction bs with
  | nil => simpa [unLE] using leBytes_zero k
  | cons b bs ih =>
    have hb := b.isLt
    have hdiv : (b.toNat + 256 * unLE bs) / 256 = unLE bs := by omega
    have hlow : BitVec.ofNat 8 (b.toNat + 256 * unLE bs) = b := BitVec.eq_of_toNat_eq (by simp; omega)
    rw [unLE, List.length_cons, Nat.add_right_comm, leBytes, hdiv, hlow, ih, List.cons_append]

/-- The bytes of a word that at most eight bytes stand for. -/
theorem wordBytes_ofNat_unLE_of_le {bs : List Byte} (h : bs.length ≤ 8) :
    wordBytes (BitVec.ofNat 64 (unLE bs)) = bs ++ List.replicate (8 - bs.length) 0 := by
  have hlt : unLE bs < 2 ^ 64 := (unLE_lt bs).trans_le (Nat.pow_le_pow_right (by decide) (by omega))
  have hadd := leBytes_unLE_add bs (8 - bs.length)
  rw [Nat.add_sub_cancel' h] at hadd
  rw [wordBytes, BitVec.toNat_ofNat, Nat.mod_eq_of_lt hlt, hadd]

theorem packWords_length (s : List Byte) : (packWords s).length = (s.length + 7) / 8 := by simp [packWords]

/-- The first packed word, and the packed words of the bytes after it. -/
theorem packWords_of_ne_nil {s : List Byte} (h : s ≠ []) :
    packWords s = BitVec.ofNat 64 (unLE (s.take 8)) :: packWords (s.drop 8) := by
  have hpos := List.length_pos_iff.mpr h
  have hcount : (s.length + 7) / 8 = ((s.drop 8).length + 7) / 8 + 1 := by
    rw [List.length_drop]
    omega
  rw [packWords, hcount, List.range_succ_eq_map, List.map_cons, List.map_map]
  refine congrArg₂ List.cons (by simp) (List.map_congr_left fun i _ => ?_)
  simp only [Function.comp_apply, List.drop_drop]
  rw [show 8 * (i + 1) = 8 + 8 * i by omega]

/-- The packed words hold the byte string, and zero bytes after it. -/
theorem wordsBytes_packWords (s : List Byte) :
    wordsBytes (packWords s) = s ++ List.replicate (8 * ((s.length + 7) / 8) - s.length) 0 := by
  induction hn : s.length using Nat.strong_induction_on generalizing s with
  | _ n ih =>
    subst hn
    by_cases h : s = []
    · subst h
      rfl
    · have hpos := List.length_pos_iff.mpr h
      rw [packWords_of_ne_nil h, wordsBytes_cons,
        wordBytes_ofNat_unLE_of_le (List.length_take_le 8 s), ih _ (by rw [List.length_drop]; omega) _ rfl]
      by_cases hlt : s.length ≤ 8
      · have hdrop : s.drop 8 = [] := List.drop_eq_nil_of_le hlt
        have hone : (s.length + 7) / 8 = 1 := by omega
        rw [List.take_of_length_le hlt, hdrop, hone]
        simp
      · have htake : (s.take 8).length = 8 := by rw [List.length_take]; omega
        have hpad : 8 * (((s.drop 8).length + 7) / 8) - (s.drop 8).length = 8 * ((s.length + 7) / 8) - s.length := by
          rw [List.length_drop]
          omega
        rw [htake, hpad, Nat.sub_self, List.replicate_zero, List.append_nil, ← List.append_assoc, List.take_append_drop]

theorem wordsBytes_injective {ws us : List U64} (h : wordsBytes ws = wordsBytes us) : ws = us := by
  have := congrArg wordsOf h
  rwa [wordsOf_wordsBytes, wordsOf_wordsBytes, Option.some.injEq] at this

/-- Words whose bytes after the byte string are 0 are its packed words. -/
theorem packWords_take {ws : List U64} {n : Nat} (hlen : ws.length = (n + 7) / 8)
    (hzero : ∀ b ∈ (wordsBytes ws).drop n, b = 0) : packWords ((wordsBytes ws).take n) = ws := by
  have hn : ((wordsBytes ws).take n).length = n := by
    rw [List.length_take, wordsBytes_length]
    omega
  have hrest : (wordsBytes ws).drop n = List.replicate (8 * ((n + 7) / 8) - n) 0 := by
    refine List.eq_replicate_iff.mpr ⟨?_, hzero⟩
    rw [List.length_drop, wordsBytes_length, hlen]
  apply wordsBytes_injective
  rw [wordsBytes_packWords, hn, ← hrest, List.take_append_drop]

/-! ## Item operands, R294 -/

theorem checkOperand_num (b : Base) (w : U64) (x : Item) :
    checkOperand b (.num w) = .item x ↔ x = .num w ∧ b.strings = false ∧ w.toNat < 2 ^ b.opWidth := by
  unfold checkOperand
  cases hs : b.strings with
  | true => simp
  | false =>
    by_cases hw : w.toNat < 2 ^ b.opWidth
    · simp [hw, eq_comm]
    · simp [hw]

theorem checkOperand_str (b : Base) (len : U64) (ws : List U64) (x : Item) :
    checkOperand b (.str len ws) = .item x ↔ b.strings = true ∧ ws.length = (len.toNat + 7) / 8 ∧
      (∀ y ∈ (wordsBytes ws).drop len.toNat, y = 0) ∧ x = .str ((wordsBytes ws).take len.toNat) := by
  unfold checkOperand
  cases hs : b.strings with
  | false => simp
  | true =>
    by_cases hlen : ws.length = (len.toNat + 7) / 8
    · by_cases hz : ((wordsBytes ws).drop len.toNat).all (· == 0) = true
      · simp only [Bool.true_eq_false, if_false, hlen, ne_eq, not_true_eq_false, hz, if_true, ItemCheck.item.injEq,
          true_and]
        simp only [List.all_eq_true, beq_iff_eq] at hz
        exact ⟨fun h => ⟨hz, h.symm⟩, fun h => h.2.symm⟩
      · simp only [Bool.true_eq_false, if_false, hlen, ne_eq, not_true_eq_false, hz, true_and, reduceCtorEq, false_iff]
        simp only [List.all_eq_true, beq_iff_eq] at hz
        exact fun h => hz h.1
    · simp [hlen]

/-- Settles O9: a number by `checkOperand_num`, a byte string by `checkOperand_str` and its packed words. -/
theorem operandsCarryExactlyTheItems : Obligations.OperandsCarryExactlyTheItems := by
  intro b o x
  cases o with
  | num w =>
    rw [checkOperand_num]
    cases x with
    | num u =>
      simp only [Item.num.injEq, Item.operand, Operand.num.injEq, Item.fits, Bool.and_eq_true, Bool.not_eq_true',
        decide_eq_true_eq]
      constructor
      · rintro ⟨rfl, h⟩
        exact ⟨rfl, h⟩
      · rintro ⟨rfl, h⟩
        exact ⟨rfl, h⟩
    | str s => simp [Item.operand]
  | str len ws =>
    rw [checkOperand_str]
    cases x with
    | num u => simp [Item.operand]
    | str s =>
      simp only [Item.str.injEq, Item.operand, Operand.str.injEq, Item.fits, Bool.and_eq_true, decide_eq_true_eq]
      constructor
      · rintro ⟨hs, hlen, hzero, rfl⟩
        have hn : ((wordsBytes ws).take len.toNat).length = len.toNat := by
          rw [List.length_take, wordsBytes_length]
          omega
        refine ⟨⟨?_, (packWords_take hlen hzero).symm⟩, hs, ?_⟩
        · rw [hn, BitVec.ofNat_toNat, BitVec.setWidth_eq]
        · rw [hn]
          exact len.isLt
      · rintro ⟨⟨rfl, rfl⟩, hs, hlt⟩
        have hn : (BitVec.ofNat 64 s.length).toNat = s.length := Nat.mod_eq_of_lt hlt
        rw [hn, wordsBytes_packWords]
        exact ⟨hs, packWords_length s, by simp, by simp⟩

theorem checkOperand_operand {b : Base} {x : Item} (h : x.fits b = true) : checkOperand b x.operand = .item x :=
  (operandsCarryExactlyTheItems b x.operand x).mpr ⟨rfl, h⟩

end Sys2Proof.Machine
end

section
/-! PROOFS. What a command can do, said once (44_pipeline.md R290 to R308): `Effect` lists the next states of a command, and
every command that has a next state has one of them (`exec_effect`). -/

namespace Sys2Proof.Machine

/-! ## The effects -/

/-- The next states of a command `i` with the opcode `op`, addressed to the instance `id`. -/
inductive Effect (s : State) (i : Instr) (op : Opcode) (id : U16) : State → Prop
  /-- A result and nothing else: a query, a refusal, a fault that no instance records, COMMIT in COMMITTED. -/
  | replied (st : Status) (ws : List U64) : Effect s i op id (s.reply st ws)
  /-- A recorded fault found before execution (60_exceptions.md R359). -/
  | faulted {x : Instance} (code : FaultCode) (slot : Byte) (off : U64) (hx : s.inst? id = some x)
      (hl : x.life ≠ .faulted) (hcode : code.unrecorded = false) (hop : op ≠ .construct) :
      Effect s i op id (s.faultEntry id op code slot off)
  /-- A fault found during execution (R360). -/
  | executionFaulted {x : Instance} (items : U64) (bind : PerSlot (Option Binding)) (code : FaultCode) (slot : Byte)
      (off : U64) (hx : s.inst? id = some x) (hl : x.life ≠ .faulted) (hcode : code.unrecorded = false)
      (hop : op ≠ .construct) :
      Effect s i op id (s.executionFault id { x with items := items, bind := bind } op code slot off)
  /-- INIT (44_pipeline.md R293). -/
  | initialised {x : Instance} (ch0 : U64) (ch1 : Option U64) (hi : i = .init id ch0 ch1) (hop : op = .init)
      (hx : s.inst? id = some x) (hl : x.life ≠ .faulted) (hform : channelsForm x.cfg.base ch1 = true)
      (hvalid : channelsInvalid s.mem ch0 ch1 = false) :
      Effect s i op id
        ((s.setInst id { x.rewound with bind := bindChannels s.mem ch0 ch1, life := initLife x.cfg.role }).reply .ok [])
  /-- READ_ONE, READ and SKIP (R296 to R298). -/
  | read {x : Instance} (n : Nat) (done : Bool) (ws : List U64) (hop : readingOp op = true) (hx : s.inst? id = some x)
      (hrole : x.cfg.role = .reader) (hl : x.life = .reading) (hb : s.bound x = true) :
      Effect s i op id
        ((s.setInst id
          { x with
            items := (readItems s.params x.cfg (s.chanBytes x) n { items := x.items, work := x.work }).2.2.items
            work := (readItems s.params x.cfg (s.chanBytes x) n { items := x.items, work := x.work }).2.2.work }).reply
          (Status.ofCount done) ws)
  /-- WRITE_ONE and WRITE (R294, R295). -/
  | wrote {x : Instance} (items : List Item) (hop : op = .writeOne ∨ op = .write) (hx : s.inst? id = some x)
      (hrole : x.cfg.role = .writer) (hl : x.life = .empty ∨ x.life = .writing) (hb : s.bound x = true)
      (hover : overflows s (s.written id x items) x = false) :
      Effect s i op id ((s.written id x items).reply .ok [])
  /-- COMMIT (R299). -/
  | committed {x : Instance} (hop : op = .commit) (hx : s.inst? id = some x) (hrole : x.cfg.role = .writer)
      (hl : x.life = .empty ∨ x.life = .writing) (hb : s.bound x = true)
      (hover : overflows s (s.committed id x) x = false) :
      Effect s i op id ((s.committed id x).reply .ok [])
  /-- FLUSH (R301). -/
  | flushed {x : Instance} (hop : op = .flush) (hx : s.inst? id = some x) (hrole : x.cfg.role = .writer)
      (hl : x.life = .empty ∨ x.life = .writing ∨ x.life = .committed) (hb : s.bound x = true)
      (hover : overflows s (s.onLanes id x fun _ l => l.flush) x = false) :
      Effect s i op id ((s.onLanes id x fun _ l => l.flush).reply .ok [])
  /-- RESET of a writer (R300). -/
  | resetWriter {x : Instance} (hop : op = .reset) (hx : s.inst? id = some x) (hrole : x.cfg.role = .writer)
      (hl : x.life = .empty ∨ x.life = .writing ∨ x.life = .committed) (hb : s.bound x = true) :
      Effect s i op id ((s.onLanes id { x.rewound with life := .empty } fun _ l => l.clear).reply .ok [])
  /-- RESET of a reader (R300). -/
  | resetReader {x : Instance} (hop : op = .reset) (hx : s.inst? id = some x) (hrole : x.cfg.role = .reader)
      (hl : x.life = .reading) (hb : s.bound x = true) :
      Effect s i op id ((s.onLanes id x.rewound fun _ l => l.sync).reply .ok [])
  /-- RESUME (R302). -/
  | resumed {x : Instance} (ch0 : U64) (ch1 : Option U64) (rows : U64) (items : List Item)
      (hi : i = .resume id ch0 ch1 rows) (hop : op = .resume) (hx : s.inst? id = some x) (hrole : x.cfg.role = .writer)
      (hl : x.life = .uninit ∨ x.life = .committed) (hform : channelsForm x.cfg.base ch1 = true)
      (hvalid : channelsInvalid s.mem ch0 ch1 = false)
      (hover : overflows s (s.resumed id (x.rebound s.mem ch0 ch1) items) (x.rebound s.mem ch0 ch1) = false) :
      Effect s i op id ((s.resumed id (x.rebound s.mem ch0 ch1) items).reply .ok [])
  /-- CONSTRUCT, CREATE_READER and CREATE_WRITER (R303, R304, R308). -/
  | created (cfg : Cfg) (n : Nat) (hop : op = .construct ∨ op = .createReader ∨ op = .createWriter)
      (hcfg : cfg.ok = true ∨ ∃ x role, s.inst? id = some x ∧ cfg = { x.cfg with role := role })
      (hfree : s.freeId = some n) :
      Effect s i op id ((s.addInst (Instance.fresh cfg)).reply .ok [BitVec.ofNat 64 n])

/-! ## The checks of R290 -/

/-- An id that names no instance: IllegalCommand, in the result only. -/
theorem plainFault_illegalCommand (s : State) (id : U16) (op : Opcode) :
    s.plainFault id op .illegalCommand = s.reply (.fault FaultCode.illegalCommand.code) [] :=
  faultEntry_unrecorded s id op _ _ _ (.inl rfl)

theorem plainFault_resourceExhausted (s : State) (id : U16) (op : Opcode) :
    s.plainFault id op .resourceExhausted = s.reply (.fault FaultCode.resourceExhausted.code) [] :=
  faultEntry_unrecorded s id op _ _ _ (.inl rfl)

section
variable {s t : State} {i : Instr} {op : Opcode} {id : U16}

/-- The first three checks: a refusal is an effect, and so the body has to be looked at only where it runs. -/
theorem effect_of_dispatch {body : Instance → Outcome} (hop : op ≠ .construct) (h : s.dispatch op id body = .next t)
    (hbody : ∀ x, s.inst? id = some x → (x.life ≠ .faulted ∨ survivesFault op = true) →
      validIn op x.cfg.role x.life = true → body x = .next t → Effect s i op id t) : Effect s i op id t := by
  cases hx : s.inst? id with
  | none =>
    obtain ⟨-, h⟩ | ⟨x, hx', -⟩ := dispatch_cases h
    · cases h
      rw [plainFault_illegalCommand]
      exact .replied _ _
    · cases hx.symm.trans hx'
  | some x =>
    by_cases hfaulted : x.life = .faulted ∧ survivesFault op = false
    · rw [dispatch_faulted hx hfaulted.1 hfaulted.2] at h
      cases h
      exact .replied _ _
    · have hpass : x.life ≠ .faulted ∨ survivesFault op = true := by
        rwa [not_and_or, Bool.not_eq_false] at hfaulted
      cases hv : validIn op x.cfg.role x.life with
      | true =>
        rw [dispatch_body hx hpass hv] at h
        exact hbody x hx hpass hv h
      | false =>
        have hl : x.life ≠ .faulted := by
          obtain hl | hs := hpass
          · exact hl
          · rw [validIn_of_survivesFault hs] at hv
            cases hv
        rw [dispatch_invalid hx hl hv] at h
        cases h
        exact .faulted _ _ _ hx hl rfl hop

/-- The check of the channels: ChannelHazard is an effect. -/
theorem effect_of_hazardCheck {x : Instance} {o : Outcome} (hx : s.inst? id = some x) (hl : x.life ≠ .faulted)
    (hop : op ≠ .construct) (h : s.hazardCheck op id x o = .next t) (hbody : o = .next t → Effect s i op id t) :
    Effect s i op id t := by
  obtain ⟨sl, -, -, rfl⟩ | ⟨-, ho⟩ := hazardCheck_next h
  · exact .faulted _ _ _ hx hl rfl hop
  · exact hbody ho

/-- InvalidArgument is an effect. -/
theorem effect_invalidArgument {x : Instance} (hx : s.inst? id = some x) (hl : x.life ≠ .faulted)
    (hop : op ≠ .construct) (h : (.next (s.plainFault id op .invalidArgument) : Outcome) = .next t) :
    Effect s i op id t := by
  cases h
  exact .faulted _ _ _ hx hl rfl hop

/-! ## The bodies that several commands share -/

theorem validIn_writing {role : Role} {life : Life} (hop : op = .writeOne ∨ op = .write)
    (h : validIn op role life = true) : role = .writer ∧ (life = .empty ∨ life = .writing) := by
  obtain rfl | rfl := hop <;> simpa [validIn] using h

theorem validIn_reading {role : Role} {life : Life} (hop : readingOp op = true) (h : validIn op role life = true) :
    role = .reader ∧ life = .reading := by
  cases op with
  | readOne | read | skip => simpa [validIn] using h
  | _ => cases hop

theorem life_ne_faulted_of_writing {life : Life} (h : life = .empty ∨ life = .writing) : life ≠ .faulted := by
  rintro rfl
  simp at h

theorem effect_of_writeBody {x : Instance} {items : List Item} (hop : op = .writeOne ∨ op = .write)
    (hx : s.inst? id = some x) (hrole : x.cfg.role = .writer) (hl : x.life = .empty ∨ x.life = .writing)
    (hb : s.bound x = true) (h : s.writeBody op id x items = .next t) : Effect s i op id t := by
  have hne := life_ne_faulted_of_writing hl
  have hcons : op ≠ .construct := by obtain rfl | rfl := hop <;> decide
  unfold State.writeBody at h
  split at h
  · exact effect_invalidArgument hx hne hcons h
  · cases hover : overflows s (s.written id x items) x with
    | true =>
      simp only [hover, if_true] at h
      exact effect_invalidArgument hx hne hcons h
    | false =>
      simp only [hover, Bool.false_eq_true, if_false] at h
      refine effect_of_hazardCheck hx hne hcons h fun h => ?_
      cases h
      exact .wrote items hop hx hrole hl hb hover

theorem effect_of_writeOperands {x : Instance} {os : List Operand} (hop : op = .writeOne ∨ op = .write)
    (hx : s.inst? id = some x) (hv : validIn op x.cfg.role x.life = true)
    (h : s.writeOperands op id x os = .next t) : Effect s i op id t := by
  obtain ⟨hrole, hl⟩ := validIn_writing hop hv
  have hcons : op ≠ .construct := by obtain rfl | rfl := hop <;> decide
  unfold State.writeOperands at h
  split at h
  · cases h
  · exact effect_invalidArgument hx (life_ne_faulted_of_writing hl) hcons h
  · obtain ⟨hb, h⟩ := onChannels_next h
    exact effect_of_writeBody hop hx hrole hl hb h

theorem effect_of_readBody {x : Instance} {n : Nat} {answer : Bool → List Item → Status × List U64}
    (hop : readingOp op = true) (hanswer : ∀ done xs, (answer done xs).1 = Status.ofCount done)
    (hx : s.inst? id = some x) (hv : validIn op x.cfg.role x.life = true)
    (h : s.readBody op id x n answer = .next t) : Effect s i op id t := by
  obtain ⟨hrole, hl⟩ := validIn_reading hop hv
  have hne : x.life ≠ .faulted := by simp [hl]
  have hcons := ne_construct_of_readingOp hop
  obtain ⟨hb, h⟩ := onChannels_next h
  refine effect_of_hazardCheck hx hne hcons h fun h => ?_
  split at h
  · cases h
    exact .executionFaulted _ x.bind _ _ _ hx hne rfl hcons
  · next xs r hr =>
    cases h
    have := Effect.read (s := s) (i := i) n false (answer false xs).2 hop hx hrole hl hb
    rwa [hr, ← hanswer false xs] at this
  · next xs r hr =>
    cases h
    have := Effect.read (s := s) (i := i) n true (answer true xs).2 hop hx hrole hl hb
    rwa [hr, ← hanswer true xs] at this

theorem effect_of_createBody {x : Instance} {role : Role} (hop : op = .createReader ∨ op = .createWriter)
    (hx : s.inst? id = some x) (h : s.createBody op id x role = .next t) : Effect s i op id t := by
  unfold State.createBody at h
  split at h
  · cases h
    rw [plainFault_resourceExhausted]
    exact .replied _ _
  · next n hn =>
    cases h
    exact .created _ n (.inr hop) (.inr ⟨x, role, hx, rfl⟩) hn

end

/-! ## Every command -/

section
variable {s t : State} {id : U16}

theorem effect_init {ch0 : U64} {ch1 : Option U64} (h : execInit id ch0 ch1 s = .next t) :
    Effect s (.init id ch0 ch1) .init id t := by
  refine effect_of_dispatch (by decide) h fun x hx _ hv h => ?_
  have hl : x.life ≠ .faulted := bne_iff_ne.mp hv
  split_ifs at h with hform hne hvalid
  · cases h
    exact .faulted _ _ _ hx hl rfl (by decide)
  · exact effect_invalidArgument hx hl (by decide) h
  · cases h
    exact .initialised ch0 ch1 rfl rfl hx hl (by simpa using hform) (by simpa using hvalid)

theorem effect_reset (h : execReset id s = .next t) : Effect s (.reset id) .reset id t := by
  refine effect_of_dispatch (by decide) h fun x hx _ hv h => ?_
  obtain ⟨hb, h⟩ := onChannels_next h
  cases hrole : x.cfg.role with
  | writer =>
    simp only [hrole] at h
    cases h
    exact .resetWriter rfl hx hrole (by simpa [validIn, hrole, or_assoc] using hv) hb
  | reader =>
    simp only [hrole] at h
    cases h
    exact .resetReader rfl hx hrole (by simpa [validIn, hrole] using hv) hb

theorem effect_flush (h : execFlush id s = .next t) : Effect s (.flush id) .flush id t := by
  refine effect_of_dispatch (by decide) h fun x hx _ hv h => ?_
  have hlife : x.cfg.role = .writer ∧ (x.life = .empty ∨ x.life = .writing ∨ x.life = .committed) := by
    simpa [validIn, or_assoc] using hv
  obtain ⟨hrole, hl⟩ := hlife
  have hne : x.life ≠ .faulted := by
    intro hf
    simp [hf] at hl
  obtain ⟨hb, h⟩ := onChannels_next h
  cases hover : overflows s (s.onLanes id x fun _ l => l.flush) x with
  | true =>
    simp only [hover, if_true] at h
    exact effect_invalidArgument hx hne (by decide) h
  | false =>
    simp only [hover, Bool.false_eq_true, if_false] at h
    refine effect_of_hazardCheck hx hne (by decide) h fun h => ?_
    cases h
    exact .flushed rfl hx hrole hl hb hover

theorem overflows_self (s : State) (x : Instance) : overflows s s x = false := by
  rw [overflows, List.any_eq_false]
  intro sl _
  cases x.bind.get sl with
  | none => simp
  | some b => simp

theorem effect_commit (h : execCommit id s = .next t) : Effect s (.commit id) .commit id t := by
  refine effect_of_dispatch (by decide) h fun x hx _ hv h => ?_
  have hlife : x.cfg.role = .writer ∧ (x.life = .empty ∨ x.life = .writing ∨ x.life = .committed) := by
    simpa [validIn, or_assoc] using hv
  obtain ⟨hrole, hl⟩ := hlife
  have hne : x.life ≠ .faulted := by
    intro hf
    simp [hf] at hl
  obtain ⟨hb, h⟩ := onChannels_next h
  by_cases hc : x.life = .committed
  · simp only [hc, if_true, overflows_self, Bool.false_eq_true, if_false] at h
    refine effect_of_hazardCheck hx hne (by decide) h fun h => ?_
    cases h
    exact .replied _ _
  · simp only [hc, if_false] at h
    cases hover : overflows s (s.committed id x) x with
    | true =>
      simp only [hover, if_true] at h
      exact effect_invalidArgument hx hne (by decide) h
    | false =>
      simp only [hover, Bool.false_eq_true, if_false] at h
      refine effect_of_hazardCheck hx hne (by decide) h fun h => ?_
      cases h
      exact .committed rfl hx hrole (by simpa [hc] using hl) hb hover

theorem effect_resume {ch0 : U64} {ch1 : Option U64} {rows : U64} (h : execResume id ch0 ch1 rows s = .next t) :
    Effect s (.resume id ch0 ch1 rows) .resume id t := by
  refine effect_of_dispatch (by decide) h fun x hx _ hv h => ?_
  have hlife : x.cfg.role = .writer ∧ (x.life = .uninit ∨ x.life = .committed) := by
    simpa [validIn] using hv
  obtain ⟨hrole, hl⟩ := hlife
  have hne : x.life ≠ .faulted := by
    intro hf
    simp [hf] at hl
  split_ifs at h with hform hvalid hcount
  · exact effect_invalidArgument hx hne (by decide) h
  · exact effect_invalidArgument hx hne (by decide) h
  · simp only at h
    split at h
    · cases h
      exact .executionFaulted x.items _ _ _ _ hx hne rfl (by decide)
    · cases h
      exact .executionFaulted x.items _ _ _ _ hx hne rfl (by decide)
    · next items _ _ =>
      cases hover : overflows s (s.resumed id (x.rebound s.mem ch0 ch1) items) (x.rebound s.mem ch0 ch1) with
      | true =>
        simp only [hover, if_true] at h
        exact effect_invalidArgument hx hne (by decide) h
      | false =>
        simp only [hover, Bool.false_eq_true, if_false] at h
        cases h
        exact .resumed ch0 ch1 rows items rfl rfl hx hrole hl (by simpa using hform) (by simpa using hvalid) hover

theorem effect_write {buflen offset count : U64} {buf : List Operand}
    (h : execWrite id buflen offset count buf s = .next t) :
    Effect s (.write id buflen offset count buf) .write id t := by
  refine effect_of_dispatch (by decide) h fun x hx _ hv h => ?_
  split_ifs at h
  · exact effect_invalidArgument hx (life_ne_faulted_of_writing (validIn_writing (.inr rfl) hv).2) (by decide) h
  · exact effect_of_writeOperands (.inr rfl) hx hv h

theorem effect_read {buflen offset count : U64} (h : execRead id buflen offset count s = .next t) :
    Effect s (.read id buflen offset count) .read id t := by
  refine effect_of_dispatch (by decide) h fun x hx hl hv h => ?_
  split_ifs at h
  · have hne : x.life ≠ .faulted := by simp [(validIn_reading rfl hv).2]
    exact effect_invalidArgument hx hne (by decide) h
  · exact effect_of_readBody rfl (fun _ _ => rfl) hx hv h

theorem effect_construct {desc : U64} {itemCount : Option U64} (h : execConstruct desc itemCount s = .next t) :
    Effect s (.construct desc itemCount) .construct 0 t := by
  unfold execConstruct at h
  split_ifs at h
  split at h
  · cases h
    rw [State.plainFault, faultEntry_unrecorded _ _ _ _ _ _ (.inr rfl)]
    exact .replied _ _
  · next cfg hcfg =>
    split at h
    · cases h
      rw [plainFault_resourceExhausted]
      exact .replied _ _
    · next n hn =>
      cases h
      exact .created cfg n (.inl rfl) (.inl (parseDesc_ok hcfg)) hn

end

/-- Every command that has a next state has one of the effects. -/
theorem exec_effect {s t : State} {i : Instr} {op : Opcode} {id : U16} (hi : Instr.command? i = some (op, id))
    (h : exec i s = .next t) : Effect s i op id t := by
  cases i with
  | init inst ch0 ch1 =>
    cases hi
    exact effect_init h
  | writeOne inst item =>
    cases hi
    exact effect_of_dispatch (by decide) h fun x hx _ hv h => effect_of_writeOperands (.inl rfl) hx hv h
  | write inst buflen offset count buf =>
    cases hi
    exact effect_write h
  | readOne inst =>
    cases hi
    exact effect_of_dispatch (by decide) h fun x hx _ hv h => effect_of_readBody rfl (fun _ _ => rfl) hx hv h
  | read inst buflen offset count =>
    cases hi
    exact effect_read h
  | skip inst count =>
    cases hi
    exact effect_of_dispatch (by decide) h fun x hx _ hv h => effect_of_readBody rfl (fun _ _ => rfl) hx hv h
  | commit inst =>
    cases hi
    exact effect_commit h
  | reset inst =>
    cases hi
    exact effect_reset h
  | flush inst =>
    cases hi
    exact effect_flush h
  | resume inst ch0 ch1 rows =>
    cases hi
    exact effect_resume h
  | createReader inst =>
    cases hi
    exact effect_of_dispatch (by decide) h fun x hx _ _ h => effect_of_createBody (.inl rfl) hx h
  | createWriter inst =>
    cases hi
    exact effect_of_dispatch (by decide) h fun x hx _ _ h => effect_of_createBody (.inr rfl) hx h
  | getChannelCount inst | getItemCount inst =>
    cases hi
    refine effect_of_dispatch (by decide) h fun x hx _ _ h => ?_
    cases h
    exact .replied _ _
  | construct desc itemCount =>
    cases hi
    exact effect_construct h
  | _ => cases hi

/-- An instruction is a command, or a unit: the word step of a body at the port. -/
theorem exec_command_or_unit {s t : State} {i : Instr} (h : exec i s = .next t) :
    (∃ op id, Instr.command? i = some (op, id) ∧ Effect s i op id t) ∨
      (Instr.command? i = none ∧ ∃ v body, s.runUnit v body = .next t) := by
  cases hi : Instr.command? i with
  | some q => exact .inl ⟨q.1, q.2, rfl, exec_effect hi h⟩
  | none =>
    refine .inr ⟨rfl, ?_⟩
    cases i with
    | fb32Rle code low5 => exact ⟨_, fun _ _ => rleBody (runLength .fb32 (code ++ low5)), h⟩
    | fb64Rle runm1 => exact ⟨_, fun _ _ => rleBody (runLength .fb64 (flagByte 0xF#4 runm1)), h⟩
    | fb64lsbRle code low4 => exact ⟨_, fun _ _ => rleBody (runLength .fb64lsb (flagByte code low4)), h⟩
    | fb32Rsvd | fb64lsbRsvd => exact ⟨_, fun _ _ => reservedBody, h⟩
    | fb32Single | fb32Pair | fb64Single | fb64Pair | fb64lsbSingle | fb64lsbPair => exact ⟨_, _, h⟩
    | _ => cases hi

end Sys2Proof.Machine
end

section
/-! PROOFS. What a step changes of the instance table and of the channels: one instance that is not FAULTED, or a new one at
the end; the channels bound to the instance. O1, O3, O51 to O55, O59. -/

namespace Sys2Proof.Machine

/-! ## Output paths leave the rest of the state -/

section
variable (s : State) (x : Instance) (f : Slot → Lane → Lane) (sls : List Slot)

@[simp] theorem onSlots_params : (s.onSlots x f sls).1.params = s.params := (onSlots_frame f sls s x).params
@[simp] theorem onSlots_insts : (s.onSlots x f sls).1.insts = s.insts := (onSlots_frame f sls s x).insts
@[simp] theorem onSlots_input : (s.onSlots x f sls).1.input = s.input := (onSlots_frame f sls s x).input
@[simp] theorem onSlots_results : (s.onSlots x f sls).1.results = s.results := (onSlots_frame f sls s x).results
@[simp] theorem onSlots_unitPort : (s.onSlots x f sls).1.unitPort = s.unitPort := (onSlots_frame f sls s x).unitPort
@[simp] theorem onSlots_freeCount : (s.onSlots x f sls).1.freeCount = s.freeCount := (onSlots_frame f sls s x).freeCount
@[simp] theorem onSlots_cfg : (s.onSlots x f sls).2.cfg = x.cfg := (onSlots_frame f sls s x).cfg

end

/-! ## Fault entry, in full -/

theorem faultEntry_mem (s : State) (id : U16) (op : Opcode) (code : FaultCode) (slot : Byte) (off : U64) :
    (s.faultEntry id op code slot off).mem = s.mem := (faultEntry_fields s id op code slot off).2.1

@[simp] theorem executionFault_mem (s : State) (id : U16) (x : Instance) (op : Opcode) (code : FaultCode) (slot : Byte)
    (off : U64) : (s.executionFault id x op code slot off).mem = s.mem := by
  rw [State.executionFault, faultEntry_mem]
  rfl

/-! ## The instance table -/

/-- What a step can do to the instance table: nothing, change one instance that is not FAULTED but never its
configuration, or add one and answer OK. -/
inductive InstsStep (s t : State) (id : U16) : Prop
  | same (h : t.insts = s.insts)
  | one {x y : Instance} (hx : s.inst? id = some x) (hl : x.life ≠ .faulted)
      (h : t.insts = s.insts.set (id.toNat - 1) y) (hcfg : y.cfg = x.cfg)
  | added {y : Instance} {ws : List U64} (h : t.insts = s.insts ++ [y])
      (hr : t.results = { status := Status.ok.word, words := ws } :: s.results)

theorem inst?_congr {s t : State} (h : t.insts = s.insts) (id : U16) : t.inst? id = s.inst? id := by
  rw [State.inst?, State.inst?, h]

theorem onLanes_insts (s : State) (id : U16) (x : Instance) (f : Slot → Lane → Lane) :
    (s.onLanes id x f).insts = s.insts.set (id.toNat - 1) (s.onSlots x f x.cfg.base.slots).2 := by
  rw [State.onLanes_eq, State.setInst_insts, onSlots_insts]

theorem life_ne_faulted_of_open {life : Life} (h : life = .empty ∨ life = .writing ∨ life = .committed) :
    life ≠ .faulted := by
  rintro rfl
  simp at h

theorem life_ne_faulted_of_resumable {life : Life} (h : life = .uninit ∨ life = .committed) : life ≠ .faulted := by
  rintro rfl
  simp at h

theorem life_ne_faulted_of_reading {life : Life} (h : life = .reading) : life ≠ .faulted := by
  rintro rfl
  cases h

theorem Effect.instsStep {s t : State} {i : Instr} {op : Opcode} {id : U16} (h : Effect s i op id t) :
    InstsStep s t id := by
  cases h with
  | replied st ws => exact .same rfl
  | faulted code slot off hx hl hcode hop =>
    rw [faultEntry_recorded op code slot off hcode hop hx]
    exact .one hx hl rfl rfl
  | executionFaulted items bind code slot off hx hl hcode hop =>
    rw [executionFault_eq hx _ hcode hop]
    exact .one hx hl rfl rfl
  | initialised ch0 ch1 hi hop hx hl => exact .one hx hl rfl rfl
  | read n done ws hop hx hrole hl => exact .one hx (life_ne_faulted_of_reading hl) rfl rfl
  | wrote items hop hx hrole hl =>
    exact .one hx (life_ne_faulted_of_writing hl) (onLanes_insts _ _ _ _) (onSlots_cfg _ _ _ _)
  | committed hop hx hrole hl =>
    exact .one hx (life_ne_faulted_of_writing hl) (onLanes_insts _ _ _ _) (onSlots_cfg _ _ _ _)
  | flushed hop hx hrole hl | resetWriter hop hx hrole hl =>
    exact .one hx (life_ne_faulted_of_open hl) (onLanes_insts _ _ _ _) (onSlots_cfg _ _ _ _)
  | resetReader hop hx hrole hl =>
    exact .one hx (life_ne_faulted_of_reading hl) (onLanes_insts _ _ _ _) (onSlots_cfg _ _ _ _)
  | resumed ch0 ch1 rows items hi hop hx hrole hl =>
    exact .one hx (life_ne_faulted_of_resumable hl) (onLanes_insts _ _ _ _) (onSlots_cfg _ _ _ _)
  | created cfg n => exact .added rfl rfl

theorem unitWord_instsStep {s t : State} {p : UnitPort} {x : Instance} {v : Variant} {c : Channel}
    {r : Got U64 × Work} (h : AtPort s p x v c) (ht : s.unitWord p x r = .next t) : InstsStep s t p.inst := by
  obtain ⟨-, hx, -, hlife, -, -⟩ := h
  have hl : x.life ≠ .faulted := by simp [hlife]
  obtain ⟨g, k⟩ := r
  cases g with
  | value y =>
    cases ht
    exact .one hx hl rfl rfl
  | eos =>
    cases ht
    exact .same rfl
  | corrupt sl off =>
    cases ht
    have hx' : State.inst? { s with unitPort := none } p.inst = some x := hx
    by_cases hop : p.op = .construct
    · rw [State.executionFault, faultEntry_unrecorded _ _ _ _ _ _ (.inr hop)]
      exact .one hx hl rfl rfl
    · rw [executionFault_eq hx' x rfl hop]
      exact .one hx hl rfl rfl

section
variable {s t : State} {id j : U16}

theorem InstsStep.inst?_ne (h : InstsStep s t id) (hj : j ≠ id) {x : Instance} (hx : s.inst? j = some x) :
    t.inst? j = some x := by
  cases h with
  | same h => rw [inst?_congr h, hx]
  | @one _ y hid _ h _ => rw [inst?_congr (t := t) (s := s.setInst id y) h, State.setInst_inst?_ne hid y hj, hx]
  | @added y _ h _ => rw [inst?_congr (t := t) (s := s.addInst y) h, State.addInst_inst?_old hx y]

theorem InstsStep.keeps_cfg (h : InstsStep s t id) {x : Instance} (hx : s.inst? j = some x) :
    ∃ y, t.inst? j = some y ∧ y.cfg = x.cfg := by
  by_cases hj : j = id
  · subst hj
    cases h with
    | same h => exact ⟨x, (inst?_congr h j).trans hx, rfl⟩
    | @one _ y hid _ h hcfg =>
      cases hid.symm.trans hx
      exact ⟨y, (inst?_congr (s := s.setInst j y) h j).trans (State.setInst_inst?_same hx y), hcfg⟩
    | @added y _ h _ => exact ⟨x, (inst?_congr (s := s.addInst y) h j).trans (State.addInst_inst?_old hx y), rfl⟩
  · exact ⟨x, h.inst?_ne hj hx, rfl⟩

theorem InstsStep.keeps_faulted (h : InstsStep s t id) {x : Instance} (hx : s.inst? j = some x)
    (hl : x.life = .faulted) : t.inst? j = some x := by
  by_cases hj : j = id
  · subst hj
    cases h with
    | same h => exact (inst?_congr h j).trans hx
    | one hid hne =>
      cases hid.symm.trans hx
      exact absurd hl hne
    | @added y _ h _ => exact (inst?_congr (s := s.addInst y) h j).trans (State.addInst_inst?_old hx y)
  · exact h.inst?_ne hj hx

end

/-! ## A step -/

/-- A step is a word step at the port, nothing with no act pending, or an act of the host. -/
theorem step_cases {s t : State} (h : step s = .next t) :
    (∃ p x v c, AtPort s p x v c ∧ s.unitWord p x (fbReadWord v p.slot c.bytes x.work) = .next t) ∨
    (s.unitPort = none ∧ s.input = [] ∧ t = s) ∨
    ∃ act rest, s.unitPort = none ∧ s.input = act :: rest ∧ stepAct { s with input := rest } act = .next t := by
  cases hp : s.unitPort with
  | some p =>
    obtain ⟨x, v, c, hat⟩ := atPort_of_step hp h
    exact .inl ⟨p, x, v, c, hat, (step_of_atPort hat).symm.trans h⟩
  | none =>
    simp only [step, hp] at h
    cases hi : s.input with
    | nil =>
      rw [hi] at h
      cases h
      exact .inr (.inl ⟨rfl, rfl, rfl⟩)
    | cons act rest =>
      rw [hi] at h
      exact .inr (.inr ⟨act, rest, rfl, rfl, h⟩)

/-- A packet that has a next state is a command with one of its effects, or an IllegalCommand. -/
theorem stepPacket_cases {s t : State} {packet : List Byte} (h : stepPacket s packet = .next t) :
    (∃ i op id, decodePacket (s.packetShape packet) packet = .ok i ∧ Instr.command? i = some (op, id) ∧
      Effect s i op id t) ∨ t = s.illegalCommand := by
  unfold stepPacket at h
  split at h
  · next i hf =>
    have hd : decodePacket (s.packetShape packet) packet = .ok i := by
      unfold State.fetchPacket at hf
      split at hf
      · cases hf
        assumption
      · split_ifs at hf
    obtain ⟨hi, -⟩ := decodePacket_eq_ok_iff.mp hd
    obtain ⟨⟨op, id⟩, hi⟩ := Option.isSome_iff_exists.mp hi
    exact .inl ⟨i, op, id, hd, hi, exec_effect hi h⟩
  · cases h
    exact .inr rfl
  · cases h

theorem stepAct_instsStep {s t : State} {act : HostAct} (h : stepAct s act = .next t) : ∃ id, InstsStep s t id := by
  cases act with
  | command packet =>
    obtain ⟨i, op, id, -, -, he⟩ | rfl := stepPacket_cases h
    · exact ⟨id, he.instsStep⟩
    · exact ⟨0, .same rfl⟩
  | createChannel id content =>
    simp only [stepAct, State.hostCreate] at h
    split_ifs at h
    cases h
    exact ⟨0, .same rfl⟩
  | writeChannel id content =>
    simp only [stepAct, State.hostWrite] at h
    split_ifs at h
    cases h
    exact ⟨0, .same rfl⟩

/-- Every step changes at most one instance, or adds one. -/
theorem step_instsStep {s t : State} (h : step s = .next t) : ∃ id, InstsStep s t id := by
  obtain ⟨p, x, v, c, hat, ht⟩ | ⟨-, -, rfl⟩ | ⟨act, rest, -, -, ht⟩ := step_cases h
  · exact ⟨p.inst, unitWord_instsStep hat ht⟩
  · exact ⟨0, .same rfl⟩
  · obtain ⟨id, hs⟩ := stepAct_instsStep ht
    refine ⟨id, ?_⟩
    cases hs with
    | same h => exact .same h
    | one hx hl h hcfg => exact .one hx hl h hcfg
    | added h hr => exact .added h hr

/-- Settles O53: no effect removes an instance or changes its configuration (`InstsStep.keeps_cfg`). -/
theorem configurationNeverChanges : Obligations.ConfigurationNeverChanges := by
  intro s t id x h hx
  obtain ⟨_, hs⟩ := step_instsStep h
  exact hs.keeps_cfg hx

/-- Settles O54: the instance that a step changes is not FAULTED (`InstsStep.keeps_faulted`). -/
theorem faultedIsTerminal : Obligations.FaultedIsTerminal := by
  intro s t id x h hx hl
  obtain ⟨_, hs⟩ := step_instsStep h
  exact hs.keeps_faulted hx hl

/-! ## The channels -/

/-- The commands that change channels. -/
def changesChannels (op : Opcode) : Prop :=
  op = .writeOne ∨ op = .write ∨ op = .commit ∨ op = .reset ∨ op = .flush ∨ op = .resume

/-- The output paths of an instance leave every channel it is not bound to. -/
theorem onLanes_get_of_notMem {s : State} {id : U16} {x : Instance} {f : Slot → Lane → Lane} {c : U64}
    (h : c ∉ x.chans) : (s.onLanes id x f).mem.get c = s.mem.get c := by
  refine onSlots_get_ne f c x.cfg.base.slots s x fun sl hsl b hb hc => h ?_
  exact List.mem_filterMap.mpr ⟨sl, hsl, by rw [hb, hc]; rfl⟩

theorem mem_slots_iff {b : Base} {sl : Slot} : sl ∈ b.slots ↔ sl = .data ∨ (sl = .lens ∧ b.channelCount = 2) := by
  unfold Base.slots
  split
  · cases sl <;> simp [*]
  · cases sl <;> simp [*]

/-- The channels that RESUME and INIT bind are those of their operands. -/
theorem chans_bindChannels {x : Instance} {m : Memory} {ch0 : U64} {ch1 : Option U64} {c : U64}
    (hbind : x.bind = bindChannels m ch0 ch1) (hc : c ∈ x.chans) : c ∈ ch0 :: ch1.toList := by
  obtain ⟨sl, -, hsl⟩ := List.mem_filterMap.mp hc
  rw [hbind] at hsl
  cases sl with
  | data =>
    cases hsl
    exact List.mem_cons_self
  | lens =>
    cases ch1 with
    | none => cases hsl
    | some c1 =>
      cases hsl
      simp

/-- A channel that a command changes is one bound to its instance, or for RESUME one that its operands name. -/
theorem Effect.get_of_notMem {s t : State} {i : Instr} {op : Opcode} {id : U16} (h : Effect s i op id t) {x : Instance}
    (hx : s.inst? id = some x) {c : U64} (hc : c ∉ if op = .resume then operandChans i else x.chans) :
    t.mem.get c = s.mem.get c := by
  cases h with
  | replied | initialised | read | created => rfl
  | faulted => rw [faultEntry_mem]
  | executionFaulted => rw [executionFault_mem]
  | @wrote y items hop hy =>
    cases hx.symm.trans hy
    rw [if_neg (by obtain rfl | rfl := hop <;> decide)] at hc
    exact onLanes_get_of_notMem (id := id) (x := { x with work := _, items := _, life := _ }) hc
  | @committed y hop hy =>
    cases hx.symm.trans hy
    subst hop
    exact onLanes_get_of_notMem (id := id) (x := { x with work := _, life := _ }) hc
  | @flushed y hop hy | @resetReader y hop hy | @resetWriter y hop hy =>
    cases hx.symm.trans hy
    subst hop
    exact onLanes_get_of_notMem (id := id) (c := c) hc
  | resumed ch0 ch1 rows items hi hop hy =>
    subst hi hop
    exact onLanes_get_of_notMem (id := id) fun hmem => hc (chans_bindChannels rfl hmem)

/-- A command that is none of those that change channels changes none. -/
theorem Effect.mem_eq {s t : State} {i : Instr} {op : Opcode} {id : U16} (h : Effect s i op id t)
    (hop : ¬changesChannels op) : t.mem = s.mem := by
  cases h with
  | replied | initialised | read | created => rfl
  | faulted => rw [faultEntry_mem]
  | executionFaulted => rw [executionFault_mem]
  | wrote items hw =>
    refine absurd ?_ hop
    obtain rfl | rfl := hw <;> simp [changesChannels]
  | committed hw | flushed hw | resetWriter hw | resetReader hw =>
    subst hw
    simp [changesChannels] at hop
  | resumed ch0 ch1 rows items hi hw =>
    subst hw
    simp [changesChannels] at hop

theorem unitWord_mem {s t : State} {p : UnitPort} {x : Instance} {r : Got U64 × Work}
    (ht : s.unitWord p x r = .next t) : t.mem = s.mem := by
  obtain ⟨g, k⟩ := r
  cases g with
  | value y | eos =>
    cases ht
    rfl
  | corrupt sl off =>
    cases ht
    rw [executionFault_mem]

theorem runUnit_mem {s t : State} {v : Variant} {body : List Byte → Nat → UnitResult}
    (ht : s.runUnit v body = .next t) : t.mem = s.mem := by
  obtain ⟨p, x, c, h⟩ := atPort_of_runUnit ht
  rw [runUnit_of_atPort h] at ht
  exact unitWord_mem ht

/-- Settles O55: a command by `Effect.get_of_notMem` and `Effect.mem_eq`, a unit by `runUnit_mem`. -/
theorem onlyBoundChannelsChange : Obligations.OnlyBoundChannelsChange := by
  intro s t i h
  obtain ⟨op, id, hi, he⟩ | ⟨hi, v, body, hu⟩ := exec_command_or_unit h
  · refine ⟨fun op' inst x c hi' hx hc => ?_, fun hop => he.mem_eq ?_⟩
    · cases hi.symm.trans hi'
      have hget := he.get_of_notMem hx hc
      exact ⟨by rw [Memory.gen, Memory.gen, hget], fun off => by rw [Memory.readByte, Memory.readByte, hget]⟩
    · have hne := hop op id hi
      simp [changesChannels, hne]
  · refine ⟨fun op' inst x c hi' _ _ => ?_, fun _ => runUnit_mem hu⟩
    rw [hi] at hi'
    cases hi'

/-! ## Faulting commands -/

/-- An effect whose result is no FAULT is the only one that changes a channel. -/
theorem Effect.mem_eq_of_fault {s t : State} {i : Instr} {op : Opcode} {id : U16} (h : Effect s i op id t) {r : Result}
    (hr : t.results = r :: s.results) (hfault : r.status.extractLsb' 0 2 = 2#2) : t.mem = s.mem := by
  have hok : ∀ {u : State}, u.results = s.results → ¬(u.reply .ok []).results = r :: s.results := by
    intro u hu he
    rw [State.reply_results, hu, List.cons.injEq] at he
    rw [← he.1] at hfault
    exact absurd hfault (by decide)
  cases h with
  | replied | initialised | read | created => rfl
  | faulted => rw [faultEntry_mem]
  | executionFaulted => rw [executionFault_mem]
  | wrote | committed | flushed | resetWriter | resetReader | resumed =>
    refine absurd hr (hok ?_)
    simp [State.written, State.committed, State.resumed]

/-- A command whose result is FAULT leaves every other instance. -/
theorem InstsStep.inst?_ne_of_fault {s t : State} {id : U16} (h : InstsStep s t id) {r : Result}
    (hr : t.results = r :: s.results) (hfault : r.status.extractLsb' 0 2 = 2#2) {j : U16} (hj : j ≠ id) :
    t.inst? j = s.inst? j := by
  cases h with
  | same h => exact inst?_congr h j
  | @one _ y hx _ h _ => exact (inst?_congr (s := s.setInst id y) h j).trans (State.setInst_inst?_ne hx y hj)
  | added h hok =>
    rw [hr, List.cons.injEq] at hok
    rw [hok.1] at hfault
    exact absurd hfault (by decide : ¬Status.ok.word.extractLsb' 0 2 = 2#2)

/-- Settles O51: the effects whose result is FAULT leave the channels (`Effect.mem_eq_of_fault`) and every other instance
(`InstsStep.inst?_ne_of_fault`); a unit changes no channel. -/
theorem faultingCommandsChangeNoChannel : Obligations.FaultingCommandsChangeNoChannel := by
  intro s t i r h hr hfault
  obtain ⟨op, id, hi, he⟩ | ⟨hi, v, body, hu⟩ := exec_command_or_unit h
  · refine ⟨he.mem_eq_of_fault hr hfault, fun op' inst hi' j hj => ?_⟩
    cases hi.symm.trans hi'
    exact he.instsStep.inst?_ne_of_fault hr hfault hj
  · refine ⟨runUnit_mem hu, fun op' inst hi' => ?_⟩
    rw [hi] at hi'
    cases hi'

/-! ## The host's acts -/

/-- Settles O52: the two acts of the host on channels, each within its limits. -/
theorem hostActsChangeOneChannel : Obligations.HostActsChangeOneChannel := by
  intro s id content rest hport hlen
  constructor
  · intro hinput hget hroom
    have hok : ¬((s.mem.get id).isSome = true ∨ s.params.maxChannels ≤ s.mem.chans.length ∨
        s.params.channelMax < content.length) := by
      simp [hget, hlen, hroom]
    refine ⟨{ s with input := rest, mem := s.mem.create id content }, ?_, rfl, Memory.get_create_same hget content,
      fun c hc => Memory.get_create_ne hget hc content⟩
    simp only [step, hport, hinput, stepAct, State.hostCreate, hok, if_false]
  · intro ch hinput hget
    have hok : ¬((s.mem.get id).isNone = true ∨ s.params.channelMax < content.length) := by
      simp [hget, hlen]
    refine ⟨{ s with input := rest, mem := s.mem.modify id content }, ?_, rfl, ?_,
      fun c hc => Memory.get_put_ne _ hc _ _⟩
    · simp only [step, hport, hinput, stepAct, State.hostWrite, hok, if_false]
    · rw [Memory.modify, Memory.get_put_same hget, Memory.gen_of_get hget, ← Memory.get_id hget]

theorem step_of_packet {s : State} {packet : List Byte} {rest : List HostAct} (hport : s.unitPort = none)
    (hinput : s.input = .command packet :: rest) : step s = stepPacket { s with input := rest } packet := by
  simp only [step, hport, hinput, stepAct]

/-- Settles O1: the packet is fetched, and it is no IllegalCommand, for it decodes. -/
theorem stepRunsTheDecodedCommand : Obligations.StepRunsTheDecodedCommand := by
  intro s packet rest i hport hinput hd
  have hd' : decodePacket (State.packetShape { s with input := rest } packet) packet = .ok i := hd
  rw [step_of_packet hport hinput]
  simp only [stepPacket, State.fetchPacket, hd']

/-! ## Illegal headers, 30_encoding.md R104 -/

theorem packetHeader_wordsBytes (w : U64) (ws : List U64) :
    packetHeader (wordsBytes (w :: ws)) = (decodeHeader w).toOption := by
  simp only [packetHeader, wordsOf_wordsBytes]
  cases decodeHeader w <;> rfl

theorem decodePacket_of_header_error {w : U64} {e : DecodeError} (h : decodeHeader w = .error e) (sh : Shape)
    (ws : List U64) : decodePacket sh (wordsBytes (w :: ws)) = .error e := by
  simp only [decodePacket, decode, wordsOf_wordsBytes, decodeWords, h]

/-- Every rejection of a header is one that R104 makes IllegalCommand. -/
theorem isIllegal_of_decodeHeader {w : U64} {e : DecodeError} (h : decodeHeader w = .error e) : e.isIllegal = true := by
  simp only [decodeHeader] at h
  split at h
  · cases h
    rfl
  · split_ifs at h
    · cases h
      rfl
    · cases h
      rfl

theorem headerWord_injective {op op' : Opcode} {inst inst' : U16} (h : headerWord op inst = headerWord op' inst') :
    op = op' ∧ inst = inst' := by
  have hhead := congrArg headerOf h
  simp only [headerOf_headerWord, Header.mk.injEq] at hhead
  exact ⟨Option.some.inj ((Opcode.ofByte_eq_some_iff.mpr rfl).symm.trans (Opcode.ofByte_eq_some_iff.mpr hhead.1)),
    hhead.2.2.1⟩

/-- The command that a packet decodes to has the packet's opcode and INST. -/
theorem command?_of_decodePacket {sh : Shape} {op : Opcode} {inst : U16} {ws : List U64} {i : Instr}
    (h : decodePacket sh (wordsBytes (headerWord op inst :: ws)) = .ok i) : Instr.command? i = some (op, inst) := by
  obtain ⟨hi, hwf, hfits, he⟩ := decodePacket_eq_ok_iff.mp h
  rw [encode_of_command hi] at he
  obtain ⟨⟨op', inst'⟩, hi⟩ := Option.isSome_iff_exists.mp hi
  obtain ⟨body, hbody, -⟩ := decodeBody_encodeWords hi hwf hfits
  have hwords := wordsBytes_injective he
  rw [hbody, List.cons.injEq] at hwords
  obtain ⟨rfl, rfl⟩ := headerWord_injective hwords.1
  exact hi

/-- An illegal header that decodes is one whose INST names no instance. -/
theorem illegalHeader_headerWord {s : State} {op : Opcode} {inst : U16} (hinst : op = .construct → inst = 0)
    (h : IllegalHeader s (headerWord op inst)) : op ≠ .construct ∧ s.inst? inst = none := by
  have hhead := headerOf_headerWord op inst
  simp only [headerOf, Header.mk.injEq] at hhead
  obtain ⟨hop, hrsv0, hid, hrsv1⟩ := hhead
  rw [IllegalHeader, hop, hrsv0, hid, hrsv1] at h
  have hcode : op.code.toNat ≠ 0 ∧ op.code.toNat < 0x10 ∧ (op.code = 0x0F#8 ↔ op = .construct) := by
    cases op <;> decide
  obtain ⟨h0, h16, hcons⟩ := hcode
  obtain h | h | h | h | ⟨h, hne⟩ | ⟨h, hnone⟩ := h
  · exact absurd h h0
  · omega
  · exact absurd rfl h
  · exact absurd rfl h
  · exact absurd (hinst (hcons.mp h)) hne
  · exact ⟨fun hc => h (hcons.mpr hc), hnone⟩

/-- A command that names no instance is IllegalCommand. -/
theorem exec_of_inst?_none {s : State} {i : Instr} {op : Opcode} {inst : U16} (hi : Instr.command? i = some (op, inst))
    (hop : op ≠ .construct) (hnone : s.inst? inst = none) : exec i s = .next s.illegalCommand := by
  obtain ⟨body, hexec⟩ := exec_eq_dispatch hi hop
  rw [hexec, State.dispatch, hnone]
  simp only [plainFault_illegalCommand]
  rfl

/-- A packet with an illegal header is IllegalCommand, whatever words follow. -/
theorem stepPacket_of_illegalHeader {s : State} {w : U64} {ws : List U64} (h : IllegalHeader s w) :
    stepPacket s (wordsBytes (w :: ws)) = .next s.illegalCommand := by
  cases hd : decodeHeader w with
  | error e =>
    simp only [stepPacket, State.fetchPacket, decodePacket_of_header_error hd, isIllegal_of_decodeHeader hd,
      Bool.true_or, if_true]
  | ok hw =>
    obtain ⟨op, inst⟩ := hw
    obtain ⟨rfl, hinst⟩ := decodeHeader_eq_ok_iff.mp hd
    obtain ⟨hop, hnone⟩ := illegalHeader_headerWord hinst h
    have hun : s.packetUnaddressed (wordsBytes (headerWord op inst :: ws)) = true := by
      simp only [State.packetUnaddressed, packetHeader_wordsBytes, hd, Except.toOption, hnone, Option.isNone_none,
        Bool.and_true, bne_iff_ne]
      exact hop
    cases hp : decodePacket (s.packetShape (wordsBytes (headerWord op inst :: ws))) (wordsBytes (headerWord op inst :: ws)) with
    | ok i =>
      simp only [stepPacket, State.fetchPacket, hp]
      exact exec_of_inst?_none (command?_of_decodePacket hp) hop hnone
    | error e => simp only [stepPacket, State.fetchPacket, hp, hun, Bool.or_true, if_true]

/-- Settles O3: the packet is IllegalCommand (`stepPacket_of_illegalHeader`), which only answers. -/
theorem illegalHeadersChangeNothing : Obligations.IllegalHeadersChangeNothing := by
  intro s w ws rest hport hinput h
  rw [step_of_packet hport hinput]
  exact stepPacket_of_illegalHeader (s := { s with input := rest }) h

/-- Settles O59: evaluation. -/
theorem resetSatisfiesInv : Obligations.ResetSatisfiesInv := by
  unfold Obligations.ResetSatisfiesInv
  decide

end Sys2Proof.Machine
end

section
/-! PROOFS. Every step keeps the invariant `State.Inv`: each effect of a command, the word step at the port, the host's acts
on channels. O58. -/

namespace Sys2Proof.Machine

/-! ## Working registers -/

/-- The ranges of the working registers stay when STAGE stays. -/
theorem Work.ok_of_core {p : Params} {cfg : Cfg} {k k' : Work} (hk : k.ok p cfg = true)
    (hcore : k'.coreOk p.dfcmBits cfg) (hstage : k'.stage = k.stage) : k'.ok p cfg = true := by
  obtain ⟨hdata, hlens, -⟩ := (Work.ok_iff p cfg k).mp hk
  exact (Work.ok_iff p cfg k').mpr ⟨by rw [hstage]; exact hdata, by rw [hstage]; exact hlens, hcore⟩

theorem Work.core_of_ok {p : Params} {cfg : Cfg} {k : Work} (hk : k.ok p cfg = true) : k.coreOk p.dfcmBits cfg :=
  ((Work.ok_iff p cfg k).mp hk).2.2

theorem Work.reset_ok {p : Params} (hp : 1 ≤ p.stageBytes) (cfg : Cfg) : (Work.reset cfg).ok p cfg = true :=
  (Work.ok_iff p cfg _).mpr ⟨hp, hp, Work.reset_core p.dfcmBits cfg⟩

theorem writeItems_ok {p : Params} {cfg : Cfg} {k : Work} (hk : k.ok p cfg = true) (xs : List Item) :
    (writeItems p cfg k xs).1.ok p cfg = true := by
  obtain ⟨hcore, hstage⟩ := writeItems_core p cfg xs k (Work.core_of_ok hk)
  exact Work.ok_of_core hk hcore hstage

theorem commitFlush_ok {p : Params} {cfg : Cfg} {k : Work} (hk : k.ok p cfg = true) :
    (commitFlush p cfg k).1.ok p cfg = true := by
  obtain ⟨hcore, hstage⟩ := commitFlush_core p cfg k (Work.core_of_ok hk)
  exact Work.ok_of_core hk hcore hstage

theorem readItems_ok {p : Params} {cfg : Cfg} {r : Reading} (hk : r.work.ok p cfg = true) (chs : PerSlot (List Byte))
    (n : Nat) : (readItems p cfg chs n r).2.2.work.ok p cfg = true := by
  obtain ⟨hcore, hstage⟩ := readItems_core p cfg chs n r (Work.core_of_ok hk)
  exact Work.ok_of_core hk hcore hstage

/-- The variant that a slot decodes is that of the instance's flag-byte registers. -/
theorem flagVariant_of_slotVariant {b : Base} {sl : Slot} {v : Variant} (h : slotVariant b sl = some v) :
    flagVariant b = some v := by
  cases sl with
  | data => exact flagVariant_of_variant? h
  | lens =>
    simp only [slotVariant] at h
    split_ifs at h with hb
    simp [flagVariant, hb, h]

/-- The word step of a reader keeps the ranges. -/
theorem fbReadWord_ok {p : Params} {cfg : Cfg} {k : Work} (hk : k.ok p cfg = true) {v : Variant} {sl : Slot}
    (hv : slotVariant cfg.base sl = some v) (ch : List Byte) : (fbReadWord v sl ch k).2.ok p cfg = true := by
  have hfv := flagVariant_of_slotVariant hv
  obtain ⟨hfb, hbw, hkind, hst⟩ := Work.core_of_ok hk
  obtain ⟨hfbw, hcarry⟩ := hfb v hfv
  obtain ⟨hcarry', hfbw', hstage', hbits', hxf'⟩ := fbReadWord_core v sl ch k hcarry
  refine Work.ok_of_core hk ⟨?_, ?_, hxf' ▸ hkind, hxf' ▸ hst⟩ hstage'
  · intro u hu
    cases hfv.symm.trans hu
    exact ⟨hfbw' ▸ hfbw, hcarry'⟩
  · intro hs hn
    exact hbits' ▸ hbw hs hn

/-! ## Channel operands -/

theorem channelsInvalid_eq_false_iff (m : Memory) (ch0 : U64) (ch1 : Option U64) :
    channelsInvalid m ch0 ch1 = false ↔
      (m.get ch0).isSome = true ∧ ∀ c1, ch1 = some c1 → (m.get c1).isSome = true ∧ c1 ≠ ch0 := by
  cases ch1 with
  | none => simp [channelsInvalid, Option.isNone_eq_false_iff]
  | some c1 => simp [channelsInvalid, Option.isNone_eq_false_iff]

/-- The legal channel operands of INIT and RESUME are those that pass the two checks. -/
theorem channelOperands_iff (s : State) (x : Instance) (ch0 : U64) (ch1 : Option U64) :
    ChannelOperands s x ch0 ch1 ↔ channelsForm x.cfg.base ch1 = true ∧ channelsInvalid s.mem ch0 ch1 = false := by
  rw [ChannelOperands, channelsForm_iff, channelsInvalid_eq_false_iff]

theorem bound_bindChannels {s : State} {x : Instance} {ch0 : U64} {ch1 : Option U64} (h : ChannelOperands s x ch0 ch1)
    {y : Instance} (hcfg : y.cfg = x.cfg) (hbind : y.bind = bindChannels s.mem ch0 ch1) : s.bound y = true := by
  obtain ⟨htwo, hch0, hch1⟩ := h
  rw [State.bound, List.all_eq_true, hcfg]
  intro sl hsl
  rw [boundChan_isSome, hbind]
  obtain rfl | ⟨rfl, hcount⟩ := mem_slots_iff.mp hsl
  · exact ⟨_, rfl, hch0⟩
  · obtain ⟨c1, rfl⟩ := Option.isSome_iff_exists.mp (htwo.mpr hcount)
    exact ⟨_, rfl, (hch1 c1 rfl).1⟩

theorem bindingOk_bindChannels {s : State} {x : Instance} {ch0 : U64} {ch1 : Option U64}
    (h : ChannelOperands s x ch0 ch1) {y : Instance} (hcfg : y.cfg = x.cfg)
    (hbind : y.bind = bindChannels s.mem ch0 ch1) : bindingOk s y = true := by
  rw [bindingOk_eq, bound_bindChannels h hcfg hbind, hbind, Bool.true_and]
  cases ch1 with
  | none => rfl
  | some c1 => exact bne_iff_ne.mpr (h.2.2 c1 rfl).2.symm

/-! ## Channel lengths -/

/-- A property of channel contents that the path functions keep. -/
theorem onLane_bytes (P : List Byte → Prop) (f : Lane → Lane) (hf : ∀ l, P l.bytes → P (f l).bytes) {s : State}
    (x : Instance) (sl : Slot) (h : ∀ c ch, s.mem.get c = some ch → P ch.bytes) :
    ∀ c ch, (s.onLane x sl f).1.mem.get c = some ch → P ch.bytes := by
  cases hb : x.bind.get sl with
  | none => simpa [State.onLane, hb] using h
  | some b =>
    cases hc : s.mem.get b.chan with
    | none => simpa [State.onLane, State.lane, hb, hc] using h
    | some c =>
      rw [onLane_bound f hb hc]
      intro j ch hj
      by_cases hjb : j = b.chan
      · subst hjb
        rw [Memory.get_put_same hc] at hj
        cases hj
        exact hf _ (h _ c hc)
      · rw [Memory.get_put_ne _ hjb] at hj
        exact h j ch hj

theorem onSlots_bytes (P : List Byte → Prop) (f : Slot → Lane → Lane) (hf : ∀ sl l, P l.bytes → P (f sl l).bytes)
    (sls : List Slot) (s : State) (x : Instance) (h : ∀ c ch, s.mem.get c = some ch → P ch.bytes) :
    ∀ c ch, (s.onSlots x f sls).1.mem.get c = some ch → P ch.bytes := by
  induction sls generalizing s x with
  | nil => exact h
  | cons sl rest ih => exact ih _ _ (onLane_bytes P (f sl) (hf sl) x sl h)

/-! ## The path functions keep STAGE shorter than STAGE_BYTES -/

@[simp] theorem Lane.replace_stage (bs : List Byte) (l : Lane) : (l.replace bs).stage = l.stage := by
  unfold Lane.replace
  split <;> rfl

/-! ## Instances that a command leaves -/

section
variable {s : State} {x : Instance}

/-- A running instance with other working registers in range, of the same configuration and bindings. -/
theorem ok_of_running (h : Instance.ok s x = true) (hf : x.life ≠ .faulted) (hu : x.life ≠ .uninit) {y : Instance}
    (hcfg : y.cfg = x.cfg) (hfault : y.fault = x.fault) (hbind : y.bind = x.bind) (hfy : y.life ≠ .faulted)
    (huy : y.life ≠ .uninit) (hlife : lifeOk x.cfg.role y.life = true) (hwork : y.work.ok s.params x.cfg = true) :
    Instance.ok s y = true := by
  obtain ⟨hc, -, hr, hb, -⟩ := (ok_running hf hu).mp h
  have hby : bindingOk s y = true := by
    simp only [bindingOk, State.bound, State.boundChan] at hb ⊢
    rw [hcfg, hbind]
    exact hb
  exact (ok_running hfy huy).mpr ⟨hcfg ▸ hc, hcfg ▸ hlife, hfault.trans hr, hby, hcfg ▸ hwork⟩

/-- An instance bound by INIT or RESUME. -/
theorem ok_of_bound (h : Instance.ok s x = true) (hf : x.life ≠ .faulted) {ch0 : U64} {ch1 : Option U64}
    (hops : ChannelOperands s x ch0 ch1) {y : Instance} (hcfg : y.cfg = x.cfg) (hfault : y.fault = x.fault)
    (hbind : y.bind = bindChannels s.mem ch0 ch1) (hfy : y.life ≠ .faulted) (huy : y.life ≠ .uninit)
    (hlife : lifeOk x.cfg.role y.life = true) (hwork : y.work.ok s.params x.cfg = true) : Instance.ok s y = true :=
  (ok_running hfy huy).mpr ⟨hcfg ▸ ok_cfg h, hcfg ▸ hlife, hfault.trans (ok_fault h hf),
    bindingOk_bindChannels hops hcfg hbind, hcfg ▸ hwork⟩

theorem work_ok_of_running (h : Instance.ok s x = true) (hf : x.life ≠ .faulted) (hu : x.life ≠ .uninit) :
    x.work.ok s.params x.cfg = true := ((ok_running hf hu).mp h).2.2.2.2

end

/-! ## What the write commands leave of the instance, before its output paths -/

/-- WRITE_ONE and WRITE (44_pipeline.md R294, R295). -/
def Instance.afterWrite (p : Params) (x : Instance) (items : List Item) : Instance :=
  { x with
    work := (writeItems p x.cfg x.work items).1
    items := x.items + BitVec.ofNat 64 items.length
    life := if items = [] then x.life else .writing }

/-- COMMIT (R299). -/
def Instance.afterCommit (p : Params) (x : Instance) : Instance :=
  { x with work := (commitFlush p x.cfg x.work).1, life := .committed }

/-- RESUME (R302). -/
def Instance.afterResume (p : Params) (x : Instance) (items : List Item) : Instance :=
  { x with
    work := (writeItems p x.cfg (Work.reset x.cfg) items).1, items := BitVec.ofNat 64 items.length, life := .writing }

theorem State.written_eq (s : State) (id : U16) (x : Instance) (items : List Item) :
    s.written id x items = s.onLanes id (x.afterWrite s.params items) fun sl l =>
      l.emitAll s.params.stageBytes ((writeItems s.params x.cfg x.work items).2.get sl) := rfl

theorem State.committed_eq (s : State) (id : U16) (x : Instance) :
    s.committed id x = s.onLanes id (x.afterCommit s.params) fun sl l =>
      (l.emitAll s.params.stageBytes ((commitFlush s.params x.cfg x.work).2.get sl)).flush := rfl

theorem State.resumed_eq (s : State) (id : U16) (x : Instance) (items : List Item) :
    s.resumed id x items = s.onLanes id (x.afterResume s.params items) fun sl l =>
      l.replace ((emittedU s.params x.cfg items).get sl) := rfl

/-! ## The effects keep the invariant -/

theorem initLife_ok (r : Role) : initLife r ≠ .faulted ∧ initLife r ≠ .uninit ∧ lifeOk r (initLife r) = true := by
  cases r <;> decide

theorem life_ne_uninit_of_open {life : Life} (h : life = .empty ∨ life = .writing ∨ life = .committed) :
    life ≠ .uninit := by
  rintro rfl
  simp at h

theorem life_open_of_writing {life : Life} (h : life = .empty ∨ life = .writing) :
    life = .empty ∨ life = .writing ∨ life = .committed := h.elim .inl fun h => .inr (.inl h)

theorem lifeOk_writer_of_ne {life : Life} (h : life ≠ .reading) : lifeOk .writer life = true := bne_iff_ne.mpr h

section
variable {s : State} {id : U16} {x : Instance}

/-- The output paths of a writer changed, with the working registers `k` and the LIFE `life`, within CHANNEL_MAX. -/
theorem IsInv.onLanes_writer (h : IsInv s) (hok : Instance.ok s x = true)
    (hl : x.life = .empty ∨ x.life = .writing ∨ x.life = .committed) (hrole : x.cfg.role = .writer) (y : Instance)
    (hcfg : y.cfg = x.cfg) (hfault : y.fault = x.fault) (hbind : y.bind = x.bind)
    (hly : y.life = .empty ∨ y.life = .writing ∨ y.life = .committed) (hwork : y.work.ok s.params x.cfg = true)
    {f : Slot → Lane → Lane}
    (hf : ∀ sl l, l.stage.length < s.params.stageBytes → (f sl l).stage.length < s.params.stageBytes)
    (hlen : ∀ c ch, (s.onLanes id y f).mem.get c = some ch → ch.bytes.length ≤ s.params.channelMax) :
    IsInv (s.onLanes id y f) := by
  have hne := life_ne_faulted_of_open hly
  have hnu := life_ne_uninit_of_open hly
  have hlife : lifeOk x.cfg.role y.life = true := by
    rw [hrole]
    exact lifeOk_writer_of_ne (by rintro hr; simp [hr] at hly)
  exact h.onLanes id y f hne hnu (ok_of_running hok (life_ne_faulted_of_open hl) (life_ne_uninit_of_open hl) hcfg hfault
    hbind hne hnu hlife hwork) hf hlen

theorem IsInv.wrote (h : IsInv s) (hok : Instance.ok s x = true) (hrole : x.cfg.role = .writer)
    (hl : x.life = .empty ∨ x.life = .writing) {items : List Item}
    (hover : overflows s (s.written id x items) x = false) : IsInv (s.written id x items) := by
  have hopen := life_open_of_writing hl
  have hwork := work_ok_of_running hok (life_ne_faulted_of_open hopen) (life_ne_uninit_of_open hopen)
  have hlife : (x.afterWrite s.params items).life = .empty ∨ (x.afterWrite s.params items).life = .writing ∨
      (x.afterWrite s.params items).life = .committed := by
    unfold Instance.afterWrite
    split_ifs
    · exact hopen
    · exact .inr (.inl rfl)
  rw [State.written_eq] at hover ⊢
  exact h.onLanes_writer hok hopen hrole (x.afterWrite s.params items) rfl rfl rfl hlife (writeItems_ok hwork items)
    (fun _ l hlt => emitAll_stage _ (stageBytes_pos h) _ l hlt) (len_ne_overflow h id x _ _ rfl rfl hover)

theorem IsInv.committed (h : IsInv s) (hok : Instance.ok s x = true) (hrole : x.cfg.role = .writer)
    (hl : x.life = .empty ∨ x.life = .writing) (hover : overflows s (s.committed id x) x = false) :
    IsInv (s.committed id x) := by
  have hopen := life_open_of_writing hl
  have hwork := work_ok_of_running hok (life_ne_faulted_of_open hopen) (life_ne_uninit_of_open hopen)
  rw [State.committed_eq] at hover ⊢
  exact h.onLanes_writer hok hopen hrole (x.afterCommit s.params) rfl rfl rfl (.inr (.inr rfl))
    (commitFlush_ok hwork)
    (fun _ l hlt => flush_stage _ (stageBytes_pos h) _ (emitAll_stage _ (stageBytes_pos h) _ l hlt))
    (len_ne_overflow h id x _ _ rfl rfl hover)

theorem IsInv.flushed (h : IsInv s) (hok : Instance.ok s x = true) (hrole : x.cfg.role = .writer)
    (hl : x.life = .empty ∨ x.life = .writing ∨ x.life = .committed)
    (hover : overflows s (s.onLanes id x fun _ l => l.flush) x = false) :
    IsInv (s.onLanes id x fun _ l => l.flush) :=
  h.onLanes_writer hok hl hrole x rfl rfl rfl hl
    (work_ok_of_running hok (life_ne_faulted_of_open hl) (life_ne_uninit_of_open hl))
    (fun _ l hlt => flush_stage _ (stageBytes_pos h) l hlt) (len_ne_overflow h id x x _ rfl rfl hover)

/-- Path functions that make no channel longer keep every channel within CHANNEL_MAX. -/
theorem IsInv.onLanes_lens (h : IsInv s) (y : Instance) {f : Slot → Lane → Lane}
    (hf : ∀ sl l, l.bytes.length ≤ s.params.channelMax → (f sl l).bytes.length ≤ s.params.channelMax) :
    ∀ c ch, (s.onLanes id y f).mem.get c = some ch → ch.bytes.length ≤ s.params.channelMax :=
  onSlots_bytes (fun bs => bs.length ≤ s.params.channelMax) f hf _ _ _ h.lens

theorem IsInv.resetWriter (h : IsInv s) (hok : Instance.ok s x = true) (hrole : x.cfg.role = .writer)
    (hl : x.life = .empty ∨ x.life = .writing ∨ x.life = .committed) :
    IsInv (s.onLanes id { x.rewound with life := .empty } fun _ l => l.clear) :=
  h.onLanes_writer hok hl hrole { x.rewound with life := .empty } rfl rfl rfl (.inl rfl)
    (Work.reset_ok (stageBytes_pos h) _) (fun _ _ hlt => hlt)
    (h.onLanes_lens _ fun _ _ _ => Nat.zero_le _)

theorem IsInv.resetReader (h : IsInv s) (hok : Instance.ok s x = true) (hl : x.life = .reading) :
    IsInv (s.onLanes id x.rewound fun _ l => l.sync) := by
  have hne : x.life ≠ .faulted := life_ne_faulted_of_reading hl
  have hnu : x.life ≠ .uninit := by
    rw [hl]
    decide
  have hy : Instance.ok s x.rewound = true :=
    ok_of_running hok hne hnu rfl rfl rfl hne hnu (ok_role hok) (Work.reset_ok (stageBytes_pos h) _)
  exact h.onLanes id x.rewound _ hne hnu hy (fun _ _ hlt => hlt) (h.onLanes_lens _ fun _ _ hle => hle)

theorem IsInv.resumed (h : IsInv s) (hok : Instance.ok s x = true) (hrole : x.cfg.role = .writer)
    (hl : x.life = .uninit ∨ x.life = .committed) {ch0 : U64} {ch1 : Option U64} (hops : ChannelOperands s x ch0 ch1)
    {items : List Item}
    (hover : overflows s (s.resumed id (x.rebound s.mem ch0 ch1) items) (x.rebound s.mem ch0 ch1) = false) :
    IsInv (s.resumed id (x.rebound s.mem ch0 ch1) items) := by
  have hlife : lifeOk x.cfg.role .writing = true := by
    rw [hrole]
    rfl
  have hy : Instance.ok s ((x.rebound s.mem ch0 ch1).afterResume s.params items) = true :=
    ok_of_bound hok (life_ne_faulted_of_resumable hl) hops rfl rfl rfl nofun nofun hlife
      (writeItems_ok (Work.reset_ok (stageBytes_pos h) _) items)
  rw [State.resumed_eq] at hover ⊢
  exact h.onLanes id _ _ nofun nofun hy (fun sl l hlt => by rwa [Lane.replace_stage])
    (len_ne_overflow h id (x.rebound s.mem ch0 ch1) _ _ rfl rfl hover)

theorem IsInv.initialised (h : IsInv s) (hok : Instance.ok s x = true) (hl : x.life ≠ .faulted) {ch0 : U64}
    {ch1 : Option U64} (hops : ChannelOperands s x ch0 ch1) :
    IsInv (s.setInst id { x.rewound with bind := bindChannels s.mem ch0 ch1, life := initLife x.cfg.role }) := by
  obtain ⟨hne, hnu, hlife⟩ := initLife_ok x.cfg.role
  exact h.setInst id _ (ok_of_bound hok hl hops rfl rfl rfl hne hnu hlife (Work.reset_ok (stageBytes_pos h) _))

theorem IsInv.readItems (h : IsInv s) (hok : Instance.ok s x = true) (hl : x.life = .reading)
    (chs : PerSlot (List Byte)) (n : Nat) {r : Reading} (hr : r.work = x.work) (items : U64) :
    IsInv (s.setInst id { x with items := items, work := (Machine.readItems s.params x.cfg chs n r).2.2.work }) := by
  have hne := life_ne_faulted_of_reading hl
  have hnu : x.life ≠ .uninit := by
    rw [hl]
    decide
  have hwork : r.work.ok s.params x.cfg = true := hr ▸ work_ok_of_running hok hne hnu
  exact h.setInst id _ (ok_of_running hok hne hnu rfl rfl rfl hne hnu (ok_role hok) (readItems_ok hwork chs n))

end

/-- Every effect of a command keeps the invariant. -/
theorem Effect.isInv {s t : State} {i : Instr} {op : Opcode} {id : U16} (he : Effect s i op id t) (h : IsInv s) :
    IsInv t := by
  cases he with
  | replied st ws => exact h.reply st ws
  | faulted code slot off => exact h.faultEntry id op code slot off
  | executionFaulted items bind code slot off hx hl hcode hop =>
    exact h.executionFault id _ _ op code slot off hx rfl hop hcode
  | initialised ch0 ch1 hi hop hx hl hform hvalid =>
    exact (h.initialised (h.oks _ (State.inst?_mem hx)) hl ((channelOperands_iff _ _ _ _).mpr ⟨hform, hvalid⟩)).reply _ _
  | read n done ws hop hx hrole hl hb =>
    exact (h.readItems (h.oks _ (State.inst?_mem hx)) hl _ n (r := { items := _, work := _ }) rfl _).reply _ _
  | wrote items hop hx hrole hl hb hover => exact (h.wrote (h.oks _ (State.inst?_mem hx)) hrole hl hover).reply _ _
  | committed hop hx hrole hl hb hover => exact (h.committed (h.oks _ (State.inst?_mem hx)) hrole hl hover).reply _ _
  | flushed hop hx hrole hl hb hover => exact (h.flushed (h.oks _ (State.inst?_mem hx)) hrole hl hover).reply _ _
  | resetWriter hop hx hrole hl => exact (h.resetWriter (h.oks _ (State.inst?_mem hx)) hrole hl).reply _ _
  | resetReader hop hx hrole hl => exact (h.resetReader (h.oks _ (State.inst?_mem hx)) hl).reply _ _
  | resumed ch0 ch1 rows items hi hop hx hrole hl hform hvalid hover =>
    exact (h.resumed (h.oks _ (State.inst?_mem hx)) hrole hl ((channelOperands_iff _ _ _ _).mpr ⟨hform, hvalid⟩)
      hover).reply _ _
  | created cfg n hop hcfg hfree =>
    refine (h.addInst cfg ?_ n hfree).reply _ _
    obtain hok | ⟨x, role, hx, rfl⟩ := hcfg
    · exact hok
    · exact ok_cfg (h.oks x (State.inst?_mem hx))

/-- The invariant says nothing of the pending acts, and of the port only that its opcode is a reading command's. -/
theorem IsInv.of_eq {s t : State} (h : IsInv s) (hparams : t.params = s.params) (hmem : t.mem = s.mem)
    (hinsts : t.insts = s.insts) (hport : ∀ p, t.unitPort = some p → readingOp p.op = true) : IsInv t :=
  h.same ⟨hparams, fun _ hc => by rw [hmem]; exact hc⟩ (hmem ▸ h.wf) (hmem ▸ h.lens) hinsts hport

/-- The word step at the port keeps the invariant. -/
theorem IsInv.unitWord {s t : State} (h : IsInv s) {p : UnitPort} {x : Instance} {v : Variant} {c : Channel}
    (hat : AtPort s p x v c) (ht : s.unitWord p x (fbReadWord v p.slot c.bytes x.work) = .next t) : IsInv t := by
  obtain ⟨hp, hx, -, hl, hv, -⟩ := hat
  have hop := h.port p hp
  have hok := h.oks x (State.inst?_mem hx)
  have hne := life_ne_faulted_of_reading hl
  have hnu : x.life ≠ .uninit := by
    rw [hl]
    decide
  have hwork := fbReadWord_ok (work_ok_of_running hok hne hnu) hv c.bytes
  have hport : ∀ (w : Option U64) (q : UnitPort), some { p with word := w } = some q → readingOp q.op = true := by
    rintro w q ⟨⟩
    exact hop
  generalize fbReadWord v p.slot c.bytes x.work = r at hwork ht
  obtain ⟨g, k⟩ := r
  cases g with
  | value y =>
    cases ht
    exact (h.setInst p.inst { x with work := k } (ok_of_running hok hne hnu rfl rfl rfl hne hnu (ok_role hok) hwork)).of_eq
      rfl rfl rfl (hport _)
  | eos =>
    cases ht
    exact h.of_eq rfl rfl rfl (hport _)
  | corrupt sl off =>
    cases ht
    have h' : IsInv { s with unitPort := none } := h.of_eq rfl rfl rfl nofun
    exact h'.executionFault p.inst x x p.op _ _ _ hx rfl (ne_construct_of_readingOp hop) rfl

/-- An act of the host keeps the invariant. -/
theorem IsInv.stepAct {s t : State} (h : IsInv s) {act : HostAct} (ht : stepAct s act = .next t) : IsInv t := by
  cases act with
  | command packet =>
    obtain ⟨i, op, id, -, -, he⟩ | rfl := stepPacket_cases ht
    · exact he.isInv h
    · exact h.reply _ _
  | createChannel id content =>
    simp only [Machine.stepAct, State.hostCreate] at ht
    split_ifs at ht with hbad
    cases ht
    simp only [not_or, Bool.not_eq_true, Option.isSome_eq_false_iff, Option.isNone_iff_eq_none, not_le, not_lt] at hbad
    obtain ⟨hnone, -, hlen⟩ := hbad
    have hget (c : U64) (hc : c ≠ id) := Memory.get_create_ne hnone hc content
    refine h.same ⟨rfl, fun c hc => ?_⟩ (Memory.create_wf h.wf hnone content) (fun c ch hg => ?_) rfl h.port
    · by_cases hcid : c = id
      · simp [hcid, hnone] at hc
      · exact (hget c hcid).symm ▸ hc
    · by_cases hcid : c = id
      · rw [hcid, Memory.get_create_same hnone] at hg
        cases hg
        exact hlen
      · exact h.lens c ch ((hget c hcid).symm.trans hg)
  | writeChannel id content =>
    simp only [Machine.stepAct, State.hostWrite] at ht
    split_ifs at ht with hbad
    cases ht
    simp only [not_or, Bool.not_eq_true, Option.isNone_eq_false_iff, not_lt] at hbad
    obtain ⟨hsome, hlen⟩ := hbad
    obtain ⟨d, hd⟩ := Option.isSome_iff_exists.mp hsome
    have hget (c : U64) (hc : c ≠ id) := Memory.get_put_ne s.mem hc content (s.mem.gen id + 1)
    have hself := Memory.get_put_same hd content (s.mem.gen id + 1)
    refine h.same ⟨rfl, fun c hc => ?_⟩ (Memory.modify_wf h.wf id content) (fun c ch hg => ?_) rfl h.port
    · by_cases hcid : c = id
      · subst hcid
        exact Option.isSome_iff_exists.mpr ⟨_, hself⟩
      · exact (hget c hcid).symm ▸ hc
    · by_cases hcid : c = id
      · subst hcid
        cases hself.symm.trans hg
        exact hlen
      · exact h.lens c ch ((hget c hcid).symm.trans hg)

theorem IsInv.step {s t : State} (h : IsInv s) (ht : step s = .next t) : IsInv t := by
  obtain ⟨p, x, v, c, hat, hw⟩ | ⟨-, -, rfl⟩ | ⟨act, rest, -, -, ha⟩ := step_cases ht
  · exact h.unitWord hat hw
  · exact h
  · have h' : IsInv { s with input := rest } := h.of_eq rfl rfl rfl h.port
    exact h'.stepAct ha

/-- Settles O58: the word step at the port (`IsInv.unitWord`), the effects of a command (`Effect.isInv`), the host's acts. -/
theorem stepKeepsInv : Obligations.StepKeepsInv := fun s t h ht => (inv_iff t).mpr (((inv_iff s).mp h).step ht)

end Sys2Proof.Machine
end

section
/-! PROOFS. Register widths (10_state.md R36 to R43): every uW register stays below 2^W, and BW_ACC within its BW_NBITS
bits, along the write path, the commit flush, the read path and every step. O60. -/

namespace Sys2Proof.Machine

/-! ## Words -/

theorem trunc_lt (w : Nat) (x : U64) : (trunc w x).toNat < 2 ^ w := by
  rw [trunc, BitVec.toNat_setWidth]
  exact lt_of_le_of_lt (Nat.mod_le _ _) (x.setWidth w).isLt

theorem subW_lt (w : Nat) (a b : U64) : (subW w a b).toNat < 2 ^ w := trunc_lt w _

theorem addW_lt (w : Nat) (a b : U64) : (addW w a b).toNat < 2 ^ w := trunc_lt w _

theorem xor_lt {w : Nat} {a b : U64} (ha : a.toNat < 2 ^ w) (hb : b.toNat < 2 ^ w) : (a ^^^ b).toNat < 2 ^ w := by
  rw [BitVec.toNat_xor]
  exact Nat.xor_lt_two_pow ha hb

theorem zero_lt_two_pow (w : Nat) : (0 : U64).toNat < 2 ^ w := Nat.two_pow_pos w

/-- The words of a list are uW words. -/
def WordsWide (w : Nat) (ws : List U64) : Prop := ∀ x ∈ ws, x.toNat < 2 ^ w

theorem WordsWide.append {w : Nat} {ws us : List U64} (hws : WordsWide w ws) (hus : WordsWide w us) :
    WordsWide w (ws ++ us) := fun x hx => (List.mem_append.mp hx).elim (hws x) (hus x)

theorem wordsWide_nil (w : Nat) : WordsWide w [] := nofun

theorem wordsWide_singleton {w : Nat} {x : U64} (hx : x.toNat < 2 ^ w) : WordsWide w [x] := by
  simpa [WordsWide] using hx

/-! ## The writer stages -/

section
variable {w h : Nat}

theorem differences_wide (p : U64) (xs : List U64) : WordsWide w (differences w p xs) := by
  induction xs generalizing p with
  | nil => exact wordsWide_nil w
  | cons x xs ih =>
    intro y hy
    obtain rfl | hy := List.mem_cons.mp hy
    · exact subW_lt w _ _
    · exact ih x y hy

theorem leastSigned_mem (d : U64) (ds : List U64) : leastSigned w d ds ∈ d :: ds := by
  induction ds generalizing d with
  | nil => exact List.mem_cons_self
  | cons e es ih =>
    have hmem := ih (if signedW w e < signedW w d then e else d)
    rw [leastSigned]
    split_ifs at hmem ⊢ with hlt
    · exact List.mem_cons_of_mem d hmem
    · obtain heq | hmem := List.mem_cons.mp hmem
      · rw [heq]
        exact List.mem_cons_self
      · exact List.mem_cons_of_mem d (List.mem_cons_of_mem e hmem)

theorem frameWords_wide (p : U64) (xs : List U64) : WordsWide w (frameWords w p xs) := by
  have hdiff := differences_wide (w := w) p xs
  unfold frameWords
  split
  · exact wordsWide_nil w
  · next d ds hd =>
    rw [hd] at hdiff
    intro y hy
    obtain rfl | hy := List.mem_cons.mp hy
    · exact hdiff _ (leastSigned_mem d ds)
    · obtain ⟨e, -, rfl⟩ := List.mem_map.mp hy
      exact subW_lt w _ _

theorem ddFrameReset_wide : WordsWide w ddFrameReset := by
  intro x hx
  rw [List.eq_of_mem_replicate hx]
  exact zero_lt_two_pow w

theorem getLastD_wide {xs : List U64} {p : U64} (hxs : WordsWide w xs) (hp : p.toNat < 2 ^ w) :
    (xs.getLastD p).toNat < 2 ^ w := by
  obtain rfl | hne := List.eq_nil_or_concat xs
  · exact hp
  · obtain ⟨ys, y, rfl⟩ := hne
    rw [List.concat_eq_append, List.getLastD_concat]
    exact hxs y (by simp)

theorem ddEmitFrame_wide {r : DdRegs} (hr : stageWide w (.dd r)) (m : Nat) :
    stageWide w (.dd (ddEmitFrame w r m).1) ∧ WordsWide w (ddEmitFrame w r m).2 := by
  obtain ⟨hprev, hframe, hmin⟩ := hr
  exact ⟨⟨getLastD_wide (fun x hx => hframe x (List.mem_of_mem_take hx)) hprev, ddFrameReset_wide, hmin⟩,
    frameWords_wide _ _⟩

theorem tableGet_wide {t : List (Nat × U64)} (ht : ∀ e ∈ t, e.2.toNat < 2 ^ w) (i : Nat) :
    (tableGet t i).toNat < 2 ^ w := by
  induction t with
  | nil => exact zero_lt_two_pow w
  | cons e t ih =>
    obtain ⟨j, y⟩ := e
    rw [tableGet]
    split
    · exact ht _ List.mem_cons_self
    · exact ih fun e he => ht e (List.mem_cons_of_mem _ he)

/-- The entries of the table after a write are the word written and entries of before. -/
theorem mem_tableSet {t : List (Nat × U64)} {i : Nat} {x : U64} {e : Nat × U64} (he : e ∈ tableSet t i x) :
    e = (i, x) ∨ e ∈ t := by
  induction t with
  | nil =>
    rw [tableSet] at he
    split_ifs at he
    · cases he
    · exact .inl (List.mem_singleton.mp he)
  | cons f t ih =>
    obtain ⟨j, y⟩ := f
    rw [tableSet] at he
    split_ifs at he
    · exact .inr (List.mem_cons_of_mem _ he)
    · exact (List.mem_cons.mp he).imp_right (List.mem_cons_of_mem _)
    · exact .inr he
    · exact List.mem_cons.mp he
    · obtain rfl | he := List.mem_cons.mp he
      · exact .inr List.mem_cons_self
      · exact (ih he).imp_right (List.mem_cons_of_mem _)

theorem dfcmUpdate_wide {r : DfcmRegs} (hr : stageWide w (.dfcm r)) {x : U64} (hx : x.toNat < 2 ^ w) :
    stageWide w (.dfcm (dfcmUpdate w h r x)) := by
  refine ⟨fun e he => ?_, hx⟩
  obtain rfl | he := mem_tableSet he
  · exact hx
  · exact hr.1 e he

theorem stageWrite_wide {st : StageRegs} (hst : stageWide w st) {x : U64} (hx : x.toNat < 2 ^ w) :
    stageWide w (stageWrite w h st x).1 ∧ WordsWide w (stageWrite w h st x).2 := by
  cases st with
  | xor prev => exact ⟨hx, wordsWide_singleton (xor_lt hx hst)⟩
  | dfcm r => exact ⟨dfcmUpdate_wide hst hx, wordsWide_singleton (xor_lt hx (tableGet_wide hst.1 _))⟩
  | dd r =>
    obtain ⟨hprev, hframe, hmin⟩ := hst
    have hset : stageWide w (.dd { r with frame := r.frame.set r.fill x, fill := r.fill + 1 }) :=
      ⟨hprev, fun y hy => (List.mem_or_eq_of_mem_set hy).elim (hframe y) (fun he => he ▸ hx), hmin⟩
    simp only [stageWrite, ddWrite]
    split
    · exact ddEmitFrame_wide hset 16
    · exact ⟨hset, wordsWide_nil w⟩

theorem stageWrites_wide {st : StageRegs} (hst : stageWide w st) {ws : List U64} (hws : WordsWide w ws) :
    stageWide w (stageWrites w h st ws).1 ∧ WordsWide w (stageWrites w h st ws).2 := by
  induction ws generalizing st with
  | nil => exact ⟨hst, wordsWide_nil w⟩
  | cons x ws ih =>
    obtain ⟨hst', hout⟩ := stageWrite_wide (h := h) hst (hws x List.mem_cons_self)
    obtain ⟨hst'', hout'⟩ := ih hst' fun y hy => hws y (List.mem_cons_of_mem x hy)
    exact ⟨hst'', hout.append hout'⟩

theorem stageFlush_wide {st : StageRegs} (hst : stageWide w st) :
    stageWide w (stageFlush w st).1 ∧ WordsWide w (stageFlush w st).2 := by
  cases st with
  | xor prev => exact ⟨hst, wordsWide_nil w⟩
  | dfcm r => exact ⟨hst, wordsWide_nil w⟩
  | dd r =>
    simp only [stageFlush, ddFlush]
    split
    · exact ddEmitFrame_wide hst _
    · exact ⟨hst, wordsWide_nil w⟩

/-- Every stage of a stack has its widths. -/
def StackWide (w : Nat) (sts : List StageRegs) : Prop := ∀ st ∈ sts, stageWide w st

theorem stackWide_cons {st : StageRegs} {sts : List StageRegs} :
    StackWide w (st :: sts) ↔ stageWide w st ∧ StackWide w sts := List.forall_mem_cons

theorem pushWords_wide {sts : List StageRegs} (hsts : StackWide w sts) {ws : List U64} (hws : WordsWide w ws) :
    StackWide w (pushWords w h sts ws).1 ∧ WordsWide w (pushWords w h sts ws).2 := by
  induction sts generalizing ws with
  | nil => exact ⟨nofun, hws⟩
  | cons st sts ih =>
    obtain ⟨hst, hrest⟩ := stackWide_cons.mp hsts
    obtain ⟨hst', hout⟩ := stageWrites_wide (h := h) hst hws
    obtain ⟨hrest', hout'⟩ := ih hrest hout
    exact ⟨stackWide_cons.mpr ⟨hst', hrest'⟩, hout'⟩

theorem flushStages_wide {sts : List StageRegs} (hsts : StackWide w sts) {ws : List U64} (hws : WordsWide w ws) :
    StackWide w (flushStages w h sts ws).1 ∧ WordsWide w (flushStages w h sts ws).2 := by
  induction sts generalizing ws with
  | nil => exact ⟨nofun, hws⟩
  | cons st sts ih =>
    obtain ⟨hst, hrest⟩ := stackWide_cons.mp hsts
    obtain ⟨hst', hout⟩ := stageWrites_wide (h := h) hst hws
    obtain ⟨hst'', hout'⟩ := stageFlush_wide hst'
    obtain ⟨hrest', hout''⟩ := ih hrest (hout.append hout')
    exact ⟨stackWide_cons.mpr ⟨hst'', hrest'⟩, hout''⟩

end

/-! ## The base -/

theorem fbWriteWords_pend_wide {w : Nat} (v : Variant) {r : FbwRegs} (hr : r.pend.toNat < 2 ^ w) {ws : List U64}
    (hws : WordsWide w ws) : (fbWriteWords v r ws).1.pend.toNat < 2 ^ w := by
  induction ws generalizing r with
  | nil => exact hr
  | cons x ws ih =>
    have hx := hws x List.mem_cons_self
    have hstep : (fbWriteWord v r x).1.pend.toNat < 2 ^ w := by
      unfold fbWriteWord
      split_ifs <;> first | exact hr | exact hx | exact zero_lt_two_pow w
    exact ih hstep fun y hy => hws y (List.mem_cons_of_mem x hy)

theorem fbFlush_pend_wide {w : Nat} (v : Variant) {r : FbwRegs} (hr : r.pend.toNat < 2 ^ w) :
    (fbFlush v r).1.pend.toNat < 2 ^ w := by
  unfold fbFlush
  cases r.pv
  · exact hr
  · exact zero_lt_two_pow w

/-- One word more: BW_ACC has the bits of BW_NBITS words (42_bitwidth.md R251). -/
theorem bwWriteWord_wide {b : Nat} {r : BwRegs} (hr : r.acc.toNat < 2 ^ r.nbits) (x : U64) :
    (bwWriteWord b r x).1.acc.toNat < 2 ^ (bwWriteWord b r x).1.nbits := by
  unfold bwWriteWord
  simp only
  split_ifs
  · exact Nat.one_pos
  · have hlow : ((x.setWidth b).setWidth 32).toNat < 2 ^ b := by
      rw [BitVec.toNat_setWidth]
      exact lt_of_le_of_lt (Nat.mod_le _ _) (x.setWidth b).isLt
    simp only [BitVec.toNat_or, BitVec.toNat_shiftLeft, Nat.shiftLeft_eq]
    refine Nat.or_lt_two_pow (hr.trans_le (Nat.pow_le_pow_right (by decide) (Nat.le_add_right _ _))) ?_
    calc ((x.setWidth b).setWidth 32).toNat * 2 ^ r.nbits % 2 ^ 32
        ≤ ((x.setWidth b).setWidth 32).toNat * 2 ^ r.nbits := Nat.mod_le _ _
      _ < 2 ^ b * 2 ^ r.nbits := Nat.mul_lt_mul_of_pos_right hlow (Nat.two_pow_pos _)
      _ = 2 ^ (r.nbits + b) := by rw [← Nat.pow_add, Nat.add_comm]

theorem bwWriteWords_wide (b : Nat) {r : BwRegs} (hr : r.acc.toNat < 2 ^ r.nbits) (ws : List U64) :
    (bwWriteWords b r ws).1.acc.toNat < 2 ^ (bwWriteWords b r ws).1.nbits := by
  induction ws generalizing r with
  | nil => exact hr
  | cons x ws ih => exact ih (bwWriteWord_wide hr x)

theorem bwFlush_wide {r : BwRegs} (hr : r.acc.toNat < 2 ^ r.nbits) : (bwFlush r).1.acc.toNat < 2 ^ (bwFlush r).1.nbits := by
  unfold bwFlush
  split_ifs
  · exact Nat.one_pos
  · exact hr

/-! ## The write path and the commit flush -/

section
variable {b : Base} {k : Work}

/-- The widths say nothing of STAGE and of the cursors. -/
theorem wide_of_eq {k' : Work} (h : k.wide b) (hpend : k'.fbw.pend = k.fbw.pend) (hval : k'.carryVal = k.carryVal)
    (hxf : k'.xf = k.xf) (hacc : k'.bwAcc = k.bwAcc) (hbits : k'.bwNbits = k.bwNbits) : k'.wide b := by
  rw [Work.wide, hpend, hval, hxf, hacc, hbits]
  exact h

/-- The widths with another stack. -/
theorem wide_with_xf (h : k.wide b) {xf : List StageRegs} (hxf : b.strings = false → StackWide b.width xf) :
    ({ k with xf := xf } : Work).wide b :=
  ⟨fun hs => ⟨(h.1 hs).1, (h.1 hs).2.1, hxf hs⟩, h.2⟩

theorem baseWrite_wide (hk : k.wide b) {ws : List U64} (hws : b.strings = false → WordsWide b.width ws) :
    (baseWrite b k ws).1.wide b := by
  obtain ⟨hnum, hacc⟩ := hk
  unfold baseWrite
  cases b.variant? with
  | some v => exact ⟨fun hs => ⟨fbWriteWords_pend_wide v (hnum hs).1 (hws hs), (hnum hs).2⟩, hacc⟩
  | none => exact ⟨hnum, bwWriteWords_wide b.width (r := { acc := k.bwAcc, nbits := k.bwNbits }) hacc ws⟩

theorem baseFlush_wide (hk : k.wide b) : (baseFlush b k).1.wide b := by
  obtain ⟨hnum, hacc⟩ := hk
  unfold baseFlush
  cases b.variant? with
  | some v => exact ⟨fun hs => ⟨fbFlush_pend_wide v (hnum hs).1, (hnum hs).2⟩, hacc⟩
  | none =>
    simp only
    split_ifs
    · exact ⟨fun hs => ⟨fbFlush_pend_wide .fb64lsb (hnum hs).1, (hnum hs).2⟩, hacc⟩
    · exact ⟨hnum, hacc⟩
    · exact ⟨hnum, bwFlush_wide (r := { acc := k.bwAcc, nbits := k.bwNbits }) hacc⟩

end

section
variable {p : Params} {cfg : Cfg} {k : Work}

theorem writeItem_wide (hk : k.wide cfg.base) (x : Item) : (writeItem p cfg k x).1.wide cfg.base := by
  cases x with
  | num v =>
    have hpush (hs : cfg.base.strings = false) := pushWords_wide (h := p.dfcmBits) (hk.1 hs).2.2
      (wordsWide_singleton (trunc_lt cfg.base.width v))
    exact baseWrite_wide (wide_with_xf hk fun hs => (hpush hs).1) fun hs => (hpush hs).2
  | str s =>
    simp only [writeItem]
    split_ifs with hb
    · exact ⟨fun hs => by simp [hb, Base.strings] at hs, hk.2⟩
    · exact hk

theorem writeItems_wide (hk : k.wide cfg.base) (xs : List Item) : (writeItems p cfg k xs).1.wide cfg.base := by
  induction xs generalizing k with
  | nil => exact hk
  | cons x xs ih => exact ih (writeItem_wide hk x)

theorem stagesFlush_wide (hk : k.wide cfg.base) : (stagesFlush p cfg k).1.wide cfg.base := by
  unfold stagesFlush
  split_ifs with hs
  · exact hk
  · have hflush (hs : cfg.base.strings = false) := flushStages_wide (h := p.dfcmBits) (hk.1 hs).2.2
      (wordsWide_nil cfg.base.width)
    exact baseWrite_wide (wide_with_xf hk fun hs => (hflush hs).1) fun hs => (hflush hs).2

theorem commitFlush_wide (hk : k.wide cfg.base) : (commitFlush p cfg k).1.wide cfg.base :=
  baseFlush_wide (stagesFlush_wide hk)

end

/-! ## The read path -/

/-- A pull that keeps a property of its state and returns uW words. -/
def PullsWide {κ : Type} (w : Nat) (P : κ → Prop) (pull : κ → Got U64 × κ) : Prop :=
  ∀ k, P k → P (pull k).2 ∧ ∀ y, (pull k).1 = .value y → y.toNat < 2 ^ w

/-- What one pull answered, taken apart. -/
theorem PullsWide.of_eq {κ : Type} {w : Nat} {P : κ → Prop} {pull : κ → Got U64 × κ} (h : PullsWide w P pull) {k k' : κ}
    {g : Got U64} (hk : P k) (he : pull k = (g, k')) : P k' ∧ ∀ y, g = .value y → y.toNat < 2 ^ w := by
  have := h k hk
  rwa [he] at this

theorem ddAccept_wide {w : Nat} {r : DdRegs} (hr : stageWide w (.dd r)) (e : U64) :
    (ddAccept w r e).1.toNat < 2 ^ w ∧ stageWide w (.dd (ddAccept w r e).2) :=
  ⟨addW_lt w _ _, addW_lt w _ _, hr.2⟩

/-- A reader stage keeps its widths and returns uW words, over a pull that does. -/
theorem stageRead_wide {κ : Type} {w h : Nat} {P : κ → Prop} {pull : κ → Got U64 × κ} (hp : PullsWide w P pull)
    (lone : κ → U64) : PullsWide w (fun q : StageRegs × κ => stageWide w q.1 ∧ P q.2)
      (fun q => stageRead w h pull lone q.1 q.2) := by
  rintro ⟨st, k⟩ ⟨hst, hk⟩
  cases st with
  | xor prev =>
    simp only [stageRead]
    split <;> rename_i he <;> obtain ⟨hk', hv⟩ := hp.of_eq hk he
    · have hx := xor_lt (hv _ rfl) hst
      exact ⟨⟨hx, hk'⟩, by rintro y ⟨⟩; exact hx⟩
    · exact ⟨⟨hst, hk'⟩, nofun⟩
    · exact ⟨⟨hst, hk'⟩, nofun⟩
  | dfcm r =>
    simp only [stageRead]
    split <;> rename_i he <;> obtain ⟨hk', hv⟩ := hp.of_eq hk he
    · have hx := xor_lt (hv _ rfl) (tableGet_wide hst.1 r.hash)
      exact ⟨⟨dfcmUpdate_wide hst hx, hk'⟩, by rintro y ⟨⟩; exact hx⟩
    · exact ⟨⟨hst, hk'⟩, nofun⟩
    · exact ⟨⟨hst, hk'⟩, nofun⟩
  | dd r =>
    simp only [stageRead]
    split
    · split <;> rename_i he <;> obtain ⟨hk', hv⟩ := hp.of_eq hk he
      · next m k' =>
        have hmin : stageWide w (.dd { r with min := m }) := ⟨hst.1, hst.2.1, hv m rfl⟩
        split <;> rename_i he' <;> obtain ⟨hk'', -⟩ := hp.of_eq hk' he'
        · exact ⟨⟨(ddAccept_wide hmin _).2, hk''⟩, by rintro y ⟨⟩; exact (ddAccept_wide hmin _).1⟩
        · exact ⟨⟨hmin, hk''⟩, nofun⟩
        · exact ⟨⟨hmin, hk''⟩, nofun⟩
      · exact ⟨⟨hst, hk'⟩, nofun⟩
      · exact ⟨⟨hst, hk'⟩, nofun⟩
    · split <;> rename_i he <;> obtain ⟨hk', hv⟩ := hp.of_eq hk he
      · exact ⟨⟨(ddAccept_wide hst _).2, hk'⟩, by rintro y ⟨⟩; exact (ddAccept_wide hst _).1⟩
      · exact ⟨⟨hst, hk'⟩, nofun⟩
      · exact ⟨⟨hst, hk'⟩, nofun⟩

/-- So does a stack, over a base that returns uW words. -/
theorem pullStage_wide {w h : Nat} {P : Work → Prop} {base : Work → Got U64 × Work} (hp : PullsWide w P base) (n : Nat) :
    PullsWide w (fun q : List StageRegs × Work => StackWide w q.1 ∧ P q.2) (pullStage w h base n) := by
  induction n with
  | zero =>
    rintro ⟨sts, k⟩ ⟨hsts, hk⟩
    obtain ⟨hk', hv⟩ := hp k hk
    cases sts <;> exact ⟨⟨hsts, hk'⟩, hv⟩
  | succ n ih =>
    rintro ⟨sts, k⟩ ⟨hsts, hk⟩
    cases sts with
    | nil =>
      obtain ⟨hk', hv⟩ := hp k hk
      exact ⟨⟨hsts, hk'⟩, hv⟩
    | cons st sts =>
      obtain ⟨hst, hrest⟩ := stackWide_cons.mp hsts
      obtain ⟨⟨hst', hrest', hk'⟩, hv⟩ :=
        stageRead_wide (h := h) ih (fun x => x.2.cur.get .data) (st, sts, k) ⟨hst, hrest, hk⟩
      exact ⟨⟨stackWide_cons.mpr ⟨hst', hrest'⟩, hk'⟩, hv⟩

/-- The value of a nibble of at most B bytes is a uW word. -/
theorem nibValue_lt {v : Variant} {n : BitVec 4} {l : List Byte} (hl : l.length ≤ nibBytes v n)
    (hn : nibBytes v n ≤ Variant.byteWidth v) : (nibValue v n l).toNat < 2 ^ (8 * Variant.byteWidth v) := by
  unfold nibValue
  simp only
  split_ifs
  · exact zero_lt_two_pow _
  · exact trunc_lt _ _
  · rw [BitVec.toNat_ofNat]
    calc unLE l % 2 ^ 64 ≤ unLE l := Nat.mod_le _ _
      _ < 2 ^ (8 * l.length) := unLE_lt l
      _ ≤ 2 ^ (8 * Variant.byteWidth v) := Nat.pow_le_pow_right (by decide) (by omega)

/-- The nibbles of a SINGLE or PAIR flag byte are value nibbles. -/
theorem nibBytes_le_of_single {v : Variant} {f : Byte} (h : flagKind v f = .single) :
    nibBytes v (hiNib f) ≤ Variant.byteWidth v := by
  revert f
  cases v <;> decide

theorem nibBytes_le_of_pair {v : Variant} {f : Byte} (h : flagKind v f = .pair) :
    nibBytes v (hiNib f) ≤ Variant.byteWidth v ∧ nibBytes v (loNib f) ≤ Variant.byteWidth v := by
  revert f
  cases v <;> decide

theorem readBytes_length_le (ch : List Byte) (off n : Nat) : (readBytes ch off n).length ≤ n := List.length_take_le _ _

/-- The words of a unit are uW words. -/
def UnitWords.wide (w : Nat) : UnitWords → Prop
  | .zeros _ => True
  | .one v1 => v1.toNat < 2 ^ w
  | .two v1 v2 => v1.toNat < 2 ^ w ∧ v2.toNat < 2 ^ w

theorem unitBody_wide {v : Variant} {f : Byte} {ch : List Byte} {off len : Nat} {ws : UnitWords}
    (h : unitBody v f ch off = .words len ws) : ws.wide (8 * Variant.byteWidth v) := by
  unfold unitBody at h
  split at h
  · cases h
    trivial
  · next hk =>
    simp only [singleBody] at h
    split_ifs at h
    cases h
    exact nibValue_lt (readBytes_length_le _ _ _) (nibBytes_le_of_single hk)
  · next hk =>
    obtain ⟨hhi, hlo⟩ := nibBytes_le_of_pair hk
    simp only [pairBody] at h
    split_ifs at h
    cases h
    exact ⟨nibValue_lt (readBytes_length_le _ _ _) hhi, nibValue_lt (readBytes_length_le _ _ _) hlo⟩
  · cases h

/-- What a word step of a flag-byte reader keeps of the widths. -/
theorem fbReadWord_wide {v : Variant} (sl : Slot) (ch : List Byte) :
    PullsWide (8 * Variant.byteWidth v) (fun k : Work => k.carryVal.toNat < 2 ^ (8 * Variant.byteWidth v))
      (fbReadWord v sl ch) := by
  intro k hk
  by_cases hcarry : k.carry = 1 ∨ k.carry < 0
  · by_cases h1 : k.carry = 1
    · rw [fbReadWord_of_carry_one v sl ch h1]
      exact ⟨zero_lt_two_pow _, by rintro y ⟨⟩; exact hk⟩
    · rw [fbReadWord_of_carry_neg v sl ch (hcarry.resolve_left h1)]
      exact ⟨hk, by rintro y ⟨⟩; exact zero_lt_two_pow _⟩
  · cases hf : ch[(k.cur.get sl).toNat]? with
    | none =>
      obtain ⟨h1, h2⟩ := not_or.mp hcarry
      have hd : decodeUnitAt v ch (k.cur.get sl).toNat = none := by simp only [decodeUnitAt, hf]
      simp only [fbReadWord, h1, h2, if_false, hd]
      exact ⟨hk, nofun⟩
    | some f =>
      rw [fbReadWord_of_unit v sl ch hcarry hf]
      cases hb : unitBody v f ch (k.cur.get sl).toNat with
      | corrupt => exact ⟨hk, nofun⟩
      | words len ws =>
        have hws := unitBody_wide hb
        cases ws with
        | zeros r => exact ⟨hk, by rintro y ⟨⟩; exact zero_lt_two_pow _⟩
        | one v1 => exact ⟨hk, by rintro y ⟨⟩; exact hws⟩
        | two v1 v2 => exact ⟨hws.2, by rintro y ⟨⟩; exact hws.1⟩

/-- A flag-byte word step changes only the cursor and the carry. -/
theorem fbReadWord_frame (v : Variant) (sl : Slot) (ch : List Byte) (k : Work) :
    (fbReadWord v sl ch k).2.fbw = k.fbw ∧ (fbReadWord v sl ch k).2.xf = k.xf ∧
      (fbReadWord v sl ch k).2.bwAcc = k.bwAcc ∧ (fbReadWord v sl ch k).2.bwNbits = k.bwNbits := by
  unfold fbReadWord
  split_ifs
  · exact ⟨rfl, rfl, rfl, rfl⟩
  · exact ⟨rfl, rfl, rfl, rfl⟩
  · split
    · exact ⟨rfl, rfl, rfl, rfl⟩
    · exact ⟨rfl, rfl, rfl, rfl⟩
    · next ws _ => cases ws <;> exact ⟨rfl, rfl, rfl, rfl⟩

theorem streamBits_lt (ch : List Byte) (q t : Nat) : streamBits ch q t < 2 ^ t := by
  induction t generalizing q with
  | zero => exact Nat.one_pos
  | succ t ih =>
    have hbit : streamBit ch q < 2 := Nat.mod_lt _ (by decide)
    have hrest := ih (q + 1)
    rw [streamBits, Nat.pow_succ]
    omega

theorem streamItem_lt (b : Nat) (ch : List Byte) (i : Nat) : (streamItem b ch i).toNat < 2 ^ b := by
  rw [streamItem, BitVec.toNat_ofNat]
  exact lt_of_le_of_lt (Nat.mod_le _ _) (streamBits_lt ch _ b)

/-- The width of a flag-byte base is that of its variant (40_flagbyte.md R150). -/
theorem width_of_variant? {b : Base} {v : Variant} (h : b.variant? = some v) : b.width = 8 * Variant.byteWidth v := by
  cases b <;> cases h <;> rfl

/-- A numeric base returns uW words and keeps the widths. -/
theorem baseRead_wide {b : Base} (hs : b.strings = false) (ch : List Byte) :
    PullsWide b.width (fun k : Work => k.wide b) (baseRead b ch) := by
  intro k hk
  unfold baseRead
  cases hv : b.variant? with
  | some v =>
    have hval := (hk.1 hs).2.1
    rw [width_of_variant? hv] at hval ⊢
    obtain ⟨hcarry, hout⟩ := fbReadWord_wide (v := v) .data ch k hval
    obtain ⟨hfbw, hxf, hacc, hbits⟩ := fbReadWord_frame v .data ch k
    refine ⟨⟨fun _ => ⟨?_, ?_, ?_⟩, ?_⟩, hout⟩
    · rw [hfbw]
      exact (hk.1 hs).1
    · rw [width_of_variant? hv]
      exact hcarry
    · rw [hxf]
      exact (hk.1 hs).2.2
    · rw [hacc, hbits]
      exact hk.2
  | none =>
    simp only [bwReadWord]
    split_ifs
    · exact ⟨hk, nofun⟩
    · exact ⟨hk, by rintro y ⟨⟩; exact streamItem_lt _ _ _⟩

section
variable {p : Params} {cfg : Cfg} {k : Work}

theorem variReadItem_frame (ch : List Byte) (k : Work) :
    (variReadItem ch k).2 = k ∨ ∃ c, (variReadItem ch k).2 = { k with cur := c } := by
  unfold variReadItem
  simp only
  split
  · exact .inl rfl
  · split_ifs
    · exact .inl rfl
    · exact .inl rfl
    · exact .inl rfl
    · exact .inr ⟨_, rfl⟩

/-- Reading a VARD item: the length word, then perhaps RD_CUR[0]. -/
theorem vardReadItem_frame (chs : PerSlot (List Byte)) (k : Work) :
    (vardReadItem chs k).2 = (fbReadWord .fb64lsb .lens chs.lens k).2 ∨
      ∃ c, (vardReadItem chs k).2 = { (fbReadWord .fb64lsb .lens chs.lens k).2 with cur := c } := by
  unfold vardReadItem
  split
  · next he => exact .inl (by rw [he])
  · next he => exact .inl (by rw [he])
  · next he =>
    simp only
    rw [he]
    split_ifs
    · exact .inl rfl
    · exact .inr ⟨_, rfl⟩

theorem fbReadWord_wide_strings {b : Base} (hs : b.strings = true) (hk : k.wide b) (v : Variant) (sl : Slot)
    (ch : List Byte) : (fbReadWord v sl ch k).2.wide b := by
  obtain ⟨-, -, hacc, hbits⟩ := fbReadWord_frame v sl ch k
  refine ⟨fun h => ?_, ?_⟩
  · rw [hs] at h
    cases h
  · rw [hacc, hbits]
    exact hk.2

theorem strings_eq_false_of_ne {b : Base} (hvari : b ≠ .vari) (hvard : b ≠ .vard) : b.strings = false := by
  cases b <;> first | rfl | exact absurd rfl hvari | exact absurd rfl hvard

theorem pullItem_wide {b : Base} (hk : k.wide b) (chs : PerSlot (List Byte)) : (pullItem p b chs k).2.wide b := by
  unfold pullItem
  split_ifs with hvari hvard
  · obtain he | ⟨c, he⟩ := variReadItem_frame chs.data k <;> rw [he] <;> exact hk
  · have hword := fbReadWord_wide_strings (by rw [hvard]; rfl) hk .fb64lsb .lens chs.lens
    obtain he | ⟨c, he⟩ := vardReadItem_frame chs k <;> rw [he] <;> exact hword
  · have hs := strings_eq_false_of_ne hvari hvard
    obtain ⟨⟨hxf, hk'⟩, -⟩ := pullStage_wide (h := p.dfcmBits) (baseRead_wide hs chs.data) k.xf.length (k.xf, k)
      ⟨(hk.1 hs).2.2, hk⟩
    exact wide_with_xf hk' fun _ => hxf

theorem readItems_wide {r : Reading} (hr : r.work.wide cfg.base) (chs : PerSlot (List Byte)) (n : Nat) :
    (readItems p cfg chs n r).2.2.work.wide cfg.base := by
  induction n generalizing r with
  | zero => exact hr
  | succ n ih =>
    have hitem : (readItem p cfg chs r).2.work.wide cfg.base := by
      have hpull := pullItem_wide (p := p) hr chs
      unfold readItem
      split_ifs
      · exact hr
      · split <;> rename_i he <;> rw [he] at hpull <;> exact hpull
    unfold readItems
    split <;> rename_i he <;> rw [he] at hitem
    · exact ih hitem
    · exact hitem
    · exact hitem

end

/-! ## Every step -/

theorem stageWide_reset (w : Nat) (t : Xform) : stageWide w (StageRegs.reset t) := by
  cases t with
  | dd => exact ⟨zero_lt_two_pow w, ddFrameReset_wide, zero_lt_two_pow w⟩
  | xor => exact zero_lt_two_pow w
  | dfcm => exact ⟨nofun, zero_lt_two_pow w⟩

theorem Work.reset_wide (cfg : Cfg) : (Work.reset cfg).wide cfg.base := by
  refine ⟨fun _ => ⟨zero_lt_two_pow _, zero_lt_two_pow _, fun st hst => ?_⟩, Nat.one_pos⟩
  obtain ⟨t, -, rfl⟩ := List.mem_map.mp hst
  exact stageWide_reset _ t

/-- The output paths change only STAGE of the working registers. -/
theorem LaneFrame.wide {s t : State} {x y : Instance} (h : LaneFrame s t x y) (hx : x.work.wide x.cfg.base) :
    y.work.wide y.cfg.base := by
  rw [h.cfg]
  have hwork := h.work
  rw [← hwork] at hx
  exact wide_of_eq hx rfl rfl rfl rfl rfl

/-- One instance replaced by one that has its widths, unless it is FAULTED. -/
theorem widthsKept_set {s t : State} (h : WidthsKept s) {i : Nat} {y : Instance} (hi : t.insts = s.insts.set i y)
    (hy : y.life ≠ .faulted → y.work.wide y.cfg.base) : WidthsKept t := by
  intro x hx
  rw [hi] at hx
  obtain hx | rfl := List.mem_or_eq_of_mem_set hx
  · exact h x hx
  · exact hy

theorem widthsKept_of_insts {s t : State} (h : WidthsKept s) (hi : t.insts = s.insts) : WidthsKept t := by
  intro x hx
  exact h x (hi ▸ hx)

theorem widthsKept_onLanes {s : State} (h : WidthsKept s) (id : U16) {y : Instance} (f : Slot → Lane → Lane)
    (hy : y.work.wide y.cfg.base) (st : Status) (ws : List U64) : WidthsKept ((s.onLanes id y f).reply st ws) :=
  widthsKept_set (t := (s.onLanes id y f).reply st ws) h (onLanes_insts s id y f) fun _ =>
    (onSlots_frame f y.cfg.base.slots s y).wide hy

theorem Effect.widthsKept {s t : State} {i : Instr} {op : Opcode} {id : U16} (he : Effect s i op id t)
    (h : WidthsKept s) : WidthsKept t := by
  have hwide {x : Instance} (hx : s.inst? id = some x) (hl : x.life ≠ .faulted) : x.work.wide x.cfg.base :=
    h x (State.inst?_mem hx) hl
  cases he with
  | replied => exact widthsKept_of_insts h rfl
  | faulted code slot off hx hl hcode hop =>
    rw [faultEntry_recorded op code slot off hcode hop hx]
    exact widthsKept_set (i := id.toNat - 1) h rfl fun hne => absurd rfl hne
  | executionFaulted items bind code slot off hx hl hcode hop =>
    rw [executionFault_eq hx _ hcode hop]
    exact widthsKept_set (i := id.toNat - 1) h rfl fun hne => absurd rfl hne
  | initialised => exact widthsKept_set (i := id.toNat - 1) h rfl fun _ => Work.reset_wide _
  | read n done ws hop hx hrole hl =>
    exact widthsKept_set (i := id.toNat - 1) h rfl fun _ =>
      readItems_wide (r := { items := _, work := _ }) (hwide hx (life_ne_faulted_of_reading hl)) _ n
  | wrote items hop hx hrole hl =>
    rw [State.written_eq]
    exact widthsKept_onLanes h id _ (writeItems_wide (hwide hx (life_ne_faulted_of_writing hl)) items) _ _
  | committed hop hx hrole hl =>
    rw [State.committed_eq]
    exact widthsKept_onLanes h id _ (commitFlush_wide (hwide hx (life_ne_faulted_of_writing hl))) _ _
  | flushed hop hx hrole hl => exact widthsKept_onLanes h id _ (hwide hx (life_ne_faulted_of_open hl)) _ _
  | resetWriter | resetReader => exact widthsKept_onLanes h id _ (Work.reset_wide _) _ _
  | resumed ch0 ch1 rows items =>
    rw [State.resumed_eq]
    exact widthsKept_onLanes h id _ (writeItems_wide (Work.reset_wide _) items) _ _
  | created cfg n =>
    intro x hx
    obtain hx | hx := List.mem_append.mp (show x ∈ s.insts ++ [Instance.fresh cfg] from hx)
    · exact h x hx
    · rw [List.mem_singleton.mp hx]
      exact fun _ => Work.reset_wide cfg

/-- The word step at the port keeps the widths: slot 1 is decoded only by VARD, which has no uW registers. -/
theorem fbReadWord_wide_of_slotVariant {b : Base} {sl : Slot} {v : Variant} (hv : slotVariant b sl = some v) {k : Work}
    (hk : k.wide b) (ch : List Byte) : (fbReadWord v sl ch k).2.wide b := by
  cases hs : b.strings with
  | true => exact fbReadWord_wide_strings hs hk v sl ch
  | false =>
    cases sl with
    | data =>
      have hread := (baseRead_wide hs ch k hk).1
      have hvar : b.variant? = some v := hv
      simpa only [baseRead, hvar] using hread
    | lens =>
      simp only [slotVariant] at hv
      split_ifs at hv with hb
      rw [hb] at hs
      cases hs

theorem unitWord_widthsKept {s t : State} (h : WidthsKept s) (hport : ∀ p, s.unitPort = some p → readingOp p.op = true)
    {p : UnitPort} {x : Instance} {v : Variant} {c : Channel} (hat : AtPort s p x v c)
    (ht : s.unitWord p x (fbReadWord v p.slot c.bytes x.work) = .next t) : WidthsKept t := by
  obtain ⟨hp, hx, -, hl, hv, -⟩ := hat
  have hwork := fbReadWord_wide_of_slotVariant hv (h x (State.inst?_mem hx) (life_ne_faulted_of_reading hl)) c.bytes
  generalize fbReadWord v p.slot c.bytes x.work = r at hwork ht
  obtain ⟨g, k⟩ := r
  cases g with
  | value y =>
    cases ht
    exact widthsKept_set (i := p.inst.toNat - 1) h rfl fun _ => hwork
  | eos =>
    cases ht
    exact widthsKept_of_insts h rfl
  | corrupt sl off =>
    cases ht
    have hx' : State.inst? { s with unitPort := none } p.inst = some x := hx
    rw [executionFault_eq hx' x rfl (ne_construct_of_readingOp (hport p hp))]
    exact widthsKept_set (i := p.inst.toNat - 1) h rfl fun hne => absurd rfl hne

theorem step_widthsKept {s t : State} (hinv : IsInv s) (h : WidthsKept s) (ht : step s = .next t) : WidthsKept t := by
  obtain ⟨p, x, v, c, hat, hw⟩ | ⟨-, -, rfl⟩ | ⟨act, rest, -, -, ha⟩ := step_cases ht
  · exact unitWord_widthsKept h hinv.port hat hw
  · exact h
  · cases act with
    | command packet =>
      obtain ⟨i, op, id, -, -, he⟩ | rfl := stepPacket_cases ha
      · exact he.widthsKept h
      · exact h
    | createChannel id content =>
      simp only [stepAct, State.hostCreate] at ha
      split_ifs at ha
      cases ha
      exact h
    | writeChannel id content =>
      simp only [stepAct, State.hostWrite] at ha
      split_ifs at ha
      cases ha
      exact h

/-- Settles O60: no instance at reset; every effect (`Effect.widthsKept`) and the word step at the port keep the widths. -/
theorem stepKeepsWidths : Obligations.StepKeepsWidths :=
  ⟨fun _ hx => absurd hx List.not_mem_nil, fun s _ hinv h ht => step_widthsKept ((inv_iff s).mp hinv) h ht⟩

end Sys2Proof.Machine
end

section
/-! PROOFS. The words the flag-byte writer chooses nibbles for (40_flagbyte.md R151 to R158), the words the transform stages push
(41_transforms.md R214 to R235), the staging buffers (20_memory.md R76, R77) and the law of emitted bytes (44_pipeline.md R337). -/

namespace Sys2Proof.Machine

/-! ## Nibbles -/

/-- Settles O10: `nibOf_nibbleFor` for the nibbles, `rleByte_decodes` for the runs. -/
theorem nibblesAndRunBytesGiveBack : Obligations.NibblesAndRunBytesGiveBack := by
  refine ⟨fun v x hx => ?_, fun v r hmin hmax => rleByte_decodes hmin hmax⟩
  have h := nibOf_nibbleFor hx
  exact ⟨h.value, h.length, h.isValue.1, h.isValue.2⟩

/-- `tzBytes` counts every trailing zero byte. -/
theorem le_tzBytesUpTo {u t n : Nat} (hdvd : 2 ^ (8 * t) ∣ u) (ht : t ≤ n) : t ≤ tzBytesUpTo u n := by
  induction n with
  | zero => exact ht
  | succ n ih =>
    unfold tzBytesUpTo
    split
    · exact ht
    · next hmod =>
      refine ih (Nat.le_of_lt_succ (Nat.lt_of_le_of_ne ht fun he => hmod ?_))
      rw [he] at hdvd
      exact Nat.mod_eq_zero_of_dvd hdvd

/-- A word whose low B - k bytes are 0 has at most k bytes above its trailing zero bytes. -/
theorem msBytes_le {b u k : Nat} (hdvd : 2 ^ (8 * (b - k)) ∣ u) : msBytes b u ≤ k := by
  have := le_tzBytesUpTo hdvd (Nat.sub_le b k)
  unfold msBytes tzBytes
  omega

/-- The data bytes of the trailing nibble of a word (R152, R154, R155). -/
def trailingBytes (v : Variant) (u : Nat) : Nat :=
  match v with
  | .fb32 => lsBytes u
  | .fb64 => max 1 (lsBytes u)
  | .fb64lsb => lsBytes u

/-- The data bytes of the leading nibble of a word; FB64LSB has none, so it never has fewer. -/
def leadingBytes (v : Variant) (u : Nat) : Nat :=
  match v with
  | .fb32 => msBytes 4 u
  | .fb64 => max 1 (msBytes 8 u)
  | .fb64lsb => lsBytes u

/-- R152, R154, R155: a leading nibble is chosen exactly where it needs fewer data bytes. -/
theorem nibOf_choice (v : Variant) {x : U64} (hx : x.toNat < 2 ^ (8 * Variant.byteWidth v)) :
    (nibOf v x).2.length = min (leadingBytes v x.toNat) (trailingBytes v x.toNat) ∧
    nibLeading v (nibOf v x).1 = decide (leadingBytes v x.toNat < trailingBytes v x.toNat) := by
  cases v with
  | fb32 =>
    have hl4 : lsBytes x.toNat ≤ 4 := lsBytes_le hx (by decide)
    simp only [nibOf, nib32, leadingBytes, trailingBytes]
    split
    · next h0 =>
      rw [h0]
      decide
    · split
      · next hlt => simp [nib32_leading_nibble (msBytes 4 x.toNat) (by omega), hlt, hlt.le]
      · next hge => simp [nib32_trailing_nibble (lsBytes x.toNat) hl4, hge, Nat.le_of_not_lt hge]
  | fb64 =>
    have hl8 : lsBytes x.toNat ≤ 8 := lsBytes_le (k := 8) x.isLt le_rfl
    simp only [nibOf, nib64, leadingBytes, trailingBytes]
    obtain ⟨l, hl⟩ : ∃ l, max 1 (lsBytes x.toNat) = l + 1 := Nat.exists_eq_add_one.mpr (Nat.le_max_left 1 _)
    obtain ⟨m, hm⟩ : ∃ m, max 1 (msBytes 8 x.toNat) = m + 1 := Nat.exists_eq_add_one.mpr (Nat.le_max_left 1 _)
    simp only [show Nat.max 1 (lsBytes x.toNat) = l + 1 from hl, show Nat.max 1 (msBytes 8 x.toNat) = m + 1 from hm]
    split
    · next hlt => simp [nib64_leading_nibble m (by omega), hlt, hlt.le]
    · next hge =>
      simp [nib64_trailing_nibble l (by omega), hge, Nat.le_of_not_lt hge]
  | fb64lsb => simp [nibOf, nibLsb, leadingBytes, trailingBytes, nibLeading]

section
variable {v : Variant} {n : BitVec 4} {l : List Byte}

/-- A trailing value of k bytes is below 2^(8k). -/
theorem trailingBytes_nibValue_le (hn : nibBytes v n ≤ Variant.byteWidth v) (hl : l.length = nibBytes v n)
    (hlead : nibLeading v n = false) : trailingBytes v (nibValue v n l).toNat ≤ nibBytes v n := by
  have hw : Variant.byteWidth v ≤ 8 := by cases v <;> decide
  have hlt : (nibValue v n l).toNat < 2 ^ (8 * nibBytes v n) := by
    rw [← hl]
    unfold nibValue
    simp only [hlead, Bool.false_eq_true, if_false]
    split
    · exact Nat.two_pow_pos _
    · exact (Nat.mod_le _ _).trans_lt (unLE_lt l)
  have hls := lsBytes_le hlt (hn.trans hw)
  cases v with
  | fb32 => exact hls
  | fb64 => exact max_le (Nat.le_add_left 1 _) hls
  | fb64lsb => exact hls

/-- The low bytes of a leading value are 0. -/
theorem two_pow_dvd_nibValue (hlead : nibLeading v n = true) :
    2 ^ (8 * (Variant.byteWidth v - nibBytes v n)) ∣ (nibValue v n l).toNat := by
  have hw : 8 * (Variant.byteWidth v - nibBytes v n) ≤ 8 * Variant.byteWidth v := by omega
  have hw' : 8 * Variant.byteWidth v ≤ 64 := by cases v <;> decide
  unfold nibValue
  simp only [hlead, if_true]
  split
  · exact dvd_zero _
  · simp only [trunc, BitVec.toNat_setWidth, BitVec.toNat_ofNat]
    rw [Nat.dvd_mod_iff (pow_dvd_pow 2 (hw.trans hw')), Nat.dvd_mod_iff (pow_dvd_pow 2 hw),
      Nat.dvd_mod_iff (pow_dvd_pow 2 (hw.trans hw'))]
    exact dvd_mul_left _ _

theorem leadingBytes_nibValue_le (hlead : nibLeading v n = true) :
    leadingBytes v (nibValue v n l).toNat ≤ nibBytes v n := by
  have hms := msBytes_le (two_pow_dvd_nibValue (l := l) hlead)
  cases v with
  | fb32 => exact hms
  | fb64 => exact max_le (Nat.le_add_left 1 _) hms
  | fb64lsb => cases hlead

end

/-- Settles O11: the choice takes the fewer of the two counts, and no nibble of a kind needs fewer than its kind's count. -/
theorem nibblesUseTheFewestBytes : Obligations.NibblesUseTheFewestBytes := by
  rintro v x n l hx hn hl rfl
  obtain ⟨hlen, hchoice⟩ := nibOf_choice v hx
  rw [hlen, hchoice, hl]
  cases hlead : nibLeading v n with
  | false =>
    have := trailingBytes_nibValue_le hn hl hlead
    refine ⟨by omega, fun he _ => decide_eq_false ?_⟩
    omega
  | true =>
    have := leadingBytes_nibValue_le (l := l) hlead
    exact ⟨by omega, nofun⟩

/-! ## The words of the transform stages -/

theorem stageWrites_append (w h : Nat) (st : StageRegs) (xs ys : List U64) :
    stageWrites w h st (xs ++ ys) =
      ((stageWrites w h (stageWrites w h st xs).1 ys).1,
        (stageWrites w h st xs).2 ++ (stageWrites w h (stageWrites w h st xs).1 ys).2) := by
  induction xs generalizing st with
  | nil => rfl
  | cons x xs ih => simp only [List.cons_append, stageWrites, ih, List.append_assoc]

theorem differences_length (w : Nat) (p : U64) (xs : List U64) : (differences w p xs).length = xs.length := by
  induction xs generalizing p with
  | nil => rfl
  | cons x xs ih => simp only [differences, List.length_cons, ih]

theorem differences_getElem? (w : Nat) (p : U64) (xs : List U64) {i : Nat} (hi : i < xs.length) :
    (differences w p xs)[i]? = some (trunc w (xs.getD i 0 - (if i = 0 then p else xs.getD (i - 1) 0))) := by
  induction xs generalizing p i with
  | nil => cases hi
  | cons x xs ih =>
    cases i with
    | zero => rfl
    | succ i =>
      rw [List.length_cons, Nat.succ_lt_succ_iff] at hi
      rw [differences, List.getElem?_cons_succ, ih x hi]
      cases i <;> rfl

theorem frameWords_length (w : Nat) (p : U64) (xs : List U64) :
    (frameWords w p xs).length = if xs = [] then 0 else xs.length + 1 := by
  cases xs with
  | nil => rfl
  | cons x xs => simp [frameWords, differences, differences_length]

theorem leastSigned_le (w : Nat) (d : U64) (ds : List U64) :
    ∀ e ∈ d :: ds, signedW w (leastSigned w d ds) ≤ signedW w e := by
  induction ds generalizing d with
  | nil => simp [leastSigned]
  | cons e es ih =>
    intro f hf
    have hle : signedW w (leastSigned w d (e :: es)) ≤ signedW w (if signedW w e < signedW w d then e else d) :=
      ih _ _ List.mem_cons_self
    obtain rfl | hf := List.mem_cons.mp hf
    · split at hle <;> omega
    obtain rfl | hf := List.mem_cons.mp hf
    · split at hle <;> omega
    · exact ih _ f (List.mem_cons_of_mem _ hf)

/-- A difference of signed values that is not negative, computed modulo 2^W, is exact: it is below 2^W. -/
theorem subW_toNat_of_signedW_le {w : Nat} (hw : w ≤ 64) {d m : U64} (h : signedW w m ≤ signedW w d) :
    ((subW w d m).toNat : Int) = signedW w d - signedW w m := by
  have hlt : signedW w d - signedW w m < 2 ^ w := by
    have h1 := BitVec.toInt_lt (x := d.setWidth w)
    have h2 := BitVec.le_toInt (d.setWidth w)
    have h3 := BitVec.toInt_lt (x := m.setWidth w)
    have h4 := BitVec.le_toInt (m.setWidth w)
    unfold signedW
    cases w with
    | zero => simp [BitVec.toInt_zero_length]
    | succ w =>
      rw [pow_succ]
      simp only [Nat.add_sub_cancel] at h1 h4
      omega
  have hself : (subW w d m).toNat = (d.setWidth w - m.setWidth w).toNat := by
    rw [subW, trunc, setWidth_sub_of_le hw, BitVec.toNat_setWidth]
    exact Nat.mod_eq_of_lt (BitVec.isLt _ |>.trans_le (Nat.pow_le_pow_right (by decide) hw))
  calc ((subW w d m).toNat : Int)
      _ = ((d.setWidth w - m.setWidth w).toNat : Int) % (2 ^ w : Nat) := by
        rw [hself, Int.emod_eq_of_lt (Int.natCast_nonneg _) (by exact_mod_cast BitVec.isLt _)]
      _ = (d.setWidth w - m.setWidth w).toInt % (2 ^ w : Nat) := by
        rw [BitVec.toInt_eq_toNat_bmod, Int.bmod_emod]
      _ = (signedW w d - signedW w m) % (2 ^ w : Nat) := by rw [BitVec.toInt_sub, Int.bmod_emod]; rfl
      _ = signedW w d - signedW w m := Int.emod_eq_of_lt (by omega) (by exact_mod_cast hlt)

/-- R215 to R217: n items through a DD stage that holds m are n words and a minimum for each frame of 16, the last one perhaps
not full. -/
theorem stageWrites_dd_length (w h : Nat) {r : DdRegs} (hframe : r.frame.length = 16) (hfill : r.fill < 16)
    (xs : List U64) :
    ((stageWrites w h (.dd r) xs).2 ++ (stageFlush w (stageWrites w h (.dd r) xs).1).2).length =
      r.fill + xs.length + (r.fill + xs.length + 15) / 16 := by
  induction xs generalizing r with
  | nil =>
    have hheld : r.held.length = r.fill := by simp [DdRegs.held, hframe, hfill.le]
    simp only [stageWrites, stageFlush, List.nil_append, ddFlush_words, frameWords_length, hheld,
      ← List.length_eq_zero_iff, List.length_nil]
    split <;> omega
  | cons x xs ih =>
    rw [stageWrites_dd_cons]
    obtain hlt | heq := Nat.lt_or_eq_of_le (Nat.le_of_lt_succ hfill)
    · rw [ddWrite_of_fill_lt _ hlt, List.nil_append, ih (by simpa using hframe) (Nat.succ_lt_succ hlt), List.length_cons]
      simp only [show r.fill + 1 + xs.length = r.fill + (xs.length + 1) by omega]
    · have hheld : r.held.length = 15 := by simp [DdRegs.held, hframe, heq]
      have hframe' : (frameWords w r.prev (r.held ++ [x])).length = 17 := by simp [frameWords_length, hheld]
      rw [ddWrite_of_fill_eq _ heq hframe, List.append_assoc, List.length_append, ih rfl (Nat.zero_lt_succ 15), hframe',
        List.length_cons, heq]
      show 17 + (0 + xs.length + (0 + xs.length + 15) / 16) = _
      omega

/-! ## DFCM_TABLE -/

theorem tableGet_of_lt {t : List (Nat × U64)} {i : Nat} (h : ∀ e ∈ t, i < e.1) : tableGet t i = 0 := by
  induction t with
  | nil => rfl
  | cons e t ih =>
    have hne : i ≠ e.1 := (h e List.mem_cons_self).ne
    simp only [tableGet, hne, if_false]
    exact ih fun f hf => h f (List.mem_cons_of_mem _ hf)

/-- An entry put before a table that has none at its index; an entry 0 is left out. -/
theorem tableGet_entry_cons {t : List (Nat × U64)} {i : Nat} (hi : tableGet t i = 0) (j : Nat) (x : U64) :
    tableGet (if x = 0 then t else (i, x) :: t) j = if j = i then x else tableGet t j := by
  split
  · next hx =>
    split
    · next hj => rw [hj, hi, hx]
    · rfl
  · rfl

/-- Reading the table after writing it. -/
theorem tableGet_tableSet {t : List (Nat × U64)} (ht : (t.map Prod.fst).Pairwise (· < ·)) (i j : Nat) (x : U64) :
    tableGet (tableSet t i x) j = if j = i then x else tableGet t j := by
  induction t with
  | nil => exact tableGet_entry_cons rfl j x
  | cons e t ih =>
    obtain ⟨k, y⟩ := e
    rw [List.map_cons, List.pairwise_cons] at ht
    obtain ⟨hk, ht⟩ := ht
    have hrest : ∀ e ∈ t, k < e.1 := fun e he => hk e.1 (List.mem_map_of_mem he)
    simp only [tableSet]
    split
    · next hik =>
      subst hik
      rw [tableGet_entry_cons (tableGet_of_lt hrest), tableGet]
      split <;> rfl
    · next hik =>
      split
      · next hlt =>
        refine tableGet_entry_cons (tableGet_of_lt fun e he => ?_) j x
        obtain rfl | he := List.mem_cons.mp he
        · exact hlt
        · exact hlt.trans (hrest e he)
      · rw [tableGet, tableGet, ih ht]
        split
        · next hjk => rw [if_neg fun he => hik (he.symm.trans hjk)]
        · rfl

/-- Settles O22: the equations of the stages, the frame's least element and exact differences, and the length of a DD stream. -/
theorem transformStagesPushTheirWords : Obligations.TransformStagesPushTheirWords := by
  refine ⟨fun w h r x hframe => ⟨?_, ?_, ?_, ?_⟩, fun w p xs h1 h64 hne => ?_, fun w h xs => ?_, fun w h prev x => rfl,
    fun w h r x ht => ?_, fun w st hkind => stageFlush_of_ne_dd _ hkind, fun w h st xs x => ?_⟩
  · intro hfill
    rw [stageWrite, ddWrite_of_fill_lt _ hfill]
  · intro hfill
    rw [stageWrite, ddWrite_of_fill_eq _ hfill hframe, DdRegs.held, hfill, ddFrameReset]
  · intro hfill
    simp [stageFlush, ddFlush, hfill]
  · intro hpos hfill
    have hlast : (r.frame.take r.fill).getLastD r.prev = r.frame.getD (r.fill - 1) 0 := by
      have : r.fill - 1 < r.frame.length := by omega
      simp [List.getLastD_eq_getLast?, List.getLast?_take, hpos.ne', this]
    simp only [stageFlush, ddFlush, ddEmitFrame, hpos, if_true, hlast, ddFrameReset]
  · obtain ⟨x, xs, rfl⟩ := List.exists_cons_of_ne_nil hne
    refine ⟨differences w p (x :: xs), leastSigned w (subW w x p) (differences w x xs), rfl, differences_length _ _ _,
      fun i hi => differences_getElem? w p _ hi, leastSigned_mem _ _, fun d hd => ?_⟩
    have hle := leastSigned_le w _ _ d hd
    exact ⟨hle, subW_toNat_of_signedW_le h64 hle⟩
  · simpa [stageEncode, StageRegs.reset, DdRegs.reset] using
      stageWrites_dd_length w h (r := DdRegs.reset) rfl (by decide) xs
  · have hsorted : (r.table.map Prod.fst).Pairwise (· < ·) := by
      simp only [tableOk, Bool.and_eq_true, decide_eq_true_eq] at ht
      exact ht.2
    refine ⟨dfcmUpdate w h r x, rfl, fun j => tableGet_tableSet hsorted _ _ _, ?_, rfl⟩
    simp only [dfcmUpdate, dfcmHash, subW, Nat.shiftLeft_eq, Nat.reducePow]
  · rw [stageWrites_append]
    simp [stageWrites]

/-! ## Staging -/

/-- One byte more: it is staged, or it completes a buffer that is flushed. -/
theorem staged_emit {n : Nat} {l : Lane} (h : l.stage.length < n) (b : Byte) (bs : List Byte) :
    (l.emit n b).staged n bs = l.staged n (b :: bs) := by
  have hn : 0 < n := Nat.zero_lt_of_lt h
  by_cases hfull : l.stage.length + 1 = n
  · have hemit : l.emit n b =
        { bytes := l.bytes ++ (l.stage ++ [b]), gen := l.gen + 1, seen := l.gen + 1, stage := [] } := by
      simp [Lane.emit, Lane.flush, hfull]
    have hdiv : (l.stage.length + (bs.length + 1)) / n = bs.length / n + 1 := by
      rw [← Nat.add_div_right _ hn, ← hfull]
      congr 1
      omega
    have hlen : (l.stage ++ [b]).length = n := by simpa using hfull
    have hsplit : l.stage ++ b :: bs = (l.stage ++ [b]) ++ bs := by simp
    have hk : (bs.length / n + 1) * n = (l.stage ++ [b]).length + bs.length / n * n := by rw [hlen]; ring
    have hk0 : (bs.length / n + 1) * n ≠ 0 := by positivity
    have hgen : l.gen + 1 + BitVec.ofNat 64 (bs.length / n) = l.gen + BitVec.ofNat 64 (bs.length / n + 1) := by
      rw [BitVec.add_assoc, BitVec.add_comm 1, BitVec.ofNat_add]
      rfl
    simp only [hemit, Lane.staged, flushedLen, List.length_nil, Nat.zero_add, List.length_cons, hdiv, hsplit, hk0,
      if_false, hgen, List.nil_append, Lane.mk.injEq, true_and]
    rw [hk, List.take_length_add_append, List.drop_length_add_append, List.append_assoc]
    refine ⟨rfl, ?_, rfl⟩
    split
    · next hz =>
      have : bs.length / n = 0 := by
        obtain h0 | h0 := Nat.mul_eq_zero.mp hz
        · exact h0
        · omega
      rw [this]
      rfl
    · rfl
  · have hemit : l.emit n b = { l with stage := l.stage ++ [b] } := by simp [Lane.emit, hfull]
    simp only [hemit, Lane.staged, flushedLen, List.length_append, List.length_cons, List.length_nil, Nat.zero_add,
      List.append_assoc, List.singleton_append, show l.stage.length + 1 + bs.length = l.stage.length + (bs.length + 1) by omega]
    rfl

theorem emitAll_eq_staged {n : Nat} {l : Lane} (h : l.stage.length < n) (bs : List Byte) :
    l.emitAll n bs = l.staged n bs := by
  induction bs generalizing l with
  | nil => simp [Lane.emitAll, Lane.staged, flushedLen, Nat.div_eq_of_lt h]
  | cons b bs ih =>
    rw [← staged_emit h, ← ih (emit_stage n (by omega) l b h)]
    rfl

/-- A stage that a flush would move exists exactly where the bytes do not fill whole buffers. -/
theorem staged_flush_eq_drained {n : Nat} (hn : 0 < n) (l : Lane) (bs : List Byte) :
    (l.staged n bs).flush = l.drained n bs := by
  have hlen : (l.stage ++ bs).length = l.stage.length + bs.length := List.length_append
  generalize hm : l.stage.length + bs.length = m at hlen
  have hdm := Nat.div_add_mod' m n
  have hmod := Nat.mod_lt m hn
  by_cases hrest : m % n = 0
  · have hfull : m / n * n = (l.stage ++ bs).length := by omega
    have hdiv : (m + (n - 1)) / n = m / n :=
      Nat.div_eq_of_lt_le (by omega) (by rw [Nat.add_one_mul]; omega)
    simp only [Lane.flush, Lane.staged, Lane.drained, flushedLen, hm, hfull, hdiv, List.take_length, List.drop_length,
      List.length_eq_zero_iff, if_true]
  · have hshort : m / n * n < (l.stage ++ bs).length := by omega
    have hne : (l.stage ++ bs).drop (m / n * n) ≠ [] := by
      rw [← List.length_pos_iff, List.length_drop]
      omega
    have hnil : l.stage ++ bs ≠ [] := List.length_pos_iff.mp (by omega)
    have hdiv : (m + (n - 1)) / n = m / n + 1 :=
      Nat.div_eq_of_lt_le (by rw [Nat.add_one_mul]; omega) (by rw [Nat.add_one_mul, Nat.add_one_mul]; omega)
    simp only [Lane.flush, Lane.staged, Lane.drained, flushedLen, hm, hdiv, hne, hnil, if_false, List.append_assoc,
      List.take_append_drop, BitVec.ofNat_add, BitVec.add_assoc, BitVec.ofNat_eq_ofNat]

/-- Settles O28: a byte at a time (`staged_emit`), then the flush of what is left. -/
theorem stagingInClosedForm : Obligations.StagingInClosedForm := by
  intro n l bs h
  rw [emitAll_eq_staged h]
  exact ⟨rfl, staged_flush_eq_drained (by omega) l bs⟩

/-! ## Prefixes -/

theorem writeItems_append (p : Params) (cfg : Cfg) (k : Work) (xs ys : List Item) :
    writeItems p cfg k (xs ++ ys) =
      ((writeItems p cfg (writeItems p cfg k xs).1 ys).1,
        (writeItems p cfg k xs).2.append (writeItems p cfg (writeItems p cfg k xs).1 ys).2) := by
  induction xs generalizing k with
  | nil => rfl
  | cons x xs ih => simp only [List.cons_append, writeItems, ih, Emitted.append, List.append_assoc]

theorem Emitted.get_append (a b : Emitted) (sl : Slot) : (a.append b).get sl = a.get sl ++ b.get sl := by
  cases sl <;> rfl

/-- Settles O27: writing a longer list continues from the registers of the shorter one. -/
theorem emittedBytesAreNeverRewritten : Obligations.EmittedBytesAreNeverRewritten := by
  intro p cfg xs ys sl
  have hprefix : (emittedU p cfg xs).get sl <+: (emittedU p cfg (xs ++ ys)).get sl := by
    rw [emittedU, emittedU, writeItems_append, Emitted.get_append]
    exact List.prefix_append _ _
  refine ⟨hprefix, hprefix.trans ?_⟩
  rw [emittedE, Emitted.get_append]
  exact List.prefix_append _ _

end Sys2Proof.Machine
end

section
/-! PROOFS. Bit-width packing (42_bitwidth.md R250 to R258): the stream of a word list is one number, the words least significant
first, and item i is its bits i b to (i + 1) b - 1. -/

namespace Sys2Proof.Machine

/-! ## The number of a byte list -/

theorem unLE_append (a c : List Byte) : unLE (a ++ c) = unLE a + 2 ^ (8 * a.length) * unLE c := by
  induction a with
  | nil => simp [unLE]
  | cons x a ih =>
    rw [List.cons_append, unLE, unLE, ih, List.length_cons, Nat.mul_add_one, Nat.pow_add]
    ring

/-- A bit of the stream is a bit of its number. -/
theorem streamBit_eq (ch : List Byte) (q : Nat) : streamBit ch q = unLE ch / 2 ^ q % 2 := by
  induction ch generalizing q with
  | nil => simp [streamBit, unLE]
  | cons x ch ih =>
    by_cases hq : q < 8
    · have hdiv : q / 8 = 0 := Nat.div_eq_of_lt hq
      obtain ⟨d, hd⟩ : ∃ d, 8 = q + (d + 1) := ⟨7 - q, by omega⟩
      have h256 : 256 = 2 ^ q * (2 ^ d * 2) := by
        rw [← Nat.pow_succ, ← Nat.pow_add, ← hd]
      have hsplit : x.toNat + 256 * unLE ch = x.toNat + 2 ^ q * (2 * (2 ^ d * unLE ch)) := by
        rw [h256]
        ring
      rw [streamBit, hdiv, Nat.mod_eq_of_lt hq, unLE, hsplit, Nat.add_mul_div_left _ _ (Nat.two_pow_pos q),
        Nat.add_mul_mod_self_left]
      rfl
    · obtain ⟨r, rfl⟩ : ∃ r, q = r + 8 := ⟨q - 8, by omega⟩
      have hstep : streamBit (x :: ch) (r + 8) = streamBit ch r := by
        simp [streamBit, show (r + 8) / 8 = r / 8 + 1 by omega]
      have hx : (x.toNat + 256 * unLE ch) / 256 = unLE ch := by
        rw [Nat.add_mul_div_left _ _ (by decide), Nat.div_eq_of_lt x.isLt, Nat.zero_add]
      rw [hstep, ih, unLE, Nat.pow_add, Nat.mul_comm (2 ^ r), ← Nat.div_div_eq_div_mul, show 2 ^ 8 = 256 from rfl, hx]

theorem streamBits_eq (ch : List Byte) (q t : Nat) : streamBits ch q t = unLE ch / 2 ^ q % 2 ^ t := by
  induction t generalizing q with
  | zero => simp [streamBits, Nat.mod_one]
  | succ t ih =>
    rw [streamBits, streamBit_eq, ih, Nat.pow_succ' (n := t), Nat.mod_mul, Nat.pow_succ, Nat.div_div_eq_div_mul]

theorem streamItem_eq (b : Nat) (ch : List Byte) (i : Nat) :
    streamItem b ch i = BitVec.ofNat 64 (unLE ch / 2 ^ (i * b) % 2 ^ b) := by
  rw [streamItem, streamBits_eq]

/-! ## The writer -/

/-- The number of a b-bit stream: the low b bits of each word, the first word lowest. -/
def packNat (b : Nat) : List U64 → Nat
  | [] => 0
  | x :: xs => x.toNat % 2 ^ b + 2 ^ b * packNat b xs

/-- One word into the accumulator: its low b bits go above the bits there. -/
theorem acc_or_toNat {b n : Nat} (hb : b ≤ 16) (hn : n + b ≤ 32) {acc : U32} (hacc : acc.toNat < 2 ^ n) (x : U64) :
    (acc ||| ((x.setWidth b).setWidth 32 <<< n)).toNat = acc.toNat + 2 ^ n * (x.toNat % 2 ^ b) := by
  have hlow : ((x.setWidth b).setWidth 32).toNat = x.toNat % 2 ^ b := by
    rw [BitVec.toNat_setWidth, BitVec.toNat_setWidth]
    exact Nat.mod_eq_of_lt ((Nat.mod_lt _ (Nat.two_pow_pos b)).trans_le (Nat.pow_le_pow_right (by decide) (by omega)))
  have hlt : 2 ^ n * (x.toNat % 2 ^ b) < 2 ^ 32 :=
    calc 2 ^ n * (x.toNat % 2 ^ b) < 2 ^ n * 2 ^ b :=
          Nat.mul_lt_mul_of_pos_left (Nat.mod_lt _ (Nat.two_pow_pos b)) (Nat.two_pow_pos n)
      _ = 2 ^ (n + b) := (Nat.pow_add _ _ _).symm
      _ ≤ 2 ^ 32 := Nat.pow_le_pow_right (by decide) hn
  rw [BitVec.toNat_or, BitVec.toNat_shiftLeft, hlow, Nat.shiftLeft_eq, Nat.mul_comm, Nat.mod_eq_of_lt hlt, Nat.lor_comm,
    Nat.mul_comm, ← Nat.shiftLeft_eq, ← Nat.shiftLeft_add_eq_or_of_lt hacc, Nat.shiftLeft_eq]
  ring

/-- R254: the flush makes as few bytes as hold the accumulator's bits. -/
theorem bwFlush_unLE_length {r : BwRegs} (hacc : r.acc.toNat < 2 ^ r.nbits) :
    unLE (bwFlush r).2 = r.acc.toNat ∧ (bwFlush r).2.length = (r.nbits + 7) / 8 := by
  obtain hz | hpos := Nat.eq_zero_or_pos r.nbits
  · rw [hz, pow_zero, Nat.lt_one_iff] at hacc
    simp [bwFlush, unLE, hacc, hz]
  · have hlt : r.acc.toNat < 2 ^ (8 * ((r.nbits + 7) / 8)) :=
      hacc.trans_le (Nat.pow_le_pow_right (by decide) (by omega))
    simp only [bwFlush, hpos, if_true, leBytes_length, unLE_leBytes_of_lt hlt, true_and]

/-- R251 to R254: the bytes of a word list and the flush are the accumulator's bits and then the words', as few bytes as hold
them. -/
theorem bwWriteWords_flush {b : Nat} (hb : b ≤ 16) (hdvd : b ∣ 32) {r : BwRegs} (hn : r.nbits < 32) (hr : b ∣ r.nbits)
    (hacc : r.acc.toNat < 2 ^ r.nbits) (xs : List U64) :
    unLE ((bwWriteWords b r xs).2 ++ (bwFlush (bwWriteWords b r xs).1).2) =
      r.acc.toNat + 2 ^ r.nbits * packNat b xs ∧
    ((bwWriteWords b r xs).2 ++ (bwFlush (bwWriteWords b r xs).1).2).length = (r.nbits + xs.length * b + 7) / 8 := by
  induction xs generalizing r with
  | nil =>
    simpa [bwWriteWords, packNat] using bwFlush_unLE_length hacc
  | cons x xs ih =>
    have hroom : r.nbits + b ≤ 32 := by
      obtain ⟨c, hc⟩ := hdvd
      obtain ⟨d, hd⟩ := hr
      have : d < c := Nat.lt_of_mul_lt_mul_left (a := b) (by omega)
      have := Nat.mul_le_mul_left b (Nat.succ_le_of_lt this)
      rw [Nat.mul_succ] at this
      omega
    have hor := acc_or_toNat hb hroom hacc x
    have hmod := Nat.mod_lt x.toNat (Nat.two_pow_pos b)
    have hlt : r.acc.toNat + 2 ^ r.nbits * (x.toNat % 2 ^ b) < 2 ^ (r.nbits + b) := by
      rw [Nat.pow_add]
      calc r.acc.toNat + 2 ^ r.nbits * (x.toNat % 2 ^ b) < 2 ^ r.nbits * (x.toNat % 2 ^ b + 1) := by
            rw [Nat.mul_add_one]
            omega
        _ ≤ 2 ^ r.nbits * 2 ^ b := Nat.mul_le_mul_left _ hmod
    simp only [bwWriteWords, bwWriteWord]
    split
    · next hfull =>
      obtain ⟨hval, hlen⟩ := ih (r := { acc := 0, nbits := 0 }) (by simp) (dvd_zero b) (by simp)
      have h32 : 2 ^ (8 * 4) = 2 ^ r.nbits * 2 ^ b := by rw [← Nat.pow_add, hfull]
      rw [List.append_assoc, unLE_append, List.length_append, hval, hlen, leBytes_length, hor,
        unLE_leBytes_of_lt (by rwa [h32, ← Nat.pow_add]), h32, packNat, List.length_cons, Nat.add_one_mul]
      constructor
      · simp only [show (0 : U32).toNat = 0 from rfl, pow_zero]
        ring
      · simp only
        omega
    · next hpart =>
      obtain ⟨hval, hlen⟩ := ih (r := { acc := r.acc ||| ((x.setWidth b).setWidth 32 <<< r.nbits), nbits := r.nbits + b })
        (by simp only; omega) (Nat.dvd_add hr (dvd_refl b)) (by simpa only [hor] using hlt)
      rw [List.nil_append, hval, hlen, hor, packNat, List.length_cons, Nat.add_one_mul]
      constructor
      · simp only [Nat.pow_add]
        ring
      · simp only
        omega

theorem bwEncode_unLE_length {b : Nat} (hb : b ≤ 16) (hdvd : b ∣ 32) (xs : List U64) :
    unLE (bwEncode b xs) = packNat b xs ∧ (bwEncode b xs).length = (xs.length * b + 7) / 8 := by
  have h := bwWriteWords_flush hb hdvd (r := { acc := 0, nbits := 0 }) (by simp) (dvd_zero b) (by simp) xs
  simpa [bwEncode] using h

/-- The bits of word i, and 0 past the last word. -/
theorem packNat_item (b : Nat) (xs : List U64) (i : Nat) :
    packNat b xs / 2 ^ (i * b) % 2 ^ b = (xs.getD i 0).toNat % 2 ^ b := by
  induction xs generalizing i with
  | nil => simp [packNat]
  | cons x xs ih =>
    cases i with
    | zero => simp [packNat]
    | succ i =>
      have hlow : x.toNat % 2 ^ b / 2 ^ b = 0 := Nat.div_eq_of_lt (Nat.mod_lt _ (Nat.two_pow_pos b))
      rw [packNat, Nat.add_one_mul, Nat.add_comm (i * b), Nat.pow_add, ← Nat.div_div_eq_div_mul,
        Nat.add_mul_div_left _ _ (Nat.two_pow_pos b), hlow, Nat.zero_add, ih, List.getD_cons_succ]

theorem ofNat_mod_eq_trunc (b : Nat) (x : U64) : BitVec.ofNat 64 (x.toNat % 2 ^ b) = trunc b x := by
  apply BitVec.eq_of_toNat_eq
  simp [trunc]

theorem streamItem_bwEncode {b : Nat} (hb : b ≤ 16) (hdvd : b ∣ 32) (xs : List U64) (i : Nat) :
    streamItem b (bwEncode b xs) i = trunc b (xs.getD i 0) := by
  rw [streamItem_eq, (bwEncode_unLE_length hb hdvd xs).1, packNat_item, ofNat_mod_eq_trunc]

/-! ## The reader -/

/-- R257: from item i on, the reader returns the items that the stream has, and then EOS. -/
theorem readsAll_bwReadWord {b : Nat} (hb : 0 < b) {ch : List Byte} (hch : 8 * ch.length < 2 ^ 64) (n i : Nat)
    (hn : i + n = 8 * ch.length / b) {k : Work} (hk : k.bwRidx.toNat = i) :
    ReadsAll (bwReadWord b ch) k ((List.range' i n).map (streamItem b ch)) := by
  have hle : 8 * ch.length / b ≤ 8 * ch.length := Nat.div_le_self _ _
  induction n generalizing i k with
  | zero =>
    have hend : 8 * ch.length < (k.bwRidx.toNat + 1) * b := by
      rw [hk, ← Nat.div_lt_iff_lt_mul hb]
      omega
    exact readsAll_nil (k' := k) (if_pos hend)
  | succ n ih =>
    have hmore : ¬8 * ch.length < (k.bwRidx.toNat + 1) * b := by
      rw [hk, ← Nat.div_lt_iff_lt_mul hb]
      omega
    have hread : bwReadWord b ch k = (.value (streamItem b ch i), { k with bwRidx := k.bwRidx + 1 }) := by
      rw [bwReadWord, if_neg hmore, hk]
    refine readsAll_cons hread (ih (i + 1) (by omega) ?_)
    show (k.bwRidx + 1).toNat = i + 1
    rw [BitVec.toNat_add, hk]
    exact Nat.mod_eq_of_lt (by change i + 1 < 2 ^ 64; omega)

theorem width_of_mem {b : Nat} (hb : b ∈ [1, 2, 4, 8, 16]) : 0 < b ∧ b ≤ 16 ∧ b ∣ 32 := by
  revert b
  decide

/-- Settles O23: `bwEncode_unLE_length` and `streamItem_bwEncode` for the writer, `readsAll_bwReadWord` for the reader. -/
theorem bitWidthPacking : Obligations.BitWidthPacking := by
  intro b hmem
  obtain ⟨hpos, hb, hdvd⟩ := width_of_mem hmem
  refine ⟨fun xs => ⟨(bwEncode_unLE_length hb hdvd xs).2, fun i hi => ?_, fun i hi _ => ?_⟩, fun ch k hch hk => ?_⟩
  · rw [streamItem_bwEncode hb hdvd, List.getD_eq_getElem _ _ hi]
  · rw [streamItem_bwEncode hb hdvd, List.getD_eq_default _ _ hi]
    simp [trunc]
  · have h := readsAll_bwReadWord hpos hch (8 * ch.length / b) 0 (Nat.zero_add _) (k := k) (by rw [hk]; rfl)
    rw [← List.range_eq_range'] at h
    simpa only [ReadsAll, List.length_map, List.length_range] using h

end Sys2Proof.Machine
end

section
/-! PROOFS. The stream of a numeric pipeline is the composition of its stages' whole-sequence encodings (44_pipeline.md R291,
R299): words pass a stack of stages and the base piece by piece or at once alike. -/

namespace Sys2Proof.Machine

/-! ## A stack of stages -/

/-- Words pushed before the commit flush, and words that the flush brings from above, pass the stack as one list. -/
theorem pushWords_flushStages (w h : Nat) (sts : List StageRegs) (as bs : List U64) :
    (pushWords w h sts as).2 ++ (flushStages w h (pushWords w h sts as).1 bs).2 = (flushStages w h sts (as ++ bs)).2 := by
  induction sts generalizing as bs with
  | nil => rfl
  | cons st rest ih => simp only [pushWords, flushStages, stageWrites_append, ih, List.append_assoc]

/-- Each stage's whole output, its commit flush included, is the next one's input. -/
theorem flushStages_reset (w h : Nat) (ts : List Xform) (ws : List U64) :
    (flushStages w h (ts.map StageRegs.reset) ws).2 = stackEncode w h ts ws := by
  induction ts generalizing ws with
  | nil => rfl
  | cons t ts ih => exact ih (stageEncode w h t ws)

theorem pushWords_append (w h : Nat) (sts : List StageRegs) (as bs : List U64) :
    pushWords w h sts (as ++ bs) =
      ((pushWords w h (pushWords w h sts as).1 bs).1,
        (pushWords w h sts as).2 ++ (pushWords w h (pushWords w h sts as).1 bs).2) := by
  induction sts generalizing as bs with
  | nil => rfl
  | cons st rest ih => simp only [pushWords, stageWrites_append, ih]

theorem pushWords_nil (w h : Nat) (sts : List StageRegs) : pushWords w h sts [] = (sts, []) := by
  induction sts with
  | nil => rfl
  | cons st rest ih => simp only [pushWords, stageWrites, ih]

/-! ## The base -/

theorem fbWriteWords_append_eq (v : Variant) (r : FbwRegs) (as bs : List U64) :
    fbWriteWords v r (as ++ bs) =
      ((fbWriteWords v (fbWriteWords v r as).1 bs).1,
        (fbWriteWords v r as).2 ++ (fbWriteWords v (fbWriteWords v r as).1 bs).2) := by
  induction as generalizing r with
  | nil => rfl
  | cons a as ih => simp only [List.cons_append, fbWriteWords, ih, List.append_assoc]

theorem bwWriteWords_append (b : Nat) (r : BwRegs) (as bs : List U64) :
    bwWriteWords b r (as ++ bs) =
      ((bwWriteWords b (bwWriteWords b r as).1 bs).1,
        (bwWriteWords b r as).2 ++ (bwWriteWords b (bwWriteWords b r as).1 bs).2) := by
  induction as generalizing r with
  | nil => rfl
  | cons a as ih => simp only [List.cons_append, bwWriteWords, ih, List.append_assoc]

theorem baseWrite_append (b : Base) (k : Work) (as bs : List U64) :
    baseWrite b k (as ++ bs) =
      ((baseWrite b (baseWrite b k as).1 bs).1, (baseWrite b k as).2 ++ (baseWrite b (baseWrite b k as).1 bs).2) := by
  unfold baseWrite
  cases b.variant? with
  | some v => simp only [fbWriteWords_append_eq]
  | none => simp only [bwWriteWords_append]

/-- The base does not touch the registers of the stages, nor they its own. -/
theorem baseWrite_xf (b : Base) (k : Work) (ws : List U64) (xf : List StageRegs) :
    baseWrite b { k with xf := xf } ws = ({ (baseWrite b k ws).1 with xf := xf }, (baseWrite b k ws).2) := by
  unfold baseWrite
  cases b.variant? <;> rfl

theorem baseWrite_nil (b : Base) (k : Work) : baseWrite b k [] = (k, []) := by
  unfold baseWrite
  cases b.variant? <;> rfl

theorem baseFlush_xf (b : Base) (k : Work) (xf : List StageRegs) :
    baseFlush b { k with xf := xf } = ({ (baseFlush b k).1 with xf := xf }, (baseFlush b k).2) := by
  cases b <;> rfl

/-- The bytes of the base from reset through a word list and its commit flush. -/
theorem baseWrite_flush_reset {b : Base} (hs : b.strings = false) (cfg : Cfg) (ws : List U64) :
    (baseWrite b (Work.reset cfg) ws).2 ++ (baseFlush b (baseWrite b (Work.reset cfg) ws).1).2.data = baseEncode b ws ∧
    (baseFlush b (baseWrite b (Work.reset cfg) ws).1).2.lens = [] := by
  cases b with
  | vari | vard => cases hs
  | _ => exact ⟨rfl, rfl⟩

/-! ## Items -/

theorem itemWords_cons (b : Base) (v : U64) (xs : List Item) :
    itemWords b (.num v :: xs) = trunc b.width v :: itemWords b xs := rfl

theorem exists_num_of_fits {b : Base} (hs : b.strings = false) {x : Item} (h : x.fits b = true) : ∃ v, x = .num v := by
  cases x with
  | num v => exact ⟨v, rfl⟩
  | str s => simp [Item.fits, hs] at h

/-- R291: the items of a numeric pipeline go through the stages and the base as one word list. -/
theorem writeItems_numeric (p : Params) (cfg : Cfg) (hs : cfg.base.strings = false) (k : Work) (xs : List Item)
    (hfits : ∀ x ∈ xs, x.fits cfg.base = true) :
    writeItems p cfg k xs =
      ({ (baseWrite cfg.base k (pushWords cfg.base.width p.dfcmBits k.xf (itemWords cfg.base xs)).2).1 with
          xf := (pushWords cfg.base.width p.dfcmBits k.xf (itemWords cfg.base xs)).1 },
        { data := (baseWrite cfg.base k (pushWords cfg.base.width p.dfcmBits k.xf (itemWords cfg.base xs)).2).2
          lens := [] }) := by
  induction xs generalizing k with
  | nil => simp [writeItems, itemWords, pushWords_nil, baseWrite_nil, Emitted.none]
  | cons x xs ih =>
    obtain ⟨v, rfl⟩ := exists_num_of_fits hs (hfits x List.mem_cons_self)
    rw [writeItems, ih _ fun y hy => hfits y (List.mem_cons_of_mem _ hy), itemWords_cons,
      ← List.singleton_append, pushWords_append, baseWrite_append]
    simp only [writeItem, baseWrite_xf, Emitted.append, List.append_nil]

/-- Settles O25: the items as one word list (`writeItems_numeric`), then the flush of the stages and of the base. -/
theorem streamIsTheCompositionOfItsStages : Obligations.StreamIsTheCompositionOfItsStages := by
  intro p cfg xs hs hfits
  obtain ⟨hdata, hlens⟩ := baseWrite_flush_reset hs cfg
    (stackEncode cfg.base.width p.dfcmBits cfg.xforms (itemWords cfg.base xs))
  have hflush := pushWords_flushStages cfg.base.width p.dfcmBits (cfg.xforms.map StageRegs.reset)
    (itemWords cfg.base xs) []
  rw [List.append_nil, flushStages_reset] at hflush
  have hxf : (Work.reset cfg).xf = cfg.xforms.map StageRegs.reset := rfl
  rw [← hflush, baseWrite_append] at hdata hlens
  simp only [emittedE, emittedU, writeItems_numeric p cfg hs _ xs hfits, commitFlush, stagesFlush, hs, Bool.false_eq_true,
    if_false, baseWrite_xf, baseFlush_xf, Emitted.append, hxf, List.nil_append]
  rw [← hflush]
  exact ⟨(List.append_assoc _ _ _).symm.trans hdata, hlens⟩

end Sys2Proof.Machine
end

section
/-! PROOFS. The pipeline round trip (44_pipeline.md R338): a word step or item step that returns the values of a list is lifted
through the stages, the instance's registers and the items, up to READ of the whole stream. -/

namespace Sys2Proof.Machine

/-! ## Steps that return the values of a list -/

/-- The step returns the values of the list in order, and then EOS if `toEnd` says so. -/
def Reads {α κ : Type} (toEnd : Bool) (pull : κ → Got α × κ) : List α → κ → Prop
  | [], k => toEnd = true → ∃ k', pull k = (.eos, k')
  | x :: xs, k => ∃ k', pull k = (.value x, k') ∧ Reads toEnd pull xs k'

section
variable {α β κ κ' : Type} {toEnd : Bool} {pull : κ → Got α × κ}

/-- A step on the states of another step returns the same values. -/
theorem Reads.map {pull' : κ' → Got α × κ'} (φ : κ → κ') (P : κ → Prop) (hP : ∀ k, P k → P (pull k).2)
    (hφ : ∀ k, P k → pull' (φ k) = ((pull k).1, φ (pull k).2)) {xs : List α} {k : κ} (hk : P k)
    (h : Reads toEnd pull xs k) : Reads toEnd pull' xs (φ k) := by
  induction xs generalizing k with
  | nil =>
    intro he
    obtain ⟨k', heos⟩ := h he
    exact ⟨φ k', by rw [hφ k hk, heos]⟩
  | cons x xs ih =>
    obtain ⟨k', hvalue, hrest⟩ := h
    refine ⟨φ k', by rw [hφ k hk, hvalue], ih ?_ hrest⟩
    simpa only [hvalue] using hP k hk

/-- A step that answers the image of each value. -/
theorem Reads.mapValue {pull' : κ → Got β × κ} (f : Got α → Got β) (g : α → β) (hvalue : ∀ x, f (.value x) = .value (g x))
    (heos : f .eos = .eos) (hpull : ∀ k, pull' k = (f (pull k).1, (pull k).2)) {xs : List α} {k : κ}
    (h : Reads toEnd pull xs k) : Reads toEnd pull' (xs.map g) k := by
  induction xs generalizing k with
  | nil =>
    intro he
    obtain ⟨k', hk'⟩ := h he
    exact ⟨k', by rw [hpull, hk', heos]⟩
  | cons x xs ih =>
    obtain ⟨k', hk', hrest⟩ := h
    exact ⟨k', by rw [hpull, hk', hvalue], ih hrest⟩

theorem Reads.take (h : Reads toEnd pull xs k) (n : Nat) : Reads false pull (xs.take n) k := by
  induction xs generalizing k n with
  | nil =>
    rw [List.take_nil]
    exact nofun
  | cons x xs ih =>
    cases n with
    | zero => exact nofun
    | succ n =>
      obtain ⟨k', hk', hrest⟩ := h
      exact ⟨k', hk', ih hrest n⟩

theorem ReadsAll.reads {pull : κ → Got U64 × κ} {xs : List U64} {k : κ} (h : ReadsAll pull k xs) (toEnd : Bool) :
    Reads toEnd pull xs k := by
  induction xs generalizing k with
  | nil =>
    intro _
    obtain ⟨g, k', hg⟩ : ∃ g k', pull k = (g, k') := ⟨_, _, rfl⟩
    obtain ⟨hwords, heos⟩ := h
    cases g with
    | value x => simp [pullMany, hg] at hwords
    | eos => exact ⟨k', hg⟩
    | corrupt sl off => simp [pullMany, hg] at heos
  | cons x xs ih =>
    obtain ⟨g, k', hg⟩ : ∃ g k', pull k = (g, k') := ⟨_, _, rfl⟩
    obtain ⟨hwords, heos⟩ := h
    cases g with
    | value y =>
      rw [List.length_cons, pullMany_succ_of_value hg] at hwords heos
      simp only [List.cons.injEq] at hwords
      obtain ⟨rfl, hwords⟩ := hwords
      exact ⟨k', hg, ih ⟨hwords, heos⟩⟩
    | eos => simp [pullMany, hg] at hwords
    | corrupt sl off => simp [pullMany, hg] at hwords

end

/-! ## A stage over a step, R292 -/

section
variable {κ κ' : Type} {w h : Nat} {toEnd : Bool} {pull : κ → Got U64 × κ} {lone : κ → U64}

/-- A word list is at its end where a stage over it answers EOS. -/
theorem eq_nil_of_stageOverList_eos {st : StageRegs} {ws : List U64} {q : StageRegs × List U64}
    (he : stageOverList w h (st, ws) = (.eos, q)) : ws = [] := by
  cases ws with
  | nil => rfl
  | cons e ws =>
    cases st with
    | xor prev => simp [stageOverList, stageRead, pullList] at he
    | dfcm r => simp [stageOverList, stageRead, pullList] at he
    | dd r =>
      by_cases hfp : r.fp = 0
      · cases ws <;> simp [stageOverList, stageRead, pullList, hfp] at he
      · simp [stageOverList, stageRead, pullList, hfp] at he

/-- A stage answers EOS where the step below does. -/
theorem stageRead_eos {k k' : κ} (hk : pull k = (.eos, k')) (st : StageRegs) :
    stageRead w h pull lone st k = (.eos, st, k') := by
  cases st with
  | xor prev => simp [stageRead, hk]
  | dfcm r => simp [stageRead, hk]
  | dd r => by_cases hfp : r.fp = 0 <;> simp [stageRead, hk, hfp]

/-- A stage that returns a word over a list returns it over any step that returns the list's words. -/
theorem stageRead_of_list {st st' : StageRegs} {ws ws' : List U64} {x : U64} {k : κ}
    (hlist : stageOverList w h (st, ws) = (.value x, st', ws')) (hk : Reads toEnd pull ws k) :
    ∃ k', stageRead w h pull lone st k = (.value x, st', k') ∧ Reads toEnd pull ws' k' := by
  cases ws with
  | nil =>
    rw [stageOverList_nil] at hlist
    cases hlist
  | cons e ws =>
    obtain ⟨k', hk', hrest⟩ := hk
    cases st with
    | xor prev =>
      simp only [stageOverList, stageRead, pullList] at hlist
      cases hlist
      exact ⟨k', by simp only [stageRead, hk'], hrest⟩
    | dfcm r =>
      simp only [stageOverList, stageRead, pullList] at hlist
      cases hlist
      exact ⟨k', by simp only [stageRead, hk'], hrest⟩
    | dd r =>
      by_cases hfp : r.fp = 0
      · cases ws with
        | nil => simp [stageOverList, stageRead, pullList, hfp] at hlist
        | cons d ws =>
          obtain ⟨k'', hk'', hrest⟩ := hrest
          rw [stageOverList_dd_of_fp_eq_zero w h hfp] at hlist
          cases hlist
          exact ⟨k'', by simp only [stageRead, hfp, if_true, hk', hk''], hrest⟩
      · rw [stageOverList_dd_of_fp_ne_zero w h hfp] at hlist
        cases hlist
        exact ⟨k', by simp only [stageRead, hfp, if_false, hk'], hrest⟩

/-- What a stage reads from a word list, it reads from a step that returns that list. -/
theorem Reads.stage {xs : List U64} {st : StageRegs} {ws : List U64} {k : κ}
    (hlist : Reads true (stageOverList w h) xs (st, ws)) (hk : Reads toEnd pull ws k) :
    Reads toEnd (fun q : StageRegs × κ => stageRead w h pull lone q.1 q.2) xs (st, k) := by
  induction xs generalizing st ws k with
  | nil =>
    obtain ⟨q, hq⟩ := hlist rfl
    obtain rfl := eq_nil_of_stageOverList_eos hq
    intro he
    obtain ⟨k', hk'⟩ := hk he
    exact ⟨(st, k'), stageRead_eos hk' st⟩
  | cons x xs ih =>
    obtain ⟨⟨st', ws'⟩, hq, hrest⟩ := hlist
    obtain ⟨k', hk', hws'⟩ := stageRead_of_list hq hk
    exact ⟨(st', k'), hk', ih hrest hws'⟩

/-- A stage over a step whose states are the images of another's. -/
theorem stageRead_map {pull' : κ' → Got U64 × κ'} {lone' : κ' → U64} (φ : κ → κ')
    (hpull : ∀ k, pull' (φ k) = ((pull k).1, φ (pull k).2)) (hlone : ∀ k, lone' (φ k) = lone k) (st : StageRegs) (k : κ) :
    stageRead w h pull' lone' st (φ k) =
      ((stageRead w h pull lone st k).1, (stageRead w h pull lone st k).2.1, φ (stageRead w h pull lone st k).2.2) := by
  obtain ⟨g, k1, hg⟩ : ∃ g k1, pull k = (g, k1) := ⟨_, _, rfl⟩
  have hg' : pull' (φ k) = (g, φ k1) := by rw [hpull, hg]
  cases st with
  | xor prev => cases g <;> simp only [stageRead, hg, hg']
  | dfcm r => cases g <;> simp only [stageRead, hg, hg']
  | dd r =>
    by_cases hfp : r.fp = 0
    · cases g with
      | value m =>
        obtain ⟨e, k2, he⟩ : ∃ e k2, pull k1 = (e, k2) := ⟨_, _, rfl⟩
        have he' : pull' (φ k1) = (e, φ k2) := by rw [hpull, he]
        cases e <;> simp only [stageRead, hfp, if_true, hg, hg', he, he', hlone]
      | eos => simp only [stageRead, hfp, if_true, hg, hg']
      | corrupt sl off => simp only [stageRead, hfp, if_true, hg, hg']
    · cases g <;> simp only [stageRead, hfp, if_false, hg, hg']

/-! ## The stack -/

theorem readsAll_stageEncode {t : Xform} (hw : w ≤ 64) {xs : List U64} (hxs : WordsWide w xs) :
    ReadsAll (stageOverList w h) (StageRegs.reset t, stageEncode w h t xs) xs := by
  cases t with
  | dd => exact readsAll_stageEncode_dd hw hxs
  | xor => exact readsAll_stageEncode_of_ne_dd w h (t := .xor) (by decide) xs
  | dfcm => exact readsAll_stageEncode_of_ne_dd w h (t := .dfcm) (by decide) xs

theorem stageEncode_wide {t : Xform} {xs : List U64} (hxs : WordsWide w xs) : WordsWide w (stageEncode w h t xs) := by
  obtain ⟨hst, hws⟩ := stageWrites_wide (h := h) (stageWide_reset w t) hxs
  exact hws.append (stageFlush_wide hst).2

theorem stackEncode_wide {ts : List Xform} {ws : List U64} (hws : WordsWide w ws) :
    WordsWide w (stackEncode w h ts ws) := by
  induction ts generalizing ws with
  | nil => exact hws
  | cons t ts ih => exact ih (stageEncode_wide hws)

/-- A stack from reset over a base that returns the stack's encoding of a word list returns the list. -/
theorem reads_pullStage {base : Work → Got U64 × Work} (hw : w ≤ 64) (ts : List Xform) {ws : List U64}
    (hws : WordsWide w ws) {k : Work} (hk : Reads toEnd base (stackEncode w h ts ws) k) :
    Reads toEnd (pullStage w h base ts.length) ws (ts.map StageRegs.reset, k) := by
  induction ts generalizing ws with
  | nil =>
    exact Reads.map (pull' := pullStage w h base 0) (fun k => ([], k)) (fun _ => True) (fun _ _ => trivial)
      (fun _ _ => rfl) trivial hk
  | cons t ts ih =>
    have hbelow := ih (stageEncode_wide (h := h) (t := t) hws) hk
    have hstage := Reads.stage (lone := fun q => q.2.cur.get .data) ((readsAll_stageEncode hw hws).reads true) hbelow
    exact Reads.map (pull' := pullStage w h base (ts.length + 1)) (fun q => (q.1 :: q.2.1, q.2.2)) (fun _ => True)
      (fun _ _ => trivial) (fun _ _ => rfl) trivial hstage

end

/-! ## The instance's registers -/

theorem applyUnit_xf (k : Work) (sl : Slot) (len : Nat) (ws : UnitWords) (xf : List StageRegs) :
    applyUnit { k with xf := xf } sl len ws = ((applyUnit k sl len ws).1, { (applyUnit k sl len ws).2 with xf := xf }) := by
  cases ws <;> rfl

/-- The word step of a base does not look at the registers of the stages. -/
theorem fbReadWord_xf (v : Variant) (sl : Slot) (ch : List Byte) (k : Work) (xf : List StageRegs) :
    fbReadWord v sl ch { k with xf := xf } =
      ((fbReadWord v sl ch k).1, { (fbReadWord v sl ch k).2 with xf := xf }) := by
  unfold fbReadWord
  simp only
  split_ifs
  · rfl
  · rfl
  · split <;> simp only [applyUnit_xf]

theorem bwReadWord_xf (b : Nat) (ch : List Byte) (k : Work) (xf : List StageRegs) :
    bwReadWord b ch { k with xf := xf } = ((bwReadWord b ch k).1, { (bwReadWord b ch k).2 with xf := xf }) := by
  unfold bwReadWord
  simp only
  split_ifs <;> rfl

theorem baseRead_xf (b : Base) (ch : List Byte) (k : Work) (xf : List StageRegs) :
    baseRead b ch { k with xf := xf } = ((baseRead b ch k).1, { (baseRead b ch k).2 with xf := xf }) := by
  unfold baseRead
  cases b.variant? with
  | some v => exact fbReadWord_xf v .data ch k xf
  | none => exact bwReadWord_xf b.width ch k xf

theorem pullStage_xf {w h : Nat} {base : Work → Got U64 × Work} (xf : List StageRegs)
    (hbase : ∀ k, base { k with xf := xf } = ((base k).1, { (base k).2 with xf := xf })) (n : Nat)
    (q : List StageRegs × Work) :
    pullStage w h base n (q.1, { q.2 with xf := xf }) =
      ((pullStage w h base n q).1, (pullStage w h base n q).2.1, { (pullStage w h base n q).2.2 with xf := xf }) := by
  induction n generalizing q with
  | zero =>
    simp only [pullStage, hbase]
  | succ n ih =>
    obtain ⟨sts, k⟩ := q
    cases sts with
    | nil => simp only [pullStage, hbase]
    | cons st rest =>
      have hmap := stageRead_map (w := w) (h := h) (lone := fun q : List StageRegs × Work => q.2.cur.get .data)
        (lone' := fun q => q.2.cur.get .data) (fun q => (q.1, { q.2 with xf := xf })) ih (fun _ => rfl) st (rest, k)
      simp only [pullStage]
      rw [hmap]

/-- The words of a numeric pipeline from reset, on a channel from which the base returns the stack's encoding of them. -/
theorem reads_pullWord (p : Params) (cfg : Cfg) {toEnd : Bool} {ch : List Byte} {ws : List U64} (hw : cfg.base.width ≤ 64)
    (hws : WordsWide cfg.base.width ws)
    (hk : Reads toEnd (baseRead cfg.base ch) (stackEncode cfg.base.width p.dfcmBits cfg.xforms ws) (Work.reset cfg)) :
    Reads toEnd (pullWord p cfg.base ch) ws (Work.reset cfg) := by
  have hstack := reads_pullStage hw cfg.xforms hws hk
  refine Reads.map (pull' := pullWord p cfg.base ch) (fun q => { q.2 with xf := q.1 })
    (fun q => q.1.all (stageOk p.dfcmBits) = true ∧ q.1.length = cfg.xforms.length) ?_ ?_ ?_ hstack
  · rintro ⟨sts, k⟩ ⟨hok, hlen⟩
    obtain ⟨-, hok', hkind⟩ := pullStage_ok (fun _ => True) cfg.base.width p.dfcmBits (baseRead cfg.base ch)
      (fun _ _ => trivial) cfg.xforms.length sts k trivial hok
    refine ⟨hok', ?_⟩
    have := congrArg List.length hkind
    simp only [List.length_map] at this
    exact this.trans hlen
  · rintro ⟨sts, k⟩ ⟨-, hlen⟩
    simp only at hlen
    have := pullStage_xf (w := cfg.base.width) (h := p.dfcmBits) sts (fun k => baseRead_xf cfg.base ch k sts)
      cfg.xforms.length (sts, k)
    simp only [pullWord, hlen, this]
  · simp [stageOk_reset]

/-! ## The bases -/

theorem Base.width_le (b : Base) : b.width ≤ 64 := by cases b <;> decide

theorem width_mem_of_variant? {b : Base} (hs : b.strings = false) (hv : b.variant? = none) :
    b.width ∈ [1, 2, 4, 8, 16] := by
  cases b <;> simp_all [Base.strings, Base.variant?, Base.width]

/-- The stream of a bit-width base begins with the words, whatever padding items follow (42_bitwidth.md R258). -/
theorem streamItems_take {b : Nat} (hb : b ≤ 16) (hdvd : b ∣ 32) {ws : List U64} (hws : WordsWide b ws) {n : Nat}
    (hn : ws.length ≤ n) : ((List.range' 0 n).map (streamItem b (bwEncode b ws))).take ws.length = ws := by
  refine List.ext_getElem (by simpa using hn) fun i hi hi' => ?_
  rw [List.getElem_take, List.getElem_map, List.getElem_range', streamItem_bwEncode hb hdvd, Nat.zero_add, Nat.one_mul,
    List.getD_eq_getElem _ _ hi']
  exact trunc_eq_self (hws _ (List.getElem_mem hi'))

/-- The base of a numeric pipeline returns the words it encoded; up to its end where it is a flag-byte base. -/
theorem reads_baseRead {b : Base} (hs : b.strings = false) (cfg : Cfg) {ws : List U64} (hws : WordsWide b.width ws)
    (hlen : 8 * (baseEncode b ws).length < 2 ^ 64) {toEnd : Bool} (hend : toEnd = true → b.variant?.isSome = true) :
    Reads toEnd (baseRead b (baseEncode b ws)) ws (Work.reset cfg) := by
  unfold baseRead baseEncode at *
  cases hv : b.variant? with
  | some v =>
    simp only [hv] at hlen ⊢
    rw [width_of_variant? hv] at hws
    rw [fbEncode_eq_enc] at hlen ⊢
    exact (decodes_enc (by omega) ws hws (Work.reset cfg) rfl rfl).reads toEnd
  | none =>
    simp only [hv] at hlen ⊢
    obtain rfl : toEnd = false := by
      rw [hv] at hend
      simpa using hend
    obtain ⟨hpos, hb, hdvd⟩ := width_of_mem (width_mem_of_variant? hs hv)
    have hall := readsAll_bwReadWord hpos hlen (8 * (bwEncode b.width ws).length / b.width) 0 (Nat.zero_add _)
      (k := Work.reset cfg) rfl
    have hn : ws.length ≤ 8 * (bwEncode b.width ws).length / b.width := by
      rw [Nat.le_div_iff_mul_le hpos, (bwEncode_unLE_length hb hdvd ws).2]
      omega
    have hreads := (hall.reads false).take ws.length
    rwa [streamItems_take hb hdvd hws hn] at hreads

/-! ## Byte strings, 43_varlen.md R273, R279 -/

/-- VARI: one item of the stream. -/
theorem variReadItem_variBytes {ch rest s : List Byte} {k : Work} (hs : s.length < 2 ^ 64)
    (h : ch.drop (k.cur.get .data).toNat = variBytes s ++ rest) :
    variReadItem ch k =
      (.value s,
        { k with cur := k.cur.set .data (BitVec.ofNat 64 ((k.cur.get .data).toNat + (variBytes s).length)) }) := by
  have hword : (BitVec.ofNat 64 s.length).toNat = s.length := by simpa using hs
  obtain ⟨hvalue, hlength, hnib⟩ := nibOf_nibbleFor (v := .fb64) (x := BitVec.ofNat 64 s.length) (BitVec.isLt _)
  generalize hp : nibOf .fb64 (BitVec.ofNat 64 s.length) = p at hvalue hlength hnib
  have hbytes : variBytes s = flagByte p.1 0xF#4 :: (p.2 ++ s) := by simp [variBytes, singleUnit, hp]
  rw [hbytes, List.cons_append, List.append_assoc] at h
  generalize hoff : (k.cur.get .data).toNat = off at h ⊢
  have hlen := length_of_drop_eq_cons h
  rw [List.length_append, List.length_append] at hlen
  have hdata : readBytes ch (off + 1) p.2.length = p.2 := readBytes_of_drop (pre := [flagByte p.1 0xF#4]) h
  have hitem : readBytes ch (off + 1 + p.2.length) s.length = s := by
    have := readBytes_of_drop (pre := flagByte p.1 0xF#4 :: p.2) (a := s) (rest := rest) (by simpa using h)
    simpa [Nat.add_assoc, Nat.add_comm 1] using this
  have hne : ¬(p.1 = 0xF#4 ∨ (0xF#4 : BitVec 4) ≠ 0xF#4) := by simpa using hnib.2 rfl
  have hroom1 : ¬ch.length < off + 1 + p.2.length := by omega
  have hroom2 : ¬ch.length < off + 1 + p.2.length + s.length := by omega
  simp only [variReadItem, hoff, getElem?_of_drop_eq_cons h, hiNib_flagByte, loNib_flagByte, hne, if_false, ← hlength,
    hroom1, hdata, hvalue, hword, hroom2, hitem, hbytes, List.length_cons, List.length_append]
  simp only [Nat.add_assoc, Nat.add_comm 1]

theorem reads_variReadItem {ch : List Byte} (hch : ch.length < 2 ^ 64) {items : List (List Byte)}
    (hitems : ∀ s ∈ items, s.length < 2 ^ 64) {k : Work}
    (h : ch.drop (k.cur.get .data).toNat = items.flatMap variBytes) : Reads true (variReadItem ch) items k := by
  induction items generalizing k with
  | nil =>
    have hend : ch[(k.cur.get .data).toNat]? = none := by
      rw [List.getElem?_eq_none_iff]
      simpa [List.drop_eq_nil_iff] using h
    exact fun _ => ⟨k, by simp only [variReadItem, hend]⟩
  | cons s items ih =>
    rw [List.flatMap_cons] at h
    refine ⟨_, variReadItem_variBytes (hitems s List.mem_cons_self) h,
      ih (fun t ht => hitems t (List.mem_cons_of_mem _ ht)) ?_⟩
    exact drop_after_unit hch h

theorem fbReadWord_curData (v : Variant) (ch : List Byte) (k : Work) (d : U64) :
    fbReadWord v .lens ch { k with cur := k.cur.set .data d } =
      ((fbReadWord v .lens ch k).1,
        { (fbReadWord v .lens ch k).2 with cur := (fbReadWord v .lens ch k).2.cur.set .data d }) := by
  unfold fbReadWord
  simp only [PerSlot.set_data, PerSlot.get_lens]
  split_ifs
  · rfl
  · rfl
  · split
    · rfl
    · rfl
    · next ws _ => cases ws <;> rfl

theorem fbReadWord_keeps_curData (v : Variant) (ch : List Byte) (k : Work) :
    (fbReadWord v .lens ch k).2.cur.get .data = k.cur.get .data :=
  congrArg (fun r : Got U64 × Work => r.2.cur.get .data) (fbReadWord_curData v ch k (k.cur.get .data))

/-- VARD: the lengths of the length channel cut the payload channel into the items. -/
theorem reads_vardReadItem {chs : PerSlot (List Byte)} (hdata : chs.data.length < 2 ^ 64) {items : List (List Byte)}
    (hitems : ∀ s ∈ items, s.length < 2 ^ 64) {k : Work}
    (hlens : Reads true (fbReadWord .fb64lsb .lens chs.lens) (lengthWords items) k)
    (hcur : (k.cur.get .data).toNat ≤ chs.data.length)
    (h : chs.data.drop (k.cur.get .data).toNat = items.flatten) : Reads true (vardReadItem chs) items k := by
  induction items generalizing k with
  | nil =>
    obtain ⟨k', hk'⟩ := hlens rfl
    exact fun _ => ⟨k', by simp only [vardReadItem, hk']⟩
  | cons s items ih =>
    obtain ⟨k', hk', hrest⟩ := hlens
    have hkeep : k'.cur.get .data = k.cur.get .data := by
      have := fbReadWord_keeps_curData .fb64lsb chs.lens k
      rwa [hk'] at this
    have hword : (BitVec.ofNat 64 s.length).toNat = s.length := by simpa using hitems s List.mem_cons_self
    rw [List.flatten_cons] at h
    have hlen := congrArg List.length h
    rw [List.length_drop, List.length_append] at hlen
    have hroom : (k.cur.get .data).toNat + s.length ≤ chs.data.length := by omega
    have hnext : (BitVec.ofNat 64 ((k.cur.get .data).toNat + s.length)).toNat = (k.cur.get .data).toNat + s.length := by
      rw [BitVec.toNat_ofNat, Nat.mod_eq_of_lt (by omega)]
    have hitem : readBytes chs.data (k.cur.get .data).toNat s.length = s := readBytes_of_drop (pre := []) h
    refine ⟨{ k' with cur := k'.cur.set .data (BitVec.ofNat 64 ((k.cur.get .data).toNat + s.length)) },
      by simp only [vardReadItem, hk', hkeep, hword, hroom.not_gt, if_false, hitem],
      ih (fun t ht => hitems t (List.mem_cons_of_mem _ ht)) ?_ (hnext.trans_le hroom) (drop_after_unit hdata h)⟩
    exact Reads.map (pull' := fbReadWord .fb64lsb .lens chs.lens)
      (fun w => { w with cur := w.cur.set .data (BitVec.ofNat 64 ((k.cur.get .data).toNat + s.length)) }) (fun _ => True)
      (fun _ _ => trivial) (fun w _ => fbReadWord_curData .fb64lsb chs.lens w _) trivial hrest

/-! ## Items -/

/-- The item as the words of the configuration hold it: a number loses its bits above W (44_pipeline.md R291). -/
def Item.stored (b : Base) : Item → Item
  | .num x => .num (trunc b.width x)
  | .str s => .str s

theorem Item.stored_of_exact {b : Base} {x : Item} (h : x.exact b = true) : x.stored b = x := by
  cases x with
  | num v =>
    simp only [Item.exact, Bool.and_eq_true, decide_eq_true_eq] at h
    rw [Item.stored, trunc_eq_self h.2]
  | str s => rfl

theorem Item.fits_of_exact {b : Base} {x : Item} (h : x.exact b = true) : x.fits b = true := by
  have hle : 2 ^ b.width ≤ 2 ^ b.opWidth := Nat.pow_le_pow_right (by decide) (by cases b <;> decide)
  cases x with
  | num v =>
    simp only [Item.exact, Item.fits, Bool.and_eq_true, decide_eq_true_eq] at h ⊢
    exact ⟨h.1, h.2.trans_le hle⟩
  | str s => exact h

theorem itemWords_map_num {b : Base} (hs : b.strings = false) {xs : List Item} (hfits : ∀ x ∈ xs, x.fits b = true) :
    (itemWords b xs).map .num = xs.map (Item.stored b) := by
  induction xs with
  | nil => rfl
  | cons x xs ih =>
    obtain ⟨v, rfl⟩ := exists_num_of_fits hs (hfits x List.mem_cons_self)
    rw [itemWords_cons, List.map_cons, List.map_cons, ih fun y hy => hfits y (List.mem_cons_of_mem _ hy)]
    rfl

theorem itemWords_wide (b : Base) (xs : List Item) : WordsWide b.width (itemWords b xs) := by
  intro w hw
  obtain ⟨x, -, hx⟩ := List.mem_filterMap.mp hw
  cases x with
  | num v =>
    cases hx
    exact trunc_lt _ _
  | str s => cases hx

theorem exists_strs_of_fits {b : Base} (hs : b.strings = true) {xs : List Item} (hfits : ∀ x ∈ xs, x.fits b = true) :
    ∃ items : List (List Byte), xs = items.map .str ∧ ∀ s ∈ items, s.length < 2 ^ 64 := by
  induction xs with
  | nil => exact ⟨[], rfl, nofun⟩
  | cons x xs ih =>
    obtain ⟨items, rfl, hitems⟩ := ih fun y hy => hfits y (List.mem_cons_of_mem _ hy)
    have hx := hfits x List.mem_cons_self
    cases x with
    | num v => simp [Item.fits, hs] at hx
    | str s =>
      simp only [Item.fits, Bool.and_eq_true, decide_eq_true_eq] at hx
      exact ⟨s :: items, rfl, List.forall_mem_cons.mpr ⟨hx.2, hitems⟩⟩

/-- R338: over the stream of items, the item step of a reader from reset returns the items; up to the end of the stream where the
base has no padding items. -/
theorem reads_emittedE (p : Params) {cfg : Cfg} {xs : List Item} (hfits : ∀ x ∈ xs, x.fits cfg.base = true)
    (hdata : 8 * (emittedE p cfg xs).data.length < 2 ^ 64) (hlens : (emittedE p cfg xs).lens.length < 2 ^ 64)
    {toEnd : Bool} (hend : toEnd = true → cfg.base.strings = true ∨ cfg.base.variant?.isSome = true) :
    Reads toEnd (pullItem p cfg.base (emittedE p cfg xs)) (xs.map (Item.stored cfg.base)) (Work.reset cfg) := by
  cases hs : cfg.base.strings with
  | false =>
    have hvari : cfg.base ≠ .vari := fun he => by simp [he, Base.strings] at hs
    have hvard : cfg.base ≠ .vard := fun he => by simp [he, Base.strings] at hs
    obtain ⟨hd, -⟩ := streamIsTheCompositionOfItsStages p cfg xs hs hfits
    have hend' : toEnd = true → cfg.base.variant?.isSome = true := fun he => (hend he).resolve_left (by simp [hs])
    have hwide := itemWords_wide cfg.base xs
    rw [hd] at hdata
    have hbase := reads_baseRead hs cfg (stackEncode_wide (h := p.dfcmBits) (ts := cfg.xforms) hwide) hdata hend'
    rw [← hd] at hbase
    rw [← itemWords_map_num hs hfits]
    exact Reads.mapValue Got.num Item.num (fun _ => rfl) rfl
      (fun k => by simp only [pullItem, hvari, hvard, if_false]) (reads_pullWord p cfg (Base.width_le _) hwide hbase)
  | true =>
    obtain ⟨items, rfl, hitems⟩ := exists_strs_of_fits hs hfits
    have hreads : Reads true (pullItem p cfg.base (emittedE p cfg (items.map .str))) (items.map .str) (Work.reset cfg) := by
      obtain hb | hb : cfg.base = .vari ∨ cfg.base = .vard := by
        cases hb : cfg.base <;> simp_all [Base.strings]
      · rw [emittedE_vari p items hb] at hdata ⊢
        simp only at hdata
        exact Reads.mapValue Got.str Item.str (fun _ => rfl) rfl (fun k => by simp only [pullItem, hb, if_true])
          (reads_variReadItem (ch := items.flatMap variBytes) (by omega) hitems rfl)
      · rw [emittedE_vard p items hb] at hdata hlens ⊢
        simp only at hdata hlens
        have hlengths : Reads true (fbReadWord .fb64lsb .lens (fbEncode .fb64lsb (lengthWords items))) (lengthWords items)
            (Work.reset cfg) := by
          rw [fbEncode_eq_enc] at hlens ⊢
          exact (decodes_enc (v := .fb64lsb) hlens _ (fun x _ => x.isLt) (Work.reset cfg) rfl rfl).reads true
        exact Reads.mapValue Got.str Item.str (fun _ => rfl) rfl
          (fun k => by simp only [pullItem, hb, reduceCtorEq, if_false, if_true])
          (reads_vardReadItem (chs := { data := items.flatten, lens := fbEncode .fb64lsb (lengthWords items) })
            (by simp only; omega) hitems hlengths (Nat.zero_le _) rfl)
    have hstored : (items.map Item.str).map (Item.stored cfg.base) = items.map .str := by
      rw [List.map_map]
      rfl
    rw [hstored]
    cases toEnd with
    | true => exact hreads
    | false =>
      have htake := hreads.take (items.map Item.str).length
      rwa [List.take_length] at htake

/-! ## Runs of reads -/

/-- Reading on to the end of the stream. -/
theorem readItems_to_end {p : Params} {cfg : Cfg} {chs : PerSlot (List Byte)} (hcount : cfg.itemCount = none)
    {xs : List Item} {r : Reading} (h : Reads true (pullItem p cfg.base chs) xs r.work) :
    (readItems p cfg chs (xs.length + 1) r).1 = .eos ∧ (readItems p cfg chs (xs.length + 1) r).2.1 = xs := by
  induction xs generalizing r with
  | nil =>
    obtain ⟨k', hk'⟩ := h rfl
    simp [readItems, readItem, hcount, hk']
  | cons x xs ih =>
    obtain ⟨k', hk', hrest⟩ := h
    obtain ⟨hend, hitems⟩ := ih (r := { items := r.items + 1, work := k' }) hrest
    rw [List.length_cons, readItems]
    simp only [readItem, hcount, hk', reduceCtorEq, if_false, hend, hitems, and_self]

/-- Reading on to the declared count of items. -/
theorem readItems_to_count {p : Params} {cfg : Cfg} {chs : PerSlot (List Byte)} {c : U64} (hcount : cfg.itemCount = some c)
    {xs : List Item} {r : Reading} (hr : r.items.toNat + xs.length = c.toNat)
    (h : Reads false (pullItem p cfg.base chs) xs r.work) :
    (readItems p cfg chs (xs.length + 1) r).1 = .eos ∧ (readItems p cfg chs (xs.length + 1) r).2.1 = xs := by
  induction xs generalizing r with
  | nil =>
    have he : cfg.itemCount = some r.items := by rw [hcount, BitVec.eq_of_toNat_eq hr]
    simp [readItems, readItem, he]
  | cons x xs ih =>
    obtain ⟨k', hk', hrest⟩ := h
    rw [List.length_cons] at hr
    have hne : cfg.itemCount ≠ some r.items := by
      rw [hcount]
      rintro ⟨rfl⟩
      omega
    have hnext : (r.items + 1).toNat + xs.length = c.toNat := by
      have hone : (1 : U64).toNat = 1 := rfl
      have := c.isLt
      rw [BitVec.toNat_add, hone, Nat.mod_eq_of_lt (by omega)]
      omega
    obtain ⟨hend, hitems⟩ := ih (r := { items := r.items + 1, work := k' }) hnext hrest
    rw [List.length_cons, readItems]
    simp only [readItem, hne, hk', if_false, hend, hitems, and_self]

/-- Settles O26: the item step returns the items (`reads_emittedE`), and READ stops at the end of the stream or at the count. -/
theorem pipelineRoundTrip : Obligations.PipelineRoundTrip := by
  intro p cfg xs _ _ hexact hcount hdata hlens
  have hfits : ∀ x ∈ xs, x.fits cfg.base = true := fun x hx => Item.fits_of_exact (hexact x hx)
  have hstored : xs.map (Item.stored cfg.base) = xs :=
    (List.map_congr_left fun x hx => Item.stored_of_exact (hexact x hx)).trans (List.map_id xs)
  refine ⟨fun hbase => ?_, ?_⟩
  · have hreads := reads_emittedE p hfits hdata hlens (toEnd := true) fun _ => hbase
    rw [hstored] at hreads
    exact readItems_to_end (cfg := { cfg with itemCount := none }) rfl hreads
  · have hreads := reads_emittedE p hfits hdata hlens (toEnd := false) nofun
    rw [hstored] at hreads
    refine readItems_to_count (cfg := { cfg with itemCount := some (BitVec.ofNat 64 xs.length) }) rfl ?_ hreads
    simpa using (Nat.mod_eq_of_lt hcount).symm

end Sys2Proof.Machine
end

section
/-! PROOFS. Two runs of one command (20_memory.md R84, R89): in states that agree on what the command works on, each check gives
the same answer and each body the same instance and channels. -/

namespace Sys2Proof.Machine

/-! ## What two runs share -/

/-- Wherever the one outcome is a next state, the other is one too, with the same new result, and the two agree. -/
def Alike (s s' : State) (inst : U16) (cs : List U64) (o o' : Outcome) : Prop :=
  ∀ t, o = .next t → ∃ t' r, o' = .next t' ∧ AgreeOn t t' inst cs ∧ t.results = r :: s.results ∧
    t'.results = r :: s'.results

/-- The channels bound to the slots of an instance are among some channels. -/
def BindsWithin (y : Instance) (cs : List U64) : Prop :=
  ∀ sl ∈ y.cfg.base.slots, ∀ b, y.bind.get sl = some b → b.chan ∈ cs

theorem bindsWithin_chans (x : Instance) (cs : List U64) : BindsWithin x (x.chans ++ cs) := fun sl hsl b hb =>
  List.mem_append_left _ (List.mem_filterMap.mpr ⟨sl, hsl, by rw [hb]; rfl⟩)

section
variable {s s' : State} {inst : U16} {x y : Instance} {cs : List U64} {op : Opcode} {o o' : Outcome}

theorem AgreeOn.gen (ha : AgreeOn s s' inst cs) {c : U64} (hc : c ∈ cs) : s'.mem.gen c = s.mem.gen c := by
  obtain ⟨-, -, -, hmem⟩ := ha
  rw [Memory.gen, Memory.gen, hmem c hc]

theorem AgreeOn.len (ha : AgreeOn s s' inst cs) {c : U64} (hc : c ∈ cs) : s'.mem.len c = s.mem.len c := by
  obtain ⟨-, -, -, hmem⟩ := ha
  rw [Memory.len, Memory.len, hmem c hc]

theorem AgreeOn.setInst (ha : AgreeOn s s' inst cs) (hx : s.inst? inst = some x) (y : Instance) :
    AgreeOn (s.setInst inst y) (s'.setInst inst y) inst cs := by
  obtain ⟨hparams, hfree, hinst, hmem⟩ := ha
  refine ⟨hparams, hfree, ?_, hmem⟩
  rw [State.setInst_inst?_same hx, State.setInst_inst?_same (hinst.trans hx)]

theorem AgreeOn.alike_reply {u u' : State} (hu : AgreeOn u u' inst cs) (hr : u.results = s.results)
    (hr' : u'.results = s'.results) (st : Status) (ws : List U64) :
    Alike s s' inst cs (.next (u.reply st ws)) (.next (u'.reply st ws)) := by
  rintro t ⟨rfl⟩
  exact ⟨_, _, rfl, hu, by rw [State.reply_results, hr], by rw [State.reply_results, hr']⟩

/-! ## Faults -/

theorem AgreeOn.alike_faultEntry (ha : AgreeOn s s' inst cs) (hx : s.inst? inst = some x) (op : Opcode) (code : FaultCode)
    (slot : Byte) (off : U64) :
    Alike s s' inst cs (.next (s.faultEntry inst op code slot off)) (.next (s'.faultEntry inst op code slot off)) := by
  by_cases hrec : code.unrecorded = true ∨ op = .construct
  · rw [faultEntry_unrecorded _ _ _ _ _ _ hrec, faultEntry_unrecorded _ _ _ _ _ _ hrec]
    exact ha.alike_reply rfl rfl _ _
  · obtain ⟨hcode, hop⟩ := not_or.mp hrec
    rw [Bool.not_eq_true] at hcode
    rw [faultEntry_recorded _ _ _ _ hcode hop hx, faultEntry_recorded _ _ _ _ hcode hop (ha.2.2.1.trans hx)]
    exact (ha.setInst hx _).alike_reply rfl rfl _ _

theorem AgreeOn.alike_executionFault (ha : AgreeOn s s' inst cs) (hx : s.inst? inst = some x) (y : Instance) {op : Opcode}
    {code : FaultCode} (hcode : code.unrecorded = false) (hop : op ≠ .construct) (slot : Byte) (off : U64) :
    Alike s s' inst cs (.next (s.executionFault inst y op code slot off))
      (.next (s'.executionFault inst y op code slot off)) := by
  obtain ⟨hparams, hfree, hinst, hmem⟩ := ha
  have ha' : AgreeOn { s with freeCount := s.freeCount + 1 } { s' with freeCount := s'.freeCount + 1 } inst cs :=
    ⟨hparams, congrArg (· + 1) hfree, hinst, hmem⟩
  rw [executionFault_eq hx y hcode hop, executionFault_eq (hinst.trans hx) y hcode hop, hfree]
  rw [hfree] at ha'
  exact (ha'.setInst (s := { s with freeCount := s.freeCount + 1 }) hx _).alike_reply rfl rfl _ _

/-! ## The checks of R290 -/

theorem alike_refused (r : Refusal) (o' : Outcome) : Alike s s' inst cs (.refused r) o' := nofun

theorem alike_fault (f : Fault) (o' : Outcome) : Alike s s' inst cs (.fault f) o' := nofun

theorem AgreeOn.alike_dispatch (ha : AgreeOn s s' inst cs) (hx : s.inst? inst = some x)
    {body body' : Instance → Outcome} (hbody : Alike s s' inst cs (body x) (body' x)) :
    Alike s s' inst cs (s.dispatch op inst body) (s'.dispatch op inst body') := by
  have hx' := ha.2.2.1.trans hx
  unfold State.dispatch
  rw [hx, hx']
  simp only
  split_ifs
  · exact ha.alike_reply rfl rfl _ _
  · exact ha.alike_faultEntry hx _ _ _ _
  · exact hbody

theorem AgreeOn.boundChan (ha : AgreeOn s s' inst cs) (hy : BindsWithin y cs) {sl : Slot} (hsl : sl ∈ y.cfg.base.slots) :
    s'.boundChan y sl = s.boundChan y sl := by
  obtain ⟨-, -, -, hmem⟩ := ha
  unfold State.boundChan
  cases hb : y.bind.get sl with
  | none => rfl
  | some b => exact hmem _ (hy sl hsl b hb)

theorem AgreeOn.bound (ha : AgreeOn s s' inst cs) (hy : BindsWithin y cs) : s'.bound y = s.bound y := by
  unfold State.bound
  rw [Bool.eq_iff_iff, List.all_eq_true, List.all_eq_true]
  exact forall₂_congr fun sl hsl => by rw [ha.boundChan hy hsl]

theorem AgreeOn.alike_onChannels (ha : AgreeOn s s' inst cs) (hy : BindsWithin y cs) (ho : Alike s s' inst cs o o') :
    Alike s s' inst cs (s.onChannels y o) (s'.onChannels y o') := by
  unfold State.onChannels
  rw [ha.bound hy]
  split
  · exact ho
  · exact alike_fault _ _

theorem AgreeOn.stale (ha : AgreeOn s s' inst cs) (hy : BindsWithin y cs) {sl : Slot} (hsl : sl ∈ y.cfg.base.slots) :
    s'.stale y sl = s.stale y sl := by
  unfold State.stale
  cases hb : y.bind.get sl with
  | none => rfl
  | some b => simp only [ha.gen (hy sl hsl b hb)]

theorem AgreeOn.alike_hazardCheck (ha : AgreeOn s s' inst cs) (hx : s.inst? inst = some x) (hy : BindsWithin y cs)
    (ho : Alike s s' inst cs o o') :
    Alike s s' inst cs (s.hazardCheck op inst y o) (s'.hazardCheck op inst y o') := by
  have hfind : y.cfg.base.slots.find? (s'.stale y) = y.cfg.base.slots.find? (s.stale y) :=
    List.find?_congr fun sl hsl => ha.stale hy hsl
  unfold State.hazardCheck
  rw [hfind]
  cases y.cfg.base.slots.find? (s.stale y) with
  | some sl => exact ha.alike_faultEntry hx _ _ _ _
  | none => exact ho

theorem AgreeOn.overflows {u u' : State} (ha : AgreeOn s s' inst cs) (hu : AgreeOn u u' inst cs) (hy : BindsWithin y cs) :
    overflows s' u' y = overflows s u y := by
  unfold Machine.overflows
  rw [Bool.eq_iff_iff, List.any_eq_true, List.any_eq_true]
  refine exists_congr fun sl => and_congr_right fun hsl => ?_
  cases hb : y.bind.get sl with
  | none => rfl
  | some b => simp only [ha.1, ha.len (hy sl hsl b hb), hu.len (hy sl hsl b hb)]

/-! ## Output paths -/

/-- One output path of two states that agree on its channel. -/
theorem onLane_congr (hmem : ∀ c ∈ cs, s'.mem.get c = s.mem.get c) {sl : Slot}
    (hy : ∀ b, y.bind.get sl = some b → b.chan ∈ cs) (f : Lane → Lane) :
    (s'.onLane y sl f).2 = (s.onLane y sl f).2 ∧
    ∀ c ∈ cs, (s'.onLane y sl f).1.mem.get c = (s.onLane y sl f).1.mem.get c := by
  cases hb : y.bind.get sl with
  | none => simpa [State.onLane, hb] using hmem
  | some b =>
    have hget := hmem _ (hy b hb)
    cases hc : s.mem.get b.chan with
    | none =>
      rw [hc] at hget
      simpa [State.onLane, State.lane, hb, hc, hget] using hmem
    | some c =>
      rw [hc] at hget
      rw [onLane_bound f hb hc, onLane_bound f hb hget]
      refine ⟨rfl, fun j hj => ?_⟩
      simp only [Memory.get_put, hmem j hj]

theorem onSlots_congr (f : Slot → Lane → Lane) (sls : List Slot) (hmem : ∀ c ∈ cs, s'.mem.get c = s.mem.get c)
    (hy : ∀ sl ∈ sls, ∀ b, y.bind.get sl = some b → b.chan ∈ cs) :
    (s'.onSlots y f sls).2 = (s.onSlots y f sls).2 ∧
    ∀ c ∈ cs, (s'.onSlots y f sls).1.mem.get c = (s.onSlots y f sls).1.mem.get c := by
  induction sls generalizing s s' y with
  | nil => exact ⟨rfl, hmem⟩
  | cons sl rest ih =>
    obtain ⟨hinst, hget⟩ := onLane_congr hmem (hy sl List.mem_cons_self) (f sl)
    simp only [State.onSlots]
    rw [hinst]
    refine ih hget fun sl' hsl' b hb => ?_
    have hchan := (onLane_frame s y sl (f sl)).bindGet sl'
    rw [hb, Option.map_some] at hchan
    obtain ⟨b', hb', hb''⟩ := Option.map_eq_some_iff.mp hchan.symm
    exact hb'' ▸ hy sl' (List.mem_cons_of_mem _ hsl') b' hb'

theorem AgreeOn.onLanes (ha : AgreeOn s s' inst cs) (hx : s.inst? inst = some x) (hy : BindsWithin y cs)
    (f : Slot → Lane → Lane) : AgreeOn (s.onLanes inst y f) (s'.onLanes inst y f) inst cs := by
  obtain ⟨hparams, hfree, hinst, hmem⟩ := ha
  obtain ⟨hreg, hget⟩ := onSlots_congr f y.cfg.base.slots hmem hy
  have hx1 : (s.onSlots y f y.cfg.base.slots).1.inst? inst = some x := (inst?_congr (onSlots_insts ..) inst).trans hx
  have ha1 : AgreeOn (s.onSlots y f y.cfg.base.slots).1 (s'.onSlots y f y.cfg.base.slots).1 inst cs := by
    refine ⟨by simpa using hparams, by simpa using hfree, ?_, hget⟩
    rw [inst?_congr (onSlots_insts ..), inst?_congr (onSlots_insts ..), hinst]
  rw [State.onLanes_eq, State.onLanes_eq, hreg]
  exact ha1.setInst hx1 _

theorem onLanes_results (s : State) (id : U16) (y : Instance) (f : Slot → Lane → Lane) :
    (s.onLanes id y f).results = s.results := by simp

/-! ## The bodies of the commands -/

theorem pullItem_congr (p : Params) (b : Base) {chs chs' : PerSlot (List Byte)} (hdata : chs'.data = chs.data)
    (hlens : b = .vard → chs'.lens = chs.lens) (k : Work) : pullItem p b chs' k = pullItem p b chs k := by
  unfold pullItem
  split_ifs with hvari hvard
  · rw [hdata]
  · rw [vardReadItem, vardReadItem, hdata, hlens hvard]
  · rw [hdata]

theorem readItems_congr (p : Params) (cfg : Cfg) {chs chs' : PerSlot (List Byte)} (hdata : chs'.data = chs.data)
    (hlens : cfg.base = .vard → chs'.lens = chs.lens) (n : Nat) (r : Reading) :
    readItems p cfg chs' n r = readItems p cfg chs n r := by
  induction n generalizing r with
  | zero => rfl
  | succ n ih =>
    have hitem : readItem p cfg chs' r = readItem p cfg chs r := by
      simp only [readItem, pullItem_congr p cfg.base hdata hlens]
    simp only [readItems, hitem, ih]

/-- The channels of the slots that a reader of the base decodes. -/
theorem AgreeOn.readItems (ha : AgreeOn s s' inst cs) (hy : BindsWithin y cs) (cfg : Cfg) (hbase : cfg.base = y.cfg.base)
    (n : Nat) (r : Reading) :
    readItems s'.params cfg (s'.chanBytes y) n r = readItems s.params cfg (s.chanBytes y) n r := by
  have hdata : s'.boundChan y .data = s.boundChan y .data := ha.boundChan hy (mem_slots_iff.mpr (.inl rfl))
  rw [ha.1]
  refine readItems_congr _ _ (by simp only [State.chanBytes, hdata]) (fun hvard => ?_) _ _
  have hlens : s'.boundChan y .lens = s.boundChan y .lens := by
    refine ha.boundChan hy (mem_slots_iff.mpr (.inr ⟨rfl, ?_⟩))
    rw [← hbase, hvard]
    rfl
  simp only [State.chanBytes, hlens]

theorem AgreeOn.alike_readBody (ha : AgreeOn s s' inst cs) (hx : s.inst? inst = some x) (hc : BindsWithin x cs)
    (hop : op ≠ .construct) (n : Nat) (answer : Bool → List Item → Status × List U64) :
    Alike s s' inst cs (s.readBody op inst x n answer) (s'.readBody op inst x n answer) := by
  unfold State.readBody
  rw [ha.readItems hc x.cfg rfl]
  refine ha.alike_onChannels hc (ha.alike_hazardCheck hx hc ?_)
  obtain ⟨e, xs, r⟩ := Machine.readItems s.params x.cfg (s.chanBytes x) n { items := x.items, work := x.work }
  cases e with
  | corrupt sl off => exact ha.alike_executionFault hx _ rfl hop _ _
  | eos => exact (ha.setInst hx _).alike_reply rfl rfl _ _
  | done => exact (ha.setInst hx _).alike_reply rfl rfl _ _

theorem AgreeOn.alike_writeBody (ha : AgreeOn s s' inst cs) (hx : s.inst? inst = some x) (hc : BindsWithin x cs)
    (items : List Item) :
    Alike s s' inst cs (s.writeBody op inst x items) (s'.writeBody op inst x items) := by
  have hw : AgreeOn (s.written inst x items) (s'.written inst x items) inst cs := by
    rw [State.written_eq, State.written_eq, ha.1]
    exact ha.onLanes (y := x.afterWrite s.params items) hx hc _
  unfold State.writeBody
  simp only [ha.overflows hw hc]
  split_ifs
  · exact ha.alike_faultEntry hx _ _ _ _
  · exact ha.alike_faultEntry hx _ _ _ _
  · exact ha.alike_hazardCheck hx hc (hw.alike_reply (onLanes_results ..) (onLanes_results ..) _ _)

theorem AgreeOn.alike_writeOperands (ha : AgreeOn s s' inst cs) (hx : s.inst? inst = some x) (hc : BindsWithin x cs)
    (os : List Operand) :
    Alike s s' inst cs (s.writeOperands op inst x os) (s'.writeOperands op inst x os) := by
  unfold State.writeOperands
  obtain _ | _ | items := checkOperands x.cfg.base os
  · exact alike_refused _ _
  · exact ha.alike_faultEntry hx _ _ _ _
  · exact ha.alike_onChannels hc (ha.alike_writeBody hx hc items)

/-! ## The commands -/

theorem AgreeOn.channelOperands (ha : AgreeOn s s' inst cs) {ch0 : U64} {ch1 : Option U64}
    (hcs : ∀ c ∈ ch0 :: ch1.toList, c ∈ cs) :
    channelsNonEmpty s'.mem ch0 ch1 = channelsNonEmpty s.mem ch0 ch1 ∧
    channelsInvalid s'.mem ch0 ch1 = channelsInvalid s.mem ch0 ch1 ∧
    bindChannels s'.mem ch0 ch1 = bindChannels s.mem ch0 ch1 := by
  have h0 : ch0 ∈ cs := hcs ch0 List.mem_cons_self
  cases ch1 with
  | none =>
    simp only [channelsNonEmpty, channelsInvalid, bindChannels, ha.len h0, ha.gen h0, ha.2.2.2 ch0 h0, Option.map_none,
      and_self]
  | some c1 =>
    have h1 : c1 ∈ cs := hcs c1 (by simp)
    simp only [channelsNonEmpty, channelsInvalid, bindChannels, ha.len h0, ha.len h1, ha.gen h0, ha.gen h1,
      ha.2.2.2 ch0 h0, ha.2.2.2 c1 h1, Option.map_some, and_self]

theorem AgreeOn.alike_init (ha : AgreeOn s s' inst cs) (hx : s.inst? inst = some x) {ch0 : U64} {ch1 : Option U64}
    (hcs : ∀ c ∈ ch0 :: ch1.toList, c ∈ cs) :
    Alike s s' inst cs (execInit inst ch0 ch1 s) (execInit inst ch0 ch1 s') := by
  obtain ⟨hne, hinvalid, hbind⟩ := ha.channelOperands hcs
  refine ha.alike_dispatch hx ?_
  rw [hne, hinvalid, hbind]
  split_ifs
  · exact alike_refused _ _
  · exact ha.alike_faultEntry hx _ _ _ _
  · exact ha.alike_faultEntry hx _ _ _ _
  · exact (ha.setInst hx _).alike_reply rfl rfl _ _

theorem AgreeOn.alike_reset (ha : AgreeOn s s' inst cs) (hx : s.inst? inst = some x) (hc : BindsWithin x cs) :
    Alike s s' inst cs (execReset inst s) (execReset inst s') := by
  refine ha.alike_dispatch hx (ha.alike_onChannels hc ?_)
  cases x.cfg.role with
  | writer =>
    exact (ha.onLanes (y := { x.rewound with life := .empty }) hx hc _).alike_reply (onLanes_results ..) (onLanes_results ..) _ _
  | reader => exact (ha.onLanes (y := x.rewound) hx hc _).alike_reply (onLanes_results ..) (onLanes_results ..) _ _

theorem AgreeOn.alike_flush (ha : AgreeOn s s' inst cs) (hx : s.inst? inst = some x) (hc : BindsWithin x cs) :
    Alike s s' inst cs (execFlush inst s) (execFlush inst s') := by
  have hf := ha.onLanes hx hc fun _ l => l.flush
  refine ha.alike_dispatch hx (ha.alike_onChannels hc ?_)
  simp only [ha.overflows hf hc]
  split_ifs
  · exact ha.alike_faultEntry hx _ _ _ _
  · exact ha.alike_hazardCheck hx hc (hf.alike_reply (onLanes_results ..) (onLanes_results ..) _ _)

theorem AgreeOn.alike_commit (ha : AgreeOn s s' inst cs) (hx : s.inst? inst = some x) (hc : BindsWithin x cs) :
    Alike s s' inst cs (execCommit inst s) (execCommit inst s') := by
  have hcommit : AgreeOn (s.committed inst x) (s'.committed inst x) inst cs := by
    rw [State.committed_eq, State.committed_eq, ha.1]
    exact ha.onLanes (y := x.afterCommit s.params) hx hc _
  refine ha.alike_dispatch hx (ha.alike_onChannels hc ?_)
  by_cases hl : x.life = .committed
  · simp only [hl, if_true, overflows_self, Bool.false_eq_true, if_false]
    exact ha.alike_hazardCheck hx hc (ha.alike_reply rfl rfl _ _)
  · simp only [hl, if_false, ha.overflows hcommit hc]
    split_ifs
    · exact ha.alike_faultEntry hx _ _ _ _
    · exact ha.alike_hazardCheck hx hc (hcommit.alike_reply (onLanes_results ..) (onLanes_results ..) _ _)

theorem AgreeOn.alike_resume (ha : AgreeOn s s' inst cs) (hx : s.inst? inst = some x) {ch0 : U64} {ch1 : Option U64}
    (hcs : ∀ c ∈ ch0 :: ch1.toList, c ∈ cs) (rows : U64) :
    Alike s s' inst cs (execResume inst ch0 ch1 rows s) (execResume inst ch0 ch1 rows s') := by
  obtain ⟨-, hinvalid, hbind⟩ := ha.channelOperands hcs
  have hrebound : x.rebound s'.mem ch0 ch1 = x.rebound s.mem ch0 ch1 := by rw [Instance.rebound, hbind]; rfl
  have hc : BindsWithin (x.rebound s.mem ch0 ch1) cs := fun sl hsl b hb =>
    hcs _ (chans_bindChannels (x := x.rebound s.mem ch0 ch1) rfl (List.mem_filterMap.mpr ⟨sl, hsl, by rw [hb]; rfl⟩))
  have hdecode : s'.resumeDecode (x.rebound s.mem ch0 ch1) rows.toNat =
      s.resumeDecode (x.rebound s.mem ch0 ch1) rows.toNat := ha.readItems hc { x.cfg with itemCount := none } rfl _ _
  refine ha.alike_dispatch hx ?_
  rw [hinvalid, hrebound]
  split_ifs
  · exact alike_refused _ _
  · exact ha.alike_faultEntry hx _ _ _ _
  · exact ha.alike_faultEntry hx _ _ _ _
  simp only [hdecode]
  obtain ⟨e, items, r⟩ := s.resumeDecode (x.rebound s.mem ch0 ch1) rows.toNat
  cases e with
  | corrupt sl off => exact ha.alike_executionFault (op := .resume) (code := .corruptStream) hx _ rfl (by decide) _ _
  | eos => exact ha.alike_executionFault (op := .resume) (code := .resumeShort) hx _ rfl (by decide) _ _
  | done =>
    have hr : AgreeOn (s.resumed inst (x.rebound s.mem ch0 ch1) items) (s'.resumed inst (x.rebound s.mem ch0 ch1) items)
        inst cs := by
      rw [State.resumed_eq, State.resumed_eq, ha.1]
      exact ha.onLanes (y := (x.rebound s.mem ch0 ch1).afterResume s.params items) hx hc _
    simp only [ha.overflows hr hc]
    split_ifs
    · exact ha.alike_faultEntry hx _ _ _ _
    · exact hr.alike_reply (onLanes_results ..) (onLanes_results ..) _ _

end

/-- Settles O56: a lemma per command; CONSTRUCT names no instance. -/
theorem commandsDependOnlyOnTheirInstance : Obligations.CommandsDependOnlyOnTheirInstance := by
  intro s s' t i op inst x hi hreader hwriter hx ha ht
  have hc : BindsWithin x (x.chans ++ operandChans i) := bindsWithin_chans x _
  have hop := ne_construct_of_inst? hi hx
  suffices h : Alike s s' inst (x.chans ++ operandChans i) (exec i s) (exec i s') from h t ht
  have hcs : ∀ c ∈ operandChans i, c ∈ x.chans ++ operandChans i := fun c hc => List.mem_append_right _ hc
  cases i with
  | init id ch0 ch1 =>
    cases hi
    exact ha.alike_init hx hcs
  | writeOne id item =>
    cases hi
    exact ha.alike_dispatch hx (ha.alike_writeOperands hx hc _)
  | write id buflen offset count buf =>
    cases hi
    refine ha.alike_dispatch hx ?_
    split_ifs
    · exact alike_refused _ _
    · exact ha.alike_faultEntry hx _ _ _ _
    · exact ha.alike_writeOperands hx hc _
  | readOne id =>
    cases hi
    exact ha.alike_dispatch hx (ha.alike_readBody hx hc hop _ _)
  | read id buflen offset count =>
    cases hi
    refine ha.alike_dispatch hx ?_
    split_ifs
    · exact ha.alike_faultEntry hx _ _ _ _
    · exact ha.alike_readBody hx hc hop _ _
  | skip id count =>
    cases hi
    exact ha.alike_dispatch hx (ha.alike_readBody hx hc hop _ _)
  | commit id =>
    cases hi
    exact ha.alike_commit hx hc
  | reset id =>
    cases hi
    exact ha.alike_reset hx hc
  | flush id =>
    cases hi
    exact ha.alike_flush hx hc
  | resume id ch0 ch1 rows =>
    cases hi
    exact ha.alike_resume hx hcs rows
  | createReader id =>
    cases hi
    exact absurd rfl hreader
  | createWriter id =>
    cases hi
    exact absurd rfl hwriter
  | getChannelCount id =>
    cases hi
    exact ha.alike_dispatch hx (ha.alike_reply rfl rfl _ _)
  | getItemCount id =>
    cases hi
    exact ha.alike_dispatch hx (ha.alike_reply rfl rfl _ _)
  | construct desc itemCount =>
    cases hi
    exact absurd rfl hop
  | _ => cases hi

end Sys2Proof.Machine
end

section
/-! PROOFS. RD_CUR only moves forward (10_state.md R46): every unit and every item ends within its channel, which is shorter than
2^64 bytes, so no advance of the pointer wraps around. -/

namespace Sys2Proof.Machine

/-- RD_CUR of no slot is behind. -/
def CurLe (k k' : Work) : Prop := ∀ sl, (k.cur.get sl).toNat ≤ (k'.cur.get sl).toNat

theorem CurLe.refl (k : Work) : CurLe k k := fun _ => le_rfl

theorem CurLe.trans {a b c : Work} (h : CurLe a b) (h' : CurLe b c) : CurLe a c := fun sl => (h sl).trans (h' sl)

theorem CurLe.of_cur_eq {k k' : Work} (h : k'.cur = k.cur) : CurLe k k' := fun sl => by rw [h]

/-- RD_CUR[s] set to an offset that does not wrap around. -/
theorem CurLe.set {k k' : Work} {sl : Slot} {n : Nat} (hle : (k.cur.get sl).toNat ≤ n) (hn : n < 2 ^ 64)
    (hk' : k'.cur = k.cur.set sl (BitVec.ofNat 64 n)) : CurLe k k' := by
  intro sl'
  rw [hk']
  by_cases hsl : sl' = sl
  · rw [hsl, PerSlot.get_set_same, BitVec.toNat_ofNat, Nat.mod_eq_of_lt hn]
    exact hle
  · rw [PerSlot.get_set_ne _ hsl]

/-! ## The readers -/

/-- A unit lies within its channel. -/
theorem unitBody_within {v : Variant} {f : Byte} {ch : List Byte} {off len : Nat} {ws : UnitWords}
    (hf : off < ch.length) (h : unitBody v f ch off = .words len ws) : off + len ≤ ch.length := by
  unfold unitBody at h
  split at h
  · cases h
    exact hf
  · simp only [singleBody] at h
    split_ifs at h
    cases h
    omega
  · simp only [pairBody] at h
    split_ifs at h
    cases h
    omega
  · cases h

theorem fbReadWord_curLe (v : Variant) (sl : Slot) {ch : List Byte} (hch : ch.length < 2 ^ 64) (k : Work) :
    CurLe k (fbReadWord v sl ch k).2 := by
  unfold fbReadWord
  split_ifs
  · exact CurLe.refl k
  · exact CurLe.refl k
  · split
    · exact CurLe.refl k
    · exact CurLe.refl k
    · next len ws hd =>
      unfold decodeUnitAt at hd
      cases hget : ch[(k.cur.get sl).toNat]? with
      | none => simp [hget] at hd
      | some f =>
        simp only [hget, Option.some.injEq] at hd
        have hwithin := unitBody_within (List.getElem?_eq_some_iff.mp hget).1 hd
        exact CurLe.set (sl := sl) (Nat.le_add_right _ len) (hwithin.trans_lt hch) (by cases ws <;> rfl)

theorem baseRead_curLe (b : Base) {ch : List Byte} (hch : ch.length < 2 ^ 64) (k : Work) :
    CurLe k (baseRead b ch k).2 := by
  unfold baseRead
  cases b.variant? with
  | some v => exact fbReadWord_curLe v .data hch k
  | none =>
    refine CurLe.of_cur_eq ?_
    simp only [bwReadWord]
    split_ifs <;> rfl

theorem variReadItem_curLe {ch : List Byte} (hch : ch.length < 2 ^ 64) (k : Work) : CurLe k (variReadItem ch k).2 := by
  simp only [variReadItem]
  split
  · exact CurLe.refl k
  · split_ifs
    · exact CurLe.refl k
    · exact CurLe.refl k
    · exact CurLe.refl k
    · exact CurLe.set (sl := .data) (by omega) (by omega) rfl

theorem vardReadItem_curLe {chs : PerSlot (List Byte)} (hdata : chs.data.length < 2 ^ 64)
    (hlens : chs.lens.length < 2 ^ 64) (k : Work) : CurLe k (vardReadItem chs k).2 := by
  have hword := fbReadWord_curLe .fb64lsb .lens hlens k
  unfold vardReadItem
  split <;> rename_i he <;> rw [he] at hword
  · exact hword
  · exact hword
  · next n k' =>
    simp only at hword ⊢
    split_ifs
    · exact hword
    · exact hword.trans
        (CurLe.set (sl := .data) (n := (k'.cur.get .data).toNat + n.toNat) (Nat.le_add_right _ _) (by omega) rfl)

section
variable {p : Params} {cfg : Cfg} {chs : PerSlot (List Byte)} (hdata : chs.data.length < 2 ^ 64)
  (hlens : chs.lens.length < 2 ^ 64)
include hdata hlens

theorem pullItem_curLe (b : Base) {k : Work} (hxf : k.xf.all (stageOk p.dfcmBits) = true) :
    CurLe k (pullItem p b chs k).2 := by
  unfold pullItem
  split_ifs
  · exact variReadItem_curLe hdata k
  · exact vardReadItem_curLe hdata hlens k
  · exact (pullStage_ok (CurLe k) b.width p.dfcmBits (baseRead b chs.data)
      (fun k' hk' => hk'.trans (baseRead_curLe b hdata k')) _ k.xf k (CurLe.refl k) hxf).1

theorem readItem_curLe {r : Reading} (hr : r.work.coreOk p.dfcmBits cfg) :
    CurLe r.work (readItem p cfg chs r).2.work := by
  have hpull := pullItem_curLe (p := p) hdata hlens cfg.base hr.2.2.2
  unfold readItem
  split_ifs
  · exact CurLe.refl _
  · split <;> rename_i he <;> rw [he] at hpull <;> exact hpull

theorem readItems_curLe (n : Nat) {r : Reading} (hr : r.work.coreOk p.dfcmBits cfg) :
    CurLe r.work (readItems p cfg chs n r).2.2.work := by
  induction n generalizing r with
  | zero => exact CurLe.refl _
  | succ n ih =>
    have hitem := readItem_curLe hdata hlens hr
    have hcore := (readItem_core p cfg chs r hr).1
    unfold readItems
    split <;> rename_i he <;> rw [he] at hitem hcore
    · exact hitem.trans (ih hcore)
    · exact hitem
    · exact hitem

end

/-! ## The writers -/

theorem baseWrite_cur (b : Base) (k : Work) (ws : List U64) : (baseWrite b k ws).1.cur = k.cur := by
  unfold baseWrite
  cases b.variant? <;> rfl

theorem writeItem_cur (p : Params) (cfg : Cfg) (k : Work) (x : Item) : (writeItem p cfg k x).1.cur = k.cur := by
  cases x with
  | num v => exact baseWrite_cur _ _ _
  | str s =>
    simp only [writeItem]
    split_ifs <;> rfl

theorem writeItems_cur (p : Params) (cfg : Cfg) (k : Work) (xs : List Item) : (writeItems p cfg k xs).1.cur = k.cur := by
  induction xs generalizing k with
  | nil => rfl
  | cons x xs ih => exact (ih _).trans (writeItem_cur p cfg k x)

theorem baseFlush_cur (b : Base) (k : Work) : (baseFlush b k).1.cur = k.cur := by
  cases b <;> rfl

theorem commitFlush_cur (p : Params) (cfg : Cfg) (k : Work) : (commitFlush p cfg k).1.cur = k.cur := by
  refine (baseFlush_cur _ _).trans ?_
  simp only [stagesFlush]
  split_ifs
  · rfl
  · exact baseWrite_cur _ _ _

/-! ## Commands -/

/-- The channels an instance reads are shorter than 2^64 bytes. -/
theorem IsInv.chanBytes_lt {s : State} (h : IsInv s) (x : Instance) :
    (s.chanBytes x).data.length < 2 ^ 64 ∧ (s.chanBytes x).lens.length < 2 ^ 64 := by
  have hmax : s.params.channelMax < 2 ^ 64 := by
    have := h.legal
    simp only [Params.legal, Bool.and_eq_true, decide_eq_true_eq] at this
    exact this.2
  have hslot (sl : Slot) : (((s.boundChan x sl).map Channel.bytes).getD []).length < 2 ^ 64 := by
    cases hc : s.boundChan x sl with
    | none => exact Nat.two_pow_pos 64
    | some c =>
      obtain ⟨b, -, hb⟩ := Option.bind_eq_some_iff.mp hc
      exact (h.lens b.chan c hb).trans_lt hmax
  exact ⟨hslot .data, hslot .lens⟩

theorem LaneFrame.cur {s t : State} {x y : Instance} (h : LaneFrame s t x y) : y.work.cur = x.work.cur := by
  have := congrArg Work.cur h.work
  exact this

/-- The instance that an output path leaves. -/
theorem onLanes_inst?_same {s : State} {id : U16} {x : Instance} (hx : s.inst? id = some x) (y : Instance)
    (f : Slot → Lane → Lane) : (s.onLanes id y f).inst? id = some (s.onSlots y f y.cfg.base.slots).2 := by
  rw [State.onLanes_eq]
  exact State.setInst_inst?_same ((inst?_congr (onSlots_insts ..) id).trans hx) _

/-- What changing output paths leaves of RD_CUR. -/
theorem onLanes_curLe {s : State} {id : U16} {x y z : Instance} (hx : s.inst? id = some x) {f : Slot → Lane → Lane}
    (hy : y.work.cur = x.work.cur) (hz : (s.onLanes id y f).inst? id = some z) : CurLe x.work z.work := by
  rw [onLanes_inst?_same hx] at hz
  cases hz
  exact CurLe.of_cur_eq ((onSlots_frame f _ s y).cur.trans hy)

/-- The addressed instance, where the command leaves it not FAULTED. -/
theorem Effect.curLe {s t : State} {i : Instr} {op : Opcode} {id : U16} (he : Effect s i op id t) (h : IsInv s)
    (hinit : op ≠ .init) (hreset : op ≠ .reset) (hresume : op ≠ .resume) {x y : Instance} (hx : s.inst? id = some x)
    (hy : t.inst? id = some y) (hl : y.life ≠ .faulted) : CurLe x.work y.work := by
  cases he with
  | replied =>
    cases hx.symm.trans hy
    exact CurLe.refl _
  | faulted code slot off hx' _ hcode hop =>
    rw [faultEntry_recorded op code slot off hcode hop hx'] at hy
    cases (State.setInst_inst?_same hx' _).symm.trans hy
    exact absurd rfl hl
  | executionFaulted items bind code slot off hx' _ hcode hop =>
    rw [executionFault_eq hx' _ hcode hop] at hy
    cases (State.setInst_inst?_same (s := { s with freeCount := s.freeCount + 1 }) hx' _).symm.trans hy
    exact absurd rfl hl
  | initialised _ _ _ hop => exact absurd hop hinit
  | read n done ws hop hx' hrole hlife =>
    cases hx.symm.trans hx'
    cases (State.setInst_inst?_same hx' _).symm.trans hy
    have hok := work_ok_of_running (h.oks x (State.inst?_mem hx)) (by rw [hlife]; decide) (by rw [hlife]; decide)
    obtain ⟨hdata, hlens⟩ := h.chanBytes_lt x
    exact readItems_curLe hdata hlens n (r := { items := x.items, work := x.work }) (Work.core_of_ok hok)
  | wrote items _ hx' =>
    cases hx.symm.trans hx'
    exact onLanes_curLe hx (y := x.afterWrite s.params items) (writeItems_cur _ _ _ _) hy
  | committed _ hx' =>
    cases hx.symm.trans hx'
    exact onLanes_curLe hx (y := x.afterCommit s.params) (commitFlush_cur _ _ _) hy
  | flushed _ hx' =>
    cases hx.symm.trans hx'
    exact onLanes_curLe hx rfl hy
  | resetWriter hop => exact absurd hop hreset
  | resetReader hop => exact absurd hop hreset
  | resumed _ _ _ _ _ hop => exact absurd hop hresume
  | created cfg n =>
    cases (State.addInst_inst?_old hx _).symm.trans hy
    exact CurLe.refl _

/-- Settles O57: the addressed instance by its effect (`Effect.curLe`), every other instance stays. -/
theorem fetchPointerMovesForward : Obligations.FetchPointerMovesForward := by
  intro s t i op inst id x y hinv hi hinit hreset hresume ht hx hy hl
  have he := exec_effect hi ht
  by_cases hid : id = inst
  · subst hid
    exact he.curLe ((inv_iff s).mp hinv) hinit hreset hresume hx hy hl
  · cases (he.instsStep.inst?_ne hid hx).symm.trans hy
    exact CurLe.refl _

end Sys2Proof.Machine
end

section
/-! PROOFS. Commands that touch no channel: CONSTRUCT, CREATE_READER and CREATE_WRITER (44_pipeline.md R303, R304, R308;
60_exceptions.md R362), INIT (R293), and the reading commands (R296 to R298); the faults that their operands and their
streams can cause. -/

namespace Sys2Proof.Machine

/-! ## The body of a command runs where the command is valid -/

section
variable {s : State} {inst : U16} {x : Instance} {op : Opcode} {body : Instance → Outcome}

theorem dispatch_of_valid (hx : s.inst? inst = some x) (hl : x.life ≠ .faulted) (hv : validIn op x.cfg.role x.life = true) :
    s.dispatch op inst body = body x := dispatch_body hx (.inl hl) hv

theorem dispatch_of_writing (hx : s.inst? inst = some x) (hrole : x.cfg.role = .writer)
    (hl : x.life = .empty ∨ x.life = .writing) (hop : op = .writeOne ∨ op = .write) :
    s.dispatch op inst body = body x := by
  refine dispatch_of_valid hx (life_ne_faulted_of_writing hl) ?_
  obtain rfl | rfl := hop <;> obtain hl | hl := hl <;> rw [hrole, hl] <;> rfl

theorem dispatch_of_reading (hx : s.inst? inst = some x) (hrole : x.cfg.role = .reader) (hl : x.life = .reading)
    (hop : readingOp op = true ∨ op = .reset) : s.dispatch op inst body = body x := by
  refine dispatch_of_valid hx (life_ne_faulted_of_reading hl) ?_
  rw [hrole, hl]
  revert hop
  cases op <;> decide

theorem dispatch_of_open (hx : s.inst? inst = some x) (hrole : x.cfg.role = .writer)
    (hl : x.life = .empty ∨ x.life = .writing ∨ x.life = .committed) (hop : op = .commit ∨ op = .flush ∨ op = .reset) :
    s.dispatch op inst body = body x := by
  refine dispatch_of_valid hx (life_ne_faulted_of_open hl) ?_
  rw [hrole]
  obtain rfl | rfl | rfl := hop <;> obtain hl | hl | hl := hl <;> rw [hl] <;> rfl

theorem dispatch_of_resumable (hx : s.inst? inst = some x) (hrole : x.cfg.role = .writer)
    (hl : x.life = .uninit ∨ x.life = .committed) : s.dispatch .resume inst body = body x := by
  refine dispatch_of_valid hx (life_ne_faulted_of_resumable hl) ?_
  rw [hrole]
  obtain hl | hl := hl <;> rw [hl] <;> rfl

/-- An outcome that is a recorded fault. -/
theorem exists_tookFault {code : FaultCode} {slot : Byte} {off : U64} {o : Outcome} (hx : s.inst? inst = some x)
    (hcode : code.unrecorded = false) (hop : op ≠ .construct) (ho : o = .next (s.faultEntry inst op code slot off)) :
    ∃ t, o = .next t ∧ TookFault s t inst x op code slot off :=
  ⟨_, ho, tookFault_faultEntry hcode hop hx slot off⟩

end

/-! ## Creation -/

theorem allReset_reset (cfg : Cfg) : AllReset cfg (Work.reset cfg) := by
  refine ⟨rfl, rfl, rfl, rfl, rfl, rfl, rfl, rfl, rfl, rfl, rfl, rfl, ?_, ?_⟩
  · simp only [Work.reset, List.map_map]
    exact (List.map_congr_left fun t _ => by cases t <;> rfl).trans (List.map_id _)
  · intro st hst
    obtain ⟨t, -, rfl⟩ := List.mem_map.mp hst
    cases t with
    | dd => exact ⟨rfl, rfl, rfl, rfl, rfl⟩
    | xor => rfl
    | dfcm => exact ⟨fun _ => rfl, rfl, rfl⟩

theorem freshOf_fresh (cfg : Cfg) : FreshOf cfg (Instance.fresh cfg) :=
  ⟨rfl, rfl, rfl, rfl, rfl, rfl, rfl, rfl, rfl, allReset_reset cfg⟩

/-- A state with one more instance, reset, under the least free id, which is the answer. -/
def CreatedOne (s t : State) (cfg : Cfg) (id : U16) (y : Instance) : Prop :=
  id ≠ 0 ∧ s.inst? id = none ∧ (∀ j : U16, j ≠ 0 → j < id → (s.inst? j).isSome = true) ∧ t.inst? id = some y ∧
  FreshOf cfg y ∧ Untouched s t id [] ∧ Answered s t 0 [id.setWidth 64]

theorem toNat_pos_of_ne_zero {j : U16} (hj : j ≠ 0) : 1 ≤ j.toNat := by
  rw [Nat.one_le_iff_ne_zero]
  exact fun h => hj (BitVec.eq_of_toNat_eq h)

theorem createdOne_addInst {s : State} (hlegal : s.params.legal = true) (hroom : s.insts.length < s.params.maxInstances)
    (cfg : Cfg) : CreatedOne s ((s.addInst (Instance.fresh cfg)).reply .ok [BitVec.ofNat 64 (s.insts.length + 1)]) cfg
      (BitVec.ofNat 16 (s.insts.length + 1)) (Instance.fresh cfg) := by
  have hmax : s.params.maxInstances ≤ 65535 := by
    simp only [Params.legal, Bool.and_eq_true, decide_eq_true_eq] at hlegal
    omega
  have hid : (BitVec.ofNat 16 (s.insts.length + 1)).toNat = s.insts.length + 1 := by
    rw [BitVec.toNat_ofNat, Nat.mod_eq_of_lt (by omega)]
  generalize BitVec.ofNat 16 (s.insts.length + 1) = id at hid
  have hpos : 1 ≤ id.toNat := by omega
  refine ⟨?_, ?_, fun j hj0 hj => ?_, ?_, freshOf_fresh cfg, ⟨rfl, rfl, rfl, rfl, fun j hj => ?_, fun _ => rfl,
    fun _ _ => ⟨rfl, fun _ => rfl⟩⟩, ?_⟩
  · rintro rfl
    simp at hid
  · rw [State.inst?_of_pos _ hpos]
    exact List.getElem?_eq_none (by omega)
  · have hj : j.toNat < id.toNat := hj
    rw [State.inst?_of_pos _ (toNat_pos_of_ne_zero hj0)]
    have := toNat_pos_of_ne_zero hj0
    rw [List.getElem?_eq_getElem (by omega : j.toNat - 1 < s.insts.length)]
    rfl
  · rw [State.reply_inst?, State.inst?_of_pos _ hpos, State.addInst_insts, hid]
    simp
  · by_cases hj0 : j = 0
    · rw [hj0, State.inst?_zero, State.inst?_zero]
    · have hjpos := toNat_pos_of_ne_zero hj0
      have hne : j.toNat ≠ id.toNat := fun h => hj (BitVec.eq_of_toNat_eq h)
      rw [State.reply_inst?, State.inst?_of_pos _ hjpos, State.inst?_of_pos _ hjpos, State.addInst_insts]
      obtain hlt | hge := Nat.lt_or_ge (j.toNat - 1) s.insts.length
      · rw [List.getElem?_append_left hlt]
      · rw [List.getElem?_eq_none hge, List.getElem?_eq_none]
        simp only [List.length_append, List.length_singleton]
        omega
  · have hword : BitVec.ofNat 64 (s.insts.length + 1) = id.setWidth 64 := by
      rw [← hid]
      exact BitVec.eq_of_toNat_eq (by simp)
    rw [Answered, State.reply_results, hword]
    rfl

theorem freeId_of_lt {s : State} (h : s.insts.length < s.params.maxInstances) : s.freeId = some (s.insts.length + 1) :=
  if_pos h

theorem freeId_of_ge {s : State} (h : s.params.maxInstances ≤ s.insts.length) : s.freeId = none := if_neg h.not_gt

theorem exec_construct_desc_of_free {s : State} {cfg : Cfg} (hcfg : cfg.ok = true) {n : Nat} (hn : s.freeId = some n) :
    exec (.construct cfg.desc cfg.itemCount) s =
      .next ((s.addInst (Instance.fresh cfg)).reply .ok [BitVec.ofNat 64 n]) := by
  show execConstruct cfg.desc cfg.itemCount s = _
  simp only [execConstruct, Cfg.desc_getLsbD_seven hcfg, ne_eq, not_true_eq_false, if_false, parseDesc_desc hcfg, hn]

theorem exec_construct_desc_of_full {s : State} {cfg : Cfg} (hcfg : cfg.ok = true) (hn : s.freeId = none) :
    exec (.construct cfg.desc cfg.itemCount) s = .next (s.plainFault 0 .construct .resourceExhausted) := by
  show execConstruct cfg.desc cfg.itemCount s = _
  simp only [execConstruct, Cfg.desc_getLsbD_seven hcfg, ne_eq, not_true_eq_false, if_false, parseDesc_desc hcfg, hn]

theorem replied_plainFault_resourceExhausted (s : State) (id : U16) (op : Opcode) :
    Replied s (s.plainFault id op .resourceExhausted) 0x0702 [] := by
  rw [plainFault_resourceExhausted]
  exact replied_reply_fault s _

/-- Settles O33. -/
theorem constructCreatesAnInstance : Obligations.ConstructCreatesAnInstance := by
  refine ⟨fun s cfg hlegal hcfg hroom => ?_, fun s d n hn hnone => ?_⟩
  · exact ⟨_, _, _, exec_construct_desc_of_free hcfg (freeId_of_lt hroom), createdOne_addInst hlegal hroom cfg⟩
  · have hparse : parseDesc d n = none := by
      cases hp : parseDesc d n with
      | none => rfl
      | some cfg =>
        obtain ⟨hok, hcount, hdesc⟩ := (parseDesc_iff_desc hn).mp hp
        exact absurd ⟨cfg, hok, hdesc, hcount⟩ hnone
    refine ⟨s.plainFault 0 .construct .invalidArgument, ?_, ?_⟩
    · show execConstruct d n s = _
      simp only [execConstruct, hn, ne_eq, not_true_eq_false, if_false, hparse]
    · rw [State.plainFault, faultEntry_unrecorded _ _ _ _ _ _ (.inr rfl)]
      exact replied_reply_fault s _

/-- CREATE_READER on a writer and CREATE_WRITER on a reader run the creation. -/
theorem exec_create {s : State} {inst : U16} {x : Instance} {i : Instr} {role : Role} (hx : s.inst? inst = some x)
    (hl : x.life ≠ .faulted)
    (hi : (i = .createReader inst ∧ x.cfg.role = .writer ∧ role = .reader) ∨
      (i = .createWriter inst ∧ x.cfg.role = .reader ∧ role = .writer)) :
    ∃ op, exec i s = s.createBody op inst x role := by
  have hlife : (x.life != .faulted) = true := bne_iff_ne.mpr hl
  obtain ⟨rfl, hrole, rfl⟩ | ⟨rfl, hrole, rfl⟩ := hi
  · exact ⟨.createReader, dispatch_of_valid hx hl (by simp [validIn, hrole, hlife])⟩
  · exact ⟨.createWriter, dispatch_of_valid hx hl (by simp [validIn, hrole, hlife])⟩

/-- Settles O34. -/
theorem createMakesTheCounterpart : Obligations.CreateMakesTheCounterpart := by
  intro s inst x hlegal hx hl hroom i role hi
  obtain ⟨op, hexec⟩ := exec_create hx hl hi
  refine ⟨_, _, _, hexec.trans ?_, createdOne_addInst hlegal hroom { x.cfg with role := role }⟩
  simp only [State.createBody, freeId_of_lt hroom]

/-- Settles O50. -/
theorem noFreeIdIsReported : Obligations.NoFreeIdIsReported := by
  intro s i hfull hi
  obtain ⟨cfg, hcfg, rfl⟩ | ⟨inst, x, hx, hl, hi⟩ := hi
  · exact ⟨_, exec_construct_desc_of_full hcfg (freeId_of_ge hfull), replied_plainFault_resourceExhausted s 0 .construct⟩
  · obtain ⟨role, hi⟩ : ∃ role : Role, (i = .createReader inst ∧ x.cfg.role = .writer ∧ role = .reader) ∨
        (i = .createWriter inst ∧ x.cfg.role = .reader ∧ role = .writer) :=
      hi.elim (fun h => ⟨.reader, .inl ⟨h.1, h.2, rfl⟩⟩) fun h => ⟨.writer, .inr ⟨h.1, h.2, rfl⟩⟩
    obtain ⟨op, hexec⟩ := exec_create hx hl hi
    refine ⟨_, hexec.trans ?_, replied_plainFault_resourceExhausted s inst op⟩
    simp only [State.createBody, freeId_of_ge hfull]

/-! ## INIT -/

/-- INIT with operands of the right form, those of a writer empty. -/
theorem exec_init_of_form {s : State} {inst : U16} {x : Instance} {ch0 : U64} {ch1 : Option U64}
    (hx : s.inst? inst = some x) (hl : x.life ≠ .faulted) (hform : channelsForm x.cfg.base ch1 = true)
    (hempty : x.cfg.role = .writer → s.mem.len ch0 = 0 ∧ ∀ c1, ch1 = some c1 → s.mem.len c1 = 0) :
    exec (.init inst ch0 ch1) s =
      if channelsInvalid s.mem ch0 ch1 then .next (s.plainFault inst .init .invalidArgument)
      else
        .next ((s.setInst inst
          { x.rewound with bind := bindChannels s.mem ch0 ch1, life := initLife x.cfg.role }).reply .ok []) := by
  have hne : ¬(x.cfg.role = .writer ∧ channelsNonEmpty s.mem ch0 ch1 = true) := by
    rintro ⟨hrole, hne⟩
    obtain ⟨h0, h1⟩ := hempty hrole
    obtain hne | ⟨c1, hc1, hne⟩ := (channelsNonEmpty_iff _ _ _).mp hne
    · exact hne h0
    · exact hne (h1 c1 hc1)
  refine (dispatch_of_valid (op := .init) hx hl (bne_iff_ne.mpr hl)).trans ?_
  simp only [hform, Bool.true_eq_false, if_false, hne]

/-- Settles O36. -/
theorem initBindsAndResets : Obligations.InitBindsAndResets := by
  intro s inst x ch0 ch1 hx hl hops hempty
  obtain ⟨hform, hvalid⟩ := (channelOperands_iff s x ch0 ch1).mp hops
  have hexec := exec_init_of_form hx hl hform hempty
  rw [hvalid, if_neg Bool.false_ne_true] at hexec
  refine ⟨_, _, hexec, untouched_setInst_reply hx _ _ _, rfl, State.setInst_inst?_same hx _, rfl, rfl, rfl, ?_, rfl, rfl,
    allReset_reset x.cfg⟩
  show initLife x.cfg.role = _
  cases x.cfg.role <;> rfl

theorem withinCount_eq_true_iff (cfg : Cfg) (items : U64) (n : Nat) :
    withinCount cfg items n = true ↔ ∀ c, cfg.itemCount = some c → items.toNat + n ≤ c.toNat := by
  unfold withinCount
  cases cfg.itemCount with
  | none => simp
  | some c => simp

theorem withinCount_zero {cfg : Cfg} {rows : U64} (h : ∀ c, cfg.itemCount = some c → rows.toNat ≤ c.toNat) :
    withinCount cfg 0 rows.toNat = true :=
  (withinCount_eq_true_iff cfg 0 rows.toNat).mpr fun c hc => (Nat.zero_add _).trans_le (h c hc)

/-- Settles O46: INIT by `exec_init_of_form`, RESUME by its own checks in order. -/
theorem invalidChannelArgumentsFault : Obligations.InvalidChannelArgumentsFault := by
  intro s inst x ch0 ch1 rows hx hform
  have hform := (channelsForm_iff x.cfg.base ch1).mpr hform
  refine ⟨fun hbad => ?_, fun hops hrole hl ⟨c, hc, hlt⟩ => ?_⟩
  · have hinvalid : channelsInvalid s.mem ch0 ch1 = true := by
      rw [← Bool.not_eq_false, channelsInvalid_eq_false_iff]
      rintro ⟨h0, h1⟩
      obtain h | ⟨c1, hc1, h | h⟩ := hbad
      · simp [h] at h0
      · simpa [h] using (h1 c1 hc1).1
      · exact (h1 c1 hc1).2 h
    refine ⟨fun hl hempty => exists_tookFault hx rfl (by decide) ?_, fun hrole hl => exists_tookFault hx rfl (by decide) ?_⟩
    · rw [exec_init_of_form hx hl hform hempty, if_pos hinvalid]
      rfl
    · refine (dispatch_of_resumable hx hrole hl).trans ?_
      simp only [hform, hinvalid, Bool.true_eq_false, if_false, if_true]
      rfl
  · obtain ⟨-, hvalid⟩ := (channelOperands_iff s x ch0 ch1).mp hops
    have hcount : withinCount x.cfg 0 rows.toNat = false := by
      rw [← Bool.not_eq_true, withinCount_eq_true_iff]
      exact fun h => absurd (h c hc) (by simpa using hlt)
    refine exists_tookFault hx rfl (by decide) ((dispatch_of_resumable hx hrole hl).trans ?_)
    simp only [hform, hvalid, hcount, Bool.true_eq_false, Bool.false_eq_true, if_false, if_true]
    rfl

end Sys2Proof.Machine
end

section
/-! PROOFS. The item operands of WRITE_ONE and WRITE and their faults (44_pipeline.md R294, R295), and the reading commands
(R296 to R298): where they complete, the faults that decoding meets, and READ as a run of READ_ONEs (R339). -/

namespace Sys2Proof.Machine

/-! ## What the invariant says of an initialised instance -/

theorem IsInv.bindingOk {s : State} (h : IsInv s) {inst : U16} {x : Instance} (hx : s.inst? inst = some x)
    (hf : x.life ≠ .faulted) (hu : x.life ≠ .uninit) : bindingOk s x = true :=
  ((ok_running hf hu).mp (h.oks x (State.inst?_mem hx))).2.2.2.1

theorem bound_of_bindingOk {s : State} {x : Instance} (h : bindingOk s x = true) : s.bound x = true := by
  rw [bindingOk_eq, Bool.and_eq_true] at h
  exact h.1

theorem IsInv.bound {s : State} (h : IsInv s) {inst : U16} {x : Instance} (hx : s.inst? inst = some x)
    (hf : x.life ≠ .faulted) (hu : x.life ≠ .uninit) : s.bound x = true := bound_of_bindingOk (h.bindingOk hx hf hu)

theorem life_ne_uninit_of_writing {life : Life} (h : life = .empty ∨ life = .writing) : life ≠ .uninit :=
  life_ne_uninit_of_open (life_open_of_writing h)

theorem life_ne_uninit_of_reading {life : Life} (h : life = .reading) : life ≠ .uninit := by
  rw [h]
  decide

theorem IsInv.bound_of_writing {s : State} (h : IsInv s) {inst : U16} {x : Instance} (hx : s.inst? inst = some x)
    (hl : x.life = .empty ∨ x.life = .writing) : s.bound x = true :=
  h.bound hx (life_ne_faulted_of_writing hl) (life_ne_uninit_of_writing hl)

theorem IsInv.bound_of_open {s : State} (h : IsInv s) {inst : U16} {x : Instance} (hx : s.inst? inst = some x)
    (hl : x.life = .empty ∨ x.life = .writing ∨ x.life = .committed) : s.bound x = true :=
  h.bound hx (life_ne_faulted_of_open hl) (life_ne_uninit_of_open hl)

theorem IsInv.bound_of_reading {s : State} (h : IsInv s) {inst : U16} {x : Instance} (hx : s.inst? inst = some x)
    (hl : x.life = .reading) : s.bound x = true :=
  h.bound hx (life_ne_faulted_of_reading hl) (life_ne_uninit_of_reading hl)

/-! ## Item operands -/

theorem checkOperands_items {b : Base} {items : List Item} (h : ∀ y ∈ items, y.fits b = true) :
    checkOperands b (items.map Item.operand) = some (some items) := by
  induction items with
  | nil => rfl
  | cons y items ih =>
    rw [List.map_cons, checkOperands, checkOperand_operand (h y List.mem_cons_self),
      ih fun z hz => h z (List.mem_cons_of_mem _ hz)]

theorem checkOperands_ne_none {b : Base} {os : List Operand} (hform : ∀ o ∈ os, checkOperand b o ≠ .wrongForm) :
    checkOperands b os ≠ none := by
  induction os with
  | nil => nofun
  | cons o os ih =>
    have ho := hform o List.mem_cons_self
    have hos := ih fun q hq => hform q (List.mem_cons_of_mem _ hq)
    obtain ⟨r, hr⟩ := Option.ne_none_iff_exists'.mp hos
    rw [checkOperands, hr]
    cases hc : checkOperand b o with
    | wrongForm => exact absurd hc ho
    | invalid => nofun
    | item y => cases r <;> nofun

/-- Operands of the base's form with an invalid argument among them. -/
theorem checkOperands_invalid {b : Base} {os : List Operand} (hform : ∀ o ∈ os, checkOperand b o ≠ .wrongForm)
    (hbad : ∃ o ∈ os, checkOperand b o = .invalid) : checkOperands b os = some none := by
  induction os with
  | nil =>
    obtain ⟨o, ho, -⟩ := hbad
    cases ho
  | cons o os ih =>
    have hform' : ∀ o ∈ os, checkOperand b o ≠ .wrongForm := fun q hq => hform q (List.mem_cons_of_mem _ hq)
    obtain ⟨r, hr⟩ := Option.ne_none_iff_exists'.mp (checkOperands_ne_none hform')
    rw [checkOperands, hr]
    cases ho : checkOperand b o with
    | wrongForm => exact absurd ho (hform o List.mem_cons_self)
    | invalid => rfl
    | item x =>
      obtain ⟨q, hq, hinvalid⟩ := hbad
      obtain rfl | hq := List.mem_cons.mp hq
      · cases ho.symm.trans hinvalid
      · rw [ih hform' ⟨q, hq, hinvalid⟩] at hr
        cases hr
        rfl

theorem checkOperand_ne_wrongForm {b : Base} {o : Operand} (hwell : o.wellFormed = true) (hfits : o.fits b.shape = true) :
    checkOperand b o ≠ .wrongForm := by
  cases o with
  | num w =>
    have hs : b.strings = false := by simpa [Operand.fits, Base.shape] using hfits
    simp only [checkOperand, hs, Bool.false_eq_true, if_false]
    split <;> nofun
  | str len ws =>
    have hs : b.strings = true := hfits
    have hlen : ws.length = (len.toNat + 7) / 8 := by simpa [Operand.wellFormed] using hwell
    simp only [checkOperand, hs, Bool.true_eq_false, if_false, hlen, ne_eq, not_true_eq_false]
    split <;> nofun

theorem checkOperand_of_bad {b : Base} {o : Operand} (h : BadOperand b o) : checkOperand b o = .invalid := by
  cases o with
  | num w =>
    obtain ⟨hs, hw⟩ := h
    simp [checkOperand, hs, hw.not_gt]
  | str len ws =>
    obtain ⟨hs, hlen, j, hj, y, hy, hne⟩ := h
    have hmem : y ∈ (wordsBytes ws).drop len.toNat := by
      rw [List.mem_iff_getElem?]
      exact ⟨j - len.toNat, by rw [List.getElem?_drop, Nat.add_sub_cancel' hj, hy]⟩
    have hnot : ((wordsBytes ws).drop len.toNat).all (· == 0) = false := by
      rw [← Bool.not_eq_true, List.all_eq_true]
      exact fun hall => hne (by simpa using hall y hmem)
    simp only [checkOperand, hs, hlen, hnot, Bool.true_eq_false, Bool.false_eq_true, ne_eq, not_true_eq_false, if_false]

theorem inBuffer_eq_true {buflen offset count : U64} (h : offset.toNat + count.toNat ≤ buflen.toNat) :
    inBuffer buflen offset count = true := decide_eq_true h

theorem inBuffer_eq_false {buflen offset count : U64} (h : buflen.toNat < offset.toNat + count.toNat) :
    inBuffer buflen offset count = false := decide_eq_false h.not_ge

section
variable {s : State} {inst : U16} {x : Instance}

/-- WRITE with its range inside the buffer. -/
theorem exec_write_of_inBuffer {buflen offset count : U64} {buf : List Operand} (hx : s.inst? inst = some x)
    (hrole : x.cfg.role = .writer) (hl : x.life = .empty ∨ x.life = .writing) (hbuf : buf.length = buflen.toNat)
    (hin : offset.toNat + count.toNat ≤ buflen.toNat) :
    exec (.write inst buflen offset count buf) s = s.writeOperands .write inst x (bufferSlice buf offset count) := by
  refine (dispatch_of_writing hx hrole hl (.inr rfl)).trans ?_
  simp only [hbuf, ne_eq, not_true_eq_false, if_false, inBuffer_eq_true hin, Bool.true_eq_false]

theorem writeOperands_items {op : Opcode} {items : List Item} (hfits : ∀ y ∈ items, y.fits x.cfg.base = true)
    (hb : s.bound x = true) :
    s.writeOperands op inst x (items.map Item.operand) = s.writeBody op inst x items := by
  rw [State.writeOperands, checkOperands_items hfits]
  exact onChannels_bound hb _

/-- WRITE_ONE and WRITE of items that fit reach the body that writes them. -/
theorem exec_writeCommand {items : List Item} {i : Instr} (hx : s.inst? inst = some x) (hrole : x.cfg.role = .writer)
    (hl : x.life = .empty ∨ x.life = .writing) (hb : s.bound x = true) (hi : WriteCommand inst items i)
    (hfits : ∀ y ∈ items, y.fits x.cfg.base = true) :
    ∃ op, Instr.command? i = some (op, inst) ∧ (op = .writeOne ∨ op = .write) ∧
      exec i s = s.writeBody op inst x items := by
  obtain ⟨y, rfl, rfl⟩ | ⟨buflen, offset, count, buf, rfl, hbuf, hin, hslice⟩ := hi
  · exact ⟨.writeOne, rfl, .inl rfl,
      (dispatch_of_writing hx hrole hl (.inl rfl)).trans (writeOperands_items hfits hb)⟩
  · refine ⟨.write, rfl, .inr rfl, (exec_write_of_inBuffer hx hrole hl hbuf hin).trans ?_⟩
    rw [bufferSlice, hslice]
    exact writeOperands_items hfits hb

theorem ne_construct_of_writing {op : Opcode} (h : op = .writeOne ∨ op = .write) : op ≠ .construct := by
  obtain rfl | rfl := h <;> decide

theorem withinCount_of_roomFor {n : Nat} (h : RoomFor x n) : withinCount x.cfg x.items n = true :=
  (withinCount_eq_true_iff _ _ _).mpr h

theorem withinCount_of_not_roomFor {n : Nat} (h : ¬RoomFor x n) : withinCount x.cfg x.items n = false := by
  rw [← Bool.not_eq_true, withinCount_eq_true_iff]
  exact h

/-- An invalid argument among the operands, none of the wrong form. -/
theorem writeOperands_invalid {op : Opcode} {os : List Operand} (hform : ∀ o ∈ os, checkOperand x.cfg.base o ≠ .wrongForm)
    (hbad : ∃ o ∈ os, checkOperand x.cfg.base o = .invalid) :
    s.writeOperands op inst x os = .next (s.plainFault inst op .invalidArgument) := by
  rw [State.writeOperands, checkOperands_invalid hform hbad]

end

/-- Settles O45. -/
theorem invalidItemArgumentsFault : Obligations.InvalidItemArgumentsFault := by
  intro s inst x hinv hx
  have h := (inv_iff s).mp hinv
  refine ⟨fun hrole hl => ⟨?_, fun o ho => ?_, ?_, ?_⟩, fun hrole hl buflen offset count hout => ?_⟩
  · intro buflen offset count buf hbuf hout
    refine exists_tookFault hx rfl (by decide) ((dispatch_of_writing hx hrole hl (.inr rfl)).trans ?_)
    simp only [hbuf, ne_eq, not_true_eq_false, if_false, inBuffer_eq_false hout, if_true]
    rfl
  · have hbad := checkOperand_of_bad ho
    refine exists_tookFault hx rfl (by decide) ((dispatch_of_writing hx hrole hl (.inl rfl)).trans ?_)
    exact writeOperands_invalid (by simp [hbad]) ⟨o, List.mem_singleton_self o, hbad⟩
  · rintro buflen offset count buf hbuf hin hwell ⟨o, ho, hbad⟩
    refine exists_tookFault hx rfl (by decide) ((exec_write_of_inBuffer hx hrole hl hbuf hin).trans ?_)
    exact writeOperands_invalid (fun q hq => checkOperand_ne_wrongForm (hwell q hq).1 (hwell q hq).2)
      ⟨o, ho, checkOperand_of_bad hbad⟩
  · intro items i op hi hop hfits hroom
    obtain ⟨op', hop', hwriting, hexec⟩ := exec_writeCommand hx hrole hl (h.bound_of_writing hx hl) hi hfits
    cases hop.symm.trans hop'
    refine exists_tookFault hx rfl (ne_construct_of_writing hwriting) (hexec.trans ?_)
    simp only [State.writeBody, withinCount_of_not_roomFor hroom, if_true]
    rfl
  · refine exists_tookFault hx rfl (by decide) ((dispatch_of_reading hx hrole hl (.inl rfl)).trans ?_)
    simp only [inBuffer_eq_false hout, if_true]
    rfl

/-! ## The reading commands -/

section
variable {s : State} {inst : U16} {x : Instance} (hinv : IsInv s) (hx : s.inst? inst = some x)
  (hrole : x.cfg.role = .reader) (hl : x.life = .reading)
include hx hrole hl

theorem exec_readOne_of_reading : exec (.readOne inst) s = s.readBody .readOne inst x 1 answerReadOne :=
  dispatch_of_reading hx hrole hl (.inl rfl)

theorem exec_skip_of_reading (n : U64) : exec (.skip inst n) s = s.readBody .skip inst x n.toNat answerSkip :=
  dispatch_of_reading hx hrole hl (.inl rfl)

theorem exec_read_of_reading {buflen offset n : U64} (hin : offset.toNat + n.toNat ≤ buflen.toNat) :
    exec (.read inst buflen offset n) s = s.readBody .read inst x n.toNat answerRead := by
  refine (dispatch_of_reading hx hrole hl (.inl rfl)).trans ?_
  simp only [inBuffer_eq_true hin, Bool.true_eq_false, if_false]

end

section
variable {s : State} {inst : U16} {x : Instance} {op : Opcode} {n : Nat}
  {answer : Bool → List Item → Status × List U64} {xs : List Item} {r : Reading}

/-- Decoding meets no fault. -/
theorem readBody_complete {e : ReadEnd} (hb : s.bound x = true)
    (hclean : ∀ sl ∈ x.cfg.base.slots, s.stale x sl = false)
    (hread : readItems s.params x.cfg (s.chanBytes x) n { items := x.items, work := x.work } = (e, xs, r))
    (he : e = .done ∨ e = .eos) :
    s.readBody op inst x n answer =
      .next ((s.setInst inst { x with items := r.items, work := r.work }).reply (answer (decide (e = .done)) xs).1
        (answer (decide (e = .done)) xs).2) := by
  rw [State.readBody, onChannels_bound hb, hazardCheck_clean hclean, hread]
  obtain rfl | rfl := he <;> rfl

theorem readBody_corrupt {sl : Slot} {off : U64} (hb : s.bound x = true)
    (hclean : ∀ sl ∈ x.cfg.base.slots, s.stale x sl = false)
    (hread : readItems s.params x.cfg (s.chanBytes x) n { items := x.items, work := x.work } = (.corrupt sl off, xs, r)) :
    s.readBody op inst x n answer =
      .next (s.executionFault inst { x with items := r.items } op .corruptStream sl.number off) := by
  rw [State.readBody, onChannels_bound hb, hazardCheck_clean hclean, hread]

theorem Status.ofCount_word (e : ReadEnd) :
    (Status.ofCount (decide (e = .done))).word = if e = .done then 0 else 1 := by
  by_cases h : e = .done <;> simp [h, Status.ofCount, Status.word]

theorem exists_corrupted {slot : Byte} {off : U64} {y : Instance} {code : FaultCode} {o : Outcome}
    (hx : s.inst? inst = some x) (hcode : code.unrecorded = false) (hop : op ≠ .construct)
    (ho : o = .next (s.executionFault inst y op code slot off)) (hy : y.cfg = x.cfg) :
    ∃ t, o = .next t ∧ TookExecutionFault s t inst x op code slot off :=
  ⟨_, ho, tookExecutionFault_executionFault hx hy hcode hop slot off⟩

end

/-- Settles O38. -/
theorem readsComplete : Obligations.ReadsComplete := by
  intro s inst x n e xs r hinv hx hrole hl hsync hread he
  have hb := ((inv_iff s).mp hinv).bound_of_reading hx hl
  have hcomplete (op : Opcode) (answer : Bool → List Item → Status × List U64)
      (hanswer : ∀ done xs, (answer done xs).1 = Status.ofCount done) :
      ∃ t, s.readBody op inst x n.toNat answer = .next t ∧ Untouched s t inst [] ∧
        t.inst? inst = some { x with items := r.items, work := r.work } ∧
        Answered s t (if e = .done then 0 else 1) (answer (decide (e = .done)) xs).2 := by
    refine ⟨_, readBody_complete hb (stale_of_synced hb hsync) hread he, untouched_setInst_reply hx _ _ _,
      State.setInst_inst?_same hx _, ?_⟩
    rw [Answered, State.reply_results, hanswer, Status.ofCount_word]
    rfl
  refine ⟨fun hn => ?_, fun buflen offset hin => ?_, ?_⟩
  · have hone : (1 : Nat) = n.toNat := by rw [hn]; rfl
    rw [exec_readOne_of_reading hx hrole hl, hone]
    exact hcomplete _ answerReadOne fun _ _ => rfl
  · rw [exec_read_of_reading hx hrole hl hin]
    exact hcomplete _ answerRead fun _ _ => rfl
  · rw [exec_skip_of_reading hx hrole hl]
    exact hcomplete _ answerSkip fun _ _ => rfl

/-! ## RESUME up to its decoding -/

section
variable {s : State} {inst : U16} {x : Instance} {ch0 : U64} {ch1 : Option U64} {rows : U64}

theorem chanBytes_rebound (s : State) (x : Instance) (ch0 : U64) (ch1 : Option U64) :
    s.chanBytes (x.rebound s.mem ch0 ch1) = contents s ch0 ch1 := by
  cases ch1 <;> rfl

theorem resumeDecode_rebound (s : State) (x : Instance) (ch0 : U64) (ch1 : Option U64) (n : Nat) :
    s.resumeDecode (x.rebound s.mem ch0 ch1) n =
      readItems s.params { x.cfg with itemCount := none } (contents s ch0 ch1) n
        { items := 0, work := Work.reset x.cfg } := by
  rw [State.resumeDecode, chanBytes_rebound]
  rfl

variable {xs : List Item} {r : Reading} (hx : s.inst? inst = some x) (hrole : x.cfg.role = .writer)
  (hl : x.life = .uninit ∨ x.life = .committed) (hops : ChannelOperands s x ch0 ch1)
  (hcount : ∀ c, x.cfg.itemCount = some c → rows.toNat ≤ c.toNat)
include hx hrole hl hops hcount

theorem exec_resume_corrupt {sl : Slot} {off : U64}
    (hread : readItems s.params { x.cfg with itemCount := none } (contents s ch0 ch1) rows.toNat
      { items := 0, work := Work.reset x.cfg } = (.corrupt sl off, xs, r)) :
    exec (.resume inst ch0 ch1 rows) s =
      .next (s.executionFault inst (x.rebound s.mem ch0 ch1) .resume .corruptStream sl.number off) := by
  obtain ⟨hform, hvalid⟩ := (channelOperands_iff s x ch0 ch1).mp hops
  refine (dispatch_of_resumable hx hrole hl).trans ?_
  simp only [hform, hvalid, withinCount_zero hcount, Bool.true_eq_false, Bool.false_eq_true, if_false,
    resumeDecode_rebound, hread]

theorem exec_resume_short
    (hread : readItems s.params { x.cfg with itemCount := none } (contents s ch0 ch1) rows.toNat
      { items := 0, work := Work.reset x.cfg } = (.eos, xs, r)) :
    exec (.resume inst ch0 ch1 rows) s =
      .next (s.executionFault inst (x.rebound s.mem ch0 ch1) .resume .resumeShort 0xFF#8 0) := by
  obtain ⟨hform, hvalid⟩ := (channelOperands_iff s x ch0 ch1).mp hops
  refine (dispatch_of_resumable hx hrole hl).trans ?_
  simp only [hform, hvalid, withinCount_zero hcount, Bool.true_eq_false, Bool.false_eq_true, if_false,
    resumeDecode_rebound, hread]

theorem exec_resume_done
    (hread : readItems s.params { x.cfg with itemCount := none } (contents s ch0 ch1) rows.toNat
      { items := 0, work := Work.reset x.cfg } = (.done, xs, r)) :
    exec (.resume inst ch0 ch1 rows) s =
      if overflows s (s.resumed inst (x.rebound s.mem ch0 ch1) xs) (x.rebound s.mem ch0 ch1) then
        .next (s.plainFault inst .resume .invalidArgument)
      else .next ((s.resumed inst (x.rebound s.mem ch0 ch1) xs).reply .ok []) := by
  obtain ⟨hform, hvalid⟩ := (channelOperands_iff s x ch0 ch1).mp hops
  refine (dispatch_of_resumable hx hrole hl).trans ?_
  simp only [hform, hvalid, withinCount_zero hcount, Bool.true_eq_false, Bool.false_eq_true, if_false,
    resumeDecode_rebound, hread]

end

/-- Settles O49. -/
theorem executionFaultsLeaveTheChannels : Obligations.ExecutionFaultsLeaveTheChannels := by
  refine ⟨fun s inst x n sl off xs r hinv hx hrole hl hsync hread => ?_,
    fun s inst x ch0 ch1 rows e xs r hx hrole hl hops hcount hread => ⟨?_, ?_⟩⟩
  · have hb := ((inv_iff s).mp hinv).bound_of_reading hx hl
    refine ⟨fun hn => ?_, fun buflen offset hin => ?_, ?_⟩
    · have hone : n.toNat = 1 := by rw [hn]; rfl
      rw [hone] at hread
      rw [exec_readOne_of_reading hx hrole hl]
      exact exists_corrupted hx rfl (by decide) (readBody_corrupt hb (stale_of_synced hb hsync) hread) rfl
    · rw [exec_read_of_reading hx hrole hl hin]
      exact exists_corrupted hx rfl (by decide) (readBody_corrupt hb (stale_of_synced hb hsync) hread) rfl
    · rw [exec_skip_of_reading hx hrole hl]
      exact exists_corrupted hx rfl (by decide) (readBody_corrupt hb (stale_of_synced hb hsync) hread) rfl
  · rintro sl off rfl
    exact exists_corrupted hx rfl (by decide) (exec_resume_corrupt hx hrole hl hops hcount hread) rfl
  · rintro rfl
    exact exists_corrupted hx rfl (by decide) (exec_resume_short hx hrole hl hops hcount hread) rfl

end Sys2Proof.Machine
end

section
/-! PROOFS. READ of n items, SKIP of n items and n READ_ONEs (44_pipeline.md R298, R339): one run of the item step, answered in
three ways; end of stream changes no register, so READ_ONEs after it answer EOS again. -/

namespace Sys2Proof.Machine

/-! ## End of stream changes no register, R292 -/

/-- The step changes no state where it answers EOS. -/
def EosKeeps {α κ : Type} (pull : κ → Got α × κ) : Prop := ∀ k, (pull k).1 = .eos → (pull k).2 = k

theorem eosKeeps_fbReadWord (v : Variant) (sl : Slot) (ch : List Byte) : EosKeeps (fbReadWord v sl ch) :=
  fun _ h => fbReadWord_eos_work (Prod.ext h rfl)

theorem eosKeeps_baseRead (b : Base) (ch : List Byte) : EosKeeps (baseRead b ch) := by
  intro k
  unfold baseRead
  cases b.variant? with
  | some v => exact eosKeeps_fbReadWord v .data ch k
  | none =>
    simp only [bwReadWord]
    split_ifs
    · exact fun _ => rfl
    · nofun

theorem eosKeeps_stageRead {κ : Type} {w h : Nat} {pull : κ → Got U64 × κ} (hp : EosKeeps pull) (lone : κ → U64) :
    EosKeeps fun q : StageRegs × κ => stageRead w h pull lone q.1 q.2 := by
  rintro ⟨st, k⟩ he
  obtain ⟨g, k1, hg⟩ : ∃ g k1, pull k = (g, k1) := ⟨_, _, rfl⟩
  cases g with
  | eos =>
    have hk := hp k (by rw [hg])
    rw [hg] at hk
    simp only at hk ⊢
    rw [stageRead_eos hg, hk]
  | value y =>
    cases st with
    | xor prev => simp [stageRead, hg] at he
    | dfcm r => simp [stageRead, hg] at he
    | dd r =>
      by_cases hfp : r.fp = 0
      · obtain ⟨e, k2, he2⟩ : ∃ e k2, pull k1 = (e, k2) := ⟨_, _, rfl⟩
        cases e <;> simp [stageRead, hg, hfp, he2] at he
      · simp [stageRead, hg, hfp] at he
  | corrupt sl off =>
    cases st with
    | xor prev => simp [stageRead, hg] at he
    | dfcm r => simp [stageRead, hg] at he
    | dd r => by_cases hfp : r.fp = 0 <;> simp [stageRead, hg, hfp] at he

theorem eosKeeps_pullStage {w h : Nat} {base : Work → Got U64 × Work} (hb : EosKeeps base) (n : Nat) :
    EosKeeps (pullStage w h base n) := by
  have hbase (sts : List StageRegs) (k : Work) (he : (base k).1 = .eos) : (sts, (base k).2) = (sts, k) := by
    rw [hb k he]
  induction n with
  | zero => exact fun q he => hbase q.1 q.2 he
  | succ n ih =>
    rintro ⟨sts, k⟩ he
    cases sts with
    | nil => exact hbase [] k he
    | cons st rest =>
      have hstage := eosKeeps_stageRead (w := w) (h := h) ih (fun x => x.2.cur.get .data) (st, rest, k) he
      simp only [pullStage]
      simp only at hstage
      rw [hstage]

theorem eosKeeps_variReadItem (ch : List Byte) : EosKeeps (variReadItem ch) := by
  intro k
  simp only [variReadItem]
  split
  · exact fun _ => rfl
  · split_ifs <;> nofun

theorem eosKeeps_vardReadItem (chs : PerSlot (List Byte)) : EosKeeps (vardReadItem chs) := by
  intro k
  unfold vardReadItem
  split
  · next he => exact fun _ => fbReadWord_eos_work he
  · nofun
  · simp only
    split_ifs <;> nofun

theorem eosKeeps_pullItem (p : Params) (b : Base) (chs : PerSlot (List Byte)) : EosKeeps (pullItem p b chs) := by
  have hstr (g : Got (List Byte)) (h : g.str = .eos) : g = .eos := by
    cases g with
    | eos => rfl
    | value x => cases h
    | corrupt sl off => cases h
  have hnum (g : Got U64) (h : g.num = .eos) : g = .eos := by
    cases g with
    | eos => rfl
    | value x => cases h
    | corrupt sl off => cases h
  intro k
  unfold pullItem
  split_ifs
  · exact fun he => eosKeeps_variReadItem chs.data k (hstr _ he)
  · exact fun he => eosKeeps_vardReadItem chs k (hstr _ he)
  · intro he
    have := eosKeeps_pullStage (eosKeeps_baseRead b chs.data) k.xf.length (k.xf, k) (hnum _ he)
    simp only [pullWord]
    rw [this]

theorem eosKeeps_readItem (p : Params) (cfg : Cfg) (chs : PerSlot (List Byte)) : EosKeeps (readItem p cfg chs) := by
  intro r
  unfold readItem
  split_ifs
  · exact fun _ => rfl
  · have hpull := eosKeeps_pullItem p cfg.base chs r.work
    obtain ⟨g, k, hg⟩ : ∃ g k, pullItem p cfg.base chs r.work = (g, k) := ⟨_, _, rfl⟩
    rw [hg] at hpull ⊢
    cases g with
    | value x => nofun
    | eos =>
      intro _
      have hk : k = r.work := hpull rfl
      rw [hk]
    | corrupt sl off => nofun

/-! ## Runs of reads -/

section
variable {p : Params} {cfg : Cfg} {chs : PerSlot (List Byte)} {n : Nat} {r r' : Reading} {xs : List Item}

theorem readItems_succ_value {x : Item} (h : readItem p cfg chs r = (.value x, r')) :
    readItems p cfg chs (n + 1) r =
      ((readItems p cfg chs n r').1, x :: (readItems p cfg chs n r').2.1, (readItems p cfg chs n r').2.2) := by
  simp only [readItems, h]

theorem readItems_succ_eos (h : readItem p cfg chs r = (.eos, r')) : readItems p cfg chs (n + 1) r = (.eos, [], r') := by
  simp only [readItems, h]

theorem readItems_succ_corrupt {sl : Slot} {off : U64} (h : readItem p cfg chs r = (.corrupt sl off, r')) :
    readItems p cfg chs (n + 1) r = (.corrupt sl off, [], r') := by
  simp only [readItems, h]

/-- How many items a run that meets no fault reads. -/
theorem readItems_length {e : ReadEnd} (h : readItems p cfg chs n r = (e, xs, r')) :
    xs.length ≤ n ∧ (e = .done → xs.length = n) ∧ (e = .eos → xs.length < n) := by
  induction n generalizing r xs with
  | zero =>
    cases h
    exact ⟨le_rfl, fun _ => rfl, nofun⟩
  | succ n ih =>
    obtain ⟨g, r1, hg⟩ : ∃ g r1, readItem p cfg chs r = (g, r1) := ⟨_, _, rfl⟩
    cases g with
    | value x =>
      rw [readItems_succ_value hg] at h
      cases h
      obtain ⟨hle, hdone, heos⟩ := ih (r := r1) rfl
      exact ⟨Nat.succ_le_succ hle, fun he => congrArg (· + 1) (hdone he), fun he => Nat.succ_lt_succ (heos he)⟩
    | eos =>
      rw [readItems_succ_eos hg] at h
      cases h
      exact ⟨Nat.zero_le _, nofun, fun _ => Nat.succ_pos n⟩
    | corrupt sl off =>
      rw [readItems_succ_corrupt hg] at h
      cases h
      exact ⟨Nat.zero_le _, nofun, nofun⟩

end

/-! ## READ_ONE by READ_ONE -/

/-- The state in which the reader `x` has come to `r`, with its results. -/
def State.afterReads (s : State) (inst : U16) (x : Instance) (r : Reading) (res : List Result) : State :=
  { s.setInst inst { x with items := r.items, work := r.work } with results := res }

theorem State.setInst_self {s : State} {inst : U16} {x : Instance} (hx : s.inst? inst = some x) : s.setInst inst x = s := by
  obtain ⟨hlt, hget⟩ := List.getElem?_eq_some_iff.mp (State.inst?_getElem hx)
  rw [State.setInst, ← hget, List.set_getElem_self]

theorem State.afterReads_self {s : State} {inst : U16} {x : Instance} (hx : s.inst? inst = some x) :
    s.afterReads inst x { items := x.items, work := x.work } s.results = s := by
  have : s.setInst inst { x with items := x.items, work := x.work } = s := State.setInst_self hx
  rw [State.afterReads, this]

section
variable {s : State} {inst : U16} {x : Instance} (hx : s.inst? inst = some x) (hrole : x.cfg.role = .reader)
  (hl : x.life = .reading) (hb : s.bound x = true) (hclean : ∀ sl ∈ x.cfg.base.slots, s.stale x sl = false)
include hx hrole hl hb hclean

/-- One READ_ONE from wherever the reader has come to. -/
theorem exec_readOne_afterReads {r r' : Reading} {e : ReadEnd} {xs : List Item} (res : List Result)
    (hread : readItems s.params x.cfg (s.chanBytes x) 1 r = (e, xs, r')) (he : e = .done ∨ e = .eos) :
    exec (.readOne inst) (s.afterReads inst x r res) =
      .next (s.afterReads inst x r'
        ({ status := if e = .done then 0 else 1, words := xs.flatMap Item.words } :: res)) := by
  have hinst : (s.afterReads inst x r res).inst? inst = some { x with items := r.items, work := r.work } :=
    State.setInst_inst?_same hx _
  refine (exec_readOne_of_reading hinst hrole hl).trans
    ((readBody_complete (s := s.afterReads inst x r res) (x := { x with items := r.items, work := r.work }) hb hclean
      hread he).trans ?_)
  rw [← Status.ofCount_word]
  simp only [State.afterReads, State.setInst, State.reply, List.set_set, answerReadOne]

theorem runAll_readOne_eos {r : Reading} (heos : readItem s.params x.cfg (s.chanBytes x) r = (.eos, r)) (n : Nat)
    (res : List Result) :
    runAll (List.replicate n (.readOne inst)) (s.afterReads inst x r res) =
      .next (s.afterReads inst x r (List.replicate n { status := 1, words := [] } ++ res)) := by
  induction n generalizing res with
  | zero => rfl
  | succ n ih =>
    have hone := exec_readOne_afterReads hx hrole hl hb hclean res (readItems_succ_eos (n := 0) heos) (.inr rfl)
    rw [List.replicate_succ, runAll, hone, List.replicate_succ', List.append_assoc]
    exact ih _

/-- The answers of n READ_ONEs that return the items, the newest first. -/
def readOneResults (n : Nat) (xs : List Item) : List Result :=
  (xs.map (fun y => ({ status := 0, words := y.words } : Result)) ++
    List.replicate (n - xs.length) ({ status := 1, words := [] } : Result)).reverse

/-- n READ_ONEs: OK and an item each while there are items, then EOS. -/
theorem runAll_readOnes {e : ReadEnd} (he : e = .done ∨ e = .eos) (n : Nat) {r r' : Reading} {xs : List Item}
    (hread : readItems s.params x.cfg (s.chanBytes x) n r = (e, xs, r')) (res : List Result) :
    runAll (List.replicate n (.readOne inst)) (s.afterReads inst x r res) =
      .next (s.afterReads inst x r' (readOneResults n xs ++ res)) := by
  induction n generalizing r xs res with
  | zero =>
    cases hread
    rfl
  | succ n ih =>
    obtain ⟨g, r1, hg⟩ : ∃ g r1, readItem s.params x.cfg (s.chanBytes x) r = (g, r1) := ⟨_, _, rfl⟩
    cases g with
    | value y =>
      have hone := exec_readOne_afterReads hx hrole hl hb hclean res (readItems_succ_value (n := 0) hg) (.inl rfl)
      rw [readItems_succ_value hg] at hread
      cases hread
      rw [List.replicate_succ, runAll, hone]
      refine (ih rfl _).trans ?_
      simp [readItems, readOneResults]
    | eos =>
      have hkeep : r1 = r := by
        have := eosKeeps_readItem s.params x.cfg (s.chanBytes x) r (by rw [hg])
        rwa [hg] at this
      subst hkeep
      rw [readItems_succ_eos hg] at hread
      cases hread
      simpa [readOneResults] using runAll_readOne_eos hx hrole hl hb hclean hg (n + 1) res
    | corrupt sl off =>
      rw [readItems_succ_corrupt hg] at hread
      cases hread
      obtain he | he := he <;> cases he

end

/-! ## Where a READ answers OK or EOS -/

theorem Status.fault_word_ne : ∀ code : Byte, (Status.fault code).word ≠ 0 ∧ (Status.fault code).word ≠ 1 := by decide

/-- A state whose newest result is OK or EOS. -/
def State.answeredOk (t : State) : Prop := t.lastStatus = 0 ∨ t.lastStatus = 1

theorem not_answeredOk_reply (s : State) (code : Byte) (ws : List U64) : ¬(s.reply (.fault code) ws).answeredOk :=
  fun h => h.elim (Status.fault_word_ne code).1 (Status.fault_word_ne code).2

theorem not_answeredOk_faultEntry (s : State) (id : U16) (op : Opcode) (code : FaultCode) (slot : Byte) (off : U64) :
    ¬(s.faultEntry id op code slot off).answeredOk := by
  have hres := (faultEntry_fields s id op code slot off).2.2.2.2.2.2
  rw [State.answeredOk, State.lastStatus, hres]
  exact not_answeredOk_reply s code.code []

/-- A READ that answers OK or EOS read its items from a reader whose channels nobody else changed. -/
theorem read_of_answeredOk {s t : State} {inst : U16} {buflen offset n : U64}
    (h : exec (.read inst buflen offset n) s = .next t) (hok : t.answeredOk) :
    ∃ (x : Instance) (e : ReadEnd) (xs : List Item) (r : Reading), s.inst? inst = some x ∧ x.cfg.role = .reader ∧
      x.life = .reading ∧ s.bound x = true ∧ (∀ sl ∈ x.cfg.base.slots, s.stale x sl = false) ∧
      readItems s.params x.cfg (s.chanBytes x) n.toNat { items := x.items, work := x.work } = (e, xs, r) ∧
      (e = .done ∨ e = .eos) := by
  obtain ⟨-, h⟩ | ⟨x, hx, ⟨-, h⟩ | ⟨-, h⟩ | ⟨-, hv, h⟩⟩ := dispatch_cases h
  · cases h
    exact absurd hok (not_answeredOk_faultEntry _ _ _ _ _ _)
  · cases h
    exact absurd hok (not_answeredOk_reply _ _ _)
  · cases h
    exact absurd hok (not_answeredOk_faultEntry _ _ _ _ _ _)
  · obtain ⟨hrole, hl⟩ := validIn_reading (op := .read) rfl hv
    split_ifs at h
    · cases h
      exact absurd hok (not_answeredOk_faultEntry _ _ _ _ _ _)
    · obtain ⟨hb, h⟩ := onChannels_next h
      obtain ⟨sl, -, -, rfl⟩ | ⟨hclean, h⟩ := hazardCheck_next h
      · exact absurd hok (not_answeredOk_faultEntry _ _ _ _ _ _)
      · obtain ⟨e, xs, r, hread⟩ : ∃ e xs r, readItems s.params x.cfg (s.chanBytes x) n.toNat
            { items := x.items, work := x.work } = (e, xs, r) := ⟨_, _, _, rfl⟩
        refine ⟨x, e, xs, r, hx, hrole, hl, hb, hclean, hread, ?_⟩
        rw [hread] at h
        cases e with
        | done => exact .inl rfl
        | eos => exact .inr rfl
        | corrupt sl off =>
          cases h
          exact absurd hok (not_answeredOk_faultEntry _ _ _ _ _ _)

/-- Settles O32. -/
theorem skipAndReadOnesAreARead : Obligations.SkipAndReadOnesAreARead := by
  intro s t inst buflen offset n _ hin ht hok
  obtain ⟨x, e, xs, r, hx, hrole, hl, hb, hclean, hread, he⟩ := read_of_answeredOk ht hok
  have hcomplete {op : Opcode} (answer : Bool → List Item → Status × List U64) :=
    readBody_complete (op := op) (inst := inst) (answer := answer) hb hclean hread he
  rw [exec_read_of_reading hx hrole hl hin, hcomplete answerRead] at ht
  cases ht
  have hones := runAll_readOnes hx hrole hl hb hclean he n.toNat hread s.results
  rw [State.afterReads_self hx] at hones
  obtain ⟨hle, hdone, heos⟩ := readItems_length hread
  refine ⟨_, _, (exec_skip_of_reading hx hrole hl n).trans (hcomplete answerSkip), hones, rfl, rfl, rfl, rfl, xs.length,
    xs.map Item.words, hle, List.length_map _, ?_, ?_, rfl, ?_⟩
  · show (Status.ofCount (decide (e = .done))).word = 0 ↔ _
    rw [Status.ofCount_word]
    obtain rfl | rfl := he
    · simpa using hdone rfl
    · simpa using (heos rfl).ne
  · rw [← List.flatMap_def]
    rfl
  · rw [List.map_map]
    rfl

end Sys2Proof.Machine
end

section
/-! PROOFS. The output paths of an instance (20_memory.md R76, R77): what changing them all does to each of them, to the channels
and to the instance, and when it takes a channel past CHANNEL_MAX (R71). -/

namespace Sys2Proof.Machine

/-! ## One output path -/

theorem lane_eq_some_iff {s : State} {x : Instance} {sl : Slot} {l : Lane} :
    s.lane x sl = some l ↔ ∃ b c, x.bind.get sl = some b ∧ s.mem.get b.chan = some c ∧
      l = { bytes := c.bytes, gen := c.gen, seen := b.seen, stage := x.work.stage.get sl } := by
  unfold State.lane
  cases hb : x.bind.get sl with
  | none => simp
  | some b =>
    simp only [Option.map_eq_some_iff, Option.some.injEq]
    constructor
    · rintro ⟨c, hc, rfl⟩
      exact ⟨b, c, rfl, hc, rfl⟩
    · rintro ⟨b', c, rfl, hc, rfl⟩
      exact ⟨c, hc, rfl⟩

/-- A bound slot has an output path. -/
theorem exists_lane {s : State} {x : Instance} (hb : s.bound x = true) {sl : Slot} (hsl : sl ∈ x.cfg.base.slots) :
    ∃ l, s.lane x sl = some l := by
  obtain ⟨b, hbind, hget⟩ := (boundChan_isSome s x sl).mp (List.all_eq_true.mp hb sl hsl)
  obtain ⟨c, hc⟩ := Option.isSome_iff_exists.mp hget
  exact ⟨_, lane_eq_some_iff.mpr ⟨b, c, hbind, hc, rfl⟩⟩

/-- No two slots are bound to one channel (10_state.md R34). -/
def DistinctBinds (x : Instance) : Prop :=
  ∀ sl sl' b b', sl ≠ sl' → x.bind.get sl = some b → x.bind.get sl' = some b' → b.chan ≠ b'.chan

theorem distinctBinds_of_bindingOk {s : State} {x : Instance} (h : bindingOk s x = true) : DistinctBinds x := by
  have hne : ∀ a b, x.bind.data = some a → x.bind.lens = some b → a.chan ≠ b.chan := by
    intro a b ha hb
    rw [bindingOk_eq, Bool.and_eq_true, ha, hb] at h
    simpa [distinct] using h.2
  intro sl sl' b b' hsl hb hb'
  cases sl <;> cases sl'
  · exact absurd rfl hsl
  · exact hne b b' hb hb'
  · exact (hne b' b hb' hb).symm
  · exact absurd rfl hsl

theorem LaneFrame.distinctBinds {s t : State} {x y : Instance} (h : LaneFrame s t x y) (hd : DistinctBinds x) :
    DistinctBinds y := by
  intro sl sl' b b' hsl hb hb'
  have hc := h.bindGet sl
  have hc' := h.bindGet sl'
  rw [hb, Option.map_some, eq_comm, Option.map_eq_some_iff] at hc
  rw [hb', Option.map_some, eq_comm, Option.map_eq_some_iff] at hc'
  obtain ⟨a, ha, hab⟩ := hc
  obtain ⟨a', ha', hab'⟩ := hc'
  rw [← hab, ← hab']
  exact hd sl sl' a a' hsl ha ha'

section
variable {s : State} {x : Instance} {sl sl' : Slot}

theorem onLane_lane_same (f : Lane → Lane) {l : Lane} (h : s.lane x sl = some l) :
    (s.onLane x sl f).1.lane (s.onLane x sl f).2 sl = some (f l) := by
  obtain ⟨b, c, hb, hc, rfl⟩ := lane_eq_some_iff.mp h
  rw [onLane_bound f hb hc]
  refine lane_eq_some_iff.mpr ⟨_, _, PerSlot.get_set_same _ _ _, Memory.get_put_same hc _ _, ?_⟩
  simp only [PerSlot.get_set_same]

theorem onLane_unused (f : Lane → Lane) (hne : sl' ≠ sl) :
    (s.onLane x sl f).2.bind.get sl' = x.bind.get sl' ∧
    (s.onLane x sl f).2.work.stage.get sl' = x.work.stage.get sl' := by
  cases hb : x.bind.get sl with
  | none => simp [State.onLane, hb]
  | some b =>
    cases hc : s.mem.get b.chan with
    | none => simp [State.onLane, State.lane, hb, hc]
    | some c =>
      rw [onLane_bound f hb hc]
      exact ⟨PerSlot.get_set_ne _ hne _, PerSlot.get_set_ne _ hne _⟩

theorem onLane_lane_ne (f : Lane → Lane) (hd : DistinctBinds x) (hne : sl' ≠ sl) :
    (s.onLane x sl f).1.lane (s.onLane x sl f).2 sl' = s.lane x sl' := by
  obtain ⟨hbind, hstage⟩ := onLane_unused (s := s) (x := x) f hne
  unfold State.lane
  rw [hbind, hstage]
  cases hb : x.bind.get sl' with
  | none => rfl
  | some b =>
    have hget : (s.onLane x sl f).1.mem.get b.chan = s.mem.get b.chan :=
      onLane_get_ne f fun b' hb' => (hd sl sl' b' b hne.symm hb' hb).symm
    simp only [hget]

theorem onSlots_unused (f : Slot → Lane → Lane) {sls : List Slot} (h : sl ∉ sls) :
    (s.onSlots x f sls).2.bind.get sl = x.bind.get sl ∧
    (s.onSlots x f sls).2.work.stage.get sl = x.work.stage.get sl := by
  induction sls generalizing s x with
  | nil => exact ⟨rfl, rfl⟩
  | cons sl' rest ih =>
    rw [List.mem_cons, not_or] at h
    obtain ⟨hb, hstage⟩ := onLane_unused (s := s) (x := x) (f sl') h.1
    obtain ⟨hb', hstage'⟩ := ih (s := (s.onLane x sl' (f sl')).1) (x := (s.onLane x sl' (f sl')).2) h.2
    exact ⟨hb'.trans hb, hstage'.trans hstage⟩

theorem onSlots_lane_of_notMem (f : Slot → Lane → Lane) {sls : List Slot} (hd : DistinctBinds x) (h : sl ∉ sls) :
    (s.onSlots x f sls).1.lane (s.onSlots x f sls).2 sl = s.lane x sl := by
  induction sls generalizing s x with
  | nil => rfl
  | cons sl' rest ih =>
    rw [List.mem_cons, not_or] at h
    exact (ih ((onLane_frame s x sl' (f sl')).distinctBinds hd) h.2).trans (onLane_lane_ne (f sl') hd h.1)

theorem onSlots_lane_of_mem (f : Slot → Lane → Lane) {sls : List Slot} (hd : DistinctBinds x) (hnodup : sls.Nodup)
    (h : sl ∈ sls) {l : Lane} (hl : s.lane x sl = some l) :
    (s.onSlots x f sls).1.lane (s.onSlots x f sls).2 sl = some (f sl l) := by
  induction sls generalizing s x with
  | nil => cases h
  | cons sl' rest ih =>
    rw [List.nodup_cons] at hnodup
    have hd' := (onLane_frame s x sl' (f sl')).distinctBinds hd
    by_cases he : sl = sl'
    · subst he
      exact (onSlots_lane_of_notMem f hd' hnodup.1).trans (onLane_lane_same (f sl) hl)
    · exact ih hd' hnodup.2 ((List.mem_cons.mp h).resolve_left he) ((onLane_lane_ne (f sl') hd he).trans hl)

end

theorem Base.slots_nodup (b : Base) : b.slots.Nodup := by cases b <;> decide

/-! ## All output paths of an instance -/

section
variable {s : State} {inst : U16} {x y : Instance} {f g : Slot → Lane → Lane}

/-- The instance after its output paths were changed. -/
def Instance.afterLanes (s : State) (y : Instance) (f : Slot → Lane → Lane) : Instance :=
  (s.onSlots y f y.cfg.base.slots).2

theorem afterLanes_frame (s : State) (y : Instance) (f : Slot → Lane → Lane) :
    LaneFrame s (s.onSlots y f y.cfg.base.slots).1 y (Instance.afterLanes s y f) := onSlots_frame f _ s y

theorem onLanes_inst?_afterLanes (hx : s.inst? inst = some x) :
    (s.onLanes inst y f).inst? inst = some (Instance.afterLanes s y f) := onLanes_inst?_same hx y f

theorem onLanes_lane (hd : DistinctBinds y) {sl : Slot} (hsl : sl ∈ y.cfg.base.slots) {l : Lane}
    (hl : s.lane y sl = some l) :
    (s.onLanes inst y f).lane (Instance.afterLanes s y f) sl = some (f sl l) :=
  onSlots_lane_of_mem f hd y.cfg.base.slots_nodup hsl hl

theorem untouched_onLanes_reply_of (hx : s.inst? inst = some x) (st : Status) (ws : List U64) {cs : List U64}
    (hcs : ∀ c, c ∉ cs → (s.onLanes inst y f).mem.get c = s.mem.get c) :
    Untouched s ((s.onLanes inst y f).reply st ws) inst cs := by
  have hx1 : (s.onSlots y f y.cfg.base.slots).1.inst? inst = some x := (inst?_congr (onSlots_insts ..) inst).trans hx
  refine ⟨by simp, by simp, by simp, by simp, fun j hj => ?_, (onSlots_frame f _ s y).exists_iff, fun c hc => ?_⟩
  · rw [State.reply_inst?, State.onLanes_eq, State.setInst_inst?_ne hx1 _ hj]
    exact inst?_congr (onSlots_insts ..) j
  · rw [State.reply_mem]
    refine ⟨by rw [Memory.gen, Memory.gen, hcs c hc], fun off => ?_⟩
    rw [Memory.readByte, Memory.readByte, hcs c hc]

theorem untouched_onLanes_reply (hx : s.inst? inst = some x) (st : Status) (ws : List U64) :
    Untouched s ((s.onLanes inst y f).reply st ws) inst y.chans :=
  untouched_onLanes_reply_of hx st ws fun _ hc => onLanes_get_of_notMem hc

theorem answered_onLanes_reply_ok : Answered s ((s.onLanes inst y f).reply .ok []) 0 [] := by
  rw [Answered, State.reply_results, onLanes_results]
  rfl

/-- The output paths of `x`, where the instance changed is `x` with other registers. -/
theorem lanesBecome_onLanes (hd : DistinctBinds x) (hcfg : y.cfg = x.cfg) (hbind : y.bind = x.bind)
    (hf : ∀ sl ∈ x.cfg.base.slots, ∀ l, s.lane x sl = some l → ∃ l', s.lane y sl = some l' ∧ f sl l' = g sl l) :
    LanesBecome s (s.onLanes inst y f) x (Instance.afterLanes s y f) g := by
  have hdy : DistinctBinds y := fun sl sl' b b' hne hb hb' => hd sl sl' b b' hne (hbind ▸ hb) (hbind ▸ hb')
  refine ⟨fun sl hsl l hl => ?_, fun sl hsl => ?_⟩
  · obtain ⟨l', hl', hfl⟩ := hf sl hsl l hl
    rw [← hfl]
    refine ⟨onLanes_lane hdy (by rwa [hcfg]) hl', ?_⟩
    rw [(afterLanes_frame s y f).bindGet sl, hbind]
  · rw [← hcfg] at hsl
    exact (onSlots_unused f hsl).1.trans (by rw [hbind])

theorem sparesUnusedStage_onLanes (hcfg : y.cfg = x.cfg) (hstage : y.work.stage = x.work.stage) :
    SparesUnusedStage x (Instance.afterLanes s y f) := by
  intro sl hsl
  rw [← hcfg] at hsl
  exact (onSlots_unused f hsl).2.trans (by rw [hstage])

theorem workIs_onLanes : WorkIs (Instance.afterLanes s y f) y.work := (afterLanes_frame s y f).work

/-- The output path of an instance that has the bindings and the stages of another. -/
theorem lane_congr (hbind : y.bind = x.bind) (hstage : y.work.stage = x.work.stage) (sl : Slot) :
    s.lane y sl = s.lane x sl := by
  unfold State.lane
  rw [hbind, hstage]

/-! ## CHANNEL_MAX, R71 -/

/-- A changed output path takes its channel past CHANNEL_MAX. -/
theorem overflows_onLanes_iff (hd : DistinctBinds x) (hb : s.bound x = true) (hcfg : y.cfg = x.cfg)
    (hbind : y.bind = x.bind) :
    overflows s (s.onLanes inst y f) x = true ↔ ∃ sl ∈ x.cfg.base.slots, ∃ l, s.lane y sl = some l ∧
      s.params.channelMax < (f sl l).bytes.length ∧ l.bytes.length < (f sl l).bytes.length := by
  have hdy : DistinctBinds y := fun sl sl' b b' hne hb hb' => hd sl sl' b b' hne (hbind ▸ hb) (hbind ▸ hb')
  have hby : s.bound y = true := by
    unfold State.bound State.boundChan at hb ⊢
    rwa [hcfg, hbind]
  unfold overflows
  rw [List.any_eq_true]
  refine exists_congr fun sl => and_congr_right fun hsl => ?_
  rw [← hcfg] at hsl
  obtain ⟨l, hl⟩ := exists_lane hby hsl
  obtain ⟨b, c, hbl, hc, rfl⟩ := lane_eq_some_iff.mp hl
  obtain ⟨b', c', hb', hc', hlane⟩ := lane_eq_some_iff.mp (onLanes_lane (inst := inst) (f := f) hdy hsl hl)
  have hchan : b'.chan = b.chan := by
    have := (afterLanes_frame s y f).bindGet sl
    rw [hb', hbl] at this
    simpa using this
  rw [hchan] at hc'
  have hlen : (s.onLanes inst y f).mem.len b.chan =
      (f sl { bytes := c.bytes, gen := c.gen, seen := b.seen, stage := y.work.stage.get sl }).bytes.length := by
    rw [Memory.len_of_get hc', congrArg Lane.bytes hlane]
  have hblx : x.bind.get sl = some b := hbind ▸ hbl
  simp only [hblx, Bool.and_eq_true, decide_eq_true_eq, Memory.len_of_get hc, hlen]
  simp only [hl, Option.some.injEq, exists_eq_left']

end

theorem Lane.staged_length (n : Nat) (l : Lane) (bs : List Byte) :
    (l.staged n bs).bytes.length = l.bytes.length + flushedLen n l bs.length := by
  have hle : flushedLen n l bs.length ≤ (l.stage ++ bs).length := by
    rw [List.length_append]
    exact Nat.div_mul_le_self _ _
  simp only [Lane.staged, List.length_append, List.length_take] at hle ⊢
  omega

theorem Lane.drained_length (n : Nat) (l : Lane) (bs : List Byte) :
    (l.drained n bs).bytes.length = l.bytes.length + l.stage.length + bs.length := by
  simp only [Lane.drained, List.length_append, Nat.add_assoc]

end Sys2Proof.Machine
end

section
/-! PROOFS. The commands that write: where WRITE_ONE, WRITE, COMMIT and FLUSH complete, where CHANNEL_MAX or the channel check
stops them, and RESET. O37, O39, O40, O41, O48. -/

namespace Sys2Proof.Machine

/-! ## The channel check, 20_memory.md R86 -/

section
variable {s : State} {x : Instance}

theorem stale_eq_true_of_ne {sl : Slot} {b : Binding} (hb : x.bind.get sl = some b) (hgen : s.mem.gen b.chan ≠ b.seen) :
    s.stale x sl = true := by
  simp [State.stale, hb, hgen]

/-- The channel check finds the least stale slot. -/
theorem find_stale_of_leastStale {sl : Slot} (hb : s.bound x = true) (h : LeastStale s x sl) :
    x.cfg.base.slots.find? (s.stale x) = some sl := by
  obtain ⟨hsl, ⟨b, hbl, hgen⟩, hleast⟩ := h
  have hstale := stale_eq_true_of_ne hbl hgen
  obtain ⟨rest, hslots⟩ : ∃ rest, x.cfg.base.slots = .data :: rest := by
    cases x.cfg.base <;> exact ⟨_, rfl⟩
  cases sl with
  | data => rw [hslots, List.find?_cons_of_pos hstale]
  | lens =>
    have hdata : s.stale x .data = false := by
      obtain ⟨l, hl⟩ := exists_lane hb (sl := .data) (by simp [hslots])
      obtain ⟨d, -, hd, -, -⟩ := lane_eq_some_iff.mp hl
      simp [State.stale, hd, hleast rfl d hd]
    obtain h' | ⟨-, htwo⟩ := mem_slots_iff.mp hsl
    · cases h'
    · have hlist : x.cfg.base.slots = [.data, .lens] := by
        revert htwo
        cases x.cfg.base <;> decide
      rw [hlist, List.find?_cons_of_neg (by simp [hdata]), List.find?_cons_of_pos hstale]

theorem hazardCheck_stale {op : Opcode} {inst : U16} {sl : Slot} (hb : s.bound x = true) (h : LeastStale s x sl)
    (o : Outcome) : s.hazardCheck op inst x o = .next (s.faultEntry inst op .channelHazard sl.number 0) := by
  rw [State.hazardCheck, find_stale_of_leastStale hb h]

end

/-! ## What WRITE_ONE, WRITE, COMMIT and FLUSH share -/

/-- WRITE_ONE, WRITE, COMMIT and FLUSH once their operands are good: the output paths changed by `f` and the registers of `y`,
unless CHANNEL_MAX or the channel check forbids it. -/
def State.laneCommand (s : State) (op : Opcode) (inst : U16) (x y : Instance) (f : Slot → Lane → Lane) : Outcome :=
  if overflows s (s.onLanes inst y f) x then .next (s.plainFault inst op .invalidArgument)
  else s.hazardCheck op inst x (.next ((s.onLanes inst y f).reply .ok []))

/-- `y` is a bound instance `x` with other registers but the same output paths, and on these `f` is `g`. -/
structure PathChange (s : State) (x y : Instance) (f g : Slot → Lane → Lane) : Prop where
  cfg : y.cfg = x.cfg
  bind : y.bind = x.bind
  stage : y.work.stage = x.work.stage
  binding : bindingOk s x = true
  path : ∀ sl l, s.lane x sl = some l → f sl l = g sl l

section
variable {s : State} {op : Opcode} {inst : U16} {x y : Instance} {f g : Slot → Lane → Lane}

theorem PathChange.lanes (h : PathChange s x y f g) {sl : Slot} {l : Lane} (hl : s.lane x sl = some l) :
    s.lane y sl = some l ∧ f sl l = g sl l :=
  ⟨(lane_congr h.bind h.stage sl).trans hl, h.path sl l hl⟩

theorem PathChange.chans (h : PathChange s x y f g) : y.chans = x.chans := by
  rw [Instance.chans, Instance.chans, h.cfg, h.bind]

theorem PathChange.overflows_iff (h : PathChange s x y f g) :
    overflows s (s.onLanes inst y f) x = true ↔ ∃ sl ∈ x.cfg.base.slots, ∃ l, s.lane x sl = some l ∧
      s.params.channelMax < (g sl l).bytes.length ∧ l.bytes.length < (g sl l).bytes.length := by
  rw [overflows_onLanes_iff (distinctBinds_of_bindingOk h.binding) (bound_of_bindingOk h.binding) h.cfg h.bind]
  refine exists_congr fun sl => and_congr_right fun _ => exists_congr fun l => ?_
  rw [lane_congr h.bind h.stage sl]
  exact and_congr_right fun hl => by rw [h.path sl l hl]

/-- The outcome of a command that changes the output paths: they become `g` of what they were, the registers those of `y`. -/
def PathsMoved (s : State) (inst : U16) (x y : Instance) (g : Slot → Lane → Lane) (o : Outcome) : Prop :=
  ∃ t z, o = .next t ∧ Untouched s t inst x.chans ∧ Answered s t 0 [] ∧ t.inst? inst = some z ∧
    z.cfg = y.cfg ∧ z.fault = y.fault ∧ z.life = y.life ∧ z.items = y.items ∧
    WorkIs z y.work ∧ SparesUnusedStage x z ∧ LanesBecome s t x z g

/-- Changed output paths, answered OK. -/
theorem PathChange.moved (h : PathChange s x y f g) (hx : s.inst? inst = some x) :
    PathsMoved s inst x y g (.next ((s.onLanes inst y f).reply .ok [])) := by
  have hframe := afterLanes_frame s y f
  refine ⟨_, Instance.afterLanes s y f, rfl, h.chans ▸ untouched_onLanes_reply hx _ _, answered_onLanes_reply_ok,
    (State.reply_inst? _ _ _ _).trans (onLanes_inst?_afterLanes hx), hframe.cfg, hframe.fault, hframe.life, hframe.items,
    workIs_onLanes, sparesUnusedStage_onLanes h.cfg h.stage, ?_⟩
  exact lanesBecome_onLanes (inst := inst) (distinctBinds_of_bindingOk h.binding) h.cfg h.bind fun sl _ l hl => ⟨l, h.lanes hl⟩

theorem overflows_eq_false_of_eachLane (h : PathChange s x y f g)
    (hmax : EachLane s x fun sl l => (g sl l).bytes.length ≤ s.params.channelMax) :
    overflows s (s.onLanes inst y f) x = false := by
  rw [Bool.eq_false_iff, Ne, h.overflows_iff]
  rintro ⟨sl, hsl, l, hl, hlt, -⟩
  exact absurd hlt (hmax sl hsl l hl).not_gt

theorem laneCommand_complete (h : PathChange s x y f g) (hx : s.inst? inst = some x) (hsync : Synced s x)
    (hmax : EachLane s x fun sl l => (g sl l).bytes.length ≤ s.params.channelMax) :
    PathsMoved s inst x y g (s.laneCommand op inst x y f) := by
  have hclean := stale_of_synced (bound_of_bindingOk h.binding) hsync
  rw [State.laneCommand, overflows_eq_false_of_eachLane h hmax, if_neg Bool.false_ne_true, hazardCheck_clean hclean]
  exact h.moved hx

/-- A command that would take a channel past CHANNEL_MAX. -/
theorem laneCommand_overflow (h : PathChange s x y f g) (hinv : IsInv s) (hx : s.inst? inst = some x)
    (hop : op ≠ .construct) {sl : Slot} (hsl : sl ∈ x.cfg.base.slots) {l : Lane} (hl : s.lane x sl = some l)
    (hlt : s.params.channelMax < (g sl l).bytes.length) :
    ∃ t, s.laneCommand op inst x y f = .next t ∧ TookFault s t inst x op .invalidArgument 0xFF#8 0 := by
  refine exists_tookFault hx rfl hop ?_
  have hle : l.bytes.length ≤ s.params.channelMax := by
    obtain ⟨b, c, -, hc, rfl⟩ := lane_eq_some_iff.mp hl
    exact hinv.lens _ c hc
  exact if_pos (h.overflows_iff.mpr ⟨sl, hsl, l, hl, hlt, by omega⟩)

theorem laneCommand_hazard (h : PathChange s x y f g) (hx : s.inst? inst = some x) (hop : op ≠ .construct) {sl : Slot}
    (hstale : LeastStale s x sl) (hmax : EachLane s x fun sl l => (g sl l).bytes.length ≤ s.params.channelMax) :
    ∃ t, s.laneCommand op inst x y f = .next t ∧ TookFault s t inst x op .channelHazard sl.number 0 := by
  refine exists_tookFault hx rfl hop ?_
  rw [State.laneCommand, overflows_eq_false_of_eachLane h hmax, if_neg Bool.false_ne_true,
    hazardCheck_stale (bound_of_bindingOk h.binding) hstale]

end

/-! ## WRITE_ONE, WRITE, COMMIT and FLUSH as changes of output paths -/

/-- What WRITE_ONE and WRITE do to an output path. -/
def writePath (p : Params) (x : Instance) (items : List Item) (sl : Slot) (l : Lane) : Lane :=
  l.emitAll p.stageBytes ((writeItems p x.cfg x.work items).2.get sl)

/-- What COMMIT does to an output path. -/
def commitPath (p : Params) (x : Instance) (sl : Slot) (l : Lane) : Lane :=
  (l.emitAll p.stageBytes ((commitFlush p x.cfg x.work).2.get sl)).flush

section
variable {s : State} {inst : U16} {x : Instance}

theorem exec_writeCommand_of_room {items : List Item} {i : Instr} {op : Opcode} (hx : s.inst? inst = some x)
    (hrole : x.cfg.role = .writer) (hl : x.life = .empty ∨ x.life = .writing) (hb : s.bound x = true)
    (hi : WriteCommand inst items i) (hfits : ∀ y ∈ items, y.fits x.cfg.base = true) (hroom : RoomFor x items.length)
    (hop : Instr.command? i = some (op, inst)) :
    op ≠ .construct ∧ exec i s =
      s.laneCommand op inst x (x.afterWrite s.params items) (writePath s.params x items) := by
  obtain ⟨op', hop', hwrite, hexec⟩ := exec_writeCommand hx hrole hl hb hi hfits
  cases hop.symm.trans hop'
  refine ⟨ne_construct_of_writing hwrite, hexec.trans ?_⟩
  rw [State.writeBody, withinCount_of_roomFor hroom, if_neg (by decide)]
  rfl

theorem exec_commit_of_writing (hx : s.inst? inst = some x) (hrole : x.cfg.role = .writer)
    (hl : x.life = .empty ∨ x.life = .writing) (hb : s.bound x = true) :
    exec (.commit inst) s = s.laneCommand .commit inst x (x.afterCommit s.params) (commitPath s.params x) := by
  have hne : x.life ≠ .committed := by
    rintro hc
    simp [hc] at hl
  change execCommit inst s = _
  rw [execCommit, dispatch_of_open hx hrole (life_open_of_writing hl) (.inl rfl), onChannels_bound hb, if_neg hne]
  rfl

theorem exec_commit_of_committed (hx : s.inst? inst = some x) (hrole : x.cfg.role = .writer)
    (hl : x.life = .committed) (hb : s.bound x = true) :
    exec (.commit inst) s = s.hazardCheck .commit inst x (.next (s.reply .ok [])) := by
  change execCommit inst s = _
  rw [execCommit, dispatch_of_open hx hrole (.inr (.inr hl)) (.inl rfl), onChannels_bound hb, if_pos hl]
  exact if_neg (ne_true_of_eq_false (overflows_self s x))

theorem exec_flush_of_open (hx : s.inst? inst = some x) (hrole : x.cfg.role = .writer)
    (hl : x.life = .empty ∨ x.life = .writing ∨ x.life = .committed) (hb : s.bound x = true) :
    exec (.flush inst) s = s.laneCommand .flush inst x x fun _ l => l.flush := by
  change execFlush inst s = _
  rw [execFlush, dispatch_of_open hx hrole hl (.inr (.inl rfl)), onChannels_bound hb]
  rfl

/-! ### The closed forms of the paths -/

theorem lane_stage_lt (hwork : x.work.ok s.params x.cfg = true) {sl : Slot} {l : Lane} (hl : s.lane x sl = some l) :
    l.stage.length < s.params.stageBytes := by
  obtain ⟨hdata, hlens, -⟩ := (Work.ok_iff s.params x.cfg x.work).mp hwork
  obtain ⟨b, c, -, -, rfl⟩ := lane_eq_some_iff.mp hl
  cases sl
  · exact hdata
  · exact hlens

theorem flush_eq_drained {n : Nat} {l : Lane} (h : l.stage.length < n) : l.flush = l.drained n [] := by
  rw [← staged_flush_eq_drained (Nat.zero_lt_of_lt h), ← emitAll_eq_staged h]
  rfl

variable (h : IsInv s) (hx : s.inst? inst = some x)

include h hx in
theorem work_ok_of_open (hl : x.life = .empty ∨ x.life = .writing ∨ x.life = .committed) :
    x.work.ok s.params x.cfg = true :=
  work_ok_of_running (h.oks x (State.inst?_mem hx)) (life_ne_faulted_of_open hl) (life_ne_uninit_of_open hl)

include h hx in
theorem bindingOk_of_open (hl : x.life = .empty ∨ x.life = .writing ∨ x.life = .committed) : bindingOk s x = true :=
  h.bindingOk hx (life_ne_faulted_of_open hl) (life_ne_uninit_of_open hl)

include h hx in
theorem pathChange_write (hl : x.life = .empty ∨ x.life = .writing) (items : List Item) :
    PathChange s x (x.afterWrite s.params items) (writePath s.params x items) fun sl l =>
      l.staged s.params.stageBytes ((writeItems s.params x.cfg x.work items).2.get sl) := by
  have hwork := work_ok_of_open h hx (life_open_of_writing hl)
  exact ⟨rfl, rfl, (writeItems_core _ _ items _ (Work.core_of_ok hwork)).2, bindingOk_of_open h hx (life_open_of_writing hl),
    fun sl l hlane => emitAll_eq_staged (lane_stage_lt hwork hlane) _⟩

include h hx in
theorem pathChange_commit (hl : x.life = .empty ∨ x.life = .writing) :
    PathChange s x (x.afterCommit s.params) (commitPath s.params x) fun sl l =>
      l.drained s.params.stageBytes ((commitFlush s.params x.cfg x.work).2.get sl) := by
  have hwork := work_ok_of_open h hx (life_open_of_writing hl)
  refine ⟨rfl, rfl, (commitFlush_core _ _ _ (Work.core_of_ok hwork)).2, bindingOk_of_open h hx (life_open_of_writing hl),
    fun sl l hlane => ?_⟩
  rw [commitPath, emitAll_eq_staged (lane_stage_lt hwork hlane), staged_flush_eq_drained (stageBytes_pos h)]

include h hx in
theorem pathChange_flush (hl : x.life = .empty ∨ x.life = .writing ∨ x.life = .committed) :
    PathChange s x x (fun _ l => l.flush) fun _ l => l.drained s.params.stageBytes [] :=
  ⟨rfl, rfl, rfl, bindingOk_of_open h hx hl,
    fun _ _ hlane => flush_eq_drained (lane_stage_lt (work_ok_of_open h hx hl) hlane)⟩

end

/-! ## Where they complete: O37, O39, O40 -/

theorem exists_command?_of_writeCommand {inst : U16} {items : List Item} {i : Instr} (hi : WriteCommand inst items i) :
    ∃ op, Instr.command? i = some (op, inst) := by
  obtain ⟨_, -, rfl⟩ | ⟨_, _, _, _, rfl, -⟩ := hi
  · exact ⟨_, rfl⟩
  · exact ⟨_, rfl⟩

/-- Settles O37: the write commands as a change of output paths, in the closed form of the staging. -/
theorem writesComplete : Obligations.WritesComplete := by
  intro s inst x items i hinv hx hrole hl hsync hi hfits hroom hmax
  have h := (inv_iff s).mp hinv
  obtain ⟨op, hop⟩ := exists_command?_of_writeCommand hi
  rw [(exec_writeCommand_of_room hx hrole hl (h.bound_of_writing hx hl) hi hfits hroom hop).2]
  exact laneCommand_complete (pathChange_write h hx hl items) hx hsync fun sl hsl l hlane =>
    (Lane.staged_length ..).trans_le (hmax sl hsl l hlane)

/-- Settles O39: COMMIT as a change of output paths; in COMMITTED nothing grows. -/
theorem commitCompletes : Obligations.CommitCompletes := by
  intro s inst x hinv hx hrole hsync
  have h := (inv_iff s).mp hinv
  refine ⟨fun hl hmax => ?_, fun hl => ?_⟩
  · rw [exec_commit_of_writing hx hrole hl (h.bound_of_writing hx hl)]
    exact laneCommand_complete (pathChange_commit h hx hl) hx hsync fun sl hsl l hlane =>
      (Lane.drained_length ..).trans_le (hmax sl hsl l hlane)
  · have hb := h.bound_of_open hx (.inr (.inr hl))
    rw [exec_commit_of_committed hx hrole hl hb, hazardCheck_clean (stale_of_synced hb hsync)]
    exact ⟨_, rfl, rfl⟩

/-- Settles O40: FLUSH as a change of output paths that emits no byte. -/
theorem flushMovesTheStagedBytes : Obligations.FlushMovesTheStagedBytes := by
  intro s inst x hinv hx hrole hl hsync hmax
  have h := (inv_iff s).mp hinv
  rw [exec_flush_of_open hx hrole hl (h.bound_of_open hx hl)]
  exact laneCommand_complete (pathChange_flush h hx hl) hx hsync fun sl hsl l hlane =>
    (Lane.drained_length ..).trans_le (hmax sl hsl l hlane)

/-! ## RESET: O41 -/

section
variable {s : State} {inst : U16} {x y : Instance}

/-- A path function that keeps the content and the generation leaves the channels. -/
theorem onSlots_get_of_keeps {f : Slot → Lane → Lane} (hf : ∀ sl l, (f sl l).bytes = l.bytes ∧ (f sl l).gen = l.gen)
    (sls : List Slot) (c : U64) : (s.onSlots x f sls).1.mem.get c = s.mem.get c := by
  induction sls generalizing s x with
  | nil => rfl
  | cons sl rest ih =>
    refine ih.trans ?_
    cases hb : x.bind.get sl with
    | none => simp [State.onLane, hb]
    | some b =>
      cases hc : s.mem.get b.chan with
      | none => simp [State.onLane, State.lane, hb, hc]
      | some d =>
        rw [onLane_bound (f sl) hb hc]
        obtain ⟨hbytes, hgen⟩ := hf sl ⟨d.bytes, d.gen, b.seen, x.work.stage.get sl⟩
        by_cases hcb : c = b.chan
        · subst hcb
          rw [Memory.get_put_same hc, hc, hbytes, hgen, ← Memory.get_id hc]
        · exact Memory.get_put_ne _ hcb _ _

/-- The registers of an instance with nothing staged stay when its output paths change and STAGE stays empty. -/
theorem afterLanes_work_of_unstaged {f : Slot → Lane → Lane} (hy : y.work.stage.data = [] ∧ y.work.stage.lens = [])
    (hf : ∀ sl l, l.stage = [] → (f sl l).stage = []) : (Instance.afterLanes s y f).work = y.work := by
  have hwork : WorkIs (Instance.afterLanes s y f) y.work := workIs_onLanes
  have hstage : (Instance.afterLanes s y f).work.stage = y.work.stage := by
    obtain ⟨hdata, hlens⟩ := onSlots_stage (· = []) f hf y.cfg.base.slots s y hy
    exact PerSlot.mk.injEq .. ▸ ⟨hdata.trans hy.1.symm, hlens.trans hy.2.symm⟩
  rw [WorkIs, ← hstage] at hwork
  exact hwork

theorem allReset_afterLanes {f : Slot → Lane → Lane} (hy : y.work = Work.reset x.cfg)
    (hf : ∀ sl l, l.stage = [] → (f sl l).stage = []) : AllReset x.cfg (Instance.afterLanes s y f).work := by
  rw [afterLanes_work_of_unstaged (by rw [hy]; exact ⟨rfl, rfl⟩) hf, hy]
  exact allReset_reset x.cfg

/-- The paths of a rewound instance are those of the instance, with nothing staged. -/
theorem lane_rewound (hbind : y.bind = x.bind) (hwork : y.work = Work.reset x.cfg) {sl : Slot} {l : Lane}
    (hl : s.lane x sl = some l) : s.lane y sl = some { l with stage := [] } := by
  obtain ⟨b, c, hb, hc, rfl⟩ := lane_eq_some_iff.mp hl
  refine lane_eq_some_iff.mpr ⟨b, c, hbind ▸ hb, hc, ?_⟩
  rw [hwork]
  cases sl <;> rfl

end

/-- Settles O41: the rewound instance has the same channels and an empty STAGE, and the paths are cleared or synchronised. -/
theorem resetRewinds : Obligations.ResetRewinds := by
  intro s inst x hinv hx
  have h := (inv_iff s).mp hinv
  refine ⟨fun hrole hl => ?_, fun hrole hl => ?_⟩
  · have hbind := bindingOk_of_open h hx hl
    have hexec : exec (.reset inst) s =
        .next ((s.onLanes inst { x.rewound with life := .empty } fun _ => Lane.clear).reply .ok []) := by
      change execReset inst s = _
      rw [execReset, dispatch_of_open hx hrole hl (.inr (.inr rfl)), onChannels_bound (bound_of_bindingOk hbind), hrole]
    have hframe := afterLanes_frame s { x.rewound with life := .empty } fun _ => Lane.clear
    exact ⟨_, _, hexec, untouched_onLanes_reply hx _ _, answered_onLanes_reply_ok,
      (State.reply_inst? ..).trans (onLanes_inst?_afterLanes hx), hframe.cfg, hframe.fault, hframe.life, hframe.items,
      allReset_afterLanes rfl fun _ _ hstage => hstage,
      lanesBecome_onLanes (inst := inst) (distinctBinds_of_bindingOk hbind) rfl rfl fun sl _ l hlane =>
        ⟨_, lane_rewound (x := x) (y := { x.rewound with life := .empty }) rfl rfl hlane, rfl⟩⟩
  · have hbind := h.bindingOk hx (life_ne_faulted_of_reading hl) (life_ne_uninit_of_reading hl)
    have hexec : exec (.reset inst) s = .next ((s.onLanes inst x.rewound fun _ => Lane.sync).reply .ok []) := by
      change execReset inst s = _
      rw [execReset, dispatch_of_reading hx hrole hl (.inr rfl), onChannels_bound (bound_of_bindingOk hbind), hrole]
    have hframe := afterLanes_frame s x.rewound fun _ => Lane.sync
    have hkeeps (c : U64) : (s.onLanes inst x.rewound fun _ => Lane.sync).mem.get c = s.mem.get c :=
      onSlots_get_of_keeps (f := fun _ => Lane.sync) (fun _ _ => ⟨rfl, rfl⟩) x.cfg.base.slots c
    exact ⟨_, _, hexec, untouched_onLanes_reply_of hx _ _ fun c _ => hkeeps c,
      answered_onLanes_reply_ok, (State.reply_inst? ..).trans (onLanes_inst?_afterLanes hx), hframe.cfg, hframe.fault,
      hframe.life.trans hl, hframe.items,
      allReset_afterLanes rfl fun _ _ hstage => hstage,
      lanesBecome_onLanes (inst := inst) (distinctBinds_of_bindingOk hbind) rfl rfl fun sl _ l hlane =>
        ⟨_, lane_rewound (x := x) (y := x.rewound) rfl rfl hlane, rfl⟩⟩

end Sys2Proof.Machine
end

section
/-! PROOFS. RESUME where it completes, and the faults of the commands that write: CHANNEL_MAX and the channel check. O42, O47,
O48. -/

namespace Sys2Proof.Machine

/-! ## The slots a base emits on -/

theorem data_mem_slots (b : Base) : .data ∈ b.slots := mem_slots_iff.mpr (.inl rfl)

/-- Only VARD emits bytes on slot 1. -/
theorem writeItems_lens_of_ne_vard (p : Params) {cfg : Cfg} (h : cfg.base ≠ .vard) (k : Work) (xs : List Item) :
    (writeItems p cfg k xs).2.lens = [] := by
  induction xs generalizing k with
  | nil => rfl
  | cons x xs ih =>
    have hitem : (writeItem p cfg k x).2.lens = [] := by
      cases x with
      | num v => rfl
      | str s => simp [writeItem, h]
    simp [writeItems, Emitted.append, hitem, ih]

theorem emittedU_eq_nil_of_notMem (p : Params) {cfg : Cfg} {sl : Slot} (h : sl ∉ cfg.base.slots) (xs : List Item) :
    (emittedU p cfg xs).get sl = [] := by
  cases sl with
  | data => exact absurd (data_mem_slots _) h
  | lens =>
    refine writeItems_lens_of_ne_vard p (fun hv => h ?_) _ xs
    rw [hv]
    decide

theorem Lane.replace_bytes (bs : List Byte) (l : Lane) : (l.replace bs).bytes = bs := by
  unfold Lane.replace
  split
  · assumption
  · rfl

theorem Lane.replace_gen (bs : List Byte) (l : Lane) :
    (l.replace bs).gen = if l.bytes = bs then l.gen else l.gen + 1 := by
  unfold Lane.replace
  split <;> rfl

theorem Lane.replace_synced (bs : List Byte) {l : Lane} (h : l.seen = l.gen) : (l.replace bs).seen = (l.replace bs).gen := by
  unfold Lane.replace
  split
  · exact h
  · rfl

/-! ## RESUME, 44_pipeline.md R302 -/

/-- The instance whose output paths RESUME replaces: bound to the operands, with the registers of a writer of the items. -/
def Instance.resuming (s : State) (x : Instance) (ch0 : U64) (ch1 : Option U64) (xs : List Item) : Instance :=
  (x.rebound s.mem ch0 ch1).afterResume s.params xs

/-- What RESUME does to an output path. -/
def resumePath (p : Params) (x : Instance) (xs : List Item) (sl : Slot) : Lane → Lane :=
  Lane.replace ((emittedU p x.cfg xs).get sl)

section
variable {s : State} {inst : U16} {x : Instance} {ch0 : U64} {ch1 : Option U64} {xs : List Item}

theorem resumed_eq_onLanes :
    s.resumed inst (x.rebound s.mem ch0 ch1) xs =
      s.onLanes inst (x.resuming s ch0 ch1 xs) (resumePath s.params x xs) := rfl

theorem bindingOk_resuming (hops : ChannelOperands s x ch0 ch1) : bindingOk s (x.resuming s ch0 ch1 xs) = true :=
  bindingOk_bindChannels hops rfl rfl

/-- RESUME overflows exactly when a re-encoding is longer than CHANNEL_MAX. -/
theorem resumed_overflows_iff (hinv : IsInv s) (hops : ChannelOperands s x ch0 ch1) :
    overflows s (s.resumed inst (x.rebound s.mem ch0 ch1) xs) (x.rebound s.mem ch0 ch1) = true ↔
      ∃ sl, s.params.channelMax < ((emittedU s.params x.cfg xs).get sl).length := by
  have hbind : bindingOk s (x.rebound s.mem ch0 ch1) = true := bindingOk_bindChannels hops rfl rfl
  have hiff := overflows_onLanes_iff (inst := inst) (y := x.resuming s ch0 ch1 xs) (f := resumePath s.params x xs)
    (distinctBinds_of_bindingOk hbind) (bound_of_bindingOk hbind) rfl rfl
  rw [resumed_eq_onLanes, hiff]
  simp only [resumePath, Lane.replace_bytes]
  constructor
  · rintro ⟨sl, -, l, -, hlt, -⟩
    exact ⟨sl, hlt⟩
  · rintro ⟨sl, hlt⟩
    have hsl : sl ∈ x.cfg.base.slots := by
      by_contra hn
      rw [emittedU_eq_nil_of_notMem _ hn] at hlt
      simp at hlt
    obtain ⟨l, hl⟩ := exists_lane (bound_of_bindingOk (bindingOk_resuming (xs := xs) hops)) hsl
    obtain ⟨b, c, -, hc, hlc⟩ := lane_eq_some_iff.mp hl
    refine ⟨sl, hsl, l, hl, hlt, lt_of_le_of_lt ?_ hlt⟩
    rw [hlc]
    exact hinv.lens _ c hc

/-- What RESUME leaves of one slot: the re-encoding in its channel, and SEEN synchronised. -/
theorem resumed_slot (inst : U16) {sl : Slot} {c : U64} (hops : ChannelOperands s x ch0 ch1) (hsl : sl ∈ x.cfg.base.slots)
    (hb : (bindChannels s.mem ch0 ch1).get sl = some { chan := c, seen := s.mem.gen c }) :
    ContentBecomes s (s.resumed inst (x.rebound s.mem ch0 ch1) xs) c ((emittedU s.params x.cfg xs).get sl) ∧
    (Instance.afterLanes s (x.resuming s ch0 ch1 xs) (resumePath s.params x xs)).bind.get sl =
      some { chan := c, seen := (s.resumed inst (x.rebound s.mem ch0 ch1) xs).mem.gen c } := by
  have hbind := bindingOk_resuming (xs := xs) hops
  obtain ⟨l, hl⟩ := exists_lane (bound_of_bindingOk hbind) hsl
  have hafter := onLanes_lane (inst := inst) (f := resumePath s.params x xs) (distinctBinds_of_bindingOk hbind) hsl hl
  rw [← resumed_eq_onLanes] at hafter
  have hchan := (afterLanes_frame s (x.resuming s ch0 ch1 xs) (resumePath s.params x xs)).bindGet sl
  obtain ⟨b, d, hbl, hget, rfl⟩ := lane_eq_some_iff.mp hl
  obtain ⟨⟨chan', seen'⟩, d', hbl', hget', hlane⟩ := lane_eq_some_iff.mp hafter
  cases hb.symm.trans hbl
  obtain rfl : chan' = c := by
    rw [hbl', hbl] at hchan
    exact Option.some.inj hchan
  have hbytes : d'.bytes = (emittedU s.params x.cfg xs).get sl :=
    (congrArg Lane.bytes hlane).symm.trans (Lane.replace_bytes ..)
  have hgen : d'.gen = if d.bytes = (emittedU s.params x.cfg xs).get sl then d.gen else d.gen + 1 :=
    (congrArg Lane.gen hlane).symm.trans (Lane.replace_gen ..)
  have hseen : seen' = d'.gen := by
    refine (congrArg Lane.seen hlane).symm.trans (Eq.trans ?_ (congrArg Lane.gen hlane))
    exact Lane.replace_synced _ (by rw [Memory.gen_of_get hget])
  refine ⟨⟨d, hget, ?_⟩, ?_⟩
  · have hid : d'.id = chan' := Memory.get_id hget'
    rw [hget', ← hgen, ← hbytes, ← hid]
  · rw [hbl', hseen, Memory.gen_of_get hget']

end

/-- Settles O42. -/
theorem resumeRebuildsTheWriter : Obligations.ResumeRebuildsTheWriter := by
  intro s inst x ch0 ch1 rows xs r hinv hx hrole hl hops hcount hread hdata hlens
  have h := (inv_iff s).mp hinv
  have hover : overflows s (s.resumed inst (x.rebound s.mem ch0 ch1) xs) (x.rebound s.mem ch0 ch1) = false := by
    rw [Bool.eq_false_iff, Ne, resumed_overflows_iff h hops]
    rintro ⟨_ | _, hlt⟩
    · exact absurd hlt hdata.not_gt
    · exact absurd hlt hlens.not_gt
  have hexec := (exec_resume_done hx hrole hl hops hcount hread).trans (if_neg (ne_true_of_eq_false hover))
  have hframe := afterLanes_frame s (x.resuming s ch0 ch1 xs) (resumePath s.params x xs)
  have hstage := (writeItems_core s.params x.cfg xs _ (Work.reset_core s.params.dfcmBits x.cfg)).2
  have hwork : (Instance.afterLanes s (x.resuming s ch0 ch1 xs) (resumePath s.params x xs)).work =
      (writeItems s.params x.cfg (Work.reset x.cfg) xs).1 :=
    afterLanes_work_of_unstaged ⟨congrArg PerSlot.data hstage, congrArg PerSlot.lens hstage⟩ fun sl l hst =>
      (Lane.replace_stage _ l).trans hst
  have hitems : BitVec.ofNat 64 xs.length = rows := by
    rw [(readItems_length hread).2.1 rfl, BitVec.ofNat_toNat, BitVec.setWidth_eq]
  obtain ⟨hcontent, hseen⟩ := resumed_slot inst (xs := xs) hops (data_mem_slots _) rfl
  refine ⟨_, Instance.afterLanes s (x.resuming s ch0 ch1 xs) (resumePath s.params x xs), hexec,
    untouched_onLanes_reply_of hx _ _ fun c hc => onLanes_get_of_notMem fun hmem =>
      hc (chans_bindChannels rfl hmem), answered_onLanes_reply_ok,
    (State.reply_inst? ..).trans (onLanes_inst?_afterLanes hx), hframe.cfg, hframe.fault, hframe.life,
    hframe.items.trans hitems, hwork, ?_, ?_, hcontent, ?_, hseen, ?_⟩
  · rw [hwork, hstage]
    rfl
  · rw [hwork, hstage]
    rfl
  · rintro c1 rfl
    exact (resumed_slot inst hops (mem_slots_iff.mpr (.inr ⟨rfl, hops.1.mp rfl⟩)) rfl).1
  · cases ch1 with
    | none => exact Option.map_eq_none_iff.mp (hframe.bindGet .lens)
    | some c1 => exact (resumed_slot inst hops (mem_slots_iff.mpr (.inr ⟨rfl, hops.1.mp rfl⟩)) rfl).2

/-! ## CHANNEL_MAX: O47 -/

/-- Settles O47: a path that takes a channel past CHANNEL_MAX overflows. -/
theorem channelMaxIsKept : Obligations.ChannelMaxIsKept := by
  intro s inst x hinv hx hrole
  have h := (inv_iff s).mp hinv
  refine ⟨fun sl l hsl hlane => ⟨fun hl => ⟨fun items i op hi hop hfits hroom hlt => ?_, fun hlt => ?_⟩,
    fun hl hlt => ?_⟩, fun ch0 ch1 rows xs r hl hops hcount hread hlt => ?_⟩
  · obtain ⟨hne, hexec⟩ := exec_writeCommand_of_room hx hrole hl (h.bound_of_writing hx hl) hi hfits hroom hop
    rw [hexec]
    exact laneCommand_overflow (pathChange_write h hx hl items) h hx hne hsl hlane
      (hlt.trans_eq (Lane.staged_length ..).symm)
  · rw [exec_commit_of_writing hx hrole hl (h.bound_of_writing hx hl)]
    exact laneCommand_overflow (pathChange_commit h hx hl) h hx (by decide) hsl hlane
      (hlt.trans_eq (Lane.drained_length ..).symm)
  · rw [exec_flush_of_open hx hrole hl (h.bound_of_open hx hl)]
    exact laneCommand_overflow (pathChange_flush h hx hl) h hx (by decide) hsl hlane
      (hlt.trans_eq (Lane.drained_length _ l []).symm)
  · refine exists_tookFault hx rfl (by decide) ?_
    refine (exec_resume_done hx hrole hl hops hcount hread).trans (if_pos ((resumed_overflows_iff h hops).mpr ?_))
    exact hlt.elim (fun hdata => ⟨.data, hdata⟩) fun hlens => ⟨.lens, hlens⟩

/-! ## The channel check: O48 -/

theorem readBody_hazard {s : State} {op : Opcode} {inst : U16} {x : Instance} {sl : Slot} (hb : s.bound x = true)
    (hstale : LeastStale s x sl) (n : Nat) (answer : Bool → List Item → Status × List U64) :
    s.readBody op inst x n answer = .next (s.faultEntry inst op .channelHazard sl.number 0) := by
  rw [State.readBody, onChannels_bound hb, hazardCheck_stale hb hstale]

/-- Settles O48: the checks before the channel check pass, and it finds the least stale slot. -/
theorem channelHazardsFault : Obligations.ChannelHazardsFault := by
  intro s inst x sl hinv hx hstale
  have h := (inv_iff s).mp hinv
  refine ⟨fun hrole hl i op hi => ?_, fun hrole hl items i op hi hop hfits hroom hmax => ?_,
    fun hrole hl => ⟨fun hmax => ?_, fun hmax => ?_⟩⟩
  · have hb := h.bound_of_reading hx hl
    obtain ⟨rfl, rfl⟩ | ⟨n, rfl, rfl⟩ | ⟨buflen, offset, n, rfl, rfl, hin⟩ := hi
    · exact exists_tookFault hx rfl (by decide) ((exec_readOne_of_reading hx hrole hl).trans (readBody_hazard hb hstale _ _))
    · exact exists_tookFault hx rfl (by decide) ((exec_skip_of_reading hx hrole hl n).trans (readBody_hazard hb hstale _ _))
    · exact exists_tookFault hx rfl (by decide)
        ((exec_read_of_reading hx hrole hl hin).trans (readBody_hazard hb hstale _ _))
  · obtain ⟨hne, hexec⟩ := exec_writeCommand_of_room hx hrole hl (h.bound_of_writing hx hl) hi hfits hroom hop
    rw [hexec]
    exact laneCommand_hazard (pathChange_write h hx hl items) hx hne hstale fun sl hsl l hlane =>
      (Lane.staged_length ..).trans_le (hmax sl hsl l hlane)
  · rw [exec_flush_of_open hx hrole hl (h.bound_of_open hx hl)]
    exact laneCommand_hazard (pathChange_flush h hx hl) hx (by decide) hstale fun sl hsl l hlane =>
      (Lane.drained_length ..).trans_le (hmax sl hsl l hlane)
  · by_cases hc : x.life = .committed
    · have hb := h.bound_of_open hx hl
      exact exists_tookFault hx rfl (by decide)
        ((exec_commit_of_committed hx hrole hc hb).trans (hazardCheck_stale hb hstale _))
    · have hw : x.life = .empty ∨ x.life = .writing := by tauto
      rw [exec_commit_of_writing hx hrole hw (h.bound_of_writing hx hw)]
      exact laneCommand_hazard (pathChange_commit h hx hw) hx (by decide) hstale fun sl hsl l hlane =>
        (Lane.drained_length ..).trans_le (hmax hc sl hsl l hlane)

end Sys2Proof.Machine
end

section
/-! PROOFS. Output paths changed twice are changed once by the composition: what WRITE of a list does is what WRITE_ONE of each
item does (44_pipeline.md R339). O31. -/

namespace Sys2Proof.Machine

/-! ## Channel memory -/

theorem Memory.put_put_same (m : Memory) (id : U64) (bs bs' : List Byte) (g g' : U64) :
    (m.put id bs g).put id bs' g' = m.put id bs' g' := by
  simp only [Memory.put, List.map_map, Memory.mk.injEq]
  refine List.map_congr_left fun c _ => ?_
  by_cases h : c.id = id <;> simp [h]

theorem Memory.put_comm (m : Memory) {id id' : U64} (hne : id ≠ id') (bs bs' : List Byte) (g g' : U64) :
    (m.put id bs g).put id' bs' g' = (m.put id' bs' g').put id bs g := by
  simp only [Memory.put, List.map_map, Memory.mk.injEq]
  refine List.map_congr_left fun c _ => ?_
  by_cases h : c.id = id
  · simp [h, hne]
  · by_cases h' : c.id = id' <;> simp [h, h', hne.symm]

/-- Writing what a channel already holds. -/
theorem Memory.put_self {m : Memory} (hwf : m.wf) {id : U64} {c : Channel} (h : m.get id = some c) :
    m.put id c.bytes c.gen = m := by
  have hsame : m.chans.map (fun d => if d.id = id then { d with bytes := c.bytes, gen := c.gen } else d) = m.chans := by
    refine (List.map_congr_left fun d hd => ?_).trans (List.map_id _)
    by_cases hid : d.id = id
    · cases h.symm.trans (hid ▸ get_of_mem hwf hd)
      exact if_pos hid
    · simp [hid]
  rw [Memory.put, hsame]

theorem PerSlot.set_set_same {α : Type} (p : PerSlot α) (sl : Slot) (a b : α) : (p.set sl a).set sl b = p.set sl b := by
  cases sl <;> rfl

theorem PerSlot.set_comm {α : Type} (p : PerSlot α) {sl sl' : Slot} (hne : sl ≠ sl') (a b : α) :
    (p.set sl a).set sl' b = (p.set sl' b).set sl a := by
  cases sl <;> cases sl'
  · exact absurd rfl hne
  · rfl
  · rfl
  · exact absurd rfl hne

theorem PerSlot.set_get_self {α : Type} (p : PerSlot α) (sl : Slot) : p.set sl (p.get sl) = p := by
  cases sl <;> rfl

/-! ## One output path -/

section
variable {s : State} {x : Instance} {sl sl' : Slot}

theorem onLane_of_lane_eq_none (f : Lane → Lane) (h : s.lane x sl = none) : s.onLane x sl f = (s, x) := by
  unfold State.onLane
  rw [h]
  cases x.bind.get sl <;> rfl

theorem onLane_of_lane_eq_some (f : Lane → Lane) {b : Binding} {l : Lane} (hb : x.bind.get sl = some b)
    (hl : s.lane x sl = some l) :
    s.onLane x sl f = ({ s with mem := s.mem.put b.chan (f l).bytes (f l).gen },
      { x with
        bind := x.bind.set sl (some { b with seen := (f l).seen })
        work := { x.work with stage := x.work.stage.set sl (f l).stage } }) := by
  obtain ⟨b', c, hb', hc, rfl⟩ := lane_eq_some_iff.mp hl
  cases hb.symm.trans hb'
  exact onLane_bound f hb hc

theorem onLane_lane_same_of_none (f : Lane → Lane) (h : s.lane x sl = none) :
    (s.onLane x sl f).1.lane (s.onLane x sl f).2 sl = none := by
  rw [onLane_of_lane_eq_none f h, h]

/-- A path changed twice. -/
theorem onLane_onLane_same (f g : Lane → Lane) :
    (s.onLane x sl f).1.onLane (s.onLane x sl f).2 sl g = s.onLane x sl fun l => g (f l) := by
  cases hl : s.lane x sl with
  | none => rw [onLane_of_lane_eq_none g (onLane_lane_same_of_none f hl), onLane_of_lane_eq_none f hl,
      onLane_of_lane_eq_none _ hl]
  | some l =>
    obtain ⟨b, c, hb, -, -⟩ := lane_eq_some_iff.mp hl
    have hl' := onLane_lane_same f hl
    have heq := onLane_of_lane_eq_some f hb hl
    rw [heq] at hl' ⊢
    rw [onLane_of_lane_eq_some g (PerSlot.get_set_same ..) hl', onLane_of_lane_eq_some _ hb hl]
    simp only [Memory.put_put_same, PerSlot.set_set_same]

/-- Two paths of an instance bound to different channels change independently. -/
theorem onLane_comm (hd : DistinctBinds x) (hne : sl ≠ sl') (f g : Lane → Lane) :
    (s.onLane x sl f).1.onLane (s.onLane x sl f).2 sl' g = (s.onLane x sl' g).1.onLane (s.onLane x sl' g).2 sl f := by
  have hlane' : (s.onLane x sl f).1.lane (s.onLane x sl f).2 sl' = s.lane x sl' := onLane_lane_ne f hd hne.symm
  have hlane : (s.onLane x sl' g).1.lane (s.onLane x sl' g).2 sl = s.lane x sl := onLane_lane_ne g hd hne
  cases hl : s.lane x sl with
  | none => rw [onLane_of_lane_eq_none f hl, onLane_of_lane_eq_none f (hlane.trans hl)]
  | some l =>
    cases hl' : s.lane x sl' with
    | none => rw [onLane_of_lane_eq_none g hl', onLane_of_lane_eq_none g (hlane'.trans hl')]
    | some l' =>
      obtain ⟨b, c, hb, -, -⟩ := lane_eq_some_iff.mp hl
      obtain ⟨b', c', hb', -, -⟩ := lane_eq_some_iff.mp hl'
      have hchan : b.chan ≠ b'.chan := hd sl sl' b b' hne hb hb'
      rw [onLane_of_lane_eq_some g ((onLane_unused f hne.symm).1.trans hb') (hlane'.trans hl'),
        onLane_of_lane_eq_some f ((onLane_unused g hne).1.trans hb) (hlane.trans hl),
        onLane_of_lane_eq_some f hb hl, onLane_of_lane_eq_some g hb' hl']
      simp only [Memory.put_comm _ hchan, PerSlot.set_comm _ hne]

end

/-! ## Every output path -/

section
variable {s : State} {x : Instance}

theorem onSlots_cons (f : Slot → Lane → Lane) (sl : Slot) (rest : List Slot) :
    s.onSlots x f (sl :: rest) = (s.onLane x sl (f sl)).1.onSlots (s.onLane x sl (f sl)).2 f rest := rfl

theorem onLane_onSlots_comm (hd : DistinctBinds x) {sl : Slot} (f : Slot → Lane → Lane) (g : Lane → Lane)
    {sls : List Slot} (h : sl ∉ sls) :
    (s.onLane x sl g).1.onSlots (s.onLane x sl g).2 f sls =
      (s.onSlots x f sls).1.onLane (s.onSlots x f sls).2 sl g := by
  induction sls generalizing s x with
  | nil => rfl
  | cons sl' rest ih =>
    rw [List.mem_cons, not_or] at h
    rw [onSlots_cons, onSlots_cons, onLane_comm hd h.1 g (f sl')]
    exact ih ((onLane_frame s x sl' (f sl')).distinctBinds hd) h.2

theorem onSlots_onSlots (hd : DistinctBinds x) (f g : Slot → Lane → Lane) {sls : List Slot} (hnodup : sls.Nodup) :
    (s.onSlots x f sls).1.onSlots (s.onSlots x f sls).2 g sls = s.onSlots x (fun sl l => g sl (f sl l)) sls := by
  induction sls generalizing s x with
  | nil => rfl
  | cons sl rest ih =>
    rw [List.nodup_cons] at hnodup
    have hd' := (onLane_frame s x sl (f sl)).distinctBinds hd
    rw [onSlots_cons, onSlots_cons, onSlots_cons, ← onLane_onSlots_comm hd' f (g sl) hnodup.1,
      onLane_onLane_same, ih ((onLane_frame s x sl _).distinctBinds hd) hnodup.2]

/-- A path left as it is. -/
theorem onSlots_id (hwf : s.mem.wf) (sls : List Slot) : s.onSlots x (fun _ l => l) sls = (s, x) := by
  induction sls with
  | nil => rfl
  | cons sl rest ih =>
    have hlane : s.onLane x sl (fun l => l) = (s, x) := by
      cases hl : s.lane x sl with
      | none => exact onLane_of_lane_eq_none _ hl
      | some l =>
        obtain ⟨b, c, hb, hc, rfl⟩ := lane_eq_some_iff.mp hl
        rw [onLane_of_lane_eq_some _ hb hl, Memory.put_self hwf hc, PerSlot.set_get_self, ← hb, PerSlot.set_get_self]
    rw [onSlots_cons, hlane]
    exact ih

/-- The instance with other registers; BIND and STAGE stay. -/
def Instance.withRegs (x : Instance) (k : Work) (items : U64) (life : Life) : Instance :=
  { x with work := { k with stage := x.work.stage }, items := items, life := life }

theorem onLane_withRegs (k : Work) (items : U64) (life : Life) (sl : Slot) (f : Lane → Lane) :
    s.onLane (x.withRegs k items life) sl f =
      ((s.onLane x sl f).1, (s.onLane x sl f).2.withRegs k items life) := by
  have hlane : s.lane (x.withRegs k items life) sl = s.lane x sl := lane_congr rfl rfl sl
  cases hl : s.lane x sl with
  | none => rw [onLane_of_lane_eq_none f hl, onLane_of_lane_eq_none f (hlane.trans hl)]
  | some l =>
    obtain ⟨b, c, hb, -, -⟩ := lane_eq_some_iff.mp hl
    rw [onLane_of_lane_eq_some f hb hl, onLane_of_lane_eq_some f (x := x.withRegs k items life) hb (hlane.trans hl)]
    rfl

theorem onSlots_withRegs (k : Work) (items : U64) (life : Life) (f : Slot → Lane → Lane) (sls : List Slot) :
    s.onSlots (x.withRegs k items life) f sls =
      ((s.onSlots x f sls).1, (s.onSlots x f sls).2.withRegs k items life) := by
  induction sls generalizing s x with
  | nil => rfl
  | cons sl rest ih =>
    rw [onSlots_cons, onLane_withRegs]
    exact ih

end

/-! ## The registers of the pipeline do not depend on STAGE -/

theorem baseWrite_stage (b : Base) (k : Work) (ws : List U64) (st : PerSlot (List Byte)) :
    baseWrite b { k with stage := st } ws = ({ (baseWrite b k ws).1 with stage := st }, (baseWrite b k ws).2) := by
  unfold baseWrite
  cases b.variant? <;> rfl

theorem writeItem_stage (p : Params) (cfg : Cfg) (k : Work) (y : Item) (st : PerSlot (List Byte)) :
    writeItem p cfg { k with stage := st } y =
      ({ (writeItem p cfg k y).1 with stage := st }, (writeItem p cfg k y).2) := by
  cases y with
  | num v =>
    have h := baseWrite_stage cfg.base
      { k with xf := (pushWords cfg.base.width p.dfcmBits k.xf [trunc cfg.base.width v]).1 }
      (pushWords cfg.base.width p.dfcmBits k.xf [trunc cfg.base.width v]).2 st
    exact congrArg (fun r => (r.1, ({ data := r.2, lens := [] } : Emitted))) h
  | str bs =>
    simp only [writeItem]
    split_ifs <;> rfl

theorem writeItems_stage (p : Params) (cfg : Cfg) (k : Work) (ys : List Item) (st : PerSlot (List Byte)) :
    writeItems p cfg { k with stage := st } ys =
      ({ (writeItems p cfg k ys).1 with stage := st }, (writeItems p cfg k ys).2) := by
  induction ys generalizing k with
  | nil => rfl
  | cons y ys ih => simp only [writeItems, writeItem_stage, ih]

theorem baseFlush_stage (b : Base) (k : Work) (st : PerSlot (List Byte)) :
    baseFlush b { k with stage := st } = ({ (baseFlush b k).1 with stage := st }, (baseFlush b k).2) := by
  cases b <;> rfl

theorem commitFlush_stage (p : Params) (cfg : Cfg) (k : Work) (st : PerSlot (List Byte)) :
    commitFlush p cfg { k with stage := st } =
      ({ (commitFlush p cfg k).1 with stage := st }, (commitFlush p cfg k).2) := by
  have hstages : stagesFlush p cfg { k with stage := st } =
      ({ (stagesFlush p cfg k).1 with stage := st }, (stagesFlush p cfg k).2) := by
    unfold stagesFlush
    split_ifs
    · rfl
    · have h := baseWrite_stage cfg.base { k with xf := (flushStages cfg.base.width p.dfcmBits k.xf []).1 }
        (flushStages cfg.base.width p.dfcmBits k.xf []).2 st
      exact congrArg (fun r => (r.1, ({ data := r.2, lens := [] } : Emitted))) h
  simp only [commitFlush, hstages, baseFlush_stage]

/-! ## WRITE after WRITE -/

theorem emitAll_append (n : Nat) (l : Lane) (as bs : List Byte) : l.emitAll n (as ++ bs) = (l.emitAll n as).emitAll n bs :=
  List.foldl_append

/-- Output paths are in the memory: the rest of the state neither changes nor matters. -/
theorem onSlots_of_mem_eq {s t : State} {x : Instance} (h : t.mem = s.mem) (f : Slot → Lane → Lane) (sls : List Slot) :
    t.onSlots x f sls = ({ t with mem := (s.onSlots x f sls).1.mem }, (s.onSlots x f sls).2) := by
  induction sls generalizing s t x with
  | nil =>
    simp only [State.onSlots, ← h]
  | cons sl rest ih =>
    have hlane : t.lane x sl = s.lane x sl := by
      unfold State.lane
      rw [h]
    rw [onSlots_cons, onSlots_cons]
    cases hl : s.lane x sl with
    | none =>
      rw [onLane_of_lane_eq_none _ hl, onLane_of_lane_eq_none _ (hlane.trans hl)]
      exact ih h
    | some l =>
      obtain ⟨b, c, hb, -, -⟩ := lane_eq_some_iff.mp hl
      rw [onLane_of_lane_eq_some _ hb hl, onLane_of_lane_eq_some _ hb (hlane.trans hl)]
      rw [h]
      exact ih (s := { s with mem := s.mem.put b.chan (f sl l).bytes (f sl l).gen }) rfl

theorem onSlots_setInst {s : State} {inst : U16} {x : Instance} (y : Instance) (f : Slot → Lane → Lane)
    (sls : List Slot) :
    (s.setInst inst y).onSlots x f sls = ((s.onSlots x f sls).1.setInst inst y, (s.onSlots x f sls).2) := by
  rw [onSlots_of_mem_eq (t := s.setInst inst y) (s := s) rfl, congrArg Prod.fst (onSlots_of_mem_eq (t := s) (s := s) rfl f sls)]
  rfl

theorem State.setInst_setInst (s : State) (inst : U16) (y z : Instance) :
    (s.setInst inst y).setInst inst z = s.setInst inst z := by
  simp [State.setInst]

theorem Instance.withRegs_withRegs (x : Instance) (k k' : Work) (i i' : U64) (l l' : Life) :
    (x.withRegs k i l).withRegs k' i' l' = x.withRegs k' i' l' := rfl

/-- LIFE after a WRITE of the items. -/
def lifeAfter (life : Life) (items : List Item) : Life := if items = [] then life else .writing

theorem lifeAfter_append (life : Life) (as bs : List Item) :
    lifeAfter (lifeAfter life as) bs = lifeAfter life (as ++ bs) := by
  cases as <;> cases bs <;> rfl

section
variable {s : State} {inst : U16} {x : Instance}

/-- The instance that WRITE_ONE and WRITE leave. -/
def Instance.written (s : State) (x : Instance) (items : List Item) : Instance :=
  (s.onSlots x (writePath s.params x items) x.cfg.base.slots).2.withRegs (writeItems s.params x.cfg x.work items).1
    (x.items + BitVec.ofNat 64 items.length) (lifeAfter x.life items)

theorem Instance.written_def (s : State) (x : Instance) (items : List Item) :
    x.written s items = (s.onSlots x (writePath s.params x items) x.cfg.base.slots).2.withRegs
      (writeItems s.params x.cfg x.work items).1 (x.items + BitVec.ofNat 64 items.length) (lifeAfter x.life items) := rfl

theorem afterWrite_eq_withRegs (hcore : x.work.coreOk s.params.dfcmBits x.cfg) (items : List Item) :
    x.afterWrite s.params items = x.withRegs (writeItems s.params x.cfg x.work items).1
      (x.items + BitVec.ofNat 64 items.length) (lifeAfter x.life items) := by
  have hstage := (writeItems_core s.params x.cfg items x.work hcore).2
  rw [Instance.withRegs, ← hstage]
  rfl

/-- WRITE_ONE and WRITE: the output paths changed, then the registers written. -/
theorem written_eq_setInst (hcore : x.work.coreOk s.params.dfcmBits x.cfg) (items : List Item) :
    s.written inst x items =
      (s.onSlots x (writePath s.params x items) x.cfg.base.slots).1.setInst inst (x.written s items) := by
  have hslots := onSlots_withRegs (s := s) (x := x) (writeItems s.params x.cfg x.work items).1
    (x.items + BitVec.ofNat 64 items.length) (lifeAfter x.life items) (writePath s.params x items) x.cfg.base.slots
  rw [← afterWrite_eq_withRegs hcore] at hslots
  have heq := State.onLanes_eq s inst (x.afterWrite s.params items) (writePath s.params x items)
  rw [State.written_eq]
  refine heq.trans ?_
  rw [show (x.afterWrite s.params items).cfg = x.cfg from rfl, hslots]
  rfl

theorem written_cfg (items : List Item) : (x.written s items).cfg = x.cfg :=
  (onSlots_frame (writePath s.params x items) x.cfg.base.slots s x).cfg

theorem writeItems_written (as bs : List Item) :
    writeItems s.params x.cfg (x.written s as).work bs =
      ({ (writeItems s.params x.cfg x.work (as ++ bs)).1 with stage := (x.written s as).work.stage },
        (writeItems s.params x.cfg (writeItems s.params x.cfg x.work as).1 bs).2) := by
  rw [writeItems_append]
  exact writeItems_stage s.params x.cfg (writeItems s.params x.cfg x.work as).1 bs (x.written s as).work.stage

theorem writePath_written (as bs : List Item) (sl : Slot) (l : Lane) :
    writePath s.params (x.written s as) bs sl (writePath s.params x as sl l) = writePath s.params x (as ++ bs) sl l := by
  simp only [writePath, written_cfg, writeItems_written]
  rw [writeItems_append, Emitted.get_append, emitAll_append]

/-- The output paths of the instance that wrote items, changed again. -/
theorem onSlots_written (hcore : x.work.coreOk s.params.dfcmBits x.cfg) (hd : DistinctBinds x) (as : List Item)
    (g : Slot → Lane → Lane) :
    (s.written inst x as).onSlots (x.written s as) g x.cfg.base.slots =
      ((s.onSlots x (fun sl l => g sl (writePath s.params x as sl l)) x.cfg.base.slots).1.setInst inst (x.written s as),
        (s.onSlots x (fun sl l => g sl (writePath s.params x as sl l)) x.cfg.base.slots).2.withRegs
          (x.written s as).work (x.written s as).items (x.written s as).life) := by
  rw [written_eq_setInst hcore, onSlots_setInst, ← onSlots_onSlots hd _ g x.cfg.base.slots_nodup]
  have hregs := onSlots_withRegs (s := (s.onSlots x (writePath s.params x as) x.cfg.base.slots).1)
    (x := (s.onSlots x (writePath s.params x as) x.cfg.base.slots).2) (x.written s as).work (x.written s as).items
    (x.written s as).life g x.cfg.base.slots
  exact congrArg (fun r => (r.1.setInst inst (x.written s as), r.2)) hregs

theorem State.written_written (hcore : x.work.coreOk s.params.dfcmBits x.cfg) (hd : DistinctBinds x) (as bs : List Item)
    (hcore' : (x.written s as).work.coreOk s.params.dfcmBits x.cfg) :
    (s.written inst x as).written inst (x.written s as) bs = s.written inst x (as ++ bs) := by
  have hparams : (s.written inst x as).params = s.params := by
    rw [written_eq_setInst hcore]
    exact (onSlots_frame _ _ s x).params
  have hcfg : (x.written s as).cfg = x.cfg := written_cfg as
  have hslots := onSlots_written (inst := inst) hcore hd as (writePath s.params (x.written s as) bs)
  simp only [writePath_written] at hslots
  have hinst : (x.written s as).written (s.written inst x as) bs = x.written s (as ++ bs) := by
    have hitems : (x.written s as).items + BitVec.ofNat 64 bs.length = x.items + BitVec.ofNat 64 (as ++ bs).length := by
      rw [List.length_append, BitVec.ofNat_add, ← BitVec.add_assoc]
      rfl
    have hlife : lifeAfter (x.written s as).life bs = lifeAfter x.life (as ++ bs) := lifeAfter_append x.life as bs
    rw [Instance.written_def (s.written inst x as), hparams, hcfg, hslots, Instance.withRegs_withRegs, hitems, hlife,
      writeItems_written, Instance.written_def s x (as ++ bs)]
    rfl
  calc (s.written inst x as).written inst (x.written s as) bs
    _ = ((s.written inst x as).onSlots (x.written s as) (writePath s.params (x.written s as) bs)
          x.cfg.base.slots).1.setInst inst (x.written s (as ++ bs)) := by
      rw [written_eq_setInst (s := s.written inst x as) (by rwa [hparams, hcfg]), hparams, hcfg, hinst]
    _ = s.written inst x (as ++ bs) := by
      rw [hslots, written_eq_setInst hcore]
      exact State.setInst_setInst _ _ _ _

theorem writePath_nil (p : Params) (x : Instance) (sl : Slot) (l : Lane) : writePath p x [] sl l = l := by
  cases sl <;> rfl

theorem State.written_nil (hwf : s.mem.wf) (hx : s.inst? inst = some x)
    (hcore : x.work.coreOk s.params.dfcmBits x.cfg) : s.written inst x [] = s := by
  have hslots : s.onSlots x (writePath s.params x []) x.cfg.base.slots = (s, x) := by
    have hpath : writePath s.params x [] = fun _ l => l := funext₂ (writePath_nil s.params x)
    rw [hpath, onSlots_id hwf]
  have hsame : x.written s [] = x := by
    rw [Instance.written_def, hslots]
    simp [Instance.withRegs, writeItems, lifeAfter]
  rw [written_eq_setInst hcore, hslots, hsame, State.setInst_self hx]

end

/-! ## The results do not matter -/

/-- The state with other results. -/
def State.withResults (s : State) (res : List Result) : State := { s with results := res }

theorem State.written_withResults {s : State} {inst : U16} {x : Instance} (res : List Result) (items : List Item) :
    (s.withResults res).written inst x items = (s.written inst x items).withResults res := by
  have hslots := onSlots_of_mem_eq (t := s.withResults res) (s := s) (x := x.afterWrite s.params items) rfl
    (writePath s.params x items) (x.afterWrite s.params items).cfg.base.slots
  have hself := congrArg Prod.fst (onSlots_of_mem_eq (t := s) (s := s) (x := x.afterWrite s.params items) rfl
    (writePath s.params x items) (x.afterWrite s.params items).cfg.base.slots)
  have heq := State.onLanes_eq (s.withResults res) inst (x.afterWrite s.params items) (writePath s.params x items)
  rw [hslots] at heq
  exact heq.trans (congrArg (fun t => (State.setInst t inst _).withResults res) hself.symm)

end Sys2Proof.Machine
end

section
/-! PROOFS. Commands that answer OK passed every check of R290; a WRITE is its WRITE_ONEs (44_pipeline.md R339). O31. -/

namespace Sys2Proof.Machine

/-! ## Where a command answers OK -/

section
variable {s t : State} {op : Opcode} {inst : U16} {x : Instance}

theorem valid_of_answeredOk {body : Instance → Outcome} (hx : s.inst? inst = some x)
    (h : s.dispatch op inst body = .next t) (hok : t.answeredOk) :
    validIn op x.cfg.role x.life = true ∧ body x = .next t := by
  obtain ⟨hnone, -⟩ | ⟨y, hy, ⟨-, h⟩ | ⟨-, h⟩ | ⟨-, hv, h⟩⟩ := dispatch_cases h
  · cases hnone.symm.trans hx
  · cases h
    exact absurd hok (not_answeredOk_reply _ _ _)
  · cases h
    exact absurd hok (not_answeredOk_faultEntry _ _ _ _ _ _)
  · cases hx.symm.trans hy
    exact ⟨hv, h⟩

/-- A command that moves output paths and answers OK: within CHANNEL_MAX, on channels nobody else changed. -/
theorem laneCommand_of_answeredOk {y : Instance} {f : Slot → Lane → Lane} (h : s.laneCommand op inst x y f = .next t)
    (hok : t.answeredOk) :
    overflows s (s.onLanes inst y f) x = false ∧ (∀ sl ∈ x.cfg.base.slots, s.stale x sl = false) ∧
      t = (s.onLanes inst y f).reply .ok [] := by
  unfold State.laneCommand at h
  cases hover : overflows s (s.onLanes inst y f) x with
  | true =>
    rw [hover, if_pos rfl] at h
    cases h
    exact absurd hok (not_answeredOk_faultEntry _ _ _ _ _ _)
  | false =>
    rw [hover, if_neg Bool.false_ne_true] at h
    obtain ⟨sl, -, -, rfl⟩ | ⟨hclean, h⟩ := hazardCheck_next h
    · exact absurd hok (not_answeredOk_faultEntry _ _ _ _ _ _)
    · cases h
      exact ⟨rfl, hclean, rfl⟩

theorem writeBody_of_answeredOk {items : List Item} (h : s.writeBody op inst x items = .next t) (hok : t.answeredOk) :
    RoomFor x items.length ∧
      s.laneCommand op inst x (x.afterWrite s.params items) (writePath s.params x items) = .next t := by
  cases hcount : withinCount x.cfg x.items items.length with
  | false =>
    rw [State.writeBody, if_pos hcount] at h
    cases h
    exact absurd hok (not_answeredOk_faultEntry _ _ _ _ _ _)
  | true =>
    rw [State.writeBody, if_neg (ne_false_of_eq_true hcount)] at h
    exact ⟨(withinCount_eq_true_iff ..).mp hcount, h⟩

theorem writing_of_answeredOk {items : List Item} {i : Instr} (hx : s.inst? inst = some x) (hi : WriteCommand inst items i)
    (h : exec i s = .next t) (hok : t.answeredOk) : x.cfg.role = .writer ∧ (x.life = .empty ∨ x.life = .writing) := by
  obtain ⟨item, -, rfl⟩ | ⟨buflen, offset, count, buf, rfl, -⟩ := hi
  · exact validIn_writing (op := .writeOne) (.inl rfl) (valid_of_answeredOk hx h hok).1
  · exact validIn_writing (op := .write) (.inr rfl) (valid_of_answeredOk hx h hok).1

end

/-! ## Every check of a WRITE -/

/-- Where a WRITE of the items completes: the checks of R294 and R295, and the instance's own invariant. -/
structure Writable (s : State) (inst : U16) (x : Instance) (items : List Item) : Prop where
  inv : IsInv s
  inst : s.inst? inst = some x
  role : x.cfg.role = .writer
  life : x.life = .empty ∨ x.life = .writing
  fits : ∀ y ∈ items, y.fits x.cfg.base = true
  room : RoomFor x items.length
  clean : ∀ sl ∈ x.cfg.base.slots, s.stale x sl = false
  within : EachLane s x fun sl l => (writePath s.params x items sl l).bytes.length ≤ s.params.channelMax

section
variable {s t : State} {inst : U16} {x : Instance} {items : List Item} {i : Instr}

theorem Writable.bound (h : Writable s inst x items) : s.bound x = true := h.inv.bound_of_writing h.inst h.life

theorem Writable.work_ok (h : Writable s inst x items) : x.work.ok s.params x.cfg = true :=
  work_ok_of_open h.inv h.inst (life_open_of_writing h.life)

theorem Writable.core (h : Writable s inst x items) : x.work.coreOk s.params.dfcmBits x.cfg := Work.core_of_ok h.work_ok

theorem Writable.distinct (h : Writable s inst x items) : DistinctBinds x :=
  distinctBinds_of_bindingOk (bindingOk_of_open h.inv h.inst (life_open_of_writing h.life))

/-- The paths of a WRITE, as themselves. -/
theorem pathChange_written (h : IsInv s) (hx : s.inst? inst = some x) (hl : x.life = .empty ∨ x.life = .writing)
    (items : List Item) :
    PathChange s x (x.afterWrite s.params items) (writePath s.params x items) (writePath s.params x items) :=
  { pathChange_write h hx hl items with path := fun _ _ _ => rfl }

theorem writable_of_answeredOk (hinv : IsInv s) (hx : s.inst? inst = some x) (hi : WriteCommand inst items i)
    (hfits : ∀ y ∈ items, y.fits x.cfg.base = true) (h : exec i s = .next t) (hok : t.answeredOk) :
    Writable s inst x items ∧ t = (s.written inst x items).reply .ok [] := by
  obtain ⟨hrole, hl⟩ := writing_of_answeredOk hx hi h hok
  obtain ⟨op, -, -, hexec⟩ := exec_writeCommand hx hrole hl (hinv.bound_of_writing hx hl) hi hfits
  obtain ⟨hroom, hlane⟩ := writeBody_of_answeredOk (hexec.symm.trans h) hok
  obtain ⟨hover, hclean, ht⟩ := laneCommand_of_answeredOk hlane hok
  refine ⟨⟨hinv, hx, hrole, hl, hfits, hroom, hclean, fun sl hsl l hl' => ?_⟩, ht⟩
  by_contra hlt
  have hle : l.bytes.length ≤ s.params.channelMax := by
    obtain ⟨b, c, -, hc, rfl⟩ := lane_eq_some_iff.mp hl'
    exact hinv.lens _ c hc
  rw [Bool.eq_false_iff, Ne, (pathChange_written hinv hx hl items).overflows_iff] at hover
  exact hover ⟨sl, hsl, l, hl', by omega, by omega⟩

theorem Writable.exec (h : Writable s inst x items) (hi : WriteCommand inst items i) :
    Machine.exec i s = .next ((s.written inst x items).reply .ok []) := by
  obtain ⟨op, hop⟩ := exists_command?_of_writeCommand hi
  obtain ⟨-, hexec⟩ := exec_writeCommand_of_room h.inst h.role h.life h.bound hi h.fits h.room hop
  have hover := overflows_eq_false_of_eachLane (inst := inst) (pathChange_written h.inv h.inst h.life items) h.within
  rw [hexec, State.laneCommand, hover, if_neg Bool.false_ne_true, hazardCheck_clean h.clean]
  rfl

theorem Writable.overflows (h : Writable s inst x items) : Machine.overflows s (s.written inst x items) x = false :=
  overflows_eq_false_of_eachLane (inst := inst) (pathChange_written h.inv h.inst h.life items) h.within

/-! ### One item, then the others -/

theorem emitAll_bytes_mono (n : Nat) (l : Lane) (bs : List Byte) : l.bytes.length ≤ (l.emitAll n bs).bytes.length := by
  induction bs generalizing l with
  | nil => exact le_rfl
  | cons b bs ih =>
    refine le_trans ?_ (ih (l.emit n b))
    unfold Lane.emit Lane.flush
    dsimp only
    split_ifs <;> simp

theorem emitAll_synced (n : Nat) {l : Lane} (h : l.seen = l.gen) (bs : List Byte) :
    (l.emitAll n bs).seen = (l.emitAll n bs).gen := by
  induction bs generalizing l with
  | nil => exact h
  | cons b bs ih =>
    refine ih ?_
    unfold Lane.emit Lane.flush
    dsimp only
    split_ifs <;> simp [h]

theorem stale_eq_false_iff {sl : Slot} {l : Lane} (hl : s.lane x sl = some l) :
    s.stale x sl = false ↔ l.seen = l.gen := by
  obtain ⟨b, c, hb, hc, rfl⟩ := lane_eq_some_iff.mp hl
  rw [State.stale, hb]
  simp only [Memory.gen_of_get hc, bne_eq_false_iff_eq]
  exact eq_comm

theorem written_inst? (hx : s.inst? inst = some x) (hcore : x.work.coreOk s.params.dfcmBits x.cfg) :
    (s.written inst x items).inst? inst = some (x.written s items) := by
  rw [written_eq_setInst hcore]
  exact State.setInst_inst?_same ((inst?_congr (onSlots_insts ..) inst).trans hx) _

theorem written_lane (hcore : x.work.coreOk s.params.dfcmBits x.cfg) (hd : DistinctBinds x) {sl : Slot}
    (hsl : sl ∈ x.cfg.base.slots) {l : Lane} (hl : s.lane x sl = some l) :
    (s.written inst x items).lane (x.written s items) sl = some (writePath s.params x items sl l) := by
  have h := onSlots_lane_of_mem (writePath s.params x items) hd x.cfg.base.slots_nodup hsl hl
  rw [written_eq_setInst hcore]
  exact (lane_congr (s := (s.onSlots x (writePath s.params x items) x.cfg.base.slots).1) rfl rfl sl).trans h

theorem written_params (hcore : x.work.coreOk s.params.dfcmBits x.cfg) (items : List Item) :
    (s.written inst x items).params = s.params := by
  rw [written_eq_setInst hcore]
  exact (onSlots_frame _ _ s x).params

/-- The first item of a WRITE. -/
theorem Writable.head {y : Item} {ys : List Item} (h : Writable s inst x (y :: ys)) : Writable s inst x [y] where
  inv := h.inv
  inst := h.inst
  role := h.role
  life := h.life
  fits z hz := h.fits z (List.mem_cons.mpr (.inl (List.mem_singleton.mp hz)))
  room c hc := (Nat.add_le_add_left (by simp) _).trans (h.room c hc)
  clean := h.clean
  within sl hsl l hl := by
    have hgrow := emitAll_bytes_mono s.params.stageBytes (writePath s.params x [y] sl l)
      ((writeItems s.params (x.written s [y]).cfg (x.written s [y]).work ys).2.get sl)
    exact hgrow.trans (congrArg (fun m => m.bytes.length) (writePath_written [y] ys sl l) ▸ h.within sl hsl l hl)

/-- The other items, where the first was written. -/
theorem Writable.tail {y : Item} {ys : List Item} (h : Writable s inst x (y :: ys)) (res : List Result) :
    Writable ((s.written inst x [y]).withResults res) inst (x.written s [y]) ys := by
  have hhead := h.head
  have hcfg : (x.written s [y]).cfg = x.cfg := written_cfg [y]
  have hparams : (s.written inst x [y]).params = s.params := written_params h.core [y]
  have hlane {sl : Slot} (hsl : sl ∈ (x.written s [y]).cfg.base.slots) : ∃ l, s.lane x sl = some l ∧
      (s.written inst x [y]).lane (x.written s [y]) sl = some (writePath s.params x [y] sl l) := by
    rw [hcfg] at hsl
    obtain ⟨l, hl⟩ := exists_lane h.bound hsl
    exact ⟨l, hl, written_lane h.core h.distinct hsl hl⟩
  have hinv := h.inv.wrote (h.inv.oks x (State.inst?_mem h.inst)) h.role h.life hhead.overflows
  refine ⟨hinv.of_eq rfl rfl rfl hinv.port, written_inst? h.inst h.core, hcfg ▸ h.role, .inr rfl,
    fun z hz => hcfg ▸ h.fits z (List.mem_cons_of_mem y hz), fun c hc => ?_, fun sl hsl => ?_, fun sl hsl l hl => ?_⟩
  · have hroom := h.room c (hcfg ▸ hc)
    have hlt := c.isLt
    rw [List.length_cons] at hroom
    have hitems : (x.written s [y]).items.toNat = (x.items.toNat + 1) % 2 ^ 64 := BitVec.toNat_add x.items 1
    rw [hitems, Nat.mod_eq_of_lt (by omega)]
    omega
  · obtain ⟨l, hl, hl'⟩ := hlane hsl
    have hseen := (stale_eq_false_iff hl).mp (h.clean sl (hcfg ▸ hsl))
    exact (stale_eq_false_iff (s := s.written inst x [y]) hl').mpr (emitAll_synced _ hseen _)
  · obtain ⟨l0, hl0, hl'⟩ := hlane hsl
    cases hl'.symm.trans hl
    have hwithin := h.within sl (hcfg ▸ hsl) l0 hl0
    rw [show (State.withResults (s.written inst x [y]) res).params = s.params from hparams, writePath_written]
    exact hwithin

end

/-- The result of a WRITE_ONE that answers OK. -/
def writeOneResult : Result := { status := 0, words := [] }

theorem written_results (s : State) (inst : U16) (x : Instance) (items : List Item) :
    (s.written inst x items).results = s.results := by
  rw [State.written_eq, onLanes_results]

/-- The WRITE_ONEs of a WRITE leave what it leaves, and answer OK each. -/
theorem runAll_writeOnes {inst : U16} {xs : List Item} : ∀ {s : State} {x : Instance}, Writable s inst x xs →
    runAll (xs.map fun y => .writeOne inst y.operand) s =
      .next ((s.written inst x xs).withResults (List.replicate xs.length writeOneResult ++ s.results)) := by
  induction xs with
  | nil =>
    intro s x h
    rw [State.written_nil h.inv.wf h.inst h.core]
    rfl
  | cons y ys ih =>
    intro s x h
    have hone : exec (.writeOne inst y.operand) s =
        .next ((s.written inst x [y]).withResults (writeOneResult :: s.results)) := by
      rw [h.head.exec (.inl ⟨y, rfl, rfl⟩), State.reply, written_results]
      rfl
    have hcore' : (x.written s [y]).work.coreOk s.params.dfcmBits x.cfg := by
      have htail := (h.tail s.results).core
      have hparams : ((s.written inst x [y]).withResults s.results).params = s.params :=
        written_params (inst := inst) h.core [y]
      rwa [written_cfg, hparams] at htail
    rw [List.map_cons, runAll, hone]
    refine (ih (h.tail (writeOneResult :: s.results))).trans ?_
    rw [State.written_withResults, State.written_written h.core h.distinct [y] ys hcore', List.length_cons,
      List.replicate_succ', List.append_assoc]
    rfl

/-- Settles O31. -/
theorem writeIsManyWriteOnes : Obligations.WriteIsManyWriteOnes := by
  rintro s t inst x xs i hinv hx hi hfits ⟨ht, hok⟩
  obtain ⟨h, rfl⟩ := writable_of_answeredOk ((inv_iff s).mp hinv) hx hi hfits ht (.inl hok)
  exact ⟨_, runAll_writeOnes h, rfl, rfl, rfl⟩

end Sys2Proof.Machine
end

section
/-! PROOFS. What the channels of a writer hold, from INIT on (44_pipeline.md R336, R340, R341): after each command that answers OK
the bytes in a channel and those staged for it are U of the items written; after COMMIT they are E. O29, O30. -/

namespace Sys2Proof.Machine

/-! ## The bytes of an output path, staged or not -/

/-- The bytes in the channel, then those staged for it. -/
def Lane.all (l : Lane) : List Byte := l.bytes ++ l.stage

theorem Lane.flush_all (l : Lane) : l.flush.all = l.all := by
  unfold Lane.flush Lane.all
  split_ifs with h
  · rfl
  · simp

theorem Lane.emitAll_all (n : Nat) (l : Lane) (bs : List Byte) : (l.emitAll n bs).all = l.all ++ bs := by
  induction bs generalizing l with
  | nil => simp [Lane.emitAll]
  | cons b bs ih =>
    have hemit : (l.emit n b).all = l.all ++ [b] := by
      unfold Lane.emit
      dsimp only
      split_ifs
      · rw [Lane.flush_all]
        simp [Lane.all]
      · simp [Lane.all]
    refine (ih (l.emit n b)).trans ?_
    rw [hemit, List.append_assoc]
    rfl

theorem Lane.flush_bytes (l : Lane) : l.flush.bytes = l.all := by
  unfold Lane.flush Lane.all
  split_ifs with h
  · simp [h]
  · rfl

/-! ## Writers and what they wrote -/

/-- The invariant is kept by every command. -/
theorem IsInv.exec {s t : State} {i : Instr} {op : Opcode} {inst : U16} (h : IsInv s)
    (hi : Instr.command? i = some (op, inst)) (ht : exec i s = .next t) : IsInv t := (exec_effect hi ht).isInv h

/-- `y` has the configuration of `x` and is bound to the same channels. -/
def SameChans (x y : Instance) : Prop :=
  y.cfg = x.cfg ∧ ∀ sl ∈ x.cfg.base.slots, (y.bind.get sl).map Binding.chan = (x.bind.get sl).map Binding.chan

theorem SameChans.refl (x : Instance) : SameChans x x := ⟨rfl, fun _ _ => rfl⟩

theorem SameChans.trans {x y z : Instance} (h : SameChans x y) (h' : SameChans y z) : SameChans x z :=
  ⟨h'.1.trans h.1, fun sl hsl => (h'.2 sl (h.1 ▸ hsl)).trans (h.2 sl hsl)⟩

/-- A writer in EMPTY or WRITING that wrote the items since its channels were empty. -/
structure WroteItems (s : State) (inst : U16) (x : Instance) (xs : List Item) : Prop where
  inv : IsInv s
  inst : s.inst? inst = some x
  role : x.cfg.role = .writer
  life : x.life = .empty ∨ x.life = .writing
  work : WorkIs x (writeItems s.params x.cfg (Work.reset x.cfg) xs).1
  bytes : EachLane s x fun sl l => l.all = (emittedU s.params x.cfg xs).get sl

/-- A writer that wrote the items since its channels were empty, and committed them. -/
structure CommittedItems (s : State) (inst : U16) (x : Instance) (xs : List Item) : Prop where
  inv : IsInv s
  inst : s.inst? inst = some x
  role : x.cfg.role = .writer
  life : x.life = .committed
  bytes : EachLane s x fun sl l => l.bytes = (emittedE s.params x.cfg xs).get sl

section
variable {s t : State} {inst : U16} {x y : Instance} {xs ys : List Item}

/-- The registers but STAGE are those of a writer from reset, whose STAGE is empty. -/
theorem WroteItems.work_eq (h : WroteItems s inst x xs) :
    x.work = { (writeItems s.params x.cfg (Work.reset x.cfg) xs).1 with stage := x.work.stage } :=
  congrArg (fun k : Work => { k with stage := x.work.stage }) h.work

theorem WroteItems.writeItems_eq (h : WroteItems s inst x xs) (ys : List Item) :
    writeItems s.params x.cfg x.work ys =
      ({ (writeItems s.params x.cfg (Work.reset x.cfg) (xs ++ ys)).1 with stage := x.work.stage },
        (writeItems s.params x.cfg (writeItems s.params x.cfg (Work.reset x.cfg) xs).1 ys).2) := by
  have hstage := writeItems_stage s.params x.cfg (writeItems s.params x.cfg (Work.reset x.cfg) xs).1 ys x.work.stage
  rw [← h.work_eq] at hstage
  rw [hstage, writeItems_append]

theorem WroteItems.commitFlush_eq (h : WroteItems s inst x xs) :
    (commitFlush s.params x.cfg x.work).2 =
      (commitFlush s.params x.cfg (writeItems s.params x.cfg (Work.reset x.cfg) xs).1).2 := by
  have hstage := commitFlush_stage s.params x.cfg (writeItems s.params x.cfg (Work.reset x.cfg) xs).1 x.work.stage
  rw [← h.work_eq] at hstage
  rw [hstage]

theorem WorkIs.of_stage {k : Work} {st : PerSlot (List Byte)} (h : WorkIs y { k with stage := st }) : WorkIs y k := by
  rw [WorkIs] at h ⊢
  have hk := congrArg (fun k' : Work => ({ k' with stage := k.stage } : Work)) h
  exact hk

/-- A command that moves output paths and answers OK. -/
theorem pathsMoved_of_answeredOk {op : Opcode} {f g : Slot → Lane → Lane} (hpath : PathChange s x y f g)
    (hx : s.inst? inst = some x) (h : s.laneCommand op inst x y f = .next t) (hok : t.answeredOk) :
    PathsMoved s inst x y g (.next t) := by
  obtain ⟨-, -, rfl⟩ := laneCommand_of_answeredOk h hok
  exact hpath.moved hx

/-- Moved paths are those of an instance on the same channels. -/
theorem PathsMoved.same {g : Slot → Lane → Lane} {z : Instance} (hb : s.bound x = true)
    (hcfg : z.cfg = x.cfg) (h : LanesBecome s t x z g) :
    SameChans x z ∧ ∀ sl ∈ z.cfg.base.slots, ∀ l, t.lane z sl = some l → ∃ l0, s.lane x sl = some l0 ∧ l = g sl l0 := by
  refine ⟨⟨hcfg, fun sl hsl => ?_⟩, fun sl hsl l hl => ?_⟩
  · obtain ⟨l, hl⟩ := exists_lane hb hsl
    exact (h.1 sl hsl l hl).2
  · rw [hcfg] at hsl
    obtain ⟨l0, hl0⟩ := exists_lane hb hsl
    exact ⟨l0, hl0, Option.some.inj (hl.symm.trans (h.1 sl hsl l0 hl0).1)⟩

/-- A WRITE or WRITE_ONE that answers OK. -/
theorem WroteItems.write (h : WroteItems s inst x xs) {i : Instr} (hi : WriteCommand inst ys i)
    (hfits : ∀ y ∈ ys, y.fits x.cfg.base = true) (hrun : RunsOk i s t) :
    ∃ z, WroteItems t inst z (xs ++ ys) ∧ SameChans x z ∧ t.params = s.params ∧ RoomFor x ys.length := by
  obtain ⟨ht, hok⟩ := hrun
  obtain ⟨op, hop⟩ := exists_command?_of_writeCommand hi
  obtain ⟨hw, rfl⟩ := writable_of_answeredOk h.inv h.inst hi hfits ht (.inl hok)
  obtain ⟨-, z, ⟨⟩, hun, -, hz, hcfg, -, hlife, -, hwork, -, hlanes⟩ :=
    (pathChange_written h.inv h.inst h.life ys).moved h.inst
  have hcfg : z.cfg = x.cfg := hcfg
  have hparams : ((s.written inst x ys).reply .ok []).params = s.params := hun.1
  obtain ⟨hsame, hback⟩ := PathsMoved.same hw.bound hcfg hlanes
  refine ⟨z, ⟨h.inv.exec hop ht, hz, hcfg ▸ h.role, ?_, ?_, fun sl hsl l hl => ?_⟩, hsame, hparams, hw.room⟩
  · rw [hlife, Instance.afterWrite]
    dsimp only
    split_ifs
    · exact h.life
    · exact .inr rfl
  · rw [Instance.afterWrite, h.writeItems_eq] at hwork
    rw [hcfg, hparams]
    exact hwork.of_stage
  · obtain ⟨l0, hl0, rfl⟩ := hback sl hsl l hl
    rw [writePath, Lane.emitAll_all, h.bytes sl (hcfg ▸ hsl) l0 hl0, hcfg, hparams, h.writeItems_eq, emittedU, emittedU,
      writeItems_append, Emitted.get_append]

/-- A FLUSH that answers OK. -/
theorem WroteItems.flush (h : WroteItems s inst x xs) (hrun : RunsOk (.flush inst) s t) :
    ∃ z, WroteItems t inst z xs ∧ SameChans x z ∧ t.params = s.params := by
  obtain ⟨ht, hok⟩ := hrun
  have hopen := life_open_of_writing h.life
  have hb := h.inv.bound_of_writing h.inst h.life
  have hlane := (exec_flush_of_open h.inst h.role hopen hb).symm.trans ht
  have hpath : PathChange s x x (fun _ l => l.flush) fun _ l => l.flush :=
    { pathChange_flush h.inv h.inst hopen with path := fun _ _ _ => rfl }
  obtain ⟨u, z, hu, hun, -, hz, hcfg, -, hlife, -, hwork, -, hlanes⟩ :=
    pathsMoved_of_answeredOk hpath h.inst hlane (.inl hok)
  cases hu
  have hparams : t.params = s.params := hun.1
  obtain ⟨hsame, hback⟩ := PathsMoved.same hb hcfg hlanes
  refine ⟨z, ⟨h.inv.exec rfl ht, hz, hcfg ▸ h.role, hlife ▸ h.life, ?_, fun sl hsl l hl => ?_⟩, hsame, hparams⟩
  · rw [h.work_eq] at hwork
    rw [hcfg, hparams]
    exact hwork.of_stage
  · obtain ⟨l0, hl0, rfl⟩ := hback sl hsl l hl
    rw [Lane.flush_all, h.bytes sl (hcfg ▸ hsl) l0 hl0, hcfg, hparams]

/-- A COMMIT that answers OK. -/
theorem WroteItems.commit (h : WroteItems s inst x xs) (hrun : RunsOk (.commit inst) s t) :
    ∃ z, CommittedItems t inst z xs ∧ SameChans x z ∧ t.params = s.params := by
  obtain ⟨ht, hok⟩ := hrun
  have hb := h.inv.bound_of_writing h.inst h.life
  have hlane := (exec_commit_of_writing h.inst h.role h.life hb).symm.trans ht
  have hpath : PathChange s x (x.afterCommit s.params) (commitPath s.params x) (commitPath s.params x) :=
    { pathChange_commit h.inv h.inst h.life with path := fun _ _ _ => rfl }
  obtain ⟨u, z, hu, hun, -, hz, hcfg, -, hlife, -, -, -, hlanes⟩ :=
    pathsMoved_of_answeredOk hpath h.inst hlane (.inl hok)
  cases hu
  have hcfg : z.cfg = x.cfg := hcfg
  have hparams : t.params = s.params := hun.1
  obtain ⟨hsame, hback⟩ := PathsMoved.same hb hcfg hlanes
  refine ⟨z, ⟨h.inv.exec rfl ht, hz, hcfg ▸ h.role, hlife, fun sl hsl l hl => ?_⟩, hsame, hparams⟩
  obtain ⟨l0, hl0, rfl⟩ := hback sl hsl l hl
  rw [commitPath, Lane.flush_bytes, Lane.emitAll_all, h.bytes sl (hcfg ▸ hsl) l0 hl0, h.commitFlush_eq, hcfg, hparams,
    emittedE, Emitted.get_append]

/-- What INIT on empty channels leaves. -/
theorem wroteItems_nil (hinv : s.Inv = true) (hx : s.inst? inst = some x) (hrole : x.cfg.role = .writer)
    (hl : x.life = .empty) (hwork : x.work = Work.reset x.cfg) (hempty : EachLane s x fun _ l => l.bytes = []) :
    WroteItems s inst x [] := by
  refine ⟨(inv_iff s).mp hinv, hx, hrole, .inl hl, hwork ▸ rfl, fun sl hsl l hlane => ?_⟩
  have hbytes := hempty sl hsl l hlane
  obtain ⟨b, c, -, -, rfl⟩ := lane_eq_some_iff.mp hlane
  refine (congrArg (· ++ x.work.stage.get sl) hbytes).trans ?_
  rw [hwork]
  cases sl <;> rfl

/-- The channels after a COMMIT. -/
theorem CommittedItems.channel (h : CommittedItems t inst y xs) (hsame : SameChans x y) {sl : Slot}
    (hsl : sl ∈ x.cfg.base.slots) {b : Binding} (hb : x.bind.get sl = some b) :
    (t.mem.get b.chan).map Channel.bytes = some ((emittedE t.params x.cfg xs).get sl) := by
  have hbound := h.inv.bound_of_open h.inst (.inr (.inr h.life))
  rw [← hsame.1] at hsl ⊢
  obtain ⟨l, hl⟩ := exists_lane hbound hsl
  have hbytes := h.bytes sl hsl l hl
  obtain ⟨b', c, hb', hc, rfl⟩ := lane_eq_some_iff.mp hl
  have hchan := hsame.2 sl (hsame.1 ▸ hsl)
  rw [hb', hb, Option.map_some, Option.map_some, Option.some.injEq] at hchan
  rw [← hchan, hc, ← hbytes]
  rfl

end

/-! ## E is the same for every STAGE_BYTES, R341 -/

section
variable {p q : Params} (h : p.dfcmBits = q.dfcmBits) (cfg : Cfg)
include h

theorem writeItems_congr (k : Work) (xs : List Item) : writeItems p cfg k xs = writeItems q cfg k xs := by
  induction xs generalizing k with
  | nil => rfl
  | cons x xs ih =>
    have hitem : writeItem p cfg k x = writeItem q cfg k x := by
      cases x <;> simp only [writeItem, h]
    simp only [writeItems, hitem, ih]

/-- Only DFCM_BITS of the parameters matters to the streams. -/
theorem emittedE_congr (xs : List Item) : emittedE p cfg xs = emittedE q cfg xs := by
  simp only [emittedE, emittedU, writeItems_congr h, commitFlush, stagesFlush, h]

end

/-- Settles O29. -/
theorem committedChannelHoldsTheStream : Obligations.CommittedChannelHoldsTheStream := by
  refine ⟨fun s s1 s2 inst x xs i hinv hx hrole hl hwork hempty hi hfits hwrite hcommit sl hsl b hb => ?_,
    fun s s1 s2 s3 s4 inst x xs ys i j hinv hx hrole hl hwork hempty hi hj hfits hwrite hflush hwrite' hcommit sl hsl b hb =>
      ?_, fun p q cfg xs h => emittedE_congr h cfg xs⟩
  · obtain ⟨x1, h1, hsame1, hp1, -⟩ := (wroteItems_nil hinv hx hrole hl hwork hempty).write hi hfits hwrite
    obtain ⟨x2, h2, hsame2, hp2⟩ := h1.commit hcommit
    rw [← hp1, ← hp2]
    exact h2.channel (hsame1.trans hsame2) hsl hb
  · have hxs : ∀ y ∈ xs, y.fits x.cfg.base = true := fun y hy => hfits y (List.mem_append_left ys hy)
    have hys : ∀ y ∈ ys, y.fits x.cfg.base = true := fun y hy => hfits y (List.mem_append_right xs hy)
    obtain ⟨x1, h1, hsame1, hp1, -⟩ := (wroteItems_nil hinv hx hrole hl hwork hempty).write hi hxs hwrite
    obtain ⟨x2, h2, hsame2, hp2⟩ := h1.flush hflush
    have hsame := hsame1.trans hsame2
    obtain ⟨x3, h3, hsame3, hp3, -⟩ := h2.write hj (hsame.1 ▸ hys) hwrite'
    obtain ⟨x4, h4, hsame4, hp4⟩ := h3.commit hcommit
    rw [← hp1, ← hp2, ← hp3, ← hp4]
    exact h4.channel ((hsame.trans hsame3).trans hsame4) hsl hb

end Sys2Proof.Machine
end

section
/-! PROOFS. The resume law (44_pipeline.md R340): RESUME over a committed stream decodes its items and leaves a writer that wrote
them. O30. -/

namespace Sys2Proof.Machine

/-! ## The decoded items are written as the items were -/

theorem writeItem_stored (p : Params) (cfg : Cfg) (k : Work) (y : Item) :
    writeItem p cfg k (y.stored cfg.base) = writeItem p cfg k y := by
  cases y with
  | num v => simp only [Item.stored, writeItem, trunc_eq_self (trunc_lt cfg.base.width v)]
  | str s => rfl

theorem writeItems_stored (p : Params) (cfg : Cfg) (k : Work) (xs : List Item) :
    writeItems p cfg k (xs.map (Item.stored cfg.base)) = writeItems p cfg k xs := by
  induction xs generalizing k with
  | nil => rfl
  | cons x xs ih => simp only [List.map_cons, writeItems, writeItem_stored, ih]

/-- Reading as many items as the step returns. -/
theorem readItems_of_reads {p : Params} {cfg : Cfg} {chs : PerSlot (List Byte)} (hcount : cfg.itemCount = none)
    {xs : List Item} {r : Reading} (h : Reads false (pullItem p cfg.base chs) xs r.work) :
    ∃ r', readItems p cfg chs xs.length r = (.done, xs, r') := by
  induction xs generalizing r with
  | nil => exact ⟨r, rfl⟩
  | cons x xs ih =>
    obtain ⟨k', hk', hrest⟩ := h
    obtain ⟨r', hr'⟩ := ih (r := { items := r.items + 1, work := k' }) hrest
    have hitem : readItem p cfg chs r = (.value x, { items := r.items + 1, work := k' }) := by
      simp only [readItem, hcount, hk', reduceCtorEq, if_false]
    exact ⟨r', by rw [List.length_cons, readItems_succ_value hitem, hr']⟩

/-! ## U and E -/

theorem emittedE_lens_of_ne_vard (p : Params) {cfg : Cfg} (h : cfg.base ≠ .vard) (xs : List Item) :
    (emittedE p cfg xs).lens = [] := by
  have hbase (k : Work) : (baseFlush cfg.base k).2.lens = [] := by
    cases hb : cfg.base with
    | vard => exact absurd hb h
    | _ => rfl
  have hflush (k : Work) : (commitFlush p cfg k).2.lens = [] := by
    have hstages : (stagesFlush p cfg k).2.lens = [] := by
      unfold stagesFlush
      split_ifs <;> rfl
    simp [commitFlush, Emitted.append, hstages, hbase]
  simp [emittedE, Emitted.append, hflush, emittedU, writeItems_lens_of_ne_vard p h]

theorem emittedU_length_le (p : Params) (cfg : Cfg) (xs : List Item) (sl : Slot) :
    ((emittedU p cfg xs).get sl).length ≤ ((emittedE p cfg xs).get sl).length := by
  rw [emittedE, Emitted.get_append, List.length_append]
  exact Nat.le_add_right _ _

theorem emittedU_stored (p : Params) (cfg : Cfg) (xs : List Item) :
    emittedU p cfg (xs.map (Item.stored cfg.base)) = emittedU p cfg xs := by
  rw [emittedU, writeItems_stored, emittedU]

/-! ## RESUME over what the writer committed -/

/-- The second channel operand of a RESUME on the channels an instance is bound to. -/
def Instance.lensOperand (x : Instance) : Option U64 :=
  if x.cfg.base.channelCount = 2 then x.bind.lens.map Binding.chan else none

theorem SameChans.lensOperand {x y : Instance} (h : SameChans x y) : y.lensOperand = x.lensOperand := by
  rw [Instance.lensOperand, Instance.lensOperand, h.1]
  split_ifs with htwo
  · exact h.2 .lens (mem_slots_iff.mpr (.inr ⟨rfl, htwo⟩))
  · rfl

section
variable {s t : State} {inst : U16} {x : Instance} {xs : List Item} {b0 : Binding}

/-- The channels of a committed writer hold E, within CHANNEL_MAX. -/
theorem CommittedItems.get (h : CommittedItems s inst x xs) {sl : Slot} (hsl : sl ∈ x.cfg.base.slots) :
    ∃ b c, x.bind.get sl = some b ∧ s.mem.get b.chan = some c ∧ c.bytes = (emittedE s.params x.cfg xs).get sl ∧
      c.bytes.length ≤ s.params.channelMax := by
  obtain ⟨l, hl⟩ := exists_lane (h.inv.bound_of_open h.inst (.inr (.inr h.life))) hsl
  have hbytes := h.bytes sl hsl l hl
  obtain ⟨b, c, hb, hc, rfl⟩ := lane_eq_some_iff.mp hl
  exact ⟨b, c, hb, hc, hbytes, h.inv.lens _ c hc⟩

theorem lensOperand_eq_some (htwo : x.cfg.base.channelCount = 2) {b1 : Binding}
    (hb1 : x.bind.get .lens = some b1) : x.lensOperand = some b1.chan := by
  rw [Instance.lensOperand, if_pos htwo, show x.bind.lens = some b1 from hb1, Option.map_some]

theorem CommittedItems.channelOperands (h : CommittedItems s inst x xs) (hb0 : x.bind.data = some b0) :
    ChannelOperands s x b0.chan x.lensOperand := by
  have hd := distinctBinds_of_bindingOk (bindingOk_of_open h.inv h.inst (.inr (.inr h.life)))
  have hdata : (s.mem.get b0.chan).isSome = true := by
    obtain ⟨b, c, hb, hc, -⟩ := h.get (data_mem_slots _)
    cases hb0.symm.trans hb
    rw [hc]
    rfl
  by_cases htwo : x.cfg.base.channelCount = 2
  · obtain ⟨b1, c, hb1, hc, -⟩ := h.get (mem_slots_iff.mpr (.inr ⟨rfl, htwo⟩))
    rw [lensOperand_eq_some htwo hb1]
    refine ⟨iff_of_true rfl htwo, hdata, ?_⟩
    rintro c1 ⟨⟩
    exact ⟨by rw [hc]; rfl, hd .lens .data b1 b0 (by decide) hb1 hb0⟩
  · have hlens : x.lensOperand = none := if_neg htwo
    rw [hlens]
    exact ⟨iff_of_false Bool.false_ne_true htwo, hdata, nofun⟩

theorem CommittedItems.contents (h : CommittedItems s inst x xs) (hb0 : x.bind.data = some b0) :
    contents s b0.chan x.lensOperand = emittedE s.params x.cfg xs := by
  obtain ⟨b, c, hb, hc, hbytes, -⟩ := h.get (data_mem_slots _)
  cases hb0.symm.trans hb
  have hlens : ((x.lensOperand.bind s.mem.get).map Channel.bytes).getD [] = (emittedE s.params x.cfg xs).lens := by
    by_cases htwo : x.cfg.base.channelCount = 2
    · obtain ⟨b1, c1, hb1, hc1, hbytes1, -⟩ := h.get (mem_slots_iff.mpr (.inr ⟨rfl, htwo⟩))
      rw [lensOperand_eq_some htwo hb1, Option.bind_some, hc1]
      exact hbytes1
    · have hne : x.cfg.base ≠ .vard := by
        intro hv
        exact htwo (by rw [hv]; rfl)
      rw [Instance.lensOperand, if_neg htwo, emittedE_lens_of_ne_vard _ hne]
      rfl
  rw [Machine.contents, hlens, hc]
  exact congrArg (fun d => ({ data := d, lens := _ } : PerSlot (List Byte))) hbytes

/-- The lengths of the streams are those of channels. -/
theorem CommittedItems.length_le (h : CommittedItems s inst x xs) (sl : Slot) :
    ((emittedE s.params x.cfg xs).get sl).length ≤ s.params.channelMax := by
  by_cases hsl : sl ∈ x.cfg.base.slots
  · obtain ⟨_, c, -, -, hbytes, hle⟩ := h.get hsl
    exact hbytes ▸ hle
  · cases sl with
    | data => exact absurd (data_mem_slots _) hsl
    | lens =>
      have hne : x.cfg.base ≠ .vard := by
        intro hv
        exact hsl (by rw [hv]; decide)
      rw [show (emittedE s.params x.cfg xs).get .lens = [] from emittedE_lens_of_ne_vard _ hne xs]
      exact Nat.zero_le _

/-- Decoding what a writer committed gives its items, as they are stored. -/
theorem CommittedItems.decode (h : CommittedItems s inst x xs) (hmax : s.params.channelMax < 2 ^ 61)
    (hfits : ∀ y ∈ xs, y.fits x.cfg.base = true) (hb0 : x.bind.data = some b0) :
    ∃ r, readItems s.params { x.cfg with itemCount := none } (Machine.contents s b0.chan x.lensOperand) xs.length
      { items := 0, work := Work.reset x.cfg } = (.done, xs.map (Item.stored x.cfg.base), r) := by
  have hdata : (emittedE s.params x.cfg xs).data.length ≤ s.params.channelMax := h.length_le .data
  have hlens : (emittedE s.params x.cfg xs).lens.length ≤ s.params.channelMax := h.length_le .lens
  have hreads := reads_emittedE s.params hfits (by omega) (by omega) (toEnd := false) nofun
  rw [h.contents hb0, ← List.length_map (Item.stored x.cfg.base)]
  exact readItems_of_reads (cfg := { x.cfg with itemCount := none }) rfl hreads

/-- A RESUME on the channels a writer committed leaves a writer of the same items on the same channels. -/
theorem CommittedItems.resume (h : CommittedItems s inst x xs) (hmax : s.params.channelMax < 2 ^ 61)
    (hfits : ∀ y ∈ xs, y.fits x.cfg.base = true) (hlen : xs.length < 2 ^ 64)
    (hcount : ∀ c, x.cfg.itemCount = some c → xs.length ≤ c.toNat) (hb0 : x.bind.data = some b0)
    (ht : exec (.resume inst b0.chan x.lensOperand (BitVec.ofNat 64 xs.length)) s = .next t) :
    ∃ z, WroteItems t inst z xs ∧ SameChans x z ∧ t.params = s.params := by
  have hdata : (emittedE s.params x.cfg xs).data.length ≤ s.params.channelMax := h.length_le .data
  have hlens : (emittedE s.params x.cfg xs).lens.length ≤ s.params.channelMax := h.length_le .lens
  have hops := h.channelOperands hb0
  obtain ⟨r, hread⟩ := h.decode hmax hfits hb0
  have hrows : (BitVec.ofNat 64 xs.length).toNat = xs.length := by
    rw [BitVec.toNat_ofNat, Nat.mod_eq_of_lt hlen]
  rw [← hrows] at hread
  have hU := emittedU_stored s.params x.cfg xs
  obtain ⟨t', z, ht', hun, -, hz, hcfg, -, hlife, -, hwork, hstage0, hstage1, hcontent0, hcontent1, hbind0, hbind1⟩ :=
    resumeRebuildsTheWriter s inst x b0.chan x.lensOperand _ _ r ((inv_iff s).mpr h.inv) h.inst h.role (.inr h.life) hops
      (by rwa [hrows]) hread
      (by rw [hU]; exact (emittedU_length_le s.params x.cfg xs .data).trans hdata)
      (by rw [hU]; exact (emittedU_length_le s.params x.cfg xs .lens).trans hlens)
  cases ht.symm.trans ht'
  have hparams : t.params = s.params := hun.1
  rw [hU] at hcontent0 hcontent1
  rw [writeItems_stored] at hwork
  have hslot : ∀ sl ∈ x.cfg.base.slots, ∃ b b' c, x.bind.get sl = some b ∧ z.bind.get sl = some b' ∧ b'.chan = b.chan ∧
      t.mem.get b'.chan = some c ∧ c.bytes = (emittedU s.params x.cfg xs).get sl := by
    intro sl hsl
    obtain rfl | ⟨rfl, htwo⟩ := mem_slots_iff.mp hsl
    · obtain ⟨_, -, hget⟩ := hcontent0
      exact ⟨b0, _, _, hb0, hbind0, rfl, hget, rfl⟩
    · obtain ⟨b1, -, hb1, -⟩ := h.get hsl
      have hlens := lensOperand_eq_some htwo hb1
      obtain ⟨_, -, hget⟩ := hcontent1 _ hlens
      rw [hlens] at hbind1
      exact ⟨b1, _, _, hb1, hbind1, rfl, hget, rfl⟩
  refine ⟨z, ⟨h.inv.exec rfl ht, hz, hcfg ▸ h.role, .inr hlife, ?_, fun sl hsl l hl => ?_⟩, ⟨hcfg, fun sl hsl => ?_⟩, hparams⟩
  · rw [hcfg, hparams, ← hwork]
    rfl
  · obtain ⟨b, b', c, -, hb', -, hc, hbytes⟩ := hslot sl (hcfg ▸ hsl)
    obtain ⟨b'', c', hb'', hc', rfl⟩ := lane_eq_some_iff.mp hl
    cases hb'.symm.trans hb''
    cases hc.symm.trans hc'
    have hstage : z.work.stage.get sl = [] := by
      cases sl
      · exact hstage0
      · exact hstage1
    rw [Lane.all, hcfg, hparams, ← hbytes]
    exact (congrArg (c.bytes ++ ·) hstage).trans (List.append_nil _)
  · obtain ⟨b, b', c, hb, hb', hchan, -⟩ := hslot sl hsl
    rw [hb, hb', Option.map_some, Option.map_some, hchan]

end

/-- Settles O30: WRITE and COMMIT leave E of the items, RESUME the writer of them (`CommittedItems.resume`), which goes on. -/
theorem resumeContinuesTheStream : Obligations.ResumeContinuesTheStream := by
  intro s s1 s2 s3 s4 s5 inst x b0 xs ys i j hinv hmax hx hrole hl hwork hempty hb0 hi hj hfits hlen hwrite hcommit hresume
    hwrite' hcommit' sl hsl b hb
  have hxs : ∀ y ∈ xs, y.fits x.cfg.base = true := fun y hy => hfits y (List.mem_append_left ys hy)
  have hys : ∀ y ∈ ys, y.fits x.cfg.base = true := fun y hy => hfits y (List.mem_append_right xs hy)
  obtain ⟨x1, h1, hsame1, hp1, hroom⟩ := (wroteItems_nil hinv hx hrole hl hwork hempty).write hi hxs hwrite
  obtain ⟨x2, h2, hsame2, hp2⟩ := h1.commit hcommit
  have hsame12 := hsame1.trans hsame2
  obtain ⟨b0', hb0', hchan0⟩ : ∃ b0', x2.bind.data = some b0' ∧ b0'.chan = b0.chan := by
    have hdata : x2.bind.data.map Binding.chan = x.bind.data.map Binding.chan := hsame12.2 .data (data_mem_slots _)
    rwa [hb0, Option.map_some, Option.map_eq_some_iff] at hdata
  change RunsOk (.resume inst b0.chan x.lensOperand _) s2 s3 at hresume
  rw [← hsame12.lensOperand, ← hchan0] at hresume
  obtain ⟨x3, h3, hsame3, hp3⟩ := h2.resume (by rwa [hp2, hp1]) (hsame12.1 ▸ hxs) hlen
    (fun c hc => (Nat.le_add_left _ _).trans (hroom c (hsame12.1 ▸ hc))) hb0' hresume.1
  have hsame := hsame12.trans hsame3
  obtain ⟨x4, h4, hsame4, hp4, -⟩ := h3.write hj (hsame.1 ▸ hys) hwrite'
  obtain ⟨x5, h5, hsame5, hp5⟩ := h4.commit hcommit'
  rw [← hp1, ← hp2, ← hp3, ← hp4, ← hp5]
  exact h5.channel ((hsame.trans hsame4).trans hsame5) hsl hb

end Sys2Proof.Machine
end
